-- ==== Sys2Proof/Word.lean ====
section
/-! DEFINITION. The word types of the machine (spec/00_scope.md R7, R9): nothing here but names for the widths the
spec fixes. Everything a repair could have to mend stands under Sys2Proof/Machine/ or in Decode.lean. -/

namespace Sys2Proof

/-- A register or a memory word: 32 bits (R7). Bit 0 is the least significant (R9). -/
abbrev Word := BitVec 32

/-- The smallest addressable unit (R61). -/
abbrev Byte := BitVec 8

/-- A byte address on the 26-bit address bus (R7, R60). -/
abbrev Addr := BitVec 26

/-- A register number as an instruction names it, 0 to 15 (R20). -/
abbrev Reg := BitVec 4

end Sys2Proof
end

