-- ==== Sys2Proof/Syntax.lean ====
section
/-! DEFINITION. The instructions: one constructor per row of spec/opcode_table.json (spec/30_encoding.md R103 to R122).
The fields are those of the formats, register numbers and immediates at their widths; shift amounts are as the
assembler writes them (R165 to R169), so that the special meanings of an amount field of 0 are decoded once. -/

namespace Sys2Proof

/-- The sixteen conditions (spec/40_condition_field.md R132 to R148). -/
inductive Cond where
  | eq | ne | cs | cc | mi | pl | vs | vc | hi | ls | ge | lt | gt | le | al | nv
deriving DecidableEq, Repr

/-- The four shift types (R106). -/
inductive ShiftType where
  | lsl | lsr | asr | ror
deriving DecidableEq, Repr

/-- An instruction-specified shift (R165 to R169): LSL 0 to 31, LSR and ASR 1 to 32, ROR 1 to 31, or RRX. -/
inductive ImmShift where
  | lsl (n : Nat)
  | lsr (n : Nat)
  | asr (n : Nat)
  | ror (n : Nat)
  | rrx
deriving DecidableEq, Repr

/-- A rotated immediate operand (R107): `imm8` rotated right by twice `rot`. -/
structure RotImm where
  rot : BitVec 4
  imm8 : BitVec 8
deriving DecidableEq, Repr

/-- A register shifted by an amount in the instruction (R106, bit 4 = 0). -/
structure ShiftedReg where
  rm : Reg
  shift : ImmShift
deriving DecidableEq, Repr

/-- A register shifted by an amount in a register (R106, bit 4 = 1). -/
structure RegShifted where
  rm : Reg
  type : ShiftType
  rs : Reg
deriving DecidableEq, Repr

/-- The instructions. `c` is the condition; a Bool is the one-bit field of the same letter. Fields the processor
ignores (X2, X3 of spec/93_implementation_defined.md) are kept, so that no bit of a word is lost. -/
inductive Instr where
  /-- AND (R180), its three operand forms. -/
  | andImm (c : Cond) (s : Bool) (rn rd : Reg) (o : RotImm)
  | andShift (c : Cond) (s : Bool) (rn rd : Reg) (o : ShiftedReg)
  | andRegShift (c : Cond) (s : Bool) (rn rd : Reg) (o : RegShifted)
  /-- EOR (R181), its three operand forms. -/
  | eorImm (c : Cond) (s : Bool) (rn rd : Reg) (o : RotImm)
  | eorShift (c : Cond) (s : Bool) (rn rd : Reg) (o : ShiftedReg)
  | eorRegShift (c : Cond) (s : Bool) (rn rd : Reg) (o : RegShifted)
  /-- SUB (R182), its three operand forms. -/
  | subImm (c : Cond) (s : Bool) (rn rd : Reg) (o : RotImm)
  | subShift (c : Cond) (s : Bool) (rn rd : Reg) (o : ShiftedReg)
  | subRegShift (c : Cond) (s : Bool) (rn rd : Reg) (o : RegShifted)
  /-- RSB (R183), its three operand forms. -/
  | rsbImm (c : Cond) (s : Bool) (rn rd : Reg) (o : RotImm)
  | rsbShift (c : Cond) (s : Bool) (rn rd : Reg) (o : ShiftedReg)
  | rsbRegShift (c : Cond) (s : Bool) (rn rd : Reg) (o : RegShifted)
  /-- ADD (R184), its three operand forms. -/
  | addImm (c : Cond) (s : Bool) (rn rd : Reg) (o : RotImm)
  | addShift (c : Cond) (s : Bool) (rn rd : Reg) (o : ShiftedReg)
  | addRegShift (c : Cond) (s : Bool) (rn rd : Reg) (o : RegShifted)
  /-- ADC (R185), its three operand forms. -/
  | adcImm (c : Cond) (s : Bool) (rn rd : Reg) (o : RotImm)
  | adcShift (c : Cond) (s : Bool) (rn rd : Reg) (o : ShiftedReg)
  | adcRegShift (c : Cond) (s : Bool) (rn rd : Reg) (o : RegShifted)
  /-- SBC (R186), its three operand forms. -/
  | sbcImm (c : Cond) (s : Bool) (rn rd : Reg) (o : RotImm)
  | sbcShift (c : Cond) (s : Bool) (rn rd : Reg) (o : ShiftedReg)
  | sbcRegShift (c : Cond) (s : Bool) (rn rd : Reg) (o : RegShifted)
  /-- RSC (R187), its three operand forms. -/
  | rscImm (c : Cond) (s : Bool) (rn rd : Reg) (o : RotImm)
  | rscShift (c : Cond) (s : Bool) (rn rd : Reg) (o : ShiftedReg)
  | rscRegShift (c : Cond) (s : Bool) (rn rd : Reg) (o : RegShifted)
  /-- TST, S = 1; Rd = 15 is TSTP (R179, R188). -/
  | tstImm (c : Cond) (rn rd : Reg) (o : RotImm)
  | tstShift (c : Cond) (rn rd : Reg) (o : ShiftedReg)
  | tstRegShift (c : Cond) (rn rd : Reg) (o : RegShifted)
  /-- TST with S = 0: UNALLOCATED (R118 (d)). -/
  | tstImmS0 (c : Cond) (rn rd : Reg) (o : RotImm)
  | tstShiftS0 (c : Cond) (rn rd : Reg) (o : ShiftedReg)
  | tstRegShiftS0 (c : Cond) (rn rd : Reg) (o : RegShifted)
  /-- TEQ, S = 1; Rd = 15 is TEQP (R179, R189). -/
  | teqImm (c : Cond) (rn rd : Reg) (o : RotImm)
  | teqShift (c : Cond) (rn rd : Reg) (o : ShiftedReg)
  | teqRegShift (c : Cond) (rn rd : Reg) (o : RegShifted)
  /-- TEQ with S = 0: UNALLOCATED (R118 (d)). -/
  | teqImmS0 (c : Cond) (rn rd : Reg) (o : RotImm)
  | teqShiftS0 (c : Cond) (rn rd : Reg) (o : ShiftedReg)
  | teqRegShiftS0 (c : Cond) (rn rd : Reg) (o : RegShifted)
  /-- CMP, S = 1; Rd = 15 is CMPP (R179, R190). -/
  | cmpImm (c : Cond) (rn rd : Reg) (o : RotImm)
  | cmpShift (c : Cond) (rn rd : Reg) (o : ShiftedReg)
  | cmpRegShift (c : Cond) (rn rd : Reg) (o : RegShifted)
  /-- CMP with S = 0: UNALLOCATED (R118 (d)). -/
  | cmpImmS0 (c : Cond) (rn rd : Reg) (o : RotImm)
  | cmpShiftS0 (c : Cond) (rn rd : Reg) (o : ShiftedReg)
  | cmpRegShiftS0 (c : Cond) (rn rd : Reg) (o : RegShifted)
  /-- CMN, S = 1; Rd = 15 is CMNP (R179, R191). -/
  | cmnImm (c : Cond) (rn rd : Reg) (o : RotImm)
  | cmnShift (c : Cond) (rn rd : Reg) (o : ShiftedReg)
  | cmnRegShift (c : Cond) (rn rd : Reg) (o : RegShifted)
  /-- CMN with S = 0: UNALLOCATED (R118 (d)). -/
  | cmnImmS0 (c : Cond) (rn rd : Reg) (o : RotImm)
  | cmnShiftS0 (c : Cond) (rn rd : Reg) (o : ShiftedReg)
  | cmnRegShiftS0 (c : Cond) (rn rd : Reg) (o : RegShifted)
  /-- ORR (R192), its three operand forms. -/
  | orrImm (c : Cond) (s : Bool) (rn rd : Reg) (o : RotImm)
  | orrShift (c : Cond) (s : Bool) (rn rd : Reg) (o : ShiftedReg)
  | orrRegShift (c : Cond) (s : Bool) (rn rd : Reg) (o : RegShifted)
  /-- MOV (R193), its three operand forms. -/
  | movImm (c : Cond) (s : Bool) (rn rd : Reg) (o : RotImm)
  | movShift (c : Cond) (s : Bool) (rn rd : Reg) (o : ShiftedReg)
  | movRegShift (c : Cond) (s : Bool) (rn rd : Reg) (o : RegShifted)
  /-- BIC (R194), its three operand forms. -/
  | bicImm (c : Cond) (s : Bool) (rn rd : Reg) (o : RotImm)
  | bicShift (c : Cond) (s : Bool) (rn rd : Reg) (o : ShiftedReg)
  | bicRegShift (c : Cond) (s : Bool) (rn rd : Reg) (o : RegShifted)
  /-- MVN (R195), its three operand forms. -/
  | mvnImm (c : Cond) (s : Bool) (rn rd : Reg) (o : RotImm)
  | mvnShift (c : Cond) (s : Bool) (rn rd : Reg) (o : ShiftedReg)
  | mvnRegShift (c : Cond) (s : Bool) (rn rd : Reg) (o : RegShifted)
  /-- MUL (R221) and MLA (R222); the Rn field of MUL is ignored. -/
  | mul (c : Cond) (s : Bool) (rd rn rs rm : Reg)
  | mla (c : Cond) (s : Bool) (rd rn rs rm : Reg)
  /-- UNALLOCATED, w[6:5] = 01, 10, 11 (R118 (c)); `x` is w[23:8], `y` is w[3:0]. -/
  | unallocB (c : Cond) (x : BitVec 16) (y : BitVec 4)
  | unallocD (c : Cond) (x : BitVec 16) (y : BitVec 4)
  | unallocF (c : Cond) (x : BitVec 16) (y : BitVec 4)
  /-- UNALLOCATED, w[7:4] = 1001 and w[23:22] = 01, 10, 11 (R118 (c)); `x` is w[21:8], `y` is w[3:0]. -/
  | unalloc4 (c : Cond) (x : BitVec 14) (y : BitVec 4)
  | unalloc8 (c : Cond) (x : BitVec 14) (y : BitVec 4)
  | unallocC (c : Cond) (x : BitVec 14) (y : BitVec 4)
  /-- LDR (R233), STR (R234), LDRB (R235), STRB (R236), immediate and register offset; P = 0 with W = 1 is the T form. -/
  | ldrImm (c : Cond) (p u w : Bool) (rn rd : Reg) (off : BitVec 12)
  | ldrReg (c : Cond) (p u w : Bool) (rn rd : Reg) (o : ShiftedReg)
  | strImm (c : Cond) (p u w : Bool) (rn rd : Reg) (off : BitVec 12)
  | strReg (c : Cond) (p u w : Bool) (rn rd : Reg) (o : ShiftedReg)
  | ldrbImm (c : Cond) (p u w : Bool) (rn rd : Reg) (off : BitVec 12)
  | ldrbReg (c : Cond) (p u w : Bool) (rn rd : Reg) (o : ShiftedReg)
  | strbImm (c : Cond) (p u w : Bool) (rn rd : Reg) (off : BitVec 12)
  | strbReg (c : Cond) (p u w : Bool) (rn rd : Reg) (o : ShiftedReg)
  /-- UNDEFINED, pattern (a) of R320; `x` is w[24:5], `y` is w[3:0]. -/
  | undefinedA (c : Cond) (x : BitVec 20) (y : BitVec 4)
  /-- UNDEFINED, pattern (b) of R320; `x` is w[23:8], `y` is w[6:5], `z` is w[3:0]. -/
  | undefinedB (c : Cond) (x : BitVec 16) (y : BitVec 2) (z : BitVec 4)
  /-- LDM (R270) and STM (R271); bit i of `list` is set when register i is transferred. -/
  | ldm (c : Cond) (p u s w : Bool) (rn : Reg) (list : BitVec 16)
  | stm (c : Cond) (p u s w : Bool) (rn : Reg) (list : BitVec 16)
  /-- B (R150) and BL (R152). -/
  | b (c : Cond) (off : BitVec 24)
  | bl (c : Cond) (off : BitVec 24)
  /-- LDC (R305) and STC (R306). -/
  | ldc (c : Cond) (p u n w : Bool) (rn crd cp : Reg) (off : BitVec 8)
  | stc (c : Cond) (p u n w : Bool) (rn crd cp : Reg) (off : BitVec 8)
  /-- CDP (R303). -/
  | cdp (c : Cond) (opc : BitVec 4) (crn crd cp : Reg) (info : BitVec 3) (crm : Reg)
  /-- MRC (R312) and MCR (R314). -/
  | mrc (c : Cond) (opc : BitVec 3) (crn rd cp : Reg) (info : BitVec 3) (crm : Reg)
  | mcr (c : Cond) (opc : BitVec 3) (crn rd cp : Reg) (info : BitVec 3) (crm : Reg)
  /-- SWI (R290); the comment field is ignored by the processor (R291). -/
  | swi (c : Cond) (comment : BitVec 24)
deriving DecidableEq, Repr

end Sys2Proof
end

