-- ==== Sys2Proof/WellFormed.lean ====
section
/-! DEFINITION. Which instruction terms stand for a word (spec/42_data_processing.md R165 to R169): every field but a shift
amount has exactly its encoding's values, so a term is ill-formed only by a shift amount no encoding has. -/

namespace Sys2Proof

/-- The shift amounts that have an encoding (R165 to R168): LSL 0 to 31, LSR and ASR 1 to 32, ROR 1 to 31. -/
def ImmShift.wf : ImmShift → Bool
  | .lsl n => decide (n ≤ 31)
  | .lsr n => decide (1 ≤ n) && decide (n ≤ 32)
  | .asr n => decide (1 ≤ n) && decide (n ≤ 32)
  | .ror n => decide (1 ≤ n) && decide (n ≤ 31)
  | .rrx => true

/-- The instruction stands for a word. -/
def Instr.wellFormed (i : Instr) : Bool :=
  match i with
  | .andShift _ _ _ _ o => o.shift.wf
  | .eorShift _ _ _ _ o => o.shift.wf
  | .subShift _ _ _ _ o => o.shift.wf
  | .rsbShift _ _ _ _ o => o.shift.wf
  | .addShift _ _ _ _ o => o.shift.wf
  | .adcShift _ _ _ _ o => o.shift.wf
  | .sbcShift _ _ _ _ o => o.shift.wf
  | .rscShift _ _ _ _ o => o.shift.wf
  | .tstShift _ _ _ o => o.shift.wf
  | .tstShiftS0 _ _ _ o => o.shift.wf
  | .teqShift _ _ _ o => o.shift.wf
  | .teqShiftS0 _ _ _ o => o.shift.wf
  | .cmpShift _ _ _ o => o.shift.wf
  | .cmpShiftS0 _ _ _ o => o.shift.wf
  | .cmnShift _ _ _ o => o.shift.wf
  | .cmnShiftS0 _ _ _ o => o.shift.wf
  | .orrShift _ _ _ _ o => o.shift.wf
  | .movShift _ _ _ _ o => o.shift.wf
  | .bicShift _ _ _ _ o => o.shift.wf
  | .mvnShift _ _ _ _ o => o.shift.wf
  | .ldrReg _ _ _ _ _ _ o => o.shift.wf
  | .strReg _ _ _ _ _ _ o => o.shift.wf
  | .ldrbReg _ _ _ _ _ _ o => o.shift.wf
  | .strbReg _ _ _ _ _ _ o => o.shift.wf
  | .andImm .. | .andRegShift .. | .eorImm .. | .eorRegShift ..
  | .subImm .. | .subRegShift .. | .rsbImm .. | .rsbRegShift ..
  | .addImm .. | .addRegShift .. | .adcImm .. | .adcRegShift ..
  | .sbcImm .. | .sbcRegShift .. | .rscImm .. | .rscRegShift ..
  | .tstImm .. | .tstImmS0 .. | .tstRegShift .. | .tstRegShiftS0 ..
  | .teqImm .. | .teqImmS0 .. | .teqRegShift .. | .teqRegShiftS0 ..
  | .cmpImm .. | .cmpImmS0 .. | .cmpRegShift .. | .cmpRegShiftS0 ..
  | .cmnImm .. | .cmnImmS0 .. | .cmnRegShift .. | .cmnRegShiftS0 ..
  | .orrImm .. | .orrRegShift .. | .movImm .. | .movRegShift ..
  | .bicImm .. | .bicRegShift .. | .mvnImm .. | .mvnRegShift ..
  | .mul .. | .mla .. | .unallocB .. | .unallocD ..
  | .unallocF .. | .unalloc4 .. | .unalloc8 .. | .unallocC ..
  | .ldrImm .. | .strImm .. | .ldrbImm .. | .strbImm ..
  | .undefinedA .. | .undefinedB .. | .ldm .. | .stm ..
  | .b .. | .bl .. | .ldc .. | .stc ..
  | .cdp .. | .mrc .. | .mcr .. | .swi .. => true

end Sys2Proof
end

