-- ==== Sys2Proof/Decode.lean ====
section
/-! DEFINITION. The decoder, total on any bytes, and the encoder, both from spec/30_encoding.md (R100 to R118). -/

namespace Sys2Proof

/-! ## Fields -/

/-- The condition code (R132 to R148). -/
def Cond.code : Cond → BitVec 4
  | .eq => 0b0000#4 | .ne => 0b0001#4 | .cs => 0b0010#4 | .cc => 0b0011#4
  | .mi => 0b0100#4 | .pl => 0b0101#4 | .vs => 0b0110#4 | .vc => 0b0111#4
  | .hi => 0b1000#4 | .ls => 0b1001#4 | .ge => 0b1010#4 | .lt => 0b1011#4
  | .gt => 0b1100#4 | .le => 0b1101#4 | .al => 0b1110#4 | .nv => 0b1111#4

/-- The condition of a code. -/
def Cond.ofCode (k : BitVec 4) : Cond :=
  match k with
  | 0b0000#4 => .eq | 0b0001#4 => .ne | 0b0010#4 => .cs | 0b0011#4 => .cc
  | 0b0100#4 => .mi | 0b0101#4 => .pl | 0b0110#4 => .vs | 0b0111#4 => .vc
  | 0b1000#4 => .hi | 0b1001#4 => .ls | 0b1010#4 => .ge | 0b1011#4 => .lt
  | 0b1100#4 => .gt | 0b1101#4 => .le | 0b1110#4 => .al | _ => .nv

/-- The shift type code, w[6:5] (R106). -/
def ShiftType.code : ShiftType → BitVec 2
  | .lsl => 0b00#2 | .lsr => 0b01#2 | .asr => 0b10#2 | .ror => 0b11#2

/-- The shift type of a code. -/
def ShiftType.ofCode (t : BitVec 2) : ShiftType :=
  match t with
  | 0b00#2 => .lsl | 0b01#2 => .lsr | 0b10#2 => .asr | _ => .ror

/-- The amount field w[11:7] of an instruction-specified shift: 32 is encoded as 0, and so is RRX (R166 to R169). -/
def ImmShift.amount : ImmShift → BitVec 5
  | .lsl n => BitVec.ofNat 5 n
  | .lsr n => BitVec.ofNat 5 n
  | .asr n => BitVec.ofNat 5 n
  | .ror n => BitVec.ofNat 5 n
  | .rrx => 0#5

/-- The type field w[6:5] of an instruction-specified shift. -/
def ImmShift.type : ImmShift → ShiftType
  | .lsl _ => .lsl
  | .lsr _ => .lsr
  | .asr _ => .asr
  | .ror _ => .ror
  | .rrx => .ror

/-- The shift of an amount field and a type (R165 to R169). -/
def ImmShift.ofFields (amount : BitVec 5) (t : ShiftType) : ImmShift :=
  match t with
  | .lsl => .lsl amount.toNat
  | .lsr => .lsr (if amount = 0#5 then 32 else amount.toNat)
  | .asr => .asr (if amount = 0#5 then 32 else amount.toNat)
  | .ror => if amount = 0#5 then .rrx else .ror amount.toNat

/-! ## The formats: the word of each, its fields from bit 31 down -/

/-- R104 with R107. -/
def dpImmWord (c : Cond) (op : BitVec 4) (s : Bool) (rn rd : Reg) (o : RotImm) : Word :=
  c.code ++ 0b001#3 ++ op ++ BitVec.ofBool s ++ rn ++ rd ++ o.rot ++ o.imm8

/-- R104 with R106, bit 4 = 0. -/
def dpShiftWord (c : Cond) (op : BitVec 4) (s : Bool) (rn rd : Reg) (o : ShiftedReg) : Word :=
  c.code ++ 0b000#3 ++ op ++ BitVec.ofBool s ++ rn ++ rd ++ o.shift.amount ++ o.shift.type.code ++ 0b0#1 ++ o.rm

/-- R104 with R106, bit 4 = 1. -/
def dpRegShiftWord (c : Cond) (op : BitVec 4) (s : Bool) (rn rd : Reg) (o : RegShifted) : Word :=
  c.code ++ 0b000#3 ++ op ++ BitVec.ofBool s ++ rn ++ rd ++ o.rs ++ 0b0#1 ++ o.type.code ++ 0b1#1 ++ o.rm

/-- R108. -/
def mulWord (c : Cond) (a s : Bool) (rd rn rs rm : Reg) : Word :=
  c.code ++ 0b000000#6 ++ BitVec.ofBool a ++ BitVec.ofBool s ++ rd ++ rn ++ rs ++ 0b1001#4 ++ rm

/-- R118 (c), w[6:5] not 00: `t` is w[7:4]. -/
def unallocWord65 (c : Cond) (x : BitVec 16) (t : BitVec 4) (y : BitVec 4) : Word :=
  c.code ++ 0b0000#4 ++ x ++ t ++ y

/-- R118 (c), w[23:22] not 00: `t` is w[23:22]. -/
def unallocWord2322 (c : Cond) (t : BitVec 2) (x : BitVec 14) (y : BitVec 4) : Word :=
  c.code ++ 0b0000#4 ++ t ++ x ++ 0b1001#4 ++ y

/-- R109, I = 0. -/
def sdtImmWord (c : Cond) (p u b w l : Bool) (rn rd : Reg) (off : BitVec 12) : Word :=
  c.code ++ 0b010#3 ++ BitVec.ofBool p ++ BitVec.ofBool u ++ BitVec.ofBool b ++ BitVec.ofBool w ++ BitVec.ofBool l ++ rn ++
    rd ++ off

/-- R109, I = 1. -/
def sdtRegWord (c : Cond) (p u b w l : Bool) (rn rd : Reg) (o : ShiftedReg) : Word :=
  c.code ++ 0b011#3 ++ BitVec.ofBool p ++ BitVec.ofBool u ++ BitVec.ofBool b ++ BitVec.ofBool w ++ BitVec.ofBool l ++ rn ++
    rd ++ o.shift.amount ++ o.shift.type.code ++ 0b0#1 ++ o.rm

/-- R115, first pattern. -/
def undefinedAWord (c : Cond) (x : BitVec 20) (y : BitVec 4) : Word :=
  c.code ++ 0b011#3 ++ x ++ 0b1#1 ++ y

/-- R115, second pattern. -/
def undefinedBWord (c : Cond) (x : BitVec 16) (y : BitVec 2) (z : BitVec 4) : Word :=
  c.code ++ 0b0001#4 ++ x ++ 0b1#1 ++ y ++ 0b1#1 ++ z

/-- R110. -/
def bdtWord (c : Cond) (p u s w l : Bool) (rn : Reg) (list : BitVec 16) : Word :=
  c.code ++ 0b100#3 ++ BitVec.ofBool p ++ BitVec.ofBool u ++ BitVec.ofBool s ++ BitVec.ofBool w ++ BitVec.ofBool l ++ rn ++
    list

/-- R103. -/
def branchWord (c : Cond) (l : Bool) (off : BitVec 24) : Word :=
  c.code ++ 0b101#3 ++ BitVec.ofBool l ++ off

/-- R113. -/
def cdtWord (c : Cond) (p u n w l : Bool) (rn crd cp : Reg) (off : BitVec 8) : Word :=
  c.code ++ 0b110#3 ++ BitVec.ofBool p ++ BitVec.ofBool u ++ BitVec.ofBool n ++ BitVec.ofBool w ++ BitVec.ofBool l ++ rn ++
    crd ++ cp ++ off

/-- R112. -/
def cdpWord (c : Cond) (opc : BitVec 4) (crn crd cp : Reg) (info : BitVec 3) (crm : Reg) : Word :=
  c.code ++ 0b1110#4 ++ opc ++ crn ++ crd ++ cp ++ info ++ 0b0#1 ++ crm

/-- R114. -/
def crtWord (c : Cond) (opc : BitVec 3) (l : Bool) (crn rd cp : Reg) (info : BitVec 3) (crm : Reg) : Word :=
  c.code ++ 0b1110#4 ++ opc ++ BitVec.ofBool l ++ crn ++ rd ++ cp ++ info ++ 0b1#1 ++ crm

/-- R111. -/
def swiWord (c : Cond) (comment : BitVec 24) : Word :=
  c.code ++ 0b1111#4 ++ comment

/-! ## Decoding -/

/-- A data processing instruction by its opcode (R105), immediate operand; TST to CMN with S = 0 are UNALLOCATED. -/
def dpImmOf (op : BitVec 4) (c : Cond) (s : Bool) (rn rd : Reg) (o : RotImm) : Instr :=
  match op with
  | 0b0000#4 => .andImm c s rn rd o
  | 0b0001#4 => .eorImm c s rn rd o
  | 0b0010#4 => .subImm c s rn rd o
  | 0b0011#4 => .rsbImm c s rn rd o
  | 0b0100#4 => .addImm c s rn rd o
  | 0b0101#4 => .adcImm c s rn rd o
  | 0b0110#4 => .sbcImm c s rn rd o
  | 0b0111#4 => .rscImm c s rn rd o
  | 0b1000#4 => if s then .tstImm c rn rd o else .tstImmS0 c rn rd o
  | 0b1001#4 => if s then .teqImm c rn rd o else .teqImmS0 c rn rd o
  | 0b1010#4 => if s then .cmpImm c rn rd o else .cmpImmS0 c rn rd o
  | 0b1011#4 => if s then .cmnImm c rn rd o else .cmnImmS0 c rn rd o
  | 0b1100#4 => .orrImm c s rn rd o
  | 0b1101#4 => .movImm c s rn rd o
  | 0b1110#4 => .bicImm c s rn rd o
  | _ => .mvnImm c s rn rd o

/-- A data processing instruction by its opcode (R105), register shifted by an amount in the instruction; TST to CMN
with S = 0 are UNALLOCATED. -/
def dpShiftOf (op : BitVec 4) (c : Cond) (s : Bool) (rn rd : Reg) (o : ShiftedReg) : Instr :=
  match op with
  | 0b0000#4 => .andShift c s rn rd o
  | 0b0001#4 => .eorShift c s rn rd o
  | 0b0010#4 => .subShift c s rn rd o
  | 0b0011#4 => .rsbShift c s rn rd o
  | 0b0100#4 => .addShift c s rn rd o
  | 0b0101#4 => .adcShift c s rn rd o
  | 0b0110#4 => .sbcShift c s rn rd o
  | 0b0111#4 => .rscShift c s rn rd o
  | 0b1000#4 => if s then .tstShift c rn rd o else .tstShiftS0 c rn rd o
  | 0b1001#4 => if s then .teqShift c rn rd o else .teqShiftS0 c rn rd o
  | 0b1010#4 => if s then .cmpShift c rn rd o else .cmpShiftS0 c rn rd o
  | 0b1011#4 => if s then .cmnShift c rn rd o else .cmnShiftS0 c rn rd o
  | 0b1100#4 => .orrShift c s rn rd o
  | 0b1101#4 => .movShift c s rn rd o
  | 0b1110#4 => .bicShift c s rn rd o
  | _ => .mvnShift c s rn rd o

/-- A data processing instruction by its opcode (R105), register shifted by an amount in a register; TST to CMN with S =
0 are UNALLOCATED. -/
def dpRegShiftOf (op : BitVec 4) (c : Cond) (s : Bool) (rn rd : Reg) (o : RegShifted) : Instr :=
  match op with
  | 0b0000#4 => .andRegShift c s rn rd o
  | 0b0001#4 => .eorRegShift c s rn rd o
  | 0b0010#4 => .subRegShift c s rn rd o
  | 0b0011#4 => .rsbRegShift c s rn rd o
  | 0b0100#4 => .addRegShift c s rn rd o
  | 0b0101#4 => .adcRegShift c s rn rd o
  | 0b0110#4 => .sbcRegShift c s rn rd o
  | 0b0111#4 => .rscRegShift c s rn rd o
  | 0b1000#4 => if s then .tstRegShift c rn rd o else .tstRegShiftS0 c rn rd o
  | 0b1001#4 => if s then .teqRegShift c rn rd o else .teqRegShiftS0 c rn rd o
  | 0b1010#4 => if s then .cmpRegShift c rn rd o else .cmpRegShiftS0 c rn rd o
  | 0b1011#4 => if s then .cmnRegShift c rn rd o else .cmnRegShiftS0 c rn rd o
  | 0b1100#4 => .orrRegShift c s rn rd o
  | 0b1101#4 => .movRegShift c s rn rd o
  | 0b1110#4 => .bicRegShift c s rn rd o
  | _ => .mvnRegShift c s rn rd o

/-- The shifted register of w[11:0] with bit 4 = 0 (R106, R109). -/
def shiftedRegOf (w : Word) : ShiftedReg :=
  ⟨w.extractLsb' 0 4, ImmShift.ofFields (w.extractLsb' 7 5) (ShiftType.ofCode (w.extractLsb' 5 2))⟩

/-- w[27:26] = 00, w[25] = 0, w[7] = w[4] = 1, w[24] = 0 (R116): multiply or UNALLOCATED. -/
def decodeMultiply (c : Cond) (w : Word) : Instr :=
  match w.extractLsb' 5 2, w.extractLsb' 22 2 with
  | 0b00#2, 0b00#2 =>
    if w.getLsbD 21 then
      .mla c (w.getLsbD 20) (w.extractLsb' 16 4) (w.extractLsb' 12 4) (w.extractLsb' 8 4) (w.extractLsb' 0 4)
    else .mul c (w.getLsbD 20) (w.extractLsb' 16 4) (w.extractLsb' 12 4) (w.extractLsb' 8 4) (w.extractLsb' 0 4)
  | 0b00#2, 0b01#2 => .unalloc4 c (w.extractLsb' 8 14) (w.extractLsb' 0 4)
  | 0b00#2, 0b10#2 => .unalloc8 c (w.extractLsb' 8 14) (w.extractLsb' 0 4)
  | 0b00#2, _ => .unallocC c (w.extractLsb' 8 14) (w.extractLsb' 0 4)
  | 0b01#2, _ => .unallocB c (w.extractLsb' 8 16) (w.extractLsb' 0 4)
  | 0b10#2, _ => .unallocD c (w.extractLsb' 8 16) (w.extractLsb' 0 4)
  | _, _ => .unallocF c (w.extractLsb' 8 16) (w.extractLsb' 0 4)

/-- w[27:26] = 00 (R116). -/
def decodeData (c : Cond) (w : Word) : Instr :=
  if w.getLsbD 25 then
    dpImmOf (w.extractLsb' 21 4) c (w.getLsbD 20) (w.extractLsb' 16 4) (w.extractLsb' 12 4)
      ⟨w.extractLsb' 8 4, w.extractLsb' 0 8⟩
  else if !w.getLsbD 4 then
    dpShiftOf (w.extractLsb' 21 4) c (w.getLsbD 20) (w.extractLsb' 16 4) (w.extractLsb' 12 4) (shiftedRegOf w)
  else if !w.getLsbD 7 then
    dpRegShiftOf (w.extractLsb' 21 4) c (w.getLsbD 20) (w.extractLsb' 16 4) (w.extractLsb' 12 4)
      ⟨w.extractLsb' 0 4, ShiftType.ofCode (w.extractLsb' 5 2), w.extractLsb' 8 4⟩
  else if w.getLsbD 24 then .undefinedB c (w.extractLsb' 8 16) (w.extractLsb' 5 2) (w.extractLsb' 0 4)
  else decodeMultiply c w

/-- A single data transfer with immediate offset, by its B and L bits (R109). -/
def sdtImmOf (b l : Bool) (c : Cond) (p u w : Bool) (rn rd : Reg) (off : BitVec 12) : Instr :=
  match b, l with
  | false, true => .ldrImm c p u w rn rd off
  | false, false => .strImm c p u w rn rd off
  | true, true => .ldrbImm c p u w rn rd off
  | true, false => .strbImm c p u w rn rd off

/-- A single data transfer with register offset, by its B and L bits (R109). -/
def sdtRegOf (b l : Bool) (c : Cond) (p u w : Bool) (rn rd : Reg) (o : ShiftedReg) : Instr :=
  match b, l with
  | false, true => .ldrReg c p u w rn rd o
  | false, false => .strReg c p u w rn rd o
  | true, true => .ldrbReg c p u w rn rd o
  | true, false => .strbReg c p u w rn rd o

/-- w[27:26] = 01 (R116). -/
def decodeTransfer (c : Cond) (w : Word) : Instr :=
  if !w.getLsbD 25 then
    sdtImmOf (w.getLsbD 22) (w.getLsbD 20) c (w.getLsbD 24) (w.getLsbD 23) (w.getLsbD 21) (w.extractLsb' 16 4)
      (w.extractLsb' 12 4) (w.extractLsb' 0 12)
  else if w.getLsbD 4 then .undefinedA c (w.extractLsb' 5 20) (w.extractLsb' 0 4)
  else
    sdtRegOf (w.getLsbD 22) (w.getLsbD 20) c (w.getLsbD 24) (w.getLsbD 23) (w.getLsbD 21) (w.extractLsb' 16 4)
      (w.extractLsb' 12 4) (shiftedRegOf w)

/-- w[27:26] = 10 (R116). -/
def decodeBlockOrBranch (c : Cond) (w : Word) : Instr :=
  if !w.getLsbD 25 then
    if w.getLsbD 20 then
      .ldm c (w.getLsbD 24) (w.getLsbD 23) (w.getLsbD 22) (w.getLsbD 21) (w.extractLsb' 16 4) (w.extractLsb' 0 16)
    else .stm c (w.getLsbD 24) (w.getLsbD 23) (w.getLsbD 22) (w.getLsbD 21) (w.extractLsb' 16 4) (w.extractLsb' 0 16)
  else if w.getLsbD 24 then .bl c (w.extractLsb' 0 24)
  else .b c (w.extractLsb' 0 24)

/-- w[27:26] = 11 (R116). -/
def decodeCoprocessorOrSwi (c : Cond) (w : Word) : Instr :=
  let cp := w.extractLsb' 8 4
  let r16 := w.extractLsb' 16 4
  let r12 := w.extractLsb' 12 4
  if !w.getLsbD 25 then
    if w.getLsbD 20 then
      .ldc c (w.getLsbD 24) (w.getLsbD 23) (w.getLsbD 22) (w.getLsbD 21) r16 r12 cp (w.extractLsb' 0 8)
    else .stc c (w.getLsbD 24) (w.getLsbD 23) (w.getLsbD 22) (w.getLsbD 21) r16 r12 cp (w.extractLsb' 0 8)
  else if w.getLsbD 24 then .swi c (w.extractLsb' 0 24)
  else if !w.getLsbD 4 then .cdp c (w.extractLsb' 20 4) r16 r12 cp (w.extractLsb' 5 3) (w.extractLsb' 0 4)
  else if w.getLsbD 20 then .mrc c (w.extractLsb' 21 3) r16 r12 cp (w.extractLsb' 5 3) (w.extractLsb' 0 4)
  else .mcr c (w.extractLsb' 21 3) r16 r12 cp (w.extractLsb' 5 3) (w.extractLsb' 0 4)

/-- The decision list of R116: every word has a class. -/
def decodeWord (w : Word) : Instr :=
  let c := Cond.ofCode (w.extractLsb' 28 4)
  match w.getLsbD 27, w.getLsbD 26 with
  | false, false => decodeData c w
  | false, true => decodeTransfer c w
  | true, false => decodeBlockOrBranch c w
  | true, true => decodeCoprocessorOrSwi c w

/-- Why bytes are not an instruction. -/
inductive DecodeError where
  /-- Fewer than the four bytes of a word are left (R100). Safe. -/
  | truncated
deriving DecidableEq, Repr

/-- The instruction at the head of the bytes, the lowest address first (R63, R100), and the bytes after it. -/
def decode : List Byte → Except DecodeError (Instr × List Byte)
  | b0 :: b1 :: b2 :: b3 :: rest => .ok (decodeWord (b3 ++ b2 ++ b1 ++ b0), rest)
  | _ => .error .truncated

/-- A word as memory holds it, its least significant byte first (R63). -/
def wordBytes (w : Word) : List Byte :=
  [w.extractLsb' 0 8, w.extractLsb' 8 8, w.extractLsb' 16 8, w.extractLsb' 24 8]

/-- What the decoder reads from an instruction of `nbits` bits `w`, every higher bit 0: its bytes laid out as memory holds
them, then decoded. -/
def decodeTableWord (nbits w : Nat) : Option Instr :=
  match decode (wordBytes (BitVec.ofNat 32 (w % 2 ^ nbits))) with
  | .ok (i, _) => some i
  | .error _ => none

/-! ## Encoding -/

/-- The word of a well-formed instruction (R103 to R115). -/
def encode (i : Instr) : Word :=
  match i with
  | .andImm c s rn rd o => dpImmWord c 0b0000#4 s rn rd o
  | .eorImm c s rn rd o => dpImmWord c 0b0001#4 s rn rd o
  | .subImm c s rn rd o => dpImmWord c 0b0010#4 s rn rd o
  | .rsbImm c s rn rd o => dpImmWord c 0b0011#4 s rn rd o
  | .addImm c s rn rd o => dpImmWord c 0b0100#4 s rn rd o
  | .adcImm c s rn rd o => dpImmWord c 0b0101#4 s rn rd o
  | .sbcImm c s rn rd o => dpImmWord c 0b0110#4 s rn rd o
  | .rscImm c s rn rd o => dpImmWord c 0b0111#4 s rn rd o
  | .tstImm c rn rd o => dpImmWord c 0b1000#4 true rn rd o
  | .tstImmS0 c rn rd o => dpImmWord c 0b1000#4 false rn rd o
  | .teqImm c rn rd o => dpImmWord c 0b1001#4 true rn rd o
  | .teqImmS0 c rn rd o => dpImmWord c 0b1001#4 false rn rd o
  | .cmpImm c rn rd o => dpImmWord c 0b1010#4 true rn rd o
  | .cmpImmS0 c rn rd o => dpImmWord c 0b1010#4 false rn rd o
  | .cmnImm c rn rd o => dpImmWord c 0b1011#4 true rn rd o
  | .cmnImmS0 c rn rd o => dpImmWord c 0b1011#4 false rn rd o
  | .orrImm c s rn rd o => dpImmWord c 0b1100#4 s rn rd o
  | .movImm c s rn rd o => dpImmWord c 0b1101#4 s rn rd o
  | .bicImm c s rn rd o => dpImmWord c 0b1110#4 s rn rd o
  | .mvnImm c s rn rd o => dpImmWord c 0b1111#4 s rn rd o
  | .andShift c s rn rd o => dpShiftWord c 0b0000#4 s rn rd o
  | .eorShift c s rn rd o => dpShiftWord c 0b0001#4 s rn rd o
  | .subShift c s rn rd o => dpShiftWord c 0b0010#4 s rn rd o
  | .rsbShift c s rn rd o => dpShiftWord c 0b0011#4 s rn rd o
  | .addShift c s rn rd o => dpShiftWord c 0b0100#4 s rn rd o
  | .adcShift c s rn rd o => dpShiftWord c 0b0101#4 s rn rd o
  | .sbcShift c s rn rd o => dpShiftWord c 0b0110#4 s rn rd o
  | .rscShift c s rn rd o => dpShiftWord c 0b0111#4 s rn rd o
  | .tstShift c rn rd o => dpShiftWord c 0b1000#4 true rn rd o
  | .tstShiftS0 c rn rd o => dpShiftWord c 0b1000#4 false rn rd o
  | .teqShift c rn rd o => dpShiftWord c 0b1001#4 true rn rd o
  | .teqShiftS0 c rn rd o => dpShiftWord c 0b1001#4 false rn rd o
  | .cmpShift c rn rd o => dpShiftWord c 0b1010#4 true rn rd o
  | .cmpShiftS0 c rn rd o => dpShiftWord c 0b1010#4 false rn rd o
  | .cmnShift c rn rd o => dpShiftWord c 0b1011#4 true rn rd o
  | .cmnShiftS0 c rn rd o => dpShiftWord c 0b1011#4 false rn rd o
  | .orrShift c s rn rd o => dpShiftWord c 0b1100#4 s rn rd o
  | .movShift c s rn rd o => dpShiftWord c 0b1101#4 s rn rd o
  | .bicShift c s rn rd o => dpShiftWord c 0b1110#4 s rn rd o
  | .mvnShift c s rn rd o => dpShiftWord c 0b1111#4 s rn rd o
  | .andRegShift c s rn rd o => dpRegShiftWord c 0b0000#4 s rn rd o
  | .eorRegShift c s rn rd o => dpRegShiftWord c 0b0001#4 s rn rd o
  | .subRegShift c s rn rd o => dpRegShiftWord c 0b0010#4 s rn rd o
  | .rsbRegShift c s rn rd o => dpRegShiftWord c 0b0011#4 s rn rd o
  | .addRegShift c s rn rd o => dpRegShiftWord c 0b0100#4 s rn rd o
  | .adcRegShift c s rn rd o => dpRegShiftWord c 0b0101#4 s rn rd o
  | .sbcRegShift c s rn rd o => dpRegShiftWord c 0b0110#4 s rn rd o
  | .rscRegShift c s rn rd o => dpRegShiftWord c 0b0111#4 s rn rd o
  | .tstRegShift c rn rd o => dpRegShiftWord c 0b1000#4 true rn rd o
  | .tstRegShiftS0 c rn rd o => dpRegShiftWord c 0b1000#4 false rn rd o
  | .teqRegShift c rn rd o => dpRegShiftWord c 0b1001#4 true rn rd o
  | .teqRegShiftS0 c rn rd o => dpRegShiftWord c 0b1001#4 false rn rd o
  | .cmpRegShift c rn rd o => dpRegShiftWord c 0b1010#4 true rn rd o
  | .cmpRegShiftS0 c rn rd o => dpRegShiftWord c 0b1010#4 false rn rd o
  | .cmnRegShift c rn rd o => dpRegShiftWord c 0b1011#4 true rn rd o
  | .cmnRegShiftS0 c rn rd o => dpRegShiftWord c 0b1011#4 false rn rd o
  | .orrRegShift c s rn rd o => dpRegShiftWord c 0b1100#4 s rn rd o
  | .movRegShift c s rn rd o => dpRegShiftWord c 0b1101#4 s rn rd o
  | .bicRegShift c s rn rd o => dpRegShiftWord c 0b1110#4 s rn rd o
  | .mvnRegShift c s rn rd o => dpRegShiftWord c 0b1111#4 s rn rd o
  | .mul c s rd rn rs rm => mulWord c false s rd rn rs rm
  | .mla c s rd rn rs rm => mulWord c true s rd rn rs rm
  | .unallocB c x y => unallocWord65 c x 0b1011#4 y
  | .unallocD c x y => unallocWord65 c x 0b1101#4 y
  | .unallocF c x y => unallocWord65 c x 0b1111#4 y
  | .unalloc4 c x y => unallocWord2322 c 0b01#2 x y
  | .unalloc8 c x y => unallocWord2322 c 0b10#2 x y
  | .unallocC c x y => unallocWord2322 c 0b11#2 x y
  | .ldrImm c p u w rn rd off => sdtImmWord c p u false w true rn rd off
  | .ldrReg c p u w rn rd o => sdtRegWord c p u false w true rn rd o
  | .strImm c p u w rn rd off => sdtImmWord c p u false w false rn rd off
  | .strReg c p u w rn rd o => sdtRegWord c p u false w false rn rd o
  | .ldrbImm c p u w rn rd off => sdtImmWord c p u true w true rn rd off
  | .ldrbReg c p u w rn rd o => sdtRegWord c p u true w true rn rd o
  | .strbImm c p u w rn rd off => sdtImmWord c p u true w false rn rd off
  | .strbReg c p u w rn rd o => sdtRegWord c p u true w false rn rd o
  | .undefinedA c x y => undefinedAWord c x y
  | .undefinedB c x y z => undefinedBWord c x y z
  | .ldm c p u s w rn list => bdtWord c p u s w true rn list
  | .stm c p u s w rn list => bdtWord c p u s w false rn list
  | .b c off => branchWord c false off
  | .bl c off => branchWord c true off
  | .ldc c p u n w rn crd cp off => cdtWord c p u n w true rn crd cp off
  | .stc c p u n w rn crd cp off => cdtWord c p u n w false rn crd cp off
  | .cdp c opc crn crd cp info crm => cdpWord c opc crn crd cp info crm
  | .mrc c opc crn rd cp info crm => crtWord c opc true crn rd cp info crm
  | .mcr c opc crn rd cp info crm => crtWord c opc false crn rd cp info crm
  | .swi c comment => swiWord c comment

end Sys2Proof
end

