-- ==== Sys2Proof/Config.lean ====
section
/-! DEFINITION. What the spec leaves open: the free values, each an uninterpreted constant of a counter and of the
place that draws it, and the parameters the model fixes (spec/00_scope.md R8; notes/assumptions/ entries 4, 5, 6, 27). -/

namespace Sys2Proof.Config

/-- Who draws a free value. One step may draw several; each place draws its own. -/
inductive Draw where
  /-- First operand, base, second operand, shift amount or stored register, read while the bank is unsettled (R400, R401). -/
  | rn | rm | rs | rd
  /-- The `k`-th register of a block store, read while the bank is unsettled (R400, R401). -/
  | stored (k : Nat)
  /-- Result of MUL or MLA with Rd = Rm (R223). -/
  | product
  /-- Flags after MULS or MLAS where the rules leave them meaningless (R223 to R225). -/
  | mulN | mulZ | mulC | mulV
  /-- LDR with Rd = Rn and write-back: loaded value or address (U3). -/
  | loadedOrIndex
  /-- STR with Rd = Rn and write-back: old base or new one (U4). -/
  | baseOrIndex
  /-- Aborted LDM: is the register before the aborting access written? (R277, D18) -/
  | beforeAbort
  /-- Is a store into the `k`-th prefetched word seen? (R90, D7) -/
  | prefetched (k : Nat)
  /-- A register or flag the instruction interrupted by RESET was writing (R391, S3). -/
  | lost (k : Nat)
  /-- A memory byte the instruction interrupted by RESET was writing: is it written? (R391, S3) -/
  | lostByte (a : Nat)
  /-- The word that a misaligned STR leaves where the memory system does not ignore A[1:0] (R65). -/
  | misaligned
  /-- R14_svc after RESET (R392). -/
  | savedAtReset
deriving DecidableEq, Repr

/-- The free 32-bit values: no body, so nothing can be proved of them. `stamp` is State's counter (entry 27). -/
opaque freeWord (stamp : Nat) (who : Draw) : Word

/-- The free bits and free choices between two values (entry 27). -/
opaque freeBit (stamp : Nat) (who : Draw) : Bool

/-- DESIGN CHOICE (entry 4): what a byte of memory that nothing has written reads as; the spec leaves
`initial_memory` open (R8, D21). Unsafe: a statement may not rest on it. -/
def unlistedByte : Byte := 0

end Sys2Proof.Config
end

