-- ==== Sys2Proof/Machine/State.lean ====
section
/-! DEFINITION. The state of the machine, as plain data (spec/10_state.md; INVENTORY.md, "State"), the reasons a step can
stop, and the state right after reset. -/

namespace Sys2Proof.Machine

/-- The four modes (R29, R371). -/
inductive Mode where
  | usr | fiq | irq | svc
deriving DecidableEq, Repr

/-- The 26 physical registers beside R15 (R21): `r8Fiq` is R8_fiq, and so on. -/
inductive PReg where
  | r0 | r1 | r2 | r3 | r4 | r5 | r6 | r7 | r8 | r9 | r10 | r11 | r12 | r13 | r14 | r8Fiq | r9Fiq | r10Fiq |
    r11Fiq | r12Fiq | r13Fiq | r14Fiq | r13Irq | r14Irq | r13Svc | r14Svc
deriving DecidableEq, Repr

/-- The contents of the 26 physical registers beside R15 (R21). -/
structure Regs where
  r0 : Word
  r1 : Word
  r2 : Word
  r3 : Word
  r4 : Word
  r5 : Word
  r6 : Word
  r7 : Word
  r8 : Word
  r9 : Word
  r10 : Word
  r11 : Word
  r12 : Word
  r13 : Word
  r14 : Word
  r8Fiq : Word
  r9Fiq : Word
  r10Fiq : Word
  r11Fiq : Word
  r12Fiq : Word
  r13Fiq : Word
  r14Fiq : Word
  r13Irq : Word
  r14Irq : Word
  r13Svc : Word
  r14Svc : Word
deriving DecidableEq, Repr

/-- The processor status register, the eight PSR bits of R15 (R27, R28). -/
structure Psr where
  n : Bool
  z : Bool
  c : Bool
  v : Bool
  /-- IRQ disable. -/
  i : Bool
  /-- FIQ disable. -/
  f : Bool
  mode : Mode
deriving DecidableEq, Repr

/-- A prefetched instruction word and its prefetch-abort mark (R41, R42). -/
structure Fetched where
  word : Word
  invalid : Bool
deriving DecidableEq, Repr

/-- Which register numbers the next instruction must not access, because the register bank has not settled after a
mode change without a PC write or after a user-bank LDM (R400, R401). -/
inductive Bank where
  /-- Every register may be accessed. -/
  | settled
  /-- R13 and R14 are unsettled. -/
  | unsettled13
  /-- R8 to R14 are unsettled (FIQ mode is involved). -/
  | unsettled8
deriving DecidableEq, Repr

/-- An interrupt synchroniser: was the line LOW (requesting) at the last boundary, and at the one before (R43, R352). -/
structure Sync where
  last : Bool
  before : Bool
deriving DecidableEq, Repr

/-- The width of an access, pin B/W (R66). -/
inductive Size where
  | byte | word
deriving DecidableEq, Repr

/-- The record every memory access presents to the memory system (R77), but for `seq`, a timing hint. -/
structure Access where
  addr : Addr
  write : Bool
  size : Size
  /-- An instruction fetch (OPC LOW). -/
  opc : Bool
  /-- TRANS LOW. -/
  trans : Bool
  mode : Mode
deriving DecidableEq, Repr

/-- How a memory system that a rule describes answers an access (R77): with ABORT; or a device takes it, so that a read
gets the word `w` on the data bus and an accepted write leaves memory as it is. -/
inductive Answer where
  | abort
  | device (w : Word)
deriving DecidableEq, Repr

/-- One rule of the memory system (R77, R78): the answer to an access whose address is in `lo .. hi` (both included) and
which agrees with every attribute given. An access that no rule describes is answered by memory. -/
structure MemRule where
  lo : Nat
  hi : Nat
  write : Option Bool
  size : Option Size
  opc : Option Bool
  trans : Option Bool
  mode : Option Mode
  answer : Answer
deriving DecidableEq, Repr

/-- What a co-processor answers when an instruction is offered (R295 to R299): it does not take it (CPA HIGH), it takes it
but is busy (CPB HIGH), or it takes it now. `first :: rest` are the words it supplies: as many as it wants transferred for
LDC (the values ignored), the words it stores for STC, the word for MRC; ignored otherwise. -/
inductive CpReply where
  | absent
  | busy
  | ready (first : Word) (rest : List Word)
deriving DecidableEq, Repr

/-- One rule of a co-processor (R295): what number `cp` answers to an instruction word that agrees with `value` in the bits
of `mask`, offered with the pins M1:M0 and TRANS as given (R316). -/
structure CpRule where
  cp : BitVec 4
  mask : Word
  value : Word
  mode : Option Mode
  /-- TRANS LOW: offered from User mode. -/
  trans : Option Bool
  reply : CpReply
deriving DecidableEq, Repr

/-- An instruction that a co-processor has taken, and the words the processor sent it with it. -/
structure CpEvent where
  instr : Word
  sent : List Word
deriving DecidableEq, Repr

/-- What the outside does during one step: the pins at the boundary before it, the outcome of each synchroniser where R352
leaves it open, what other bus masters write (R82), and changes of the memory system's and the co-processors' rules. -/
structure Inputs where
  /-- The level of RESET: true is HIGH. -/
  reset : Bool
  /-- The FIQ pin is LOW: requesting. -/
  fiqLow : Bool
  /-- The IRQ pin is LOW: requesting. -/
  irqLow : Bool
  /-- `fiq_seen` where R352 leaves it open. -/
  fiqDraw : Bool
  /-- `irq_seen` where R352 leaves it open. -/
  irqDraw : Bool
  /-- The bytes other masters write at the boundary, before the step's fetches. -/
  busWrites : List Host.Cell
  /-- The bytes other masters write after them, the `k`-th list before the `k`-th data access of the instruction (R67). -/
  between : List (List Host.Cell)
  memSystem : Option (List MemRule)
  coprocessors : Option (List CpRule)
deriving DecidableEq, Repr

/-- What the memory system does with A[1:0] on a word write by STR (R8 `misaligned_word_store`, D5): it ignores them, or
what then stands in the aligned word is free. -/
inductive MisalignedStore where
  | ignoreLowBits
  | free
deriving DecidableEq, Repr

/-- The parameters of R8 that are fixed for a machine. -/
structure Params where
  /-- Have the rules marked as general knowledge a meaning (D1)? -/
  admitReconstructed : Bool
  misalignedWordStore : MisalignedStore
deriving DecidableEq, Repr

/-- The state. -/
structure State where
  /-- The 26 registers beside R15 (R21). -/
  regs : Regs
  /-- The PSR bits of R15 (R28). -/
  psr : Psr
  /-- R15[25:2], the word address of the next instruction (R30). -/
  pc : BitVec 24
  /-- Memory, in its one canonical form: addresses rising, no byte listed that reads so unlisted (R40). -/
  mem : List Host.Cell
  /-- The prefetched words, the first for the address `pc` (R41, R42); empty after a write of the PC. -/
  pipe : List Fetched
  /-- The unsettled register bank (R400, R401). -/
  bank : Bank
  /-- Waiting on a busy co-processor (R44). -/
  busyWait : Bool
  fiqSync : Sync
  irqSync : Sync
  /-- RESET was HIGH at the last boundary (R391). -/
  resetHigh : Bool
  /-- The memory system's rules, the first that applies answering (R77, R78). -/
  memSystem : List MemRule
  /-- The co-processors' rules, the first that applies answering for its number (R295); a number without one is absent. -/
  coprocessors : List CpRule
  /-- What the outside will do, one entry a step; quiet when the list is empty (entry 8). -/
  inputs : List Inputs
  /-- The parameters of R8. -/
  params : Params
  /-- MODEL's own: the instructions co-processors have taken so far, the oldest first (entry 10). -/
  cpLog : List CpEvent
  /-- MODEL's own: the writes that devices have taken so far, the oldest first (entry 7). -/
  busLog : List (Access × Word)
  /-- MODEL's own: the counter free values are drawn from (entry 27). -/
  stamp : Nat
deriving DecidableEq, Repr

/-- The reasons a step can fault: none. The spec has no state in which the processor stops (R367, R376), every error of a
program is an exception it takes, so this closed type is empty, and no meaning can fault (entry 29). -/
inductive Fault where
deriving DecidableEq, Repr

/-- The reasons a step can refuse. Each is safe: the model stops where the spec gives no effect. -/
inductive Refusal where
  /-- Raised by exec's arms only: no meaning written. Safe. -/
  | notModelled (mnemonic : String)
  /-- Raised by TST, TEQ, CMP, CMN encoded with S = 0, when the condition passes (R118 (d), U13). Safe. -/
  | unallocatedTest
  /-- Raised by the unallocated encodings of the multiply space, when the condition passes (R118 (c), U14). Safe. -/
  | unallocatedMultiply
  /-- Raised by LDR, STR, LDRB, STRB with Rn = 15 and write-back (R247 (a), U1). Safe. -/
  | transferWritesBackR15
  /-- Raised by LDM, STM with an empty register list (R261, U5). Safe. -/
  | emptyRegisterList
  /-- Raised by LDM, STM forcing the user bank with W = 1, outside User mode (R272, R273, U6). Safe. -/
  | userBankWriteBack
  /-- Raised by LDC, STC with Rn = 15 and W = 1, once a co-processor accepts (R308, U10). Safe. -/
  | coprocessorWritesBackR15
  /-- Raised by an instruction that writes a banked register while the bank is unsettled (R400, R401, U11, U12). Safe. -/
  | bankUnsettled
  /-- Raised by a step with `admitReconstructed` false, on an instruction that only rules marked as general knowledge give
  a meaning (R4, D1). Safe. -/
  | reconstructed
deriving DecidableEq, Repr

/-- What a meaning answers. -/
abbrev Result := Host.Outcome State Fault Refusal

/-- Every register 0: DESIGN CHOICE, the spec gives no value (R46, R47; entry 2). -/
def Regs.zero : Regs :=
  { r0 := 0, r1 := 0, r2 := 0, r3 := 0, r4 := 0, r5 := 0, r6 := 0, r7 := 0, r8 := 0, r9 := 0, r10 := 0, r11 := 0,
    r12 := 0, r13 := 0, r14 := 0, r8Fiq := 0, r9Fiq := 0, r10Fiq := 0, r11Fiq := 0, r12Fiq := 0, r13Fiq := 0,
    r14Fiq := 0, r13Irq := 0, r14Irq := 0, r13Svc := 0, r14Svc := 0 }

/-- The machine right after reset (R46, R392): supervisor mode, I and F set, the PC 0, the pipeline empty, not waiting.
N, Z, C, V, the registers, memory and the outside are DESIGN CHOICES (entries 1 to 4, 6 to 10). -/
def State.reset : State where
  regs := Regs.zero
  psr := { n := false, z := false, c := false, v := false, i := true, f := true, mode := .svc }
  pc := 0
  mem := []
  pipe := []
  bank := .settled
  busyWait := false
  fiqSync := { last := false, before := false }
  irqSync := { last := false, before := false }
  resetHigh := false
  memSystem := []
  coprocessors := []
  inputs := []
  params := { admitReconstructed := true, misalignedWordStore := .ignoreLowBits }
  cpLog := []
  busLog := []
  stamp := 0

end Sys2Proof.Machine
end

