-- ==== Sys2Proof/Machine/Ops.lean ====
section
/-! DEFINITION. The named operations over registers, R15 and memory, taking an exception and returning from one
(spec/10_state.md; spec/20_memory.md; spec/60_exceptions.md R340). -/

namespace Sys2Proof.Machine

open Sys2Proof (Config.Draw)

/-! ## Registers -/

/-- The contents of a physical register. -/
def Regs.get (g : Regs) : PReg → Word
  | .r0 => g.r0 | .r1 => g.r1 | .r2 => g.r2 | .r3 => g.r3 | .r4 => g.r4
  | .r5 => g.r5 | .r6 => g.r6 | .r7 => g.r7 | .r8 => g.r8 | .r9 => g.r9
  | .r10 => g.r10 | .r11 => g.r11 | .r12 => g.r12 | .r13 => g.r13 | .r14 => g.r14
  | .r8Fiq => g.r8Fiq | .r9Fiq => g.r9Fiq | .r10Fiq => g.r10Fiq | .r11Fiq => g.r11Fiq | .r12Fiq => g.r12Fiq
  | .r13Fiq => g.r13Fiq | .r14Fiq => g.r14Fiq | .r13Irq => g.r13Irq | .r14Irq => g.r14Irq | .r13Svc => g.r13Svc
  | .r14Svc => g.r14Svc

/-- The registers with one written. -/
def Regs.set (g : Regs) (p : PReg) (v : Word) : Regs :=
  match p with
  | .r0 => { g with r0 := v } | .r1 => { g with r1 := v } | .r2 => { g with r2 := v }
  | .r3 => { g with r3 := v } | .r4 => { g with r4 := v } | .r5 => { g with r5 := v }
  | .r6 => { g with r6 := v } | .r7 => { g with r7 := v } | .r8 => { g with r8 := v }
  | .r9 => { g with r9 := v } | .r10 => { g with r10 := v } | .r11 => { g with r11 := v }
  | .r12 => { g with r12 := v } | .r13 => { g with r13 := v } | .r14 => { g with r14 := v }
  | .r8Fiq => { g with r8Fiq := v } | .r9Fiq => { g with r9Fiq := v } | .r10Fiq => { g with r10Fiq := v }
  | .r11Fiq => { g with r11Fiq := v } | .r12Fiq => { g with r12Fiq := v } | .r13Fiq => { g with r13Fiq := v }
  | .r14Fiq => { g with r14Fiq := v } | .r13Irq => { g with r13Irq := v } | .r14Irq => { g with r14Irq := v }
  | .r13Svc => { g with r13Svc := v } | .r14Svc => { g with r14Svc := v }

/-- The physical register a number names in a mode (R22); none for 15, which is R15. -/
def physOf (m : Mode) (r : Reg) : Option PReg :=
  match r.toNat with
  | 0 => some .r0 | 1 => some .r1 | 2 => some .r2 | 3 => some .r3
  | 4 => some .r4 | 5 => some .r5 | 6 => some .r6 | 7 => some .r7
  | 8 => some (if m = .fiq then .r8Fiq else .r8)
  | 9 => some (if m = .fiq then .r9Fiq else .r9)
  | 10 => some (if m = .fiq then .r10Fiq else .r10)
  | 11 => some (if m = .fiq then .r11Fiq else .r11)
  | 12 => some (if m = .fiq then .r12Fiq else .r12)
  | 13 => some (match m with | .usr => .r13 | .fiq => .r13Fiq | .irq => .r13Irq | .svc => .r13Svc)
  | 14 => some (match m with | .usr => .r14 | .fiq => .r14Fiq | .irq => .r14Irq | .svc => .r14Svc)
  | _ => none

/-- Is the register number one that the current instruction must not access (R400, R401)? -/
def State.unsettled (s : State) (r : Reg) : Bool :=
  match s.bank with
  | .settled => false
  | .unsettled13 => r == 13 || r == 14
  | .unsettled8 => 8 ≤ r.toNat && r.toNat ≤ 14

/-- Reads register `r` of the bank of mode `m`: `r15` when it is 15, for which each rule says what is read; a free value
while the bank is unsettled (U11, U12). -/
def State.readBank (s : State) (m : Mode) (who : Config.Draw) (r15 : Word) (r : Reg) : Word :=
  match physOf m r with
  | none => r15
  | some p => if s.unsettled r then Config.freeWord s.stamp who else s.regs.get p

/-- `x[r]` (R10): the register the number names in the current mode. -/
def State.readX (s : State) (who : Config.Draw) (r15 : Word) (r : Reg) : Word :=
  s.readBank s.psr.mode who r15 r

/-- Writes register `r` of the bank of mode `m`; nothing for 15. -/
def State.writeBank (s : State) (m : Mode) (r : Reg) (v : Word) : State :=
  match physOf m r with
  | none => s
  | some p => { s with regs := s.regs.set p v }

/-- `x[r] <- v` (R10). -/
def State.writeX (s : State) (r : Reg) (v : Word) : State :=
  s.writeBank s.psr.mode r v

/-- Goes on only where every register of the list may be written: the spec refuses a write while the bank is unsettled
(U11, U12). -/
def State.guardWrites (s : State) (rs : List Reg) (k : Result) : Result :=
  if rs.any s.unsettled then .refused .bankUnsettled else k

/-! ## R15: the PC and the PSR -/

/-- M1:M0 (R29). -/
def Mode.code : Mode → BitVec 2
  | .usr => 0b00#2 | .fiq => 0b01#2 | .irq => 0b10#2 | .svc => 0b11#2

/-- The mode of a code (R29). -/
def Mode.ofCode (m : BitVec 2) : Mode :=
  match m.toNat with
  | 0 => .usr
  | 1 => .fiq
  | 2 => .irq
  | _ => .svc

/-- `PSRW` (R10): the PSR bits in their R15 positions, zeros in the PC field (R28). -/
def Psr.word (p : Psr) : Word :=
  BitVec.ofBool p.n ++ BitVec.ofBool p.z ++ BitVec.ofBool p.c ++ BitVec.ofBool p.v ++ BitVec.ofBool p.i ++
    BitVec.ofBool p.f ++ 0#24 ++ p.mode.code

/-- `A` (R10): the byte address of the next instruction. -/
def State.addr (s : State) : Addr :=
  s.pc ++ 0#2

/-- `R15pc(k)` (R10): the PC `k` bytes on, modulo 2^26, the PSR bits replaced by zeros. -/
def State.r15pc (s : State) (k : Addr) : Word :=
  (s.addr + k).setWidth 32

/-- `R15full(k)` (R10): the PC `k` bytes on, together with the PSR. -/
def State.r15full (s : State) (k : Addr) : Word :=
  s.psr.word ||| s.r15pc k

/-- R15 as one 32-bit register (R27, R28), its PC field the address of the next instruction. -/
def State.r15 (s : State) : Word :=
  s.r15full 0

/-- On to the next instruction (R31): the PC 4 bytes on, one prefetched word used up, the bank settled. -/
def State.advance (s : State) : State :=
  { s with pc := s.pc + 1, pipe := s.pipe.tail, bank := .settled, busyWait := false }

/-- `WritePC(w)` (R37): bits 25:2 become the PC; the prefetched words are discarded (R41). -/
def State.writePC (s : State) (w : Word) : State :=
  { s with pc := w.extractLsb' 2 24, pipe := [], bank := .settled, busyWait := false }

/-- The PSR that `WritePSR(w)` leaves (R36, R37): N, Z, C, V; and I, F, M outside User mode. -/
def Psr.written (p : Psr) (w : Word) : Psr :=
  let q : Psr := { p with n := w.getLsbD 31, z := w.getLsbD 30, c := w.getLsbD 29, v := w.getLsbD 28 }
  if p.mode = .usr then q
  else { q with i := w.getLsbD 27, f := w.getLsbD 26, mode := Mode.ofCode (w.extractLsb' 0 2) }

/-- `WritePSR(w)` (R37). -/
def State.writePSR (s : State) (w : Word) : State :=
  { s with psr := s.psr.written w }

/-- `WritePCPSR(w)` (R37): the return from an exception (R365). -/
def State.writePCPSR (s : State) (w : Word) : State :=
  (s.writePSR w).writePC w

/-- The registers left unsettled by a change of mode without a write of the PC (R400). -/
def bankAfter (old new : Mode) : Bank :=
  if old = new then .settled
  else if old = .fiq ∨ new = .fiq then .unsettled8
  else .unsettled13

/-! ## Exceptions -/

/-- The exceptions but reset (R330, R331). -/
inductive Exception where
  | undefined | softwareInterrupt | prefetchAbort | dataAbort | addressException | irq | fiq
deriving DecidableEq, Repr

/-- The vector, as a word address (R74, R331). -/
def Exception.vector : Exception → BitVec 24
  | .undefined => 0x04 / 4
  | .softwareInterrupt => 0x08 / 4
  | .prefetchAbort => 0x0C / 4
  | .dataAbort => 0x10 / 4
  | .addressException => 0x14 / 4
  | .irq => 0x18 / 4
  | .fiq => 0x1C / 4

/-- The mode entered (R331). -/
def Exception.mode : Exception → Mode
  | .irq => .irq
  | .fiq => .fiq
  | _ => .svc

/-- The R14 that is written (R331). -/
def Exception.link : Exception → PReg
  | .irq => .r14Irq
  | .fiq => .r14Fiq
  | _ => .r14Svc

/-- How far the saved PC is from the instruction at the PC: A + 8 for data abort and address exception, A + 4 or next + 4
for the others (R331, R349). -/
def Exception.savedOffset : Exception → Addr
  | .dataAbort => 8
  | .addressException => 8
  | _ => 4

/-- Taking an exception (R340): R15 saved with the old PSR, the mode and I forced (F too for FIQ), the PC at the vector
and the prefetched words discarded. -/
def State.raise (s : State) (e : Exception) : State :=
  { s with
    regs := s.regs.set e.link (s.r15full e.savedOffset)
    psr := { s.psr with mode := e.mode, i := true, f := s.psr.f || e == .fiq }
    pc := e.vector
    pipe := []
    bank := .settled
    busyWait := false }

/-- The reset sequence when RESET goes LOW (R392): a free value in R14_svc, supervisor mode, I and F set, the PC 0. -/
def State.resetEntry (s : State) : State :=
  { s with
    regs := s.regs.set .r14Svc (Config.freeWord s.stamp .savedAtReset)
    psr := { s.psr with mode := .svc, i := true, f := true }
    pc := 0
    pipe := []
    bank := .settled
    busyWait := false
    resetHigh := false }

/-! ## Memory -/

/-- One byte of memory; an unlisted byte reads as `Config.unlistedByte` (entry 4). -/
def readByte : List Host.Cell → Nat → Byte
  | [], _ => Config.unlistedByte
  | (k, b) :: t, a => if k = a then b else readByte t a

/-- The list without the entry for `a`. -/
def eraseCell : List Host.Cell → Nat → List Host.Cell
  | [], _ => []
  | (k, b) :: t, a => if k = a then t else (k, b) :: eraseCell t a

/-- The list with the entry for `a` put in its place. -/
def insertCell : List Host.Cell → Nat → Byte → List Host.Cell
  | [], a, v => [(a, v)]
  | (k, b) :: t, a, v =>
    if a < k then (a, v) :: (k, b) :: t
    else if a = k then (a, v) :: t
    else (k, b) :: insertCell t a v

/-- Writes one byte, keeping the canonical form. -/
def writeByte (m : List Host.Cell) (a : Nat) (v : Byte) : List Host.Cell :=
  if v = Config.unlistedByte then eraseCell m a else insertCell m a v

/-- The canonical form of memory: addresses strictly rising, inside the 26-bit space (R40), no byte listed that reads
the same unlisted. -/
def memoryWf : List Host.Cell → Bool
  | [] => true
  | (k, b) :: t => decide (k < 2 ^ 26) && b != Config.unlistedByte && t.all (fun e => decide (k < e.1)) && memoryWf t

/-- The address of the word that holds byte address `a`: A[1:0] are ignored on a word access (R65). -/
def wordBase (a : Addr) : Nat :=
  a.toNat / 4 * 4

/-- The word at `a and not 3`, little-endian (R63, R65). -/
def readWord (m : List Host.Cell) (a : Addr) : Word :=
  readByte m (wordBase a + 3) ++ readByte m (wordBase a + 2) ++ readByte m (wordBase a + 1) ++ readByte m (wordBase a)

/-- Stores the word at `a and not 3`, little-endian (R63, R65). -/
def writeWord (m : List Host.Cell) (a : Addr) (v : Word) : List Host.Cell :=
  writeByte (writeByte (writeByte (writeByte m (wordBase a) (v.extractLsb' 0 8)) (wordBase a + 1) (v.extractLsb' 8 8))
    (wordBase a + 2) (v.extractLsb' 16 8)) (wordBase a + 3) (v.extractLsb' 24 8)

/-- Does the rule apply to the access? -/
def MemRule.applies (r : MemRule) (a : Access) : Bool :=
  decide (r.lo ≤ a.addr.toNat) && decide (a.addr.toNat ≤ r.hi) && r.write.all (· == a.write) && r.size.all (· == a.size) &&
    r.opc.all (· == a.opc) && r.trans.all (· == a.trans) && r.mode.all (· == a.mode)

/-- The memory system's answer (R77): that of the first rule which applies, none where memory answers. -/
def State.answer (s : State) (a : Access) : Option Answer :=
  (s.memSystem.find? (·.applies a)).map (·.answer)

/-- Is the access answered with ABORT (R78)? -/
def State.aborts (s : State) (a : Access) : Bool :=
  s.answer a == some .abort

/-- The word on the data bus when the access is a read: a device's, or the aligned word of memory (R65). -/
def State.busWord (s : State) (a : Access) : Word :=
  match s.answer a with
  | some (.device w) => w
  | _ => readWord s.mem a.addr

/-- The byte of a word on the bus that address `a` selects (R63). -/
def lane (w : Word) (a : Addr) : Byte :=
  w.extractLsb' (8 * (a.toNat % 4)) 8

/-- The record of a data access (R77); TRANS is LOW in User mode or where the instruction forces it (R79, R240). -/
def State.dataAccess (s : State) (addr : Addr) (size : Size) (write force : Bool) : Access :=
  { addr, write, size, opc := false, trans := s.psr.mode == .usr || force, mode := s.psr.mode }

/-- `MemRead(addr, 4)` (R11): the word, or none on ABORT. -/
def State.loadWord (s : State) (addr : Addr) (force : Bool) : Option Word :=
  let a := s.dataAccess addr .word false force
  if s.aborts a then none else some (s.busWord a)

/-- `MemRead(addr, 1)` (R11): the byte, or none on ABORT. -/
def State.loadByte (s : State) (addr : Addr) (force : Bool) : Option Byte :=
  let a := s.dataAccess addr .byte false force
  if s.aborts a then none else some (lane (s.busWord a) addr)

/-- A write access that drives `v` (R11): none on ABORT, else the state in which a device has taken `v` or memory is as
`landed` says. -/
def State.writeAccess (s : State) (a : Access) (v : Word) (landed : List Host.Cell) : Option State :=
  match s.answer a with
  | some .abort => none
  | some (.device _) => some { s with busLog := s.busLog ++ [(a, v)] }
  | none => some { s with mem := landed }

/-- `MemWrite(addr, 4, v)` (R11), the aligned word stored whatever A[1:0]. -/
def State.storeWord (s : State) (addr : Addr) (v : Word) (force : Bool) : Option State :=
  s.writeAccess (s.dataAccess addr .word true force) v (writeWord s.mem addr v)

/-- The word that STR of `v` leaves in memory (R65): `v`, but where the memory system does not ignore A[1:0] and they are not
zero. -/
def State.landedWord (s : State) (addr : Addr) (v : Word) : Word :=
  if s.params.misalignedWordStore = .free ∧ addr.toNat % 4 ≠ 0 then Config.freeWord s.stamp .misaligned else v

/-- `MemWrite(addr, 4, v)` of STR (R65, R234). -/
def State.storeRegister (s : State) (addr : Addr) (v : Word) (force : Bool) : Option State :=
  s.writeAccess (s.dataAccess addr .word true force) v (writeWord s.mem addr (s.landedWord addr v))

/-- `MemWrite(addr, 1, b)` (R11): the byte is driven on all four lanes (R236). -/
def State.storeByte (s : State) (addr : Addr) (b : Byte) (force : Bool) : Option State :=
  s.writeAccess (s.dataAccess addr .byte true force) (b ++ b ++ b ++ b) (writeByte s.mem addr.toNat b)

/-- Is the 32-bit address outside the 26-bit space (R69, R344)? -/
def illegalAddress (a : Word) : Bool :=
  a.extractLsb' 26 6 != 0#6

/-- The 26 bits of an address that reach the bus. -/
def busAddr (a : Word) : Addr :=
  a.setWidth 26

/-! ## The outside -/

/-- Nothing happens outside: the pins quiet, no other master, no rule changed (R8). -/
def Inputs.quiet : Inputs where
  reset := false
  fiqLow := false
  irqLow := false
  fiqDraw := false
  irqDraw := false
  busWrites := []
  between := []
  memSystem := none
  coprocessors := none

/-- What the outside does during this step. -/
def State.now (s : State) : Inputs :=
  s.inputs.headD Inputs.quiet

/-- Memory after another master's writes, the addresses taken modulo 2^26. -/
def masterWrites (m : List Host.Cell) (l : List Host.Cell) : List Host.Cell :=
  l.foldl (fun m e => writeByte m (e.1 % 2 ^ 26) e.2) m

/-- The bus before a data access (R67, R82): what other masters write there is written, and used up. -/
def State.busGap (s : State) : State :=
  match s.now.between with
  | [] => s
  | l :: rest => { s with mem := masterWrites s.mem l, inputs := { s.now with between := rest } :: s.inputs.tail }

/-- The bus before and between `n` accesses. -/
def State.busGaps (s : State) : Nat → State
  | 0 => s
  | n + 1 => (s.busGaps n).busGap

/-- The bus after the last data access: what other masters still write in this step is written, and used up. -/
def State.busRest (s : State) : State :=
  { s with
    mem := masterWrites s.mem s.now.between.flatten
    inputs := { s.now with between := [] } :: s.inputs.tail }

/-! ## The co-processors -/

/-- Does the rule answer for number `cp` to the instruction word `w`, offered in mode `m` (R295, R316)? -/
def CpRule.applies (r : CpRule) (cp : BitVec 4) (w : Word) (m : Mode) : Bool :=
  r.cp == cp && w &&& r.mask == r.value && r.mode.all (· == m) && r.trans.all (· == (m == .usr))

/-- What co-processor number `cp` answers to the instruction word `w` in the mode of the moment (R295, R316). -/
def State.cpReply (s : State) (cp : BitVec 4) (w : Word) : CpReply :=
  ((s.coprocessors.find? (·.applies cp w s.psr.mode)).map (·.reply)).getD .absent

def CpReply.isReady : CpReply → Bool
  | .ready .. => true
  | _ => false

/-- The answer to an offer (R296 to R299, R321): that of the number in the instruction, or, for an undefined instruction,
which names none, of the first co-processor that takes it, else busy where one is. -/
def State.reply (s : State) (cp : Option (BitVec 4)) (w : Word) : CpReply :=
  match cp with
  | some n => s.cpReply n w
  | none =>
    let all := (List.range 16).map fun n => s.cpReply (BitVec.ofNat 4 n) w
    (all.find? (·.isReady)).getD (if all.contains .busy then .busy else .absent)

/-- A co-processor has taken `w`, and `sent` goes to it (entry 10). -/
def State.accepted (s : State) (w : Word) (sent : List Word) : State :=
  { s with cpLog := s.cpLog ++ [{ instr := w, sent }] }

/-- Offering the instruction word `w` to the co-processors (R296 to R299, R321): none takes it and the undefined instruction
trap is taken; one is busy and the processor stays on the instruction; or one takes it and `taken` goes on. -/
def State.offer (s : State) (cp : Option (BitVec 4)) (w : Word) (taken : Word → List Word → Result) : Result :=
  match s.reply cp w with
  | .absent => .next (s.raise .undefined)
  | .busy => .next { s with busyWait := true }
  | .ready first rest => taken first rest

end Sys2Proof.Machine
end

