-- ==== Sys2Proof/Machine/Flags.lean ====
section
/-! DEFINITION. The condition field (spec/40_condition_field.md) and every flag computation
(spec/42_data_processing.md R177, R178; spec/43_multiply.md R224). -/

namespace Sys2Proof.Machine

/-- `CondPassed` (R132 to R148). -/
def condPassed (c : Cond) (p : Psr) : Bool :=
  match c with
  | .eq => p.z
  | .ne => !p.z
  | .cs => p.c
  | .cc => !p.c
  | .mi => p.n
  | .pl => !p.n
  | .vs => p.v
  | .vc => !p.v
  | .hi => p.c && !p.z
  | .ls => !p.c || p.z
  | .ge => p.n == p.v
  | .lt => p.n != p.v
  | .gt => !p.z && p.n == p.v
  | .le => p.z || p.n != p.v
  | .al => true
  | .nv => false

/-- Conditional execution (R130, R146): an instruction whose condition fails only goes on to the next one. -/
def whenPassed (c : Cond) (s : State) (k : Result) : Result :=
  if condPassed c s.psr then k else .next s.advance

/-- Flags of the logical operations (R177): `sc` is the shifter carry-out. -/
def logicalFlags (p : Psr) (result : Word) (sc : Bool) : Psr :=
  { p with n := result.msb, z := result == 0, c := sc }

/-- The 33-bit sum of R178. -/
def sum33 (a b : Word) (cin : Bool) : BitVec 33 :=
  a.setWidth 33 + b.setWidth 33 + (BitVec.ofBool cin).setWidth 33

/-- The result of an arithmetic operation (R178). -/
def sumResult (a b : Word) (cin : Bool) : Word :=
  (sum33 a b cin).setWidth 32

/-- Flags of the arithmetic operations (R178): C is the carry out of bit 31, V the signed overflow. -/
def arithmeticFlags (p : Psr) (a b : Word) (cin : Bool) : Psr :=
  let result := sumResult a b cin
  { p with
    n := result.msb
    z := result == 0
    c := (sum33 a b cin).msb
    v := a.msb == b.msb && result.msb != a.msb }

/-- Flags of MULS and MLAS for a product `r` (R224): C is a free value. -/
def multiplyFlags (p : Psr) (stamp : Nat) (r : Word) : Psr :=
  { p with n := r.msb, z := r == 0, c := Config.freeBit stamp .mulC }

/-- Flags of MULS and MLAS with Rd = Rm (R223, R224): N, Z and C are free values. -/
def multiplyFlagsClash (p : Psr) (stamp : Nat) : Psr :=
  { p with n := Config.freeBit stamp .mulN, z := Config.freeBit stamp .mulZ, c := Config.freeBit stamp .mulC }

/-- All four flags free: MULS and MLAS with Rd = 15 (R225), and an instruction that RESET interrupts (R391). -/
def freeFlags (p : Psr) (stamp : Nat) : Psr :=
  { multiplyFlagsClash p stamp with v := Config.freeBit stamp .mulV }

end Sys2Proof.Machine
end

