-- ==== Sys2Proof/Machine/Operands.lean ====
section
/-! DEFINITION. Every operand form: the barrel shifter, the rotated immediate and the reading of registers, R15 among them
(spec/42_data_processing.md R161 to R176; spec/44_single_data_transfer.md R231, R232; spec/45_block_data_transfer.md R261,
R262; spec/47_coprocessor.md R307). -/

namespace Sys2Proof.Machine

/-! ## The barrel shifter -/

/-- `ROR32(v, n)` (R9). -/
def ror32 (v : Word) (n : Nat) : Word :=
  v.rotateRight (n % 32)

/-- An instruction-specified shift (R165 to R169) of `v` with the C flag `cin`: operand and shifter carry-out. -/
def shiftImm (sh : ImmShift) (v : Word) (cin : Bool) : Word × Bool :=
  match sh with
  | .lsl n => if n = 0 then (v, cin) else (v <<< n, v.getLsbD (32 - n))
  | .lsr n => (v >>> n, v.getLsbD (n - 1))
  | .asr n => (v.sshiftRight n, v.getLsbD (min n 32 - 1))
  | .ror n => (ror32 v n, v.getLsbD (n - 1))
  | .rrx => (BitVec.ofBool cin ++ v.extractLsb' 1 31, v.getLsbD 0)

/-- A register-specified shift by `amt`, 0 to 255 (R170 to R174). -/
def shiftReg (t : ShiftType) (amt : Nat) (v : Word) (cin : Bool) : Word × Bool :=
  if amt = 0 then (v, cin)
  else match t with
    | .lsl => if amt ≤ 32 then (v <<< amt, v.getLsbD (32 - amt)) else (0, false)
    | .lsr => if amt ≤ 32 then (v >>> amt, v.getLsbD (amt - 1)) else (0, false)
    | .asr => if amt < 32 then (v.sshiftRight amt, v.getLsbD (amt - 1)) else (v.sshiftRight 32, v.msb)
    | .ror => if amt % 32 = 0 then (v, v.msb) else (ror32 v (amt % 32), v.getLsbD (amt % 32 - 1))

/-- A rotated immediate (R176). -/
def rotatedImm (o : RotImm) (cin : Bool) : Word × Bool :=
  let v := ror32 (o.imm8.setWidth 32) (2 * o.rot.toNat)
  (v, if o.rot = 0 then cin else v.msb)

/-! ## Data processing operands -/

/-- The second operand of a data processing instruction (R106, R107). -/
inductive Op2 where
  | imm (o : RotImm)
  | shift (o : ShiftedReg)
  | regShift (o : RegShifted)
deriving DecidableEq, Repr

/-- How far ahead R15 reads as Rn or Rm: 12 bytes when the shift amount is in a register, else 8 (R161, R162). -/
def Op2.ahead : Op2 → Addr
  | .regShift _ => 12
  | _ => 8

/-- The first operand (R161): R15 reads as the PC alone. -/
def State.firstOperand (s : State) (rn : Reg) (o : Op2) : Word :=
  s.readX .rn (s.r15pc o.ahead) rn

/-- The shift amount in a register (R163): the low byte of Rs; R15 reads as the PC alone, 8 bytes on. -/
def State.shiftAmount (s : State) (rs : Reg) : Nat :=
  ((s.readX .rs (s.r15pc 8) rs).extractLsb' 0 8).toNat

/-- The second operand and the shifter carry-out (R162 to R176): R15 as Rm reads with the PSR. -/
def State.secondOperand (s : State) (o : Op2) : Word × Bool :=
  match o with
  | .imm i => rotatedImm i s.psr.c
  | .shift r => shiftImm r.shift (s.readX .rm (s.r15full o.ahead) r.rm) s.psr.c
  | .regShift r => shiftReg r.type (s.shiftAmount r.rs) (s.readX .rm (s.r15full o.ahead) r.rm) s.psr.c

/-! ## Addresses of the data transfers -/

/-- The offset of a single data transfer (R231). -/
inductive Offset where
  | imm (off : BitVec 12)
  | reg (o : ShiftedReg)
deriving DecidableEq, Repr

/-- The value of the offset (R231, R244 (c)): the shifter carry is discarded. -/
def State.offset (s : State) : Offset → Word
  | .imm off => off.setWidth 32
  | .reg o => (shiftImm o.shift (s.readX .rm (s.r15full 8) o.rm) s.psr.c).1

/-- The base with the offset added or subtracted, modulo 2^32 (R232, R307). -/
def indexed (u : Bool) (base off : Word) : Word :=
  if u then base + off else base - off

/-- The base of a single or co-processor data transfer (R232, R244 (b), R308): R15 reads as the PC alone. -/
def State.transferBase (s : State) (rn : Reg) : Word :=
  s.readX .rn (s.r15pc 8) rn

/-- `idx` of R232. -/
def State.transferIndex (s : State) (u : Bool) (rn : Reg) (o : Offset) : Word :=
  indexed u (s.transferBase rn) (s.offset o)

/-- The transfer address of R232: `idx` when pre-indexed, else the base. -/
def State.transferAddr (s : State) (p u : Bool) (rn : Reg) (o : Offset) : Word :=
  if p then s.transferIndex u rn o else s.transferBase rn

/-- Is the base written back (R232)? Always when post-indexed. -/
def writesBack (p w : Bool) : Bool :=
  !p || w

/-- Is TRANS forced LOW (R240)? -/
def forcesTranslation (p w : Bool) : Bool :=
  !p && w

/-- `idx` of R307: the offset counts words. -/
def State.coIndex (s : State) (u : Bool) (rn : Reg) (off : BitVec 8) : Word :=
  indexed u (s.transferBase rn) (off.setWidth 32 * 4)

/-- The transfer address of R307. -/
def State.coAddr (s : State) (p u : Bool) (rn : Reg) (off : BitVec 8) : Word :=
  if p then s.coIndex u rn off else s.transferBase rn

/-- The register numbers of a list, in increasing order (R261). -/
def listed (list : BitVec 16) : List Reg :=
  ((List.range 16).filter list.getLsbD).map (BitVec.ofNat 4)

/-- The base of a block transfer (R269): R15 reads with the PSR. -/
def State.blockBase (s : State) (rn : Reg) : Word :=
  s.readX .rn (s.r15full 8) rn

/-- The start address of a block transfer of `n` registers (R262). -/
def blockStart (p u : Bool) (b : Word) (n : Nat) : Word :=
  match u, p with
  | true, false => b
  | true, true => b + 4
  | false, false => b - BitVec.ofNat 32 (4 * n) + 4
  | false, true => b - BitVec.ofNat 32 (4 * n)

/-- The final base of a block transfer of `n` registers (R262). -/
def blockFinal (u : Bool) (b : Word) (n : Nat) : Word :=
  if u then b + BitVec.ofNat 32 (4 * n) else b - BitVec.ofNat 32 (4 * n)

/-- The bus address of the `k`-th word of a transfer of consecutive words, `(start + 4k)[25:0]`: bits 1:0 of the start stand on
the pins, and a word access ignores them (R65, R263, R266). -/
def blockAddr (start : Word) (k : Nat) : Addr :=
  busAddr (start + BitVec.ofNat 32 (4 * k))

end Sys2Proof.Machine
end

