-- ==== Sys2Proof/Machine/BlockTransfer.lean ====
section
/-! DEFINITION. LDM and STM (spec/45_block_data_transfer.md R260 to R281). -/

namespace Sys2Proof.Machine

/-- Does an S-bit form transfer the User bank (R268)? In User mode it acts as S = 0 (R272, R273; entry 17). -/
def State.loadsUserBank (st : State) (s : Bool) (list : BitVec 16) : Bool :=
  s && !list.getLsbD 15 && st.psr.mode != .usr

/-- As above, for STM. -/
def State.storesUserBank (st : State) (s : Bool) : Bool :=
  s && st.psr.mode != .usr

/-- `s` of R262 for a list. -/
def State.blockFirst (st : State) (p u : Bool) (rn : Reg) (list : BitVec 16) : Word :=
  blockStart p u (st.blockBase rn) (listed list).length

/-- `f` of R262 for a list. -/
def State.blockLast (st : State) (u : Bool) (rn : Reg) (list : BitVec 16) : Word :=
  blockFinal u (st.blockBase rn) (listed list).length

/-- The write-back of a block transfer (R264), which takes place whatever becomes of the transfers; never to R15 (U7). -/
def State.blockBack (st : State) (u w : Bool) (rn : Reg) (list : BitVec 16) : State :=
  if w then st.writeX rn (st.blockLast u rn list) else st

/-- The reads of `n` consecutive words, in ascending order, none for one that aborts (R263, R277); other masters may write
before each. -/
def State.blockReads (st : State) (start : Word) (n : Nat) : List (Option Word) :=
  (List.range n).map fun k => (st.busGaps (k + 1)).loadWord (blockAddr start k) false

/-- Loads registers of the bank of mode `m`, in order; R15 is left to the end of the instruction. -/
def State.loadRegs (st : State) (m : Mode) : List (Reg × Word) → State
  | [] => st
  | (r, v) :: rest => (st.writeBank m r v).loadRegs m rest

/-- The end of an LDM without an abort (R270, R273, R274): R15 comes last and takes the PC, and the PSR too when `s` is
set; a user-bank load leaves the bank unsettled (R401). -/
def State.finishLdm (st : State) (s user : Bool) (loads : List (Reg × Word)) : State :=
  match loads.find? (fun e => e.1 == 15) with
  | some e => if s then st.writePCPSR e.2 else st.writePC e.2
  | none =>
    { st.advance with
      bank := if user then (if st.psr.mode = .fiq then .unsettled8 else .unsettled13) else .settled }

/-- Which registers an LDM aborted at its `j`-th access has loaded (R277): all before the last one loaded, that one by a
free choice (D18), never the base register. -/
def State.loadedBeforeAbort (st : State) (m : Mode) (rn : Reg) (loads : List (Reg × Word)) (j : Nat) : List (Reg × Word) :=
  (loads.take (if Config.freeBit st.stamp .beforeAbort then j else j - 1)).filter
    fun e => physOf m e.1 != physOf st.psr.mode rn

/-- LDM (R270). -/
def execLdm (c : Cond) (p u s w : Bool) (rn : Reg) (list : BitVec 16) (st : State) : Result :=
  whenPassed c st <|
    if list = 0 then .refused .emptyRegisterList
    else if st.loadsUserBank s list && w then .refused .userBankWriteBack
    else
      let regs := listed list
      let m := if st.loadsUserBank s list then .usr else st.psr.mode
      let start := st.blockFirst p u rn list
      let t := st.blockBack u w rn list
      st.guardWrites (if w then [rn] else []) <|
        if illegalAddress start then .next (t.raise .addressException)
        else
          let reads := t.blockReads start regs.length
          let loads := regs.zip (reads.map (·.getD 0))
          let v := t.busGaps regs.length
          match reads.findIdx? (·.isNone) with
          | some j =>
            let done := st.loadedBeforeAbort m rn loads j
            st.guardWrites (done.map (·.1)) (.next ((v.loadRegs m done).raise .dataAbort))
          | none =>
            st.guardWrites regs (.next ((v.loadRegs m loads).finishLdm s (st.loadsUserBank s list) loads))

/-- The registers an STM stores, each with its place in the list (R265, R271): the first is read before the write-back,
the others after it; R15 reads with the PSR, 12 bytes on. -/
def storedBlock (before after : State) (m : Mode) : List Reg → List Word
  | [] => []
  | r :: rest =>
    before.readBank m (.stored 0) (before.r15full 12) r ::
      rest.mapIdx fun k q => after.readBank m (.stored (k + 1)) (after.r15full 12) q

/-- Stores consecutive words in ascending order, each accepted or aborted on its own (R263, R276); `k` is the place of the
first. Answers the state and whether an access was aborted. -/
def State.storeWords (st : State) (start : Word) (k : Nat) : List Word → State × Bool
  | [] => (st, false)
  | v :: rest =>
    match st.busGap.storeWord (blockAddr start k) v false with
    | some t => t.storeWords start (k + 1) rest
    | none => ((st.busGap.storeWords start (k + 1) rest).1, true)

/-- The accesses of an STM (R271, R272), after the write-back: the state, and whether one was aborted. -/
def State.stmStores (st : State) (p u s w : Bool) (rn : Reg) (list : BitVec 16) : State × Bool :=
  let m := if st.storesUserBank s then .usr else st.psr.mode
  let t := st.blockBack u w rn list
  t.storeWords (st.blockFirst p u rn list) 0 (storedBlock st t m (listed list))

/-- STM (R271, R272). -/
def execStm (c : Cond) (p u s w : Bool) (rn : Reg) (list : BitVec 16) (st : State) : Result :=
  whenPassed c st <|
    if list = 0 then .refused .emptyRegisterList
    else if st.storesUserBank s && w then .refused .userBankWriteBack
    else
      st.guardWrites (if w then [rn] else []) <|
        if illegalAddress (st.blockFirst p u rn list) then .next ((st.blockBack u w rn list).raise .addressException)
        else
          let r := st.stmStores p u s w rn list
          .next (if r.2 then r.1.raise .dataAbort else r.1.advance)

end Sys2Proof.Machine
end

