-- ==== Sys2Proof/Machine/Branch.lean ====
section
/-! DEFINITION. B and BL (spec/41_branch.md R150 to R152). -/

namespace Sys2Proof.Machine

/-- The branch target as a word address (R151): two words on, plus the offset, modulo 2^24. -/
def State.branchTarget (st : State) (off : BitVec 24) : BitVec 24 :=
  st.pc + 2 + off

/-- Takes a branch: the PC written, the prefetched words discarded (R41, R150). -/
def State.branchTo (st : State) (target : BitVec 24) : State :=
  { st with pc := target, pipe := [], bank := .settled, busyWait := false }

/-- B (R150). -/
def execB (c : Cond) (off : BitVec 24) (st : State) : Result :=
  whenPassed c st (.next (st.branchTo (st.branchTarget off)))

/-- BL (R152): R14 of the current bank takes the PC and the PSR of the next instruction. -/
def execBl (c : Cond) (off : BitVec 24) (st : State) : Result :=
  whenPassed c st <|
    st.guardWrites [14] (.next ((st.writeX 14 (st.r15full 4)).branchTo (st.branchTarget off)))

end Sys2Proof.Machine
end

