-- ==== Sys2Proof/Machine/Coprocessor.lean ====
section
/-! DEFINITION. The co-processor instructions CDP, LDC, STC, MRC, MCR (spec/47_coprocessor.md R295 to R316), the
processor's side. -/

namespace Sys2Proof.Machine

/-- CDP (R303): once a co-processor takes it, nothing but the PC. -/
def execCdp (c : Cond) (opc : BitVec 4) (crn crd cp : Reg) (info : BitVec 3) (crm : Reg) (st : State) : Result :=
  let word := cdpWord c opc crn crd cp info crm
  whenPassed c st (st.offer (some cp) word fun _ _ => .next (st.accepted word []).advance)

/-- The write-back of LDC and STC (R307): if and only if W = 1. -/
def State.coBack (st : State) (u w : Bool) (rn : Reg) (off : BitVec 8) : State :=
  if w then st.writeX rn (st.coIndex u rn off) else st

/-- LDC (R305, R307 to R311): the words go to the co-processor, as many as it asks for; those of aborted accesses do
not. -/
def execLdc (c : Cond) (p u n w : Bool) (rn crd cp : Reg) (off : BitVec 8) (st : State) : Result :=
  let word := cdtWord c p u n w true rn crd cp off
  whenPassed c st <| st.offer (some cp) word fun _ rest =>
    if rn = 15 ∧ w then .refused .coprocessorWritesBackR15
    else
      let start := st.coAddr p u rn off
      let t := st.coBack u w rn off
      st.guardWrites (if w then [rn] else []) <| .next <|
        if illegalAddress start then (t.accepted word []).raise .addressException
        else
          let reads := t.blockReads start (rest.length + 1)
          let v := (t.busGaps (rest.length + 1)).accepted word (reads.filterMap id)
          if reads.any (·.isNone) then v.raise .dataAbort else v.advance

/-- STC (R306 to R311): stores the words the co-processor supplies. -/
def execStc (c : Cond) (p u n w : Bool) (rn crd cp : Reg) (off : BitVec 8) (st : State) : Result :=
  let word := cdtWord c p u n w false rn crd cp off
  whenPassed c st <| st.offer (some cp) word fun first rest =>
    if rn = 15 ∧ w then .refused .coprocessorWritesBackR15
    else
      let start := st.coAddr p u rn off
      let t := (st.coBack u w rn off).accepted word []
      st.guardWrites (if w then [rn] else []) <| .next <|
        if illegalAddress start then t.raise .addressException
        else
          let r := t.storeWords start 0 (first :: rest)
          if r.2 then r.1.raise .dataAbort else r.1.advance

/-- The flags MRC takes with Rd = 15 (R313). MARK: DESIGN CHOICE (entry 31): R37 counts this transfer among the writes of the
whole PSR, which outside User mode would take I, F and the mode too; R313, the instruction's own rule, is followed. -/
def Psr.withFlagsOf (p : Psr) (w : Word) : Psr :=
  { p with n := w.getLsbD 31, z := w.getLsbD 30, c := w.getLsbD 29, v := w.getLsbD 28 }

/-- MRC (R312, R313). -/
def execMrc (c : Cond) (opc : BitVec 3) (crn rd cp : Reg) (info : BitVec 3) (crm : Reg) (st : State) : Result :=
  let word := crtWord c opc true crn rd cp info crm
  whenPassed c st <| st.offer (some cp) word fun v _ =>
    let t := st.accepted word []
    if rd = 15 then .next { t.advance with psr := st.psr.withFlagsOf v }
    else st.guardWrites [rd] (.next (t.writeX rd v).advance)

/-- MCR (R314): R15 is sent with the PSR, 12 bytes on. -/
def execMcr (c : Cond) (opc : BitVec 3) (crn rd cp : Reg) (info : BitVec 3) (crm : Reg) (st : State) : Result :=
  let word := crtWord c opc false crn rd cp info crm
  whenPassed c st <| st.offer (some cp) word fun _ _ =>
    .next (st.accepted word [st.readX .rd (st.r15full 12) rd]).advance

end Sys2Proof.Machine
end

