-- ==== Sys2Proof/Machine/DataProcessing.lean ====
section
/-! DEFINITION. The data processing instructions (spec/42_data_processing.md R160 to R197): the shared executions, then
one meaning per instruction and operand form. -/

namespace Sys2Proof.Machine

/-- Writing a result and, when `s` is set, the flags (R175): R15 takes the PC, and the PSR too when `s` is set. -/
def State.writeResult (st : State) (s : Bool) (rd : Reg) (result : Word) (flags : Psr) : Result :=
  if rd = 15 then .next (if s then st.writePCPSR result else st.writePC result)
  else st.guardWrites [rd] (.next { (st.writeX rd result).advance with psr := if s then flags else st.psr })

/-- A logical operation that writes its result (R160, R177). -/
def logical (f : Word → Word → Word) (c : Cond) (s : Bool) (rn rd : Reg) (o : Op2) (st : State) : Result :=
  whenPassed c st <|
    let b := st.secondOperand o
    let result := f (st.firstOperand rn o) b.1
    st.writeResult s rd result (logicalFlags st.psr result b.2)

/-- The two addends and the carry-in of R178, from the operands and the C flag. -/
abbrev Addends := Word → Word → Bool → Word × Word × Bool

/-- SUB, CMP (R182, R190). -/
def addendsSub : Addends := fun a b _ => (a, ~~~b, true)
/-- RSB (R183). -/
def addendsRsb : Addends := fun a b _ => (b, ~~~a, true)
/-- ADD, CMN (R184, R191). -/
def addendsAdd : Addends := fun a b _ => (a, b, false)
/-- ADC (R185). -/
def addendsAdc : Addends := fun a b c => (a, b, c)
/-- SBC (R186). -/
def addendsSbc : Addends := fun a b c => (a, ~~~b, c)
/-- RSC (R187). -/
def addendsRsc : Addends := fun a b c => (b, ~~~a, c)

/-- The addends of an instruction in a state. -/
def State.addends (st : State) (f : Addends) (rn : Reg) (o : Op2) : Word × Word × Bool :=
  f (st.firstOperand rn o) (st.secondOperand o).1 st.psr.c

/-- An arithmetic operation that writes its result (R160, R178). -/
def arithmetic (f : Addends) (c : Cond) (s : Bool) (rn rd : Reg) (o : Op2) (st : State) : Result :=
  whenPassed c st <|
    let x := st.addends f rn o
    st.writeResult s rd (sumResult x.1 x.2.1 x.2.2) (arithmeticFlags st.psr x.1 x.2.1 x.2.2)

/-- A test operation (R179): the flags alone; with Rd = 15 (suffix P) the PSR from the result, and the bank unsettled
after a change of mode (R400). -/
def State.writeTest (st : State) (rd : Reg) (result : Word) (flags : Psr) : Result :=
  if rd = 15 then
    let t := st.writePSR result
    .next { t.advance with bank := bankAfter st.psr.mode t.psr.mode }
  else .next { st.advance with psr := flags }

/-- TST and TEQ (R188, R189). -/
def testLogical (f : Word → Word → Word) (c : Cond) (rn rd : Reg) (o : Op2) (st : State) : Result :=
  whenPassed c st <|
    let b := st.secondOperand o
    let result := f (st.firstOperand rn o) b.1
    st.writeTest rd result (logicalFlags st.psr result b.2)

/-- CMP and CMN (R190, R191). -/
def testArithmetic (f : Addends) (c : Cond) (rn rd : Reg) (o : Op2) (st : State) : Result :=
  whenPassed c st <|
    let x := st.addends f rn o
    st.writeTest rd (sumResult x.1 x.2.1 x.2.2) (arithmeticFlags st.psr x.1 x.2.1 x.2.2)

/-- TST, TEQ, CMP, CMN with S = 0 (R118 (d)): refused unless the condition fails (R118 (e)). -/
def unallocatedTest (c : Cond) (st : State) : Result :=
  whenPassed c st (.refused .unallocatedTest)

/-! ## AND (R180) -/

def execAndImm (c : Cond) (s : Bool) (rn rd : Reg) (o : RotImm) (st : State) : Result :=
  logical (fun a b => a &&& b) c s rn rd (.imm o) st

def execAndShift (c : Cond) (s : Bool) (rn rd : Reg) (o : ShiftedReg) (st : State) : Result :=
  logical (fun a b => a &&& b) c s rn rd (.shift o) st

def execAndRegShift (c : Cond) (s : Bool) (rn rd : Reg) (o : RegShifted) (st : State) : Result :=
  logical (fun a b => a &&& b) c s rn rd (.regShift o) st

/-! ## EOR (R181) -/

def execEorImm (c : Cond) (s : Bool) (rn rd : Reg) (o : RotImm) (st : State) : Result :=
  logical (fun a b => a ^^^ b) c s rn rd (.imm o) st

def execEorShift (c : Cond) (s : Bool) (rn rd : Reg) (o : ShiftedReg) (st : State) : Result :=
  logical (fun a b => a ^^^ b) c s rn rd (.shift o) st

def execEorRegShift (c : Cond) (s : Bool) (rn rd : Reg) (o : RegShifted) (st : State) : Result :=
  logical (fun a b => a ^^^ b) c s rn rd (.regShift o) st

/-! ## SUB (R182) -/

def execSubImm (c : Cond) (s : Bool) (rn rd : Reg) (o : RotImm) (st : State) : Result :=
  arithmetic addendsSub c s rn rd (.imm o) st

def execSubShift (c : Cond) (s : Bool) (rn rd : Reg) (o : ShiftedReg) (st : State) : Result :=
  arithmetic addendsSub c s rn rd (.shift o) st

def execSubRegShift (c : Cond) (s : Bool) (rn rd : Reg) (o : RegShifted) (st : State) : Result :=
  arithmetic addendsSub c s rn rd (.regShift o) st

/-! ## RSB (R183) -/

def execRsbImm (c : Cond) (s : Bool) (rn rd : Reg) (o : RotImm) (st : State) : Result :=
  arithmetic addendsRsb c s rn rd (.imm o) st

def execRsbShift (c : Cond) (s : Bool) (rn rd : Reg) (o : ShiftedReg) (st : State) : Result :=
  arithmetic addendsRsb c s rn rd (.shift o) st

def execRsbRegShift (c : Cond) (s : Bool) (rn rd : Reg) (o : RegShifted) (st : State) : Result :=
  arithmetic addendsRsb c s rn rd (.regShift o) st

/-! ## ADD (R184) -/

def execAddImm (c : Cond) (s : Bool) (rn rd : Reg) (o : RotImm) (st : State) : Result :=
  arithmetic addendsAdd c s rn rd (.imm o) st

def execAddShift (c : Cond) (s : Bool) (rn rd : Reg) (o : ShiftedReg) (st : State) : Result :=
  arithmetic addendsAdd c s rn rd (.shift o) st

def execAddRegShift (c : Cond) (s : Bool) (rn rd : Reg) (o : RegShifted) (st : State) : Result :=
  arithmetic addendsAdd c s rn rd (.regShift o) st

/-! ## ADC (R185) -/

def execAdcImm (c : Cond) (s : Bool) (rn rd : Reg) (o : RotImm) (st : State) : Result :=
  arithmetic addendsAdc c s rn rd (.imm o) st

def execAdcShift (c : Cond) (s : Bool) (rn rd : Reg) (o : ShiftedReg) (st : State) : Result :=
  arithmetic addendsAdc c s rn rd (.shift o) st

def execAdcRegShift (c : Cond) (s : Bool) (rn rd : Reg) (o : RegShifted) (st : State) : Result :=
  arithmetic addendsAdc c s rn rd (.regShift o) st

/-! ## SBC (R186) -/

def execSbcImm (c : Cond) (s : Bool) (rn rd : Reg) (o : RotImm) (st : State) : Result :=
  arithmetic addendsSbc c s rn rd (.imm o) st

def execSbcShift (c : Cond) (s : Bool) (rn rd : Reg) (o : ShiftedReg) (st : State) : Result :=
  arithmetic addendsSbc c s rn rd (.shift o) st

def execSbcRegShift (c : Cond) (s : Bool) (rn rd : Reg) (o : RegShifted) (st : State) : Result :=
  arithmetic addendsSbc c s rn rd (.regShift o) st

/-! ## RSC (R187) -/

def execRscImm (c : Cond) (s : Bool) (rn rd : Reg) (o : RotImm) (st : State) : Result :=
  arithmetic addendsRsc c s rn rd (.imm o) st

def execRscShift (c : Cond) (s : Bool) (rn rd : Reg) (o : ShiftedReg) (st : State) : Result :=
  arithmetic addendsRsc c s rn rd (.shift o) st

def execRscRegShift (c : Cond) (s : Bool) (rn rd : Reg) (o : RegShifted) (st : State) : Result :=
  arithmetic addendsRsc c s rn rd (.regShift o) st

/-! ## TST (R188) -/

def execTstImm (c : Cond) (rn rd : Reg) (o : RotImm) (st : State) : Result :=
  testLogical (fun a b => a &&& b) c rn rd (.imm o) st

def execTstShift (c : Cond) (rn rd : Reg) (o : ShiftedReg) (st : State) : Result :=
  testLogical (fun a b => a &&& b) c rn rd (.shift o) st

def execTstRegShift (c : Cond) (rn rd : Reg) (o : RegShifted) (st : State) : Result :=
  testLogical (fun a b => a &&& b) c rn rd (.regShift o) st

def execTstImmS0 (c : Cond) (st : State) : Result :=
  unallocatedTest c st

def execTstShiftS0 (c : Cond) (st : State) : Result :=
  unallocatedTest c st

def execTstRegShiftS0 (c : Cond) (st : State) : Result :=
  unallocatedTest c st

/-! ## TEQ (R189) -/

def execTeqImm (c : Cond) (rn rd : Reg) (o : RotImm) (st : State) : Result :=
  testLogical (fun a b => a ^^^ b) c rn rd (.imm o) st

def execTeqShift (c : Cond) (rn rd : Reg) (o : ShiftedReg) (st : State) : Result :=
  testLogical (fun a b => a ^^^ b) c rn rd (.shift o) st

def execTeqRegShift (c : Cond) (rn rd : Reg) (o : RegShifted) (st : State) : Result :=
  testLogical (fun a b => a ^^^ b) c rn rd (.regShift o) st

def execTeqImmS0 (c : Cond) (st : State) : Result :=
  unallocatedTest c st

def execTeqShiftS0 (c : Cond) (st : State) : Result :=
  unallocatedTest c st

def execTeqRegShiftS0 (c : Cond) (st : State) : Result :=
  unallocatedTest c st

/-! ## CMP (R190) -/

def execCmpImm (c : Cond) (rn rd : Reg) (o : RotImm) (st : State) : Result :=
  testArithmetic addendsSub c rn rd (.imm o) st

def execCmpShift (c : Cond) (rn rd : Reg) (o : ShiftedReg) (st : State) : Result :=
  testArithmetic addendsSub c rn rd (.shift o) st

def execCmpRegShift (c : Cond) (rn rd : Reg) (o : RegShifted) (st : State) : Result :=
  testArithmetic addendsSub c rn rd (.regShift o) st

def execCmpImmS0 (c : Cond) (st : State) : Result :=
  unallocatedTest c st

def execCmpShiftS0 (c : Cond) (st : State) : Result :=
  unallocatedTest c st

def execCmpRegShiftS0 (c : Cond) (st : State) : Result :=
  unallocatedTest c st

/-! ## CMN (R191) -/

def execCmnImm (c : Cond) (rn rd : Reg) (o : RotImm) (st : State) : Result :=
  testArithmetic addendsAdd c rn rd (.imm o) st

def execCmnShift (c : Cond) (rn rd : Reg) (o : ShiftedReg) (st : State) : Result :=
  testArithmetic addendsAdd c rn rd (.shift o) st

def execCmnRegShift (c : Cond) (rn rd : Reg) (o : RegShifted) (st : State) : Result :=
  testArithmetic addendsAdd c rn rd (.regShift o) st

def execCmnImmS0 (c : Cond) (st : State) : Result :=
  unallocatedTest c st

def execCmnShiftS0 (c : Cond) (st : State) : Result :=
  unallocatedTest c st

def execCmnRegShiftS0 (c : Cond) (st : State) : Result :=
  unallocatedTest c st

/-! ## ORR (R192) -/

def execOrrImm (c : Cond) (s : Bool) (rn rd : Reg) (o : RotImm) (st : State) : Result :=
  logical (fun a b => a ||| b) c s rn rd (.imm o) st

def execOrrShift (c : Cond) (s : Bool) (rn rd : Reg) (o : ShiftedReg) (st : State) : Result :=
  logical (fun a b => a ||| b) c s rn rd (.shift o) st

def execOrrRegShift (c : Cond) (s : Bool) (rn rd : Reg) (o : RegShifted) (st : State) : Result :=
  logical (fun a b => a ||| b) c s rn rd (.regShift o) st

/-! ## MOV (R193) -/

def execMovImm (c : Cond) (s : Bool) (rn rd : Reg) (o : RotImm) (st : State) : Result :=
  logical (fun _ b => b) c s rn rd (.imm o) st

def execMovShift (c : Cond) (s : Bool) (rn rd : Reg) (o : ShiftedReg) (st : State) : Result :=
  logical (fun _ b => b) c s rn rd (.shift o) st

def execMovRegShift (c : Cond) (s : Bool) (rn rd : Reg) (o : RegShifted) (st : State) : Result :=
  logical (fun _ b => b) c s rn rd (.regShift o) st

/-! ## BIC (R194) -/

def execBicImm (c : Cond) (s : Bool) (rn rd : Reg) (o : RotImm) (st : State) : Result :=
  logical (fun a b => a &&& ~~~b) c s rn rd (.imm o) st

def execBicShift (c : Cond) (s : Bool) (rn rd : Reg) (o : ShiftedReg) (st : State) : Result :=
  logical (fun a b => a &&& ~~~b) c s rn rd (.shift o) st

def execBicRegShift (c : Cond) (s : Bool) (rn rd : Reg) (o : RegShifted) (st : State) : Result :=
  logical (fun a b => a &&& ~~~b) c s rn rd (.regShift o) st

/-! ## MVN (R195) -/

def execMvnImm (c : Cond) (s : Bool) (rn rd : Reg) (o : RotImm) (st : State) : Result :=
  logical (fun _ b => ~~~b) c s rn rd (.imm o) st

def execMvnShift (c : Cond) (s : Bool) (rn rd : Reg) (o : ShiftedReg) (st : State) : Result :=
  logical (fun _ b => ~~~b) c s rn rd (.shift o) st

def execMvnRegShift (c : Cond) (s : Bool) (rn rd : Reg) (o : RegShifted) (st : State) : Result :=
  logical (fun _ b => ~~~b) c s rn rd (.regShift o) st

end Sys2Proof.Machine
end

