-- ==== Sys2Proof/Machine/Multiply.lean ====
section
/-! DEFINITION. MUL and MLA (spec/43_multiply.md R220 to R226), and the unallocated encodings around them
(spec/30_encoding.md R118 (c)). -/

namespace Sys2Proof.Machine

/-- `val(Rm)`, `val(Rs)` and `val(Rn)` of R226. -/
def State.multiplyRm (st : State) (rm : Reg) : Word := st.readX .rm (st.r15full 12) rm
def State.multiplyRs (st : State) (rs : Reg) : Word := st.readX .rs (st.r15pc 8) rs
def State.multiplyRn (st : State) (rn : Reg) : Word := st.readX .rn (st.r15full 8) rn

/-- Writing a product `r` (R221 to R225): with Rd = 15 no register and free flags, with Rd = Rm a free result and free
N, Z, C, else the product, its N and Z and a free C. -/
def State.writeProduct (st : State) (s : Bool) (rd rm : Reg) (r : Word) : Result :=
  if rd = 15 then
    .next { st.advance with psr := if s then freeFlags st.psr st.stamp else st.psr }
  else
    st.guardWrites [rd] <| .next <|
      if rd = rm then
        { (st.writeX rd (Config.freeWord st.stamp .product)).advance with
          psr := if s then multiplyFlagsClash st.psr st.stamp else st.psr }
      else
        { (st.writeX rd r).advance with psr := if s then multiplyFlags st.psr st.stamp r else st.psr }

/-- MUL (R221); the Rn field is ignored. -/
def execMul (c : Cond) (s : Bool) (rd rs rm : Reg) (st : State) : Result :=
  whenPassed c st <| st.writeProduct s rd rm (st.multiplyRm rm * st.multiplyRs rs)

/-- MLA (R222). -/
def execMla (c : Cond) (s : Bool) (rd rn rs rm : Reg) (st : State) : Result :=
  whenPassed c st <| st.writeProduct s rd rm (st.multiplyRm rm * st.multiplyRs rs + st.multiplyRn rn)

/-- The unallocated encodings of the multiply space (R118 (c)): refused unless the condition fails (R118 (e)). -/
def unallocatedMultiply (c : Cond) (st : State) : Result :=
  whenPassed c st (.refused .unallocatedMultiply)

/-- w[7:4] = 1011. -/
def execUnallocB (c : Cond) (st : State) : Result := unallocatedMultiply c st

/-- w[7:4] = 1101. -/
def execUnallocD (c : Cond) (st : State) : Result := unallocatedMultiply c st

/-- w[7:4] = 1111. -/
def execUnallocF (c : Cond) (st : State) : Result := unallocatedMultiply c st

/-- w[23:22] = 01. -/
def execUnalloc4 (c : Cond) (st : State) : Result := unallocatedMultiply c st

/-- w[23:22] = 10. -/
def execUnalloc8 (c : Cond) (st : State) : Result := unallocatedMultiply c st

/-- w[23:22] = 11. -/
def execUnallocC (c : Cond) (st : State) : Result := unallocatedMultiply c st

end Sys2Proof.Machine
end

