-- ==== Sys2Proof/Machine/SingleTransfer.lean ====
section
/-! DEFINITION. LDR, STR, LDRB, STRB (spec/44_single_data_transfer.md R230 to R250). -/

namespace Sys2Proof.Machine

/-- What LDR puts in Rd (R233, R243): the aligned word, rotated by the low bits of its address. -/
def State.loadRotated (st : State) (a : Addr) (force : Bool) : Option Word :=
  (st.loadWord a force).map fun w => ror32 w (8 * (a.toNat % 4))

/-- What LDRB puts in Rd (R235, R241): the byte, zero-extended. -/
def State.loadExtended (st : State) (a : Addr) (force : Bool) : Option Word :=
  (st.loadByte a force).map fun b => b.setWidth 32

/-- Stores the low byte of a register (R236). -/
def State.storeLowByte (st : State) (a : Addr) (d : Word) (force : Bool) : Option State :=
  st.storeByte a (d.setWidth 8) force

/-- The end of a load (R232, R233, R244): write-back, then Rd; R15 takes the PC alone. With Rd = Rn and write-back the
register holds the loaded value or `idx`, a free choice (U3). -/
def State.finishLoad (st : State) (back : Bool) (rn rd : Reg) (idx v : Word) : Result :=
  st.guardWrites (if back then [rn, rd] else [rd]) <| .next <|
    if rd = 15 then (if back then st.writeX rn idx else st).writePC v
    else if back && rn == rd then
      (st.writeX rd (if Config.freeBit st.stamp .loadedOrIndex then v else idx)).advance
    else ((if back then st.writeX rn idx else st).writeX rd v).advance

/-- LDR and LDRB (R230): `read` is the access. -/
def loadTransfer (read : State → Addr → Bool → Option Word) (c : Cond) (p u w : Bool) (rn rd : Reg) (o : Offset)
    (st : State) : Result :=
  whenPassed c st <|
    if rn = 15 ∧ writesBack p w then .refused .transferWritesBackR15
    else if illegalAddress (st.transferAddr p u rn o) then .next (st.raise .addressException)
    else match read st.busGap (busAddr (st.transferAddr p u rn o)) (forcesTranslation p w) with
      | none => .next (st.busGap.raise .dataAbort)
      | some v => st.busGap.finishLoad (writesBack p w) rn rd (st.transferIndex u rn o) v

/-- The register value a store drives (R234, R244 (d)): R15 reads with the PSR, 12 bytes on. With Rd = Rn and write-back
it is the old base or `idx`, a free choice (U4). -/
def State.storedValue (st : State) (p u w : Bool) (rn rd : Reg) (o : Offset) : Word :=
  if writesBack p w && rn == rd then
    if Config.freeBit st.stamp .baseOrIndex then st.transferBase rn else st.transferIndex u rn o
  else st.readX .rd (st.r15full 12) rd

/-- The access of a store (R234, R236): the state after it, none on ABORT. -/
def State.storeAccess (write : State → Addr → Word → Bool → Option State) (p u w : Bool) (rn rd : Reg) (o : Offset)
    (st : State) : Option State :=
  write st.busGap (busAddr (st.transferAddr p u rn o)) (st.storedValue p u w rn rd o) (forcesTranslation p w)

/-- STR and STRB (R230): `write` is the access. -/
def storeTransfer (write : State → Addr → Word → Bool → Option State) (c : Cond) (p u w : Bool) (rn rd : Reg) (o : Offset)
    (st : State) : Result :=
  whenPassed c st <|
    if rn = 15 ∧ writesBack p w then .refused .transferWritesBackR15
    else if illegalAddress (st.transferAddr p u rn o) then .next (st.raise .addressException)
    else match st.storeAccess write p u w rn rd o with
      | none => .next (st.busGap.raise .dataAbort)
      | some t =>
        if writesBack p w then st.guardWrites [rn] (.next (t.writeX rn (st.transferIndex u rn o)).advance)
        else .next t.advance

/-! ## LDR (R233) -/

def execLdrImm (c : Cond) (p u w : Bool) (rn rd : Reg) (off : BitVec 12) (st : State) : Result :=
  loadTransfer State.loadRotated c p u w rn rd (.imm off) st

def execLdrReg (c : Cond) (p u w : Bool) (rn rd : Reg) (o : ShiftedReg) (st : State) : Result :=
  loadTransfer State.loadRotated c p u w rn rd (.reg o) st

/-! ## STR (R234) -/

def execStrImm (c : Cond) (p u w : Bool) (rn rd : Reg) (off : BitVec 12) (st : State) : Result :=
  storeTransfer State.storeRegister c p u w rn rd (.imm off) st

def execStrReg (c : Cond) (p u w : Bool) (rn rd : Reg) (o : ShiftedReg) (st : State) : Result :=
  storeTransfer State.storeRegister c p u w rn rd (.reg o) st

/-! ## LDRB (R235) -/

def execLdrbImm (c : Cond) (p u w : Bool) (rn rd : Reg) (off : BitVec 12) (st : State) : Result :=
  loadTransfer State.loadExtended c p u w rn rd (.imm off) st

def execLdrbReg (c : Cond) (p u w : Bool) (rn rd : Reg) (o : ShiftedReg) (st : State) : Result :=
  loadTransfer State.loadExtended c p u w rn rd (.reg o) st

/-! ## STRB (R236) -/

def execStrbImm (c : Cond) (p u w : Bool) (rn rd : Reg) (off : BitVec 12) (st : State) : Result :=
  storeTransfer State.storeLowByte c p u w rn rd (.imm off) st

def execStrbReg (c : Cond) (p u w : Bool) (rn rd : Reg) (o : ShiftedReg) (st : State) : Result :=
  storeTransfer State.storeLowByte c p u w rn rd (.reg o) st

end Sys2Proof.Machine
end

