-- ==== Sys2Proof/Machine/SoftwareInterrupt.lean ====
section
/-! DEFINITION. SWI (spec/46_software_interrupt.md R290) and the undefined instructions (spec/48_undefined.md R320 to
R322). -/

namespace Sys2Proof.Machine

/-- SWI (R290): takes the software interrupt; the comment field is ignored. -/
def execSwi (c : Cond) (st : State) : Result :=
  whenPassed c st (.next (st.raise .softwareInterrupt))

/-- An undefined instruction, its word `w` (R321, R322): offered to the co-processors; the trap when none takes it, else
nothing but the PC. -/
def undefinedInstruction (c : Cond) (w : Word) (st : State) : Result :=
  whenPassed c st (st.offer none w fun _ _ => .next (st.accepted w []).advance)

/-- Pattern (a) of R320. -/
def execUndefinedA (c : Cond) (x : BitVec 20) (y : BitVec 4) (st : State) : Result :=
  undefinedInstruction c (undefinedAWord c x y) st

/-- Pattern (b) of R320 (U15: the trap, not the cautious refusal; entry 22). -/
def execUndefinedB (c : Cond) (x : BitVec 16) (y : BitVec 2) (z : BitVec 4) (st : State) : Result :=
  undefinedInstruction c (undefinedBWord c x y z) st

end Sys2Proof.Machine
end

