-- ==== Sys2Proof/Machine/Dispatch.lean ====
section
/-! DEFINITION. One arm per instruction. -/

namespace Sys2Proof.Machine

def exec (i : Instr) (st : State) : Host.Outcome State Fault Refusal :=
  match i with
  | .andImm c s rn rd o => Sys2Proof.Machine.execAndImm c s rn rd o st
  | .andShift c s rn rd o => Sys2Proof.Machine.execAndShift c s rn rd o st
  | .andRegShift c s rn rd o => Sys2Proof.Machine.execAndRegShift c s rn rd o st
  | .eorImm c s rn rd o => Sys2Proof.Machine.execEorImm c s rn rd o st
  | .eorShift c s rn rd o => Sys2Proof.Machine.execEorShift c s rn rd o st
  | .eorRegShift c s rn rd o => Sys2Proof.Machine.execEorRegShift c s rn rd o st
  | .subImm c s rn rd o => Sys2Proof.Machine.execSubImm c s rn rd o st
  | .subShift c s rn rd o => Sys2Proof.Machine.execSubShift c s rn rd o st
  | .subRegShift c s rn rd o => Sys2Proof.Machine.execSubRegShift c s rn rd o st
  | .rsbImm c s rn rd o => Sys2Proof.Machine.execRsbImm c s rn rd o st
  | .rsbShift c s rn rd o => Sys2Proof.Machine.execRsbShift c s rn rd o st
  | .rsbRegShift c s rn rd o => Sys2Proof.Machine.execRsbRegShift c s rn rd o st
  | .addImm c s rn rd o => Sys2Proof.Machine.execAddImm c s rn rd o st
  | .addShift c s rn rd o => Sys2Proof.Machine.execAddShift c s rn rd o st
  | .addRegShift c s rn rd o => Sys2Proof.Machine.execAddRegShift c s rn rd o st
  | .adcImm c s rn rd o => Sys2Proof.Machine.execAdcImm c s rn rd o st
  | .adcShift c s rn rd o => Sys2Proof.Machine.execAdcShift c s rn rd o st
  | .adcRegShift c s rn rd o => Sys2Proof.Machine.execAdcRegShift c s rn rd o st
  | .sbcImm c s rn rd o => Sys2Proof.Machine.execSbcImm c s rn rd o st
  | .sbcShift c s rn rd o => Sys2Proof.Machine.execSbcShift c s rn rd o st
  | .sbcRegShift c s rn rd o => Sys2Proof.Machine.execSbcRegShift c s rn rd o st
  | .rscImm c s rn rd o => Sys2Proof.Machine.execRscImm c s rn rd o st
  | .rscShift c s rn rd o => Sys2Proof.Machine.execRscShift c s rn rd o st
  | .rscRegShift c s rn rd o => Sys2Proof.Machine.execRscRegShift c s rn rd o st
  | .tstImm c rn rd o => Sys2Proof.Machine.execTstImm c rn rd o st
  | .tstImmS0 c _ _ _ => Sys2Proof.Machine.execTstImmS0 c st
  | .tstShift c rn rd o => Sys2Proof.Machine.execTstShift c rn rd o st
  | .tstShiftS0 c _ _ _ => Sys2Proof.Machine.execTstShiftS0 c st
  | .tstRegShift c rn rd o => Sys2Proof.Machine.execTstRegShift c rn rd o st
  | .tstRegShiftS0 c _ _ _ => Sys2Proof.Machine.execTstRegShiftS0 c st
  | .teqImm c rn rd o => Sys2Proof.Machine.execTeqImm c rn rd o st
  | .teqImmS0 c _ _ _ => Sys2Proof.Machine.execTeqImmS0 c st
  | .teqShift c rn rd o => Sys2Proof.Machine.execTeqShift c rn rd o st
  | .teqShiftS0 c _ _ _ => Sys2Proof.Machine.execTeqShiftS0 c st
  | .teqRegShift c rn rd o => Sys2Proof.Machine.execTeqRegShift c rn rd o st
  | .teqRegShiftS0 c _ _ _ => Sys2Proof.Machine.execTeqRegShiftS0 c st
  | .cmpImm c rn rd o => Sys2Proof.Machine.execCmpImm c rn rd o st
  | .cmpImmS0 c _ _ _ => Sys2Proof.Machine.execCmpImmS0 c st
  | .cmpShift c rn rd o => Sys2Proof.Machine.execCmpShift c rn rd o st
  | .cmpShiftS0 c _ _ _ => Sys2Proof.Machine.execCmpShiftS0 c st
  | .cmpRegShift c rn rd o => Sys2Proof.Machine.execCmpRegShift c rn rd o st
  | .cmpRegShiftS0 c _ _ _ => Sys2Proof.Machine.execCmpRegShiftS0 c st
  | .cmnImm c rn rd o => Sys2Proof.Machine.execCmnImm c rn rd o st
  | .cmnImmS0 c _ _ _ => Sys2Proof.Machine.execCmnImmS0 c st
  | .cmnShift c rn rd o => Sys2Proof.Machine.execCmnShift c rn rd o st
  | .cmnShiftS0 c _ _ _ => Sys2Proof.Machine.execCmnShiftS0 c st
  | .cmnRegShift c rn rd o => Sys2Proof.Machine.execCmnRegShift c rn rd o st
  | .cmnRegShiftS0 c _ _ _ => Sys2Proof.Machine.execCmnRegShiftS0 c st
  | .orrImm c s rn rd o => Sys2Proof.Machine.execOrrImm c s rn rd o st
  | .orrShift c s rn rd o => Sys2Proof.Machine.execOrrShift c s rn rd o st
  | .orrRegShift c s rn rd o => Sys2Proof.Machine.execOrrRegShift c s rn rd o st
  | .movImm c s rn rd o => Sys2Proof.Machine.execMovImm c s rn rd o st
  | .movShift c s rn rd o => Sys2Proof.Machine.execMovShift c s rn rd o st
  | .movRegShift c s rn rd o => Sys2Proof.Machine.execMovRegShift c s rn rd o st
  | .bicImm c s rn rd o => Sys2Proof.Machine.execBicImm c s rn rd o st
  | .bicShift c s rn rd o => Sys2Proof.Machine.execBicShift c s rn rd o st
  | .bicRegShift c s rn rd o => Sys2Proof.Machine.execBicRegShift c s rn rd o st
  | .mvnImm c s rn rd o => Sys2Proof.Machine.execMvnImm c s rn rd o st
  | .mvnShift c s rn rd o => Sys2Proof.Machine.execMvnShift c s rn rd o st
  | .mvnRegShift c s rn rd o => Sys2Proof.Machine.execMvnRegShift c s rn rd o st
  | .mul c s rd _ rs rm => Sys2Proof.Machine.execMul c s rd rs rm st
  | .mla c s rd rn rs rm => Sys2Proof.Machine.execMla c s rd rn rs rm st
  | .unallocB c _ _ => Sys2Proof.Machine.execUnallocB c st
  | .unallocD c _ _ => Sys2Proof.Machine.execUnallocD c st
  | .unallocF c _ _ => Sys2Proof.Machine.execUnallocF c st
  | .unalloc4 c _ _ => Sys2Proof.Machine.execUnalloc4 c st
  | .unalloc8 c _ _ => Sys2Proof.Machine.execUnalloc8 c st
  | .unallocC c _ _ => Sys2Proof.Machine.execUnallocC c st
  | .ldrImm c p u w rn rd off => Sys2Proof.Machine.execLdrImm c p u w rn rd off st
  | .ldrReg c p u w rn rd o => Sys2Proof.Machine.execLdrReg c p u w rn rd o st
  | .strImm c p u w rn rd off => Sys2Proof.Machine.execStrImm c p u w rn rd off st
  | .strReg c p u w rn rd o => Sys2Proof.Machine.execStrReg c p u w rn rd o st
  | .ldrbImm c p u w rn rd off => Sys2Proof.Machine.execLdrbImm c p u w rn rd off st
  | .ldrbReg c p u w rn rd o => Sys2Proof.Machine.execLdrbReg c p u w rn rd o st
  | .strbImm c p u w rn rd off => Sys2Proof.Machine.execStrbImm c p u w rn rd off st
  | .strbReg c p u w rn rd o => Sys2Proof.Machine.execStrbReg c p u w rn rd o st
  | .undefinedA c x y => Sys2Proof.Machine.execUndefinedA c x y st
  | .undefinedB c x y z => Sys2Proof.Machine.execUndefinedB c x y z st
  | .ldm c p u s w rn list => Sys2Proof.Machine.execLdm c p u s w rn list st
  | .stm c p u s w rn list => Sys2Proof.Machine.execStm c p u s w rn list st
  | .b c off => Sys2Proof.Machine.execB c off st
  | .bl c off => Sys2Proof.Machine.execBl c off st
  | .ldc c p u n w rn crd cp off => Sys2Proof.Machine.execLdc c p u n w rn crd cp off st
  | .stc c p u n w rn crd cp off => Sys2Proof.Machine.execStc c p u n w rn crd cp off st
  | .cdp c opc crn crd cp info crm => Sys2Proof.Machine.execCdp c opc crn crd cp info crm st
  | .mrc c opc crn rd cp info crm => Sys2Proof.Machine.execMrc c opc crn rd cp info crm st
  | .mcr c opc crn rd cp info crm => Sys2Proof.Machine.execMcr c opc crn rd cp info crm st
  | .swi c _ => Sys2Proof.Machine.execSwi c st

end Sys2Proof.Machine
end

