-- ==== Sys2Proof/Machine/Fetch.lean ====
section
/-! DEFINITION. Fetching instructions ahead (spec/10_state.md R41, R42; spec/20_memory.md R90), sampling the outside
(spec/60_exceptions.md R352) and the end of a step. -/

namespace Sys2Proof.Machine

/-- The record of an instruction fetch (R77, R370). -/
def State.fetchAccess (s : State) (addr : Addr) : Access :=
  { addr, write := false, size := .word, opc := true, trans := s.psr.mode == .usr, mode := s.psr.mode }

/-- Fetches one word, with its prefetch-abort mark (R42). -/
def State.fetch (s : State) (addr : Addr) : Fetched :=
  { word := s.busWord (s.fetchAccess addr), invalid := s.aborts (s.fetchAccess addr) }

/-- The address of the `k`-th word of the pipeline. -/
def State.pipeAddr (s : State) (k : Nat) : Addr :=
  s.addr + BitVec.ofNat 26 (4 * k)

/-- Fetches what the pipeline lacks: the words at A, A + 4 and A + 8, A being the instruction about to execute (R41). -/
def State.fillPipe (s : State) : State :=
  { s with pipe := s.pipe ++ ((List.range 3).drop s.pipe.length).map fun k => s.fetch (s.pipeAddr k) }

/-- The word about to execute: the first prefetched one. -/
def State.fetched (s : State) : Fetched :=
  s.pipe.headD (s.fetch s.addr)

/-- Writes into words already fetched (R90, D7): each prefetched word that a fetch would find changed since `old` is the old
or the new one, a free choice. The word of the instruction in `old` itself, which stays first while it waits for a
co-processor (R299), is none of them: it stays. -/
def State.snoop (s old : State) : State :=
  { s with
    pipe := s.pipe.mapIdx fun k f =>
      let a := old.fetchAccess (s.pipeAddr k)
      let new := ({ old with mem := s.mem } : State).busWord a
      if s.pipeAddr k ≠ old.addr ∧ new ≠ old.busWord a ∧ Config.freeBit old.stamp (.prefetched k) then { f with word := new }
      else f }

/-- The output of a synchroniser (R352): LOW when the line was LOW at the last three boundaries, HIGH when it was HIGH at
all of them, else open. -/
def Sync.seen (y : Sync) (now draw : Bool) : Bool :=
  if now && y.last && y.before then true
  else if !now && !y.last && !y.before then false
  else draw

/-- The synchroniser after a boundary. -/
def Sync.shift (y : Sync) (now : Bool) : Sync :=
  { last := now, before := y.last }

/-- `fiq_seen` (R352). -/
def State.fiqSeen (s : State) : Bool :=
  s.fiqSync.seen s.now.fiqLow s.now.fiqDraw

/-- `irq_seen` (R352). -/
def State.irqSeen (s : State) : Bool :=
  s.irqSync.seen s.now.irqLow s.now.irqDraw

/-- What the outside has done by this boundary: other masters' writes (R82), the rules of the memory system (R77) and of the
co-processors (R295), the synchronisers. -/
def State.sample (s : State) : State :=
  { s with
    mem := masterWrites s.mem s.now.busWrites
    memSystem := s.now.memSystem.getD s.memSystem
    coprocessors := s.now.coprocessors.getD s.coprocessors
    fiqSync := s.fiqSync.shift s.now.fiqLow
    irqSync := s.irqSync.shift s.now.irqLow }

/-- The end of a step: what other masters still write is written, the inputs are used up, the free values move on. -/
def State.retire (s : State) : State :=
  { s.busRest with inputs := s.inputs.tail, stamp := s.stamp + 1 }

/-- Puts an instruction of `nbits` bits `w` where the next step takes its instruction from: in memory at the PC, and in the
first place of the pipeline, as fetched. -/
def State.placeWord (s : State) (nbits w : Nat) : State :=
  let word := BitVec.ofNat 32 (w % 2 ^ nbits)
  { s with mem := writeWord s.mem s.addr word, pipe := { word, invalid := false } :: s.pipe.tail }

end Sys2Proof.Machine
end

