-- ==== Sys2Proof/Machine/Boundary.lean ====
section
/-! DEFINITION. RESET (spec/70_reset_and_hazards.md R390 to R393), and one whole step of the processor
(spec/60_exceptions.md R370). -/

namespace Sys2Proof.Machine

/-! ## What the parameters admit -/

/-- The return recipes that the source prints: `SUBS PC,R14,#4`, `SUBS PC,R14,#8`, `MOVS PC,R14`, `MOV PC,R14` (R4, D1). -/
def isReturnRecipe : Instr → Bool
  | .subImm _ s rn rd o => s && rn == 14 && rd == 15 && o.rot == 0 && (o.imm8 == 4 || o.imm8 == 8)
  | .movShift _ _ rn rd o => rn == 0 && rd == 15 && o == ⟨14, .lsl 0⟩
  | _ => false

/-- Is the instruction one that D1 gives a meaning when the reconstructed rules have none: a branch, the software interrupt, a
return recipe, or the co-processor handshake, as long as no co-processor takes the instruction? -/
def State.inSurvivingText (s : State) (w : Word) : Bool :=
  match decodeWord w with
  | .b .. | .bl .. | .swi .. => true
  | .cdp _ _ _ _ cp _ _ | .ldc _ _ _ _ _ _ _ cp _ | .stc _ _ _ _ _ _ _ cp _ | .mrc _ _ _ _ cp _ _
  | .mcr _ _ _ _ cp _ _ => !(s.reply (some cp) w).isReady
  | .undefinedA .. | .undefinedB .. => !(s.reply none w).isReady
  | i => isReturnRecipe i

/-- Does the machine give the word a meaning (R4, R8)? With `admitReconstructed`, always; else when its condition is EQ, AL
or NV and it fails, or the instruction is one that the surviving text describes. -/
def State.admits (s : State) (w : Word) : Bool :=
  let c := Cond.ofCode (w.extractLsb' 28 4)
  s.params.admitReconstructed ||
    ([Cond.eq, .al, .nv].contains c && (!condPassed c s.psr || s.inSurvivingText w))

/-- The instruction or the prefetch abort (R346) at the head of the pipeline. -/
def State.runFetched (s : State) : Result :=
  if s.fetched.invalid then .next (s.raise .prefetchAbort)
  else if s.admits s.fetched.word then exec (decodeWord s.fetched.word) s
  else .refused .reconstructed

/-! ## The instruction RESET interrupts -/

/-- What an instruction could be part-way through writing when RESET goes HIGH (R391, S3): registers, the flags N, Z and C,
the flag V. -/
structure Written where
  regs : List PReg
  nzc : Bool
  v : Bool
deriving DecidableEq, Repr

/-- The registers that writing number `r` in the bank of mode `m` could reach: while the bank is unsettled, that of any mode
(R400, U11, U12). -/
def State.reached (s : State) (m : Mode) (r : Reg) : List PReg :=
  if s.unsettled r then [Mode.usr, .fiq, .irq, .svc].filterMap (physOf · r) else (physOf m r).toList

/-- What a data processing instruction could write, and its flags (R175, R177, R178): a logical one leaves V, but with Rd = 15
the PSR is written whole. -/
def State.resultWritten (s : State) (logical flags : Bool) (rd : Reg) : Written :=
  { regs := s.reached s.psr.mode rd, nzc := flags, v := flags && (!logical || rd == 15) }

/-- What a test could write (R179). -/
def testWritten (logical : Bool) (rd : Reg) : Written :=
  { regs := [], nzc := true, v := !logical || rd == 15 }

/-- What a multiply could write (R224, R225). -/
def State.productWritten (s : State) (flags : Bool) (rd : Reg) : Written :=
  { regs := s.reached s.psr.mode rd, nzc := flags, v := flags && rd == 15 }

/-- What a transfer could write: the registers of the current mode in the list, and R14_svc by the exceptions it may take. -/
def State.transferWritten (s : State) (rs : List Reg) : Written :=
  { regs := rs.flatMap (s.reached s.psr.mode) ++ [.r14Svc], nzc := false, v := false }

/-- What a block transfer could write beside the registers it loads: its base, where it is written back, with the User bank
forced in that bank too (U6), and R14_svc by the exceptions it may take. -/
def State.blockBaseWritten (s : State) (user w : Bool) (rn : Reg) : List PReg :=
  (if w then s.reached s.psr.mode rn else []) ++ (if user && w then s.reached .usr rn else []) ++ [.r14Svc]

/-- What an instruction offered to the co-processors could write: R14_svc where the trap is taken, nothing while it waits,
its own registers once it is taken. -/
def State.offeredWritten (s : State) (cp : Option (BitVec 4)) (w : Word) (taken : Written) : Written :=
  match s.reply cp w with
  | .absent => ⟨[.r14Svc], false, false⟩
  | .busy => ⟨[], false, false⟩
  | .ready .. => taken

/-- What an instruction could write in the state (S3), its condition passing. MARK: DESIGN CHOICE (entry 18), where the model
refuses the form and the spec does not say what it was writing: a transfer of U1, U5, U6 or U10 writes what its fields name, the
base in the current bank and for U6 in the User bank too; the unallocated encodings of U13 and U14 write nothing. -/
def State.writtenBy (s : State) (i : Instr) : Written :=
  match i with
  | .andImm _ f _ rd _ | .andShift _ f _ rd _ | .andRegShift _ f _ rd _ | .eorImm _ f _ rd _ | .eorShift _ f _ rd _
  | .eorRegShift _ f _ rd _ | .orrImm _ f _ rd _ | .orrShift _ f _ rd _ | .orrRegShift _ f _ rd _
  | .movImm _ f _ rd _ | .movShift _ f _ rd _ | .movRegShift _ f _ rd _ | .bicImm _ f _ rd _ | .bicShift _ f _ rd _
  | .bicRegShift _ f _ rd _ | .mvnImm _ f _ rd _ | .mvnShift _ f _ rd _ | .mvnRegShift _ f _ rd _ =>
    s.resultWritten true f rd
  | .subImm _ f _ rd _ | .subShift _ f _ rd _ | .subRegShift _ f _ rd _ | .rsbImm _ f _ rd _ | .rsbShift _ f _ rd _
  | .rsbRegShift _ f _ rd _ | .addImm _ f _ rd _ | .addShift _ f _ rd _ | .addRegShift _ f _ rd _
  | .adcImm _ f _ rd _ | .adcShift _ f _ rd _ | .adcRegShift _ f _ rd _ | .sbcImm _ f _ rd _ | .sbcShift _ f _ rd _
  | .sbcRegShift _ f _ rd _ | .rscImm _ f _ rd _ | .rscShift _ f _ rd _ | .rscRegShift _ f _ rd _ =>
    s.resultWritten false f rd
  | .tstImm _ _ rd _ | .tstShift _ _ rd _ | .tstRegShift _ _ rd _ | .teqImm _ _ rd _ | .teqShift _ _ rd _
  | .teqRegShift _ _ rd _ => testWritten true rd
  | .cmpImm _ _ rd _ | .cmpShift _ _ rd _ | .cmpRegShift _ _ rd _ | .cmnImm _ _ rd _ | .cmnShift _ _ rd _
  | .cmnRegShift _ _ rd _ => testWritten false rd
  | .mul _ f rd _ _ _ | .mla _ f rd _ _ _ => s.productWritten f rd
  | .ldrImm _ p _ w rn rd _ | .ldrReg _ p _ w rn rd _ | .ldrbImm _ p _ w rn rd _ | .ldrbReg _ p _ w rn rd _ =>
    s.transferWritten (if writesBack p w then [rd, rn] else [rd])
  | .strImm _ p _ w rn _ _ | .strReg _ p _ w rn _ _ | .strbImm _ p _ w rn _ _ | .strbReg _ p _ w rn _ _ =>
    s.transferWritten (if writesBack p w then [rn] else [])
  | .ldm _ _ _ f w rn list =>
    let m := if s.loadsUserBank f list then .usr else s.psr.mode
    let psr := f && list.getLsbD 15
    { regs := (listed list).flatMap (s.reached m) ++ s.blockBaseWritten (s.loadsUserBank f list) w rn, nzc := psr, v := psr }
  | .stm _ _ _ f w rn _ => { regs := s.blockBaseWritten (s.storesUserBank f) w rn, nzc := false, v := false }
  | .ldc c p u n w rn crd cp off =>
    s.offeredWritten (some cp) (cdtWord c p u n w true rn crd cp off) (s.transferWritten (if w then [rn] else []))
  | .stc c p u n w rn crd cp off =>
    s.offeredWritten (some cp) (cdtWord c p u n w false rn crd cp off) (s.transferWritten (if w then [rn] else []))
  | .mrc c opc crn rd cp info crm =>
    s.offeredWritten (some cp) (crtWord c opc true crn rd cp info crm)
      ⟨s.reached s.psr.mode rd, rd == 15, rd == 15⟩
  | .mcr c opc crn rd cp info crm =>
    s.offeredWritten (some cp) (crtWord c opc false crn rd cp info crm) ⟨[], false, false⟩
  | .cdp c opc crn crd cp info crm =>
    s.offeredWritten (some cp) (cdpWord c opc crn crd cp info crm) ⟨[], false, false⟩
  | .undefinedA c x y => s.offeredWritten none (undefinedAWord c x y) ⟨[], false, false⟩
  | .undefinedB c x y z => s.offeredWritten none (undefinedBWord c x y z) ⟨[], false, false⟩
  | .bl _ _ => ⟨s.reached s.psr.mode 14, false, false⟩
  | .swi _ _ => ⟨[.r14Svc], false, false⟩
  | .b _ _ | .tstImmS0 .. | .tstShiftS0 .. | .tstRegShiftS0 .. | .teqImmS0 .. | .teqShiftS0 .. | .teqRegShiftS0 ..
  | .cmpImmS0 .. | .cmpShiftS0 .. | .cmpRegShiftS0 .. | .cmnImmS0 .. | .cmnShiftS0 .. | .cmnRegShiftS0 ..
  | .unallocB .. | .unallocD .. | .unallocF .. | .unalloc4 .. | .unalloc8 .. | .unallocC .. => ⟨[], false, false⟩

/-- The memory that a store leaves by its access. -/
def State.storedSingle (s : State) (write : State → Addr → Word → Bool → Option State) (p u w : Bool) (rn rd : Reg)
    (o : Offset) : List Host.Cell :=
  if illegalAddress (s.transferAddr p u rn o) then s.mem else ((s.storeAccess write p u w rn rd o).getD s.busGap).mem

/-- The memory that an instruction, its condition passing, leaves by the stores it makes (S3), whether or not the model refuses
the form or the write of its base (entry 18). -/
def State.storedBy (s : State) (i : Instr) : List Host.Cell :=
  match i with
  | .strImm _ p u w rn rd off => s.storedSingle State.storeRegister p u w rn rd (.imm off)
  | .strReg _ p u w rn rd o => s.storedSingle State.storeRegister p u w rn rd (.reg o)
  | .strbImm _ p u w rn rd off => s.storedSingle State.storeLowByte p u w rn rd (.imm off)
  | .strbReg _ p u w rn rd o => s.storedSingle State.storeLowByte p u w rn rd (.reg o)
  | .stm _ p u f w rn list =>
    if illegalAddress (s.blockFirst p u rn list) then s.mem else (s.stmStores p u f w rn list).1.mem
  | .stc c p u n w rn crd cp off =>
    match s.reply (some cp) (cdtWord c p u n w false rn crd cp off) with
    | .ready first rest =>
      let start := s.coAddr p u rn off
      if illegalAddress start then s.mem else ((s.coBack u w rn off).storeWords start 0 (first :: rest)).1.mem
    | _ => s.mem
  | _ => s.mem

/-- What the instruction about to execute could write: the R14 of the prefetch abort where its word is marked, nothing where
its condition fails. -/
def State.inProgress (s : State) : Written :=
  if s.fetched.invalid then ⟨[.r14Svc], false, false⟩
  else if condPassed (Cond.ofCode (s.fetched.word.extractLsb' 28 4)) s.psr then s.writtenBy (decodeWord s.fetched.word)
  else ⟨[], false, false⟩

/-- The memory that the instruction about to execute leaves by its stores. -/
def State.storesInProgress (s : State) : List Host.Cell :=
  if s.fetched.invalid then s.mem
  else if condPassed (Cond.ofCode (s.fetched.word.extractLsb' 28 4)) s.psr then s.storedBy (decodeWord s.fetched.word)
  else s.mem

/-- Free values in physical registers (S3), each by its number `k` on. -/
def Regs.lose (g : Regs) (stamp : Nat) (k : Nat) : List PReg → Regs
  | [] => g
  | p :: rest => (g.set p (Config.freeWord stamp (.lost k))).lose stamp (k + 1) rest

/-- Free values in the flags an instruction could write (S3). -/
def Psr.lose (p : Psr) (stamp : Nat) (w : Written) : Psr :=
  let q := freeFlags p stamp
  { p with
    n := if w.nzc then q.n else p.n
    z := if w.nzc then q.z else p.z
    c := if w.nzc then q.c else p.c
    v := if w.v then q.v else p.v }

/-- The bytes of memory that the interrupted instruction would have changed from `old` to `new`: each is the old or the
new one, a free choice (R391). -/
def loseBytes (stamp : Nat) (old new : List Host.Cell) : List Host.Cell :=
  (old ++ new).foldl
    (fun m e =>
      if e.1 < 2 ^ 26 ∧ Config.freeBit stamp (.lostByte e.1) then writeByte m e.1 (readByte new e.1) else m) old

/-- What RESET leaves of the instruction it interrupts (R391, S3): the registers and flags it could write hold free values,
each byte it would store is stored or not, and nothing else changes. MARK: DESIGN CHOICE (entry 18): whether the words that an
interrupted MCR or LDC had already sent, or the words a device had taken, count is left open by the spec; `cpLog` and `busLog`
are kept as before the instruction; and an instruction that `admitReconstructed` false would refuse is taken to be writing what
the reconstructed rules say it writes. -/
def State.abandon (s : State) : State :=
  let t := s.busRest
  let w := t.inProgress
  { t with
    regs := t.regs.lose t.stamp 0 w.regs
    psr := t.psr.lose t.stamp w
    mem := loseBytes t.stamp t.mem t.storesInProgress }

/-- A step while RESET is HIGH (R391): the instruction in progress is abandoned at the first, then only dummy fetches. -/
def State.holdInReset (s : State) : State :=
  let t := if s.resetHigh then s else s.fillPipe.abandon
  { t with pc := t.pc + 1, pipe := [], bank := .settled, busyWait := false, resetHigh := true }

/-! ## One step -/

/-- Ends the step of an instruction. -/
def State.finish (s : State) : Result → Result
  | .next u => .next (u.retire.snoop s)
  | .fault r => .fault r
  | .refused r => .refused r

/-- One step (R370): RESET, then FIQ, then IRQ, then the instruction. -/
def State.boundary (s : State) : Result :=
  let t := s.sample
  if s.now.reset then .next t.holdInReset.retire
  else if s.resetHigh then .next t.resetEntry.retire
  else if s.fiqSeen && !s.psr.f then .next (t.raise .fiq).retire
  else if s.irqSeen && !s.psr.i then .next (t.raise .irq).retire
  else t.fillPipe.finish t.fillPipe.runFetched

end Sys2Proof.Machine
end

