-- ==== Sys2Proof/Machine/Step.lean ====
section
/-! DEFINITION. The step, and where the host puts an instruction to be stepped; both only call what they stand for. -/

namespace Sys2Proof.Machine

/-- One step of the processor (spec/60_exceptions.md R370). -/
def step (s : State) : Host.Outcome State Fault Refusal :=
  s.boundary

/-- The state with an instruction stored where the next step takes it from (entry 23). -/
def State.withFetchWord (s : State) (nbits w : Nat) : State :=
  s.placeWord nbits w

end Sys2Proof.Machine
end

