-- ==== Sys2Proof/Safety.lean ====
section
/-! DEFINITION. What a run may rely on: the invariant of the machine, and a safe step. -/

namespace Sys2Proof.Machine

/-- The invariant: memory has its canonical form (R40), at most three words are prefetched (R41), the processor waits on a
co-processor only with the instruction fetched (R44), and while RESET is held it has neither fetched nor waits (R391). -/
structure State.Inv (s : State) : Prop where
  memory : memoryWf s.mem = true
  pipeline : s.pipe.length ≤ 3
  waiting : s.busyWait = true → s.pipe ≠ []
  held : s.resetHigh = true → s.pipe = [] ∧ s.bank = .settled

/-- The step answers a next state: no refusal, no fault. -/
def SafeStep (s : State) : Prop :=
  ∃ t, step s = .next t

/-- `n` steps from `s`, each of them safe. -/
def SafeRun : Nat → State → Prop
  | 0, _ => True
  | n + 1, s => ∃ t, step s = .next t ∧ SafeRun n t

end Sys2Proof.Machine
end

