-- ==== Sys2Proof/Certificates/Slice0/Obligations.lean ====
section
/-! DEFINITION. The statements for the provers, and the vocabulary they are written in: what the spec says an operation
computes, in integers where the model computes in bits. -/

namespace Sys2Proof.Spec

open Sys2Proof.Machine

/-! ## Vocabulary -/

/-- `s` after an instruction that goes on to the next one, with registers `g`, status `p` and memory `m`: every other
field is as the instruction found it, but for the pipeline, which has used up a word. -/
def wentOn (s : State) (g : Regs) (p : Psr) (m : List Host.Cell) : State :=
  { s with regs := g, psr := p, mem := m, pc := s.pc + 1, pipe := s.pipe.tail, bank := .settled, busyWait := false }

/-- `s` after an instruction that goes on at word address `target`: the prefetched words are discarded. -/
def wentTo (s : State) (g : Regs) (p : Psr) (target : BitVec 24) : State :=
  { s with regs := g, psr := p, pc := target, pipe := [], bank := .settled, busyWait := false }

/-- `s` after an exception to `vector` that saves R15, its PC `k` bytes on, in `link`. -/
def trapped (s : State) (link : PReg) (k : Nat) (mode : Mode) (f : Bool) (vector : Nat) : State :=
  wentTo s (s.regs.set link (s.r15full (BitVec.ofNat 26 k))) { s.psr with mode := mode, i := true, f := f }
    (BitVec.ofNat 24 (vector / 4))

/-- The registers with the one that number `r` names in mode `m` written; R15 is not among them. -/
def setReg (m : Mode) (g : Regs) (r : Reg) (v : Word) : Regs :=
  match physOf m r with
  | some p => g.set p v
  | none => g

/-- The status that writing it from `w` leaves: in User mode the condition flags alone. -/
def psrFrom (p : Psr) (w : Word) : Psr where
  n := w.getLsbD 31
  z := w.getLsbD 30
  c := w.getLsbD 29
  v := w.getLsbD 28
  i := if p.mode = .usr then p.i else w.getLsbD 27
  f := if p.mode = .usr then p.f else w.getLsbD 26
  mode := if p.mode = .usr then .usr
    else if w.getLsbD 1 then (if w.getLsbD 0 then .svc else .irq) else (if w.getLsbD 0 then .fiq else .usr)

/-- R15 as a number: the status bits in their places and the byte address `a`. -/
def r15Number (p : Psr) (a : Nat) : Nat :=
  p.n.toNat * 2 ^ 31 + p.z.toNat * 2 ^ 30 + p.c.toNat * 2 ^ 29 + p.v.toNat * 2 ^ 28 + p.i.toNat * 2 ^ 27 +
    p.f.toNat * 2 ^ 26 + a + (match p.mode with | .usr => 0 | .fiq => 1 | .irq => 2 | .svc => 3)

/-- The six logical operations that write a result. -/
inductive LogicalOp where
  | and | eor | orr | mov | bic | mvn
deriving DecidableEq, Repr

/-- Bits 24:21. -/
def LogicalOp.opcode : LogicalOp → BitVec 4
  | .and => 0b0000
  | .eor => 0b0001
  | .orr => 0b1100
  | .mov => 0b1101
  | .bic => 0b1110
  | .mvn => 0b1111

def LogicalOp.result (k : LogicalOp) (a b : Word) : Word :=
  match k with
  | .and => a &&& b
  | .eor => a ^^^ b
  | .orr => a ||| b
  | .mov => b
  | .bic => a &&& ~~~b
  | .mvn => ~~~b

/-- The instruction, by its operand form. -/
def LogicalOp.instr (k : LogicalOp) (c : Cond) (s : Bool) (rn rd : Reg) (o : Op2) : Instr :=
  match k, o with
  | .and, .imm o => .andImm c s rn rd o
  | .and, .shift o => .andShift c s rn rd o
  | .and, .regShift o => .andRegShift c s rn rd o
  | .eor, .imm o => .eorImm c s rn rd o
  | .eor, .shift o => .eorShift c s rn rd o
  | .eor, .regShift o => .eorRegShift c s rn rd o
  | .orr, .imm o => .orrImm c s rn rd o
  | .orr, .shift o => .orrShift c s rn rd o
  | .orr, .regShift o => .orrRegShift c s rn rd o
  | .mov, .imm o => .movImm c s rn rd o
  | .mov, .shift o => .movShift c s rn rd o
  | .mov, .regShift o => .movRegShift c s rn rd o
  | .bic, .imm o => .bicImm c s rn rd o
  | .bic, .shift o => .bicShift c s rn rd o
  | .bic, .regShift o => .bicRegShift c s rn rd o
  | .mvn, .imm o => .mvnImm c s rn rd o
  | .mvn, .shift o => .mvnShift c s rn rd o
  | .mvn, .regShift o => .mvnRegShift c s rn rd o

/-- N and Z from the result, C from the shifter, V kept. -/
def logicalPsr (p : Psr) (result : Word) (sc : Bool) : Psr :=
  { p with n := result.getLsbD 31, z := decide (result = 0), c := sc }

/-- The six arithmetic operations that write a result. -/
inductive ArithOp where
  | sub | rsb | add | adc | sbc | rsc
deriving DecidableEq, Repr

/-- Bits 24:21. -/
def ArithOp.opcode : ArithOp → BitVec 4
  | .sub => 0b0010
  | .rsb => 0b0011
  | .add => 0b0100
  | .adc => 0b0101
  | .sbc => 0b0110
  | .rsc => 0b0111

/-- The exact value, before it is cut to 32 bits: of the unsigned operands, or of the signed ones. -/
def ArithOp.exact (k : ArithOp) (a b : Int) (cin : Bool) : Int :=
  match k with
  | .sub => a - b
  | .rsb => b - a
  | .add => a + b
  | .adc => a + b + cin.toNat
  | .sbc => a - b + cin.toNat - 1
  | .rsc => b - a + cin.toNat - 1

def ArithOp.result (k : ArithOp) (a b : Word) (cin : Bool) : Word :=
  BitVec.ofInt 32 (k.exact a.toNat b.toNat cin)

/-- C: a carry for an addition, no borrow for a subtraction. -/
def ArithOp.carry (k : ArithOp) (a b : Word) (cin : Bool) : Bool :=
  match k with
  | .add | .adc => decide (2 ^ 32 ≤ k.exact a.toNat b.toNat cin)
  | .sub | .rsb | .sbc | .rsc => decide (0 ≤ k.exact a.toNat b.toNat cin)

/-- V: the signed value does not fit. -/
def ArithOp.overflow (k : ArithOp) (a b : Word) (cin : Bool) : Bool :=
  decide ((k.result a b cin).toInt ≠ k.exact a.toInt b.toInt cin)

def ArithOp.psr (k : ArithOp) (p : Psr) (a b : Word) : Psr :=
  { p with
    n := decide ((k.result a b p.c).toInt < 0)
    z := decide ((k.result a b p.c).toNat = 0)
    c := k.carry a b p.c
    v := k.overflow a b p.c }

def ArithOp.instr (k : ArithOp) (c : Cond) (s : Bool) (rn rd : Reg) (o : Op2) : Instr :=
  match k, o with
  | .sub, .imm o => .subImm c s rn rd o
  | .sub, .shift o => .subShift c s rn rd o
  | .sub, .regShift o => .subRegShift c s rn rd o
  | .rsb, .imm o => .rsbImm c s rn rd o
  | .rsb, .shift o => .rsbShift c s rn rd o
  | .rsb, .regShift o => .rsbRegShift c s rn rd o
  | .add, .imm o => .addImm c s rn rd o
  | .add, .shift o => .addShift c s rn rd o
  | .add, .regShift o => .addRegShift c s rn rd o
  | .adc, .imm o => .adcImm c s rn rd o
  | .adc, .shift o => .adcShift c s rn rd o
  | .adc, .regShift o => .adcRegShift c s rn rd o
  | .sbc, .imm o => .sbcImm c s rn rd o
  | .sbc, .shift o => .sbcShift c s rn rd o
  | .sbc, .regShift o => .sbcRegShift c s rn rd o
  | .rsc, .imm o => .rscImm c s rn rd o
  | .rsc, .shift o => .rscShift c s rn rd o
  | .rsc, .regShift o => .rscRegShift c s rn rd o

/-- The four test operations. -/
inductive TestOp where
  | tst | teq | cmp | cmn
deriving DecidableEq, Repr

/-- Bits 24:21. -/
def TestOp.opcode : TestOp → BitVec 4
  | .tst => 0b1000
  | .teq => 0b1001
  | .cmp => 0b1010
  | .cmn => 0b1011

def TestOp.result (k : TestOp) (a b : Word) : Word :=
  match k with
  | .tst => a &&& b
  | .teq => a ^^^ b
  | .cmp => ArithOp.sub.result a b false
  | .cmn => ArithOp.add.result a b false

/-- The flags of a test: TST and TEQ as the logical operations, CMP as SUB and CMN as ADD. -/
def TestOp.psr (k : TestOp) (p : Psr) (a b : Word) (sc : Bool) : Psr :=
  match k with
  | .tst | .teq => logicalPsr p (k.result a b) sc
  | .cmp => ArithOp.sub.psr p a b
  | .cmn => ArithOp.add.psr p a b

def TestOp.instr (k : TestOp) (c : Cond) (rn rd : Reg) (o : Op2) : Instr :=
  match k, o with
  | .tst, .imm o => .tstImm c rn rd o
  | .tst, .shift o => .tstShift c rn rd o
  | .tst, .regShift o => .tstRegShift c rn rd o
  | .teq, .imm o => .teqImm c rn rd o
  | .teq, .shift o => .teqShift c rn rd o
  | .teq, .regShift o => .teqRegShift c rn rd o
  | .cmp, .imm o => .cmpImm c rn rd o
  | .cmp, .shift o => .cmpShift c rn rd o
  | .cmp, .regShift o => .cmpRegShift c rn rd o
  | .cmn, .imm o => .cmnImm c rn rd o
  | .cmn, .shift o => .cmnShift c rn rd o
  | .cmn, .regShift o => .cmnRegShift c rn rd o

/-- The encodings with S = 0. -/
def TestOp.instrS0 (k : TestOp) (c : Cond) (rn rd : Reg) (o : Op2) : Instr :=
  match k, o with
  | .tst, .imm o => .tstImmS0 c rn rd o
  | .tst, .shift o => .tstShiftS0 c rn rd o
  | .tst, .regShift o => .tstRegShiftS0 c rn rd o
  | .teq, .imm o => .teqImmS0 c rn rd o
  | .teq, .shift o => .teqShiftS0 c rn rd o
  | .teq, .regShift o => .teqRegShiftS0 c rn rd o
  | .cmp, .imm o => .cmpImmS0 c rn rd o
  | .cmp, .shift o => .cmpShiftS0 c rn rd o
  | .cmp, .regShift o => .cmpRegShiftS0 c rn rd o
  | .cmn, .imm o => .cmnImmS0 c rn rd o
  | .cmn, .shift o => .cmnShiftS0 c rn rd o
  | .cmn, .regShift o => .cmnRegShiftS0 c rn rd o

/-- LDR and LDRB, by width and offset form. -/
def loadInstr (byte : Bool) (c : Cond) (p u w : Bool) (rn rd : Reg) (o : Offset) : Instr :=
  match byte, o with
  | false, .imm off => .ldrImm c p u w rn rd off
  | false, .reg o => .ldrReg c p u w rn rd o
  | true, .imm off => .ldrbImm c p u w rn rd off
  | true, .reg o => .ldrbReg c p u w rn rd o

/-- STR and STRB, by width and offset form. -/
def storeInstr (byte : Bool) (c : Cond) (p u w : Bool) (rn rd : Reg) (o : Offset) : Instr :=
  match byte, o with
  | false, .imm off => .strImm c p u w rn rd off
  | false, .reg o => .strReg c p u w rn rd o
  | true, .imm off => .strbImm c p u w rn rd off
  | true, .reg o => .strbReg c p u w rn rd o

/-- The transfer address on the bus. -/
def singleAddr (s : State) (p u : Bool) (rn : Reg) (o : Offset) : Addr :=
  busAddr (s.transferAddr p u rn o)

/-- The record of the one access of a single data transfer. -/
def singleAccess (s : State) (byte write : Bool) (p u w : Bool) (rn : Reg) (o : Offset) : Access :=
  s.dataAccess (singleAddr s p u rn o) (if byte then .byte else .word) write (!p && w)

/-- Does the memory system answer it with ABORT? -/
def singleAborts (s : State) (byte write : Bool) (p u w : Bool) (rn : Reg) (o : Offset) : Bool :=
  s.aborts (singleAccess s byte write p u w rn o)

/-- What a load whose access is `a` puts in its register: the byte, or the four bytes of the word from the addressed one
round to the one below it; the bytes a device drives where one answers. -/
def loadedValue (s : State) (byte : Bool) (a : Access) : Word :=
  let at' (k : Nat) : Byte := match s.answer a with
    | some (.device d) => d.extractLsb' (8 * ((a.addr.toNat + k) % 4)) 8
    | _ => readByte s.mem (a.addr.toNat / 4 * 4 + (a.addr.toNat + k) % 4)
  if byte then (at' 0).setWidth 32 else at' 3 ++ at' 2 ++ at' 1 ++ at' 0

/-- The registers after the write-back of a single data transfer. -/
def backedRegs (s : State) (p u w : Bool) (rn : Reg) (o : Offset) : Regs :=
  if !p || w then setReg s.psr.mode s.regs rn (s.transferIndex u rn o) else s.regs

/-- The registers after the write-back of a block transfer. -/
def blockBackedRegs (s : State) (u w : Bool) (rn : Reg) (list : BitVec 16) : Regs :=
  if w then setReg s.psr.mode s.regs rn (s.blockLast u rn list) else s.regs

/-- The bus address of the `k`-th word of a block transfer. -/
def blockWord (s : State) (p u : Bool) (rn : Reg) (list : BitVec 16) (k : Nat) : Addr :=
  blockAddr (s.blockFirst p u rn list) k

/-- Is the `k`-th access of a block transfer answered with ABORT? -/
def blockAborts (s : State) (start : Word) (write : Bool) (k : Nat) : Bool :=
  s.aborts (s.dataAccess (blockAddr start k) .word write false)

/-- The record of the `k`-th access of a transfer of consecutive words. -/
def blockAccess (s : State) (start : Word) (write : Bool) (k : Nat) : Access :=
  s.dataAccess (blockAddr start k) .word write false

/-- What the `k`-th read of such a transfer gives: a device's word, or that of memory as other masters have left it. -/
def blockRead (s : State) (start : Word) (k : Nat) : Word :=
  match s.answer (blockAccess s start false k) with
  | some (.device d) => d
  | _ => readWord (s.busGaps (k + 1)).mem (blockAddr start k)

/-- The writes among `words`, stored from `start` on, that devices take. -/
def deviceWrites (s : State) (start : Word) (words : List Word) : List (Access × Word) :=
  words.zipIdx.filterMap fun e => match s.answer (blockAccess s start true e.2) with
    | some (.device _) => some (blockAccess s start true e.2, e.1)
    | _ => none

/-- Storing `words` from `start` on leaves `mem`: access by access, what other masters write before it is written, then
the word where memory answers, none where a device or ABORT does. -/
def StoredInOrder (s : State) (start : Word) (words : List Word) (mem : List Host.Cell) : Prop :=
  ∃ m : Nat → List Host.Cell, m 0 = s.mem ∧ m words.length = mem ∧
    ∀ k v, words[k]? = some v →
      let before := masterWrites (m k) (s.now.between[k]?.getD [])
      m (k + 1) = if s.answer (blockAccess s start true k) = none then writeWord before (blockAddr start k) v else before

/-- The same, read back byte by byte, where no other master writes. -/
def StoredWords (s : State) (start : Word) (words : List Word) (mem : List Host.Cell) : Prop :=
  (∀ k v, words[k]? = some v → readWord mem (blockAddr start k) =
    if s.answer (blockAccess s start true k) = none then v else readWord s.mem (blockAddr start k)) ∧
  ∀ x, (∀ k, k < words.length → x / 4 ≠ (blockAddr start k).toNat / 4) → readByte mem x = readByte s.mem x

/-- The value a settled machine stores for register `r`, the `k`-th of the list of an STM, from the bank of mode `m`. -/
def blockStored (s : State) (m : Mode) (u w : Bool) (rn : Reg) (list : BitVec 16) (k : Nat) (r : Reg) : Word :=
  match physOf m r with
  | none => s.r15full 12
  | some q => if k = 0 then s.regs.get q else (blockBackedRegs s u w rn list).get q

/-- The instructions offered to the co-processors: the co-processor ones and the undefined ones. -/
inductive Offered where
  | cdp (opc : BitVec 4) (crn crd cp : Reg) (info : BitVec 3) (crm : Reg)
  | ldc (p u n w : Bool) (rn crd cp : Reg) (off : BitVec 8)
  | stc (p u n w : Bool) (rn crd cp : Reg) (off : BitVec 8)
  | mrc (opc : BitVec 3) (crn rd cp : Reg) (info : BitVec 3) (crm : Reg)
  | mcr (opc : BitVec 3) (crn rd cp : Reg) (info : BitVec 3) (crm : Reg)
  | undefinedA (x : BitVec 20) (y : BitVec 4)
  | undefinedB (x : BitVec 16) (y : BitVec 2) (z : BitVec 4)
deriving DecidableEq, Repr

def Offered.instr (k : Offered) (c : Cond) : Instr :=
  match k with
  | .cdp opc crn crd cp info crm => .cdp c opc crn crd cp info crm
  | .ldc p u n w rn crd cp off => .ldc c p u n w rn crd cp off
  | .stc p u n w rn crd cp off => .stc c p u n w rn crd cp off
  | .mrc opc crn rd cp info crm => .mrc c opc crn rd cp info crm
  | .mcr opc crn rd cp info crm => .mcr c opc crn rd cp info crm
  | .undefinedA x y => .undefinedA c x y
  | .undefinedB x y z => .undefinedB c x y z

/-- The number of the co-processor it is for; an undefined instruction names none. -/
def Offered.number : Offered → Option (BitVec 4)
  | .cdp _ _ _ cp _ _ | .ldc _ _ _ _ _ _ cp _ | .stc _ _ _ _ _ _ cp _ | .mrc _ _ _ cp _ _ | .mcr _ _ _ cp _ _ => some cp
  | .undefinedA .. | .undefinedB .. => none

/-- Is the rule one for the instruction word `w`, offered in mode `m`? -/
abbrev Answers (r : CpRule) (w : Word) (m : Mode) : Prop :=
  w &&& r.mask = r.value ∧ (r.mode = none ∨ r.mode = some m) ∧ (r.trans = none ∨ r.trans = some (decide (m = .usr)))

/-- What the co-processors answer to it. -/
def Offered.answer (k : Offered) (c : Cond) (s : State) : CpReply :=
  s.reply k.number (encode (k.instr c))

/-- `s` once a co-processor has taken instruction `i` and the processor has sent it `words`. -/
def took (s : State) (i : Instr) (words : List Word) : State :=
  { s with cpLog := s.cpLog ++ [⟨encode i, words⟩] }

/-- What D1 leaves a meaning when the reconstructed rules have none. -/
def InSurvivingText (s : State) (i : Instr) : Prop :=
  (∃ c n, i = .b c n ∨ i = .bl c n ∨ i = .swi c n) ∨
  (∃ (k : Offered) (c : Cond), i = k.instr c ∧ (k.answer c s = .absent ∨ k.answer c s = .busy)) ∨
  (∃ c f, i = .movShift c f 0 15 ⟨14, .lsl 0⟩) ∨
  ∃ c, i = .subImm c true 14 15 ⟨0, 4⟩ ∨ i = .subImm c true 14 15 ⟨0, 8⟩

/-- The unallocated encodings of the multiply space. -/
inductive UnallocatedMul where
  | b (x : BitVec 16) | d (x : BitVec 16) | f (x : BitVec 16) | x4 (x : BitVec 14) | x8 (x : BitVec 14) | xc (x : BitVec 14)
deriving DecidableEq, Repr

def UnallocatedMul.instr (k : UnallocatedMul) (c : Cond) (y : BitVec 4) : Instr :=
  match k with
  | .b x => .unallocB c x y
  | .d x => .unallocD c x y
  | .f x => .unallocF c x y
  | .x4 x => .unalloc4 c x y
  | .x8 x => .unalloc8 c x y
  | .xc x => .unallocC c x y

/-- The forms the spec gives no meaning (U1, U5, U6, U10, U13, U14). -/
def NoMeaning (i : Instr) (s : State) : Prop :=
  match i with
  | .tstImmS0 .. | .tstShiftS0 .. | .tstRegShiftS0 .. | .teqImmS0 .. | .teqShiftS0 .. | .teqRegShiftS0 ..
  | .cmpImmS0 .. | .cmpShiftS0 .. | .cmpRegShiftS0 .. | .cmnImmS0 .. | .cmnShiftS0 .. | .cmnRegShiftS0 ..
  | .unallocB .. | .unallocD .. | .unallocF .. | .unalloc4 .. | .unalloc8 .. | .unallocC .. => True
  | .ldrImm _ p _ w rn _ _ | .ldrReg _ p _ w rn _ _ | .strImm _ p _ w rn _ _ | .strReg _ p _ w rn _ _
  | .ldrbImm _ p _ w rn _ _ | .ldrbReg _ p _ w rn _ _ | .strbImm _ p _ w rn _ _ | .strbReg _ p _ w rn _ _ =>
    rn = 15 ∧ (p = false ∨ w = true)
  | .ldm _ _ _ s' w _ list =>
    list = 0 ∨ (s' = true ∧ w = true ∧ list.getLsbD 15 = false ∧ s.psr.mode ≠ .usr)
  | .stm _ _ _ s' w _ list => list = 0 ∨ (s' = true ∧ w = true ∧ s.psr.mode ≠ .usr)
  | .ldc _ _ _ _ w rn _ cp _ | .stc _ _ _ _ w rn _ cp _ =>
    rn = 15 ∧ w = true ∧ (s.reply (some cp) (encode i)).isReady = true
  | _ => False

end Sys2Proof.Spec

open Sys2Proof Sys2Proof.Machine Sys2Proof.Spec

/-! ## Encoding (spec/30_encoding.md) -/

/-- R100 to R118: the word of every well-formed instruction decodes to it, every operand with it. -/
def Obligations.WellFormedInstructionsRoundTrip : Prop :=
  ∀ i : Instr, i.wellFormed = true → decodeWord (encode i) = i

/-- R116, R122 (the spec's own inferences from its encodings): every word is some instruction's, and encoding what it
decodes to gives the word back. -/
def Obligations.EveryWordDecodesAndEncodesBack : Prop :=
  ∀ w : Word, encode (decodeWord w) = w ∧ (decodeWord w).wellFormed = true

/-- Words written out from the encodings of the family files' examples, one or more of every family. -/
def Obligations.ExampleWordsDecode : Prop :=
  decodeTableWord 32 0xEAFFFFFE = some (.b .al 0xFFFFFE) ∧
  decodeTableWord 32 0xEB000002 = some (.bl .al 2) ∧
  decodeTableWord 32 0xE21100FF = some (.andImm .al true 1 0 ⟨0, 0xFF⟩) ∧
  decodeTableWord 32 0xE0222003 = some (.eorShift .al false 2 2 ⟨3, .lsl 0⟩) ∧
  decodeTableWord 32 0xE1B00271 = some (.movRegShift .al true 0 0 ⟨1, .ror, 2⟩) ∧
  decodeTableWord 32 0xE33FF000 = some (.teqImm .al 15 15 ⟨0, 0⟩) ∧
  decodeTableWord 32 0x00314392 = some (.mla .eq true 1 4 3 2) ∧
  decodeTableWord 32 0xE7910102 = some (.ldrReg .al true true false 1 0 ⟨2, .lsl 2⟩) ∧
  decodeTableWord 32 0xE5432001 = some (.strbImm .al true false false 3 2 1) ∧
  decodeTableWord 32 0xE8FD8001 = some (.ldm .al false true true true 13 0x8001) ∧
  decodeTableWord 32 0xE92D4001 = some (.stm .al true false false true 13 0x4001) ∧
  decodeTableWord 32 0x1F123456 = some (.swi .ne 0x123456) ∧
  decodeTableWord 32 0x0D653206 = some (.stc .eq true false true true 5 3 2 6) ∧
  decodeTableWord 32 0xEEA21183 = some (.cdp .al 10 2 1 1 4 3) ∧
  decodeTableWord 32 0xEEB53216 = some (.mrc .al 5 5 3 2 0 6) ∧
  decodeTableWord 32 0xEE064610 = some (.mcr .al 0 6 4 6 0 0) ∧
  decodeTableWord 32 0xE7FFFFFF = some (.undefinedA .al 0xFFFFF 15) ∧
  decodeTableWord 32 0xE1000090 = some (.undefinedB .al 0 0 0) ∧
  decodeTableWord 32 0xE0400090 = some (.unalloc4 .al 0 0)

/-- R63, R100, the byte order being the spec's decision D4 (entry 5): the four bytes of a word decode to its
instruction, the lowest address holding bits 7:0, and the bytes after them are left. -/
def Obligations.BytesDecodeLittleEndian : Prop :=
  (∀ (w : Word) (rest : List Byte), decode (wordBytes w ++ rest) = .ok (decodeWord w, rest)) ∧
  ∀ b : List Byte, b.length < 4 → decode b = .error .truncated

/-! ## The condition field (spec/40_condition_field.md) -/

/-- R132 to R147, and R148, whose code 1111 for NV the spec infers: the code and the predicate of every condition. The
table is lost, and its sixteen codes are the spec's decision D8 (R131). -/
def Obligations.ConditionsTestTheirFlags : Prop :=
  (List.range 16).map (fun k => Cond.ofCode (BitVec.ofNat 4 k)) =
    [.eq, .ne, .cs, .cc, .mi, .pl, .vs, .vc, .hi, .ls, .ge, .lt, .gt, .le, .al, .nv] ∧
  ∀ p : Psr,
    (condPassed .eq p ↔ p.z = true) ∧ (condPassed .ne p ↔ p.z = false) ∧
    (condPassed .cs p ↔ p.c = true) ∧ (condPassed .cc p ↔ p.c = false) ∧
    (condPassed .mi p ↔ p.n = true) ∧ (condPassed .pl p ↔ p.n = false) ∧
    (condPassed .vs p ↔ p.v = true) ∧ (condPassed .vc p ↔ p.v = false) ∧
    (condPassed .hi p ↔ p.c = true ∧ p.z = false) ∧ (condPassed .ls p ↔ p.c = false ∨ p.z = true) ∧
    (condPassed .ge p ↔ p.n = p.v) ∧ (condPassed .lt p ↔ p.n ≠ p.v) ∧
    (condPassed .gt p ↔ p.z = false ∧ p.n = p.v) ∧ (condPassed .le p ↔ p.z = true ∨ p.n ≠ p.v) ∧
    condPassed .al p = true ∧ condPassed .nv p = false

/-- R146: whatever its other 28 bits, a word whose condition fails only goes on to the next instruction. -/
def Obligations.FailedConditionIsANoOp : Prop :=
  ∀ (w : Word) (s : State), condPassed (Cond.ofCode (w.extractLsb' 28 4)) s.psr = false →
    exec (decodeWord w) s = .next (wentOn s s.regs s.psr s.mem)

/-- What a condition means after CMP of `a` and `b` (R132 to R145, R190): the comparison of the two numbers. -/
def Obligations.ConditionsAfterCompareOrderTheOperands : Prop :=
  ∀ (p : Psr) (a b : Word), let q := arithmeticFlags p a (~~~b) true
    (condPassed .eq q ↔ a = b) ∧ (condPassed .ne q ↔ a ≠ b) ∧
    (condPassed .cs q ↔ b.toNat ≤ a.toNat) ∧ (condPassed .cc q ↔ a.toNat < b.toNat) ∧
    (condPassed .hi q ↔ b.toNat < a.toNat) ∧ (condPassed .ls q ↔ a.toNat ≤ b.toNat) ∧
    (condPassed .ge q ↔ b.toInt ≤ a.toInt) ∧ (condPassed .lt q ↔ a.toInt < b.toInt) ∧
    (condPassed .gt q ↔ b.toInt < a.toInt) ∧ (condPassed .le q ↔ a.toInt ≤ b.toInt)

/-! ## Registers and R15 (spec/10_state.md) -/

/-- R22: the physical register of every number in every mode. -/
def Obligations.RegisterBanksFollowTheMode : Prop :=
  (∀ m : Mode, [0, 1, 2, 3, 4, 5, 6, 7].map (physOf m) =
    [some .r0, some .r1, some .r2, some .r3, some .r4, some .r5, some .r6, some .r7]) ∧
  (∀ m : Mode, m ≠ .fiq → [8, 9, 10, 11, 12].map (physOf m) =
    [some .r8, some .r9, some .r10, some .r11, some .r12]) ∧
  [8, 9, 10, 11, 12, 13, 14].map (physOf .fiq) =
    [some .r8Fiq, some .r9Fiq, some .r10Fiq, some .r11Fiq, some .r12Fiq, some .r13Fiq, some .r14Fiq] ∧
  [13, 14].map (physOf .usr) = [some .r13, some .r14] ∧
  [13, 14].map (physOf .svc) = [some .r13Svc, some .r14Svc] ∧
  [13, 14].map (physOf .irq) = [some .r13Irq, some .r14Irq] ∧
  ∀ m : Mode, physOf m 15 = none

/-- R10, and R24, the spec's inference from R20 and R22: a register written in a mode reads back so in that mode; every
other register of every mode keeps its value, and writing number 15 through `x[]` changes nothing. -/
def Obligations.RegisterWritesStayInTheirBank : Prop :=
  ∀ (s : State) (m m' : Mode) (r q : Reg) (v r15 : Word) (who : Config.Draw), s.bank = .settled →
    (r ≠ 15 → (s.writeBank m r v).readBank m who r15 r = v) ∧
    (physOf m r ≠ physOf m' q → (s.writeBank m r v).readBank m' who r15 q = s.readBank m' who r15 q) ∧
    s.writeBank m 15 v = s

/-- R37, the spec's inference from R28, R32 and R36: the three ways an instruction writes R15, and what each leaves. -/
def Obligations.ThreeWaysToWriteR15 : Prop :=
  ∀ (s : State) (w : Word),
    s.writePC w = wentTo s s.regs s.psr (w.extractLsb' 2 24) ∧
    s.writePSR w = { s with psr := psrFrom s.psr w } ∧
    s.writePCPSR w = wentTo s s.regs (psrFrom s.psr w) (w.extractLsb' 2 24)

/-- R10, R28: R15 read with the PSR is the status bits in their places and the PC `k` bytes on, modulo 2^26; read alone,
the PC. The layout and the mode codes are the spec's decisions D2 and D3. -/
def Obligations.R15ReadsAsStatusAndPc : Prop :=
  ∀ (s : State) (k : Nat), k % 4 = 0 →
    (s.r15full (BitVec.ofNat 26 k)).toNat = r15Number s.psr ((4 * s.pc.toNat + k) % 2 ^ 26) ∧
    (s.r15pc (BitVec.ofNat 26 k)).toNat = (4 * s.pc.toNat + k) % 2 ^ 26

/-- R46: what the reset sequence leaves, where the spec gives it; that nothing is prefetched or waited for is the spec's
inference. -/
def Obligations.ResetEntersSupervisorAtZero : Prop :=
  State.reset.psr.mode = .svc ∧ State.reset.psr.i = true ∧ State.reset.psr.f = true ∧ State.reset.addr = 0 ∧
    State.reset.pipe = [] ∧ State.reset.busyWait = false

/-- R36, R373: in User mode an instruction that changes I, F or the mode takes an exception: supervisor mode, I set, F
kept, the PC at one of the five vectors of a synchronous exception. -/
def Obligations.UserModeKeepsMasksAndMode : Prop :=
  ∀ (i : Instr) (s t : State), s.psr.mode = .usr → exec i s = .next t →
    (t.psr.i = s.psr.i ∧ t.psr.f = s.psr.f ∧ t.psr.mode = .usr) ∨
    (t.psr.i = true ∧ t.psr.f = s.psr.f ∧ t.psr.mode = .svc ∧ t.pc.toNat ∈ [1, 2, 4, 5])

/-- R26, R372 (c): a User mode instruction writes no register of another mode, but R14_svc where it takes an exception.
-/
def Obligations.UserModeCannotReachOtherBanks : Prop :=
  ∀ (i : Instr) (s t : State) (q : PReg), s.psr.mode = .usr → exec i s = .next t →
    q ∈ [.r8Fiq, .r9Fiq, .r10Fiq, .r11Fiq, .r12Fiq, .r13Fiq, .r14Fiq, .r13Irq, .r14Irq, .r13Svc, .r14Svc] →
    t.regs.get q = s.regs.get q ∨ (q = .r14Svc ∧ t.psr.mode = .svc)

/-! ## Memory (spec/20_memory.md) -/

/-- R63, R65, R92, the byte order and the ignored A[1:0] being the spec's decisions D4 and D5 (entries 5, 6): a word is
its four bytes, the lowest address least significant; a read sees the last write of its byte or word; a write leaves
every other byte, a byte write every other bit of its word; and every write keeps the canonical form. The same of what
other masters write (R82, R84), which happens before each data access of an instruction (R67, entry 26). -/
def Obligations.MemoryReadsSeeWrites : Prop :=
  (∀ (m : List Host.Cell) (a : Addr) (b : Byte) (v : Word), memoryWf m = true →
    ((readWord m a).toNat =
      (readByte m (a.toNat / 4 * 4)).toNat + 2 ^ 8 * (readByte m (a.toNat / 4 * 4 + 1)).toNat +
        2 ^ 16 * (readByte m (a.toNat / 4 * 4 + 2)).toNat + 2 ^ 24 * (readByte m (a.toNat / 4 * 4 + 3)).toNat) ∧
    readByte (writeByte m a.toNat b) a.toNat = b ∧
    readWord (writeWord m a v) a = v ∧
    (∀ x, x ≠ a.toNat → readByte (writeByte m a.toNat b) x = readByte m x) ∧
    (∀ x, x / 4 ≠ a.toNat / 4 → readByte (writeWord m a v) x = readByte m x) ∧
    (∀ i, i < 32 → (readWord (writeByte m a.toNat b) a).getLsbD i =
      if i / 8 = a.toNat % 4 then b.getLsbD (i % 8) else (readWord m a).getLsbD i) ∧
    memoryWf (writeByte m a.toNat b) = true ∧ memoryWf (writeWord m a v) = true) ∧
  (∀ (m l : List Host.Cell) (a x : Nat) (b : Byte), memoryWf m = true →
    masterWrites m [] = m ∧ memoryWf (masterWrites m l) = true ∧
    readByte (masterWrites m (l ++ [(a, b)])) x = if x = a % 2 ^ 26 then b else readByte (masterWrites m l) x) ∧
  ∀ s : State,
    (s.now.between = [] → s.busGap = s) ∧
    ∀ l rest, s.now.between = l :: rest → s.busGap.mem = masterWrites s.mem l ∧ s.busGap.now.between = rest ∧
      s.busGap = { s with mem := s.busGap.mem, inputs := s.busGap.inputs }

/-- The model's choice (entry 4) of how memory is held: two memories in canonical form that read the same everywhere are
the same. -/
def Obligations.CanonicalMemoryIsDeterminedByItsBytes : Prop :=
  ∀ m m' : List Host.Cell, memoryWf m = true → memoryWf m' = true → (∀ a, readByte m a = readByte m' a) → m = m'

/-- R79, R240: TRANS, as a memory system sees it that aborts every access with TRANS LOW: it aborts every access from
User mode, and from the other modes the single transfers with P = 0 and W = 1 alone. -/
def Obligations.TransIsLowInUserModeOrForced : Prop :=
  ∀ s : State, s.memSystem = [⟨0, 2 ^ 26 - 1, none, none, none, some true, none, .abort⟩] →
    (∀ (byte write p u w : Bool) (rn : Reg) (o : Offset), singleAborts s byte write p u w rn o = true ↔
      s.psr.mode = .usr ∨ (p = false ∧ w = true)) ∧
    (∀ (start : Word) (write : Bool) (k : Nat), blockAborts s start write k = true ↔ s.psr.mode = .usr) ∧
    ∀ a : Addr, s.aborts (s.fetchAccess a) = true ↔ s.psr.mode = .usr

/-! ## The barrel shifter and operands (spec/42_data_processing.md) -/

/-- R165 to R169: the shifts whose amount is in the instruction; the last line is the meaning of an amount field of 0.
-/
def Obligations.InstructionSpecifiedShifts : Prop :=
  ∀ (v : Word) (cin : Bool),
    shiftImm (.lsl 0) v cin = (v, cin) ∧
    (∀ n, 1 ≤ n → n ≤ 31 →
      ((shiftImm (.lsl n) v cin).1.toNat = v.toNat * 2 ^ n % 2 ^ 32 ∧ (shiftImm (.lsl n) v cin).2 = v.getLsbD (32 - n)) ∧
      ((shiftImm (.lsr n) v cin).1.toNat = v.toNat / 2 ^ n ∧ (shiftImm (.lsr n) v cin).2 = v.getLsbD (n - 1)) ∧
      ((shiftImm (.asr n) v cin).1.toInt = v.toInt / 2 ^ n ∧ (shiftImm (.asr n) v cin).2 = v.getLsbD (n - 1)) ∧
      ((shiftImm (.ror n) v cin).1 = (v >>> n) ||| (v <<< (32 - n)) ∧
        (shiftImm (.ror n) v cin).2 = v.getLsbD (n - 1))) ∧
    shiftImm (.lsr 32) v cin = (0, v.getLsbD 31) ∧
    shiftImm (.asr 32) v cin = (if v.getLsbD 31 then 0xFFFFFFFF else 0, v.getLsbD 31) ∧
    ((shiftImm .rrx v cin).1.toNat = cin.toNat * 2 ^ 31 + v.toNat / 2 ∧ (shiftImm .rrx v cin).2 = v.getLsbD 0) ∧
    [ShiftType.lsl, .lsr, .asr, .ror].map (ImmShift.ofFields 0) = [.lsl 0, .lsr 32, .asr 32, .rrx]

/-- R170 to R174: the shifts whose amount is in a register, 0 to 255. -/
def Obligations.RegisterSpecifiedShifts : Prop :=
  ∀ (v : Word) (cin : Bool),
    (∀ t, shiftReg t 0 v cin = (v, cin)) ∧
    (∀ n, 1 ≤ n → n ≤ 31 → shiftReg .lsl n v cin = shiftImm (.lsl n) v cin ∧
      shiftReg .lsr n v cin = shiftImm (.lsr n) v cin ∧ shiftReg .asr n v cin = shiftImm (.asr n) v cin ∧
      shiftReg .ror n v cin = shiftImm (.ror n) v cin) ∧
    shiftReg .lsl 32 v cin = (0, v.getLsbD 0) ∧ shiftReg .lsr 32 v cin = (0, v.getLsbD 31) ∧
    (∀ n, 33 ≤ n → n ≤ 255 → shiftReg .lsl n v cin = (0, false) ∧ shiftReg .lsr n v cin = (0, false)) ∧
    (∀ n, 32 ≤ n → n ≤ 255 → shiftReg .asr n v cin = (if v.getLsbD 31 then 0xFFFFFFFF else 0, v.getLsbD 31)) ∧
    (∀ n, 32 ≤ n → n ≤ 255 → shiftReg .ror n v cin =
      if n % 32 = 0 then (v, v.getLsbD 31) else shiftImm (.ror (n % 32)) v cin)

/-- R176 (and the decision D24 on the carry): the rotated immediate. -/
def Obligations.RotatedImmediates : Prop :=
  ∀ (o : RotImm) (cin : Bool),
    (∀ i, i < 32 → (rotatedImm o cin).1.getLsbD i =
      (decide ((i + 2 * o.rot.toNat) % 32 < 8) && o.imm8.getLsbD ((i + 2 * o.rot.toNat) % 32))) ∧
    (o.rot = 0 → (rotatedImm o cin).2 = cin) ∧
    (o.rot ≠ 0 → (rotatedImm o cin).2 = (rotatedImm o cin).1.getLsbD 31)

/-- R161 to R163: how Rn, Rm and Rs are read; R15 as Rn and Rs is the PC alone, as Rm the PC with the PSR, 8 bytes on,
12 for Rn and Rm when the amount is in a register. An immediate operand is the rotated immediate of `RotatedImmediates`,
the C flag as it is. -/
def Obligations.OperandsReadRegistersAndR15 : Prop :=
  ∀ (s : State) (o : Op2) (sh : ImmShift) (t : ShiftType) (rs : Reg), s.bank = .settled →
    (∀ i : RotImm, s.secondOperand (.imm i) = rotatedImm i s.psr.c) ∧
    (∀ rn p, physOf s.psr.mode rn = some p → s.firstOperand rn o = s.regs.get p) ∧
    (s.firstOperand 15 o).toNat = (4 * s.pc.toNat + (match o with | .regShift _ => 12 | _ => 8)) % 2 ^ 26 ∧
    (∀ rm p, physOf s.psr.mode rm = some p →
      s.secondOperand (.shift ⟨rm, sh⟩) = shiftImm sh (s.regs.get p) s.psr.c ∧
      s.secondOperand (.regShift ⟨rm, t, rs⟩) = shiftReg t (s.shiftAmount rs) (s.regs.get p) s.psr.c ∧
      s.shiftAmount rm = (s.regs.get p).toNat % 256) ∧
    s.secondOperand (.shift ⟨15, sh⟩) = shiftImm sh (s.r15full 8) s.psr.c ∧
    s.secondOperand (.regShift ⟨15, t, rs⟩) = shiftReg t (s.shiftAmount rs) (s.r15full 12) s.psr.c ∧
    s.shiftAmount 15 = (4 * s.pc.toNat + 8) % 256

/-! ## Data processing (spec/42_data_processing.md) -/

/-- R175, R177, R180, R181, R192 to R195: AND, EOR, ORR, MOV, BIC, MVN in every operand form: the result in Rd and, with
S, the flags; for Rd = 15 the PC from the result and, with S, the PSR from it too; and nothing else. -/
def Obligations.LogicalOperationsWriteTheirResult : Prop :=
  ∀ (k : LogicalOp) (c : Cond) (s : Bool) (rn rd : Reg) (o : Op2) (st : State),
    condPassed c st.psr = true → st.unsettled rd = false →
    let r := k.result (st.firstOperand rn o) (st.secondOperand o).1
    (encode (k.instr c s rn rd o)).extractLsb' 21 4 = k.opcode ∧
    (∀ p, physOf st.psr.mode rd = some p → exec (k.instr c s rn rd o) st =
      .next (wentOn st (st.regs.set p r) (if s then logicalPsr st.psr r (st.secondOperand o).2 else st.psr) st.mem)) ∧
    (rd = 15 → exec (k.instr c s rn rd o) st =
      .next (wentTo st st.regs (if s then psrFrom st.psr r else st.psr) (r.extractLsb' 2 24)))

/-- R175, R178, R182 to R187: SUB, RSB, ADD, ADC, SBC, RSC in every operand form: the result in Rd and, with S, the
flags as the integers give them; for Rd = 15 the PC from the result and, with S, the PSR from it too; and nothing else.
-/
def Obligations.ArithmeticOperationsWriteTheirResult : Prop :=
  ∀ (k : ArithOp) (c : Cond) (s : Bool) (rn rd : Reg) (o : Op2) (st : State),
    condPassed c st.psr = true → st.unsettled rd = false →
    let a := st.firstOperand rn o
    let b := (st.secondOperand o).1
    let r := k.result a b st.psr.c
    (encode (k.instr c s rn rd o)).extractLsb' 21 4 = k.opcode ∧
    (∀ p, physOf st.psr.mode rd = some p → exec (k.instr c s rn rd o) st =
      .next (wentOn st (st.regs.set p r) (if s then k.psr st.psr a b else st.psr) st.mem)) ∧
    (rd = 15 → exec (k.instr c s rn rd o) st =
      .next (wentTo st st.regs (if s then psrFrom st.psr r else st.psr) (r.extractLsb' 2 24)))

/-- R179, R188 to R191, R400: TST, TEQ, CMP, CMN in every operand form: with S = 1 and Rd not 15 the flags alone; with
Rd = 15 (TSTP, TEQP, CMPP, CMNP) the PSR from the result, the PC not written, and after a change of mode the register
bank unsettled for the next instruction; with S = 0 a refusal. -/
def Obligations.TestsWriteThePsrAlone : Prop :=
  ∀ (k : TestOp) (c : Cond) (rn rd : Reg) (o : Op2) (st : State), condPassed c st.psr = true →
    let r := k.result (st.firstOperand rn o) (st.secondOperand o).1
    let q := psrFrom st.psr r
    (encode (k.instr c rn rd o)).extractLsb' 20 5 = k.opcode ++ 1#1 ∧
    (rd ≠ 15 → exec (k.instr c rn rd o) st = .next (wentOn st st.regs
      (k.psr st.psr (st.firstOperand rn o) (st.secondOperand o).1 (st.secondOperand o).2) st.mem)) ∧
    (rd = 15 → exec (k.instr c rn rd o) st =
      .next { wentOn st st.regs q st.mem with
        bank := if q.mode = st.psr.mode then .settled
          else if q.mode = .fiq ∨ st.psr.mode = .fiq then .unsettled8 else .unsettled13 }) ∧
    (encode (k.instrS0 c rn rd o)).extractLsb' 20 5 = k.opcode ++ 0#1 ∧
    exec (k.instrS0 c rn rd o) st = .refused .unallocatedTest

/-! ## Multiply (spec/43_multiply.md) -/

/-- R221, R222, R224, R226: MUL and MLA with Rd neither R15 nor Rm: the product modulo 2^32, N and Z from it, V kept,
some C. -/
def Obligations.MultiplyWritesTheProduct : Prop :=
  ∀ (c : Cond) (s : Bool) (rd rn rs rm : Reg) (st : State) (p : PReg),
    condPassed c st.psr = true → physOf st.psr.mode rd = some p → st.unsettled rd = false → rd ≠ rm →
    let x := st.readX .rm (st.r15full 12) rm
    let y := st.readX .rs (st.r15pc 8) rs
    let z := st.readX .rn (st.r15full 8) rn
    ∃ carry : Bool, ∀ r : Word,
      let q := if s then { st.psr with n := r.getLsbD 31, z := decide (r = 0), c := carry } else st.psr
      (r.toNat = x.toNat * y.toNat % 2 ^ 32 →
        exec (.mul c s rd rn rs rm) st = .next (wentOn st (st.regs.set p r) q st.mem)) ∧
      (r.toNat = (x.toNat * y.toNat + z.toNat) % 2 ^ 32 →
        exec (.mla c s rd rn rs rm) st = .next (wentOn st (st.regs.set p r) q st.mem))

/-- R225, and the free value that entry 20 takes, the model's choice, among what R223 and U8 allow: with Rd = Rm the
result is some value; with Rd = 15 no register is written; in both, without S no flag changes, and with S only the
condition flags (V not with Rd = Rm). -/
def Obligations.RestrictedMultipliesTouchOnlyRdAndFlags : Prop :=
  ∀ (a : Bool) (c : Cond) (s : Bool) (rd rn rs : Reg) (st : State), condPassed c st.psr = true →
    let i (d m : Reg) : Instr := if a then .mla c s d rn rs m else .mul c s d rn rs m
    (∀ p, physOf st.psr.mode rd = some p → st.unsettled rd = false →
      ∃ (r : Word) (n z cf : Bool), exec (i rd rd) st =
        .next (wentOn st (st.regs.set p r) (if s then { st.psr with n := n, z := z, c := cf } else st.psr) st.mem)) ∧
    ∀ rm, ∃ n z cf v : Bool, exec (i 15 rm) st =
      .next (wentOn st st.regs (if s then { st.psr with n := n, z := z, c := cf, v := v } else st.psr) st.mem)

/-! ## Single data transfer (spec/44_single_data_transfer.md) -/

/-- R232, R233, R235, R243: LDR and LDRB, both offset forms, Rd not R15: the word rotated so that the addressed byte is
lowest, or the byte zero-extended; the base written back; nothing else. How other masters write before the access (R67)
and devices answer it is the model's, entries 26 and 7. -/
def Obligations.LoadsWriteRdAndBase : Prop :=
  ∀ (byte : Bool) (c : Cond) (p u w : Bool) (rn rd : Reg) (o : Offset) (st : State) (q : PReg),
    condPassed c st.psr = true → physOf st.psr.mode rd = some q → st.unsettled rd = false →
    ((!p || w) = true → rn ≠ 15 ∧ rn ≠ rd ∧ st.unsettled rn = false) →
    illegalAddress (st.transferAddr p u rn o) = false → singleAborts st byte false p u w rn o = false →
    exec (loadInstr byte c p u w rn rd o) st =
      .next (wentOn st.busGap
        ((backedRegs st p u w rn o).set q (loadedValue st.busGap byte (singleAccess st byte false p u w rn o))) st.psr
        st.busGap.mem)

/-- R233, R235, R244 (e): the same with Rd = 15: the PC alone is loaded, the PSR is not. Other masters and devices as
there. -/
def Obligations.LoadsToR15WriteThePcAlone : Prop :=
  ∀ (byte : Bool) (c : Cond) (p u w : Bool) (rn : Reg) (o : Offset) (st : State),
    condPassed c st.psr = true → ((!p || w) = true → rn ≠ 15 ∧ st.unsettled rn = false) →
    illegalAddress (st.transferAddr p u rn o) = false → singleAborts st byte false p u w rn o = false →
    exec (loadInstr byte c p u w rn 15 o) st =
      .next (wentTo st.busGap (backedRegs st p u w rn o) st.psr
        ((loadedValue st.busGap byte (singleAccess st byte false p u w rn o)).extractLsb' 2 24))

/-- R247 (c), (d), U3, U4: a load with Rd = Rn and write-back leaves the loaded value or the address in the register,
and a store of the base stores its old or its new value. Other masters and devices as in `LoadsWriteRdAndBase`. -/
def Obligations.BaseAsDataIsOneOfTwoValues : Prop :=
  (∀ (byte : Bool) (c : Cond) (p u w : Bool) (rd : Reg) (o : Offset) (st : State) (q : PReg),
    condPassed c st.psr = true → physOf st.psr.mode rd = some q → st.unsettled rd = false → (!p || w) = true →
    illegalAddress (st.transferAddr p u rd o) = false → singleAborts st byte false p u w rd o = false →
    ∃ v, (v = loadedValue st.busGap byte (singleAccess st byte false p u w rd o) ∨ v = st.transferIndex u rd o) ∧
      exec (loadInstr byte c p u w rd rd o) st =
        .next (wentOn st.busGap (st.regs.set q v) st.psr st.busGap.mem)) ∧
  ∀ (p u w : Bool) (rd : Reg) (o : Offset) (st : State), (!p || w) = true →
    st.storedValue p u w rd rd o = st.transferBase rd ∨ st.storedValue p u w rd rd o = st.transferIndex u rd o

/-- R232, R234, R236, R65, R244 (d): STR and STRB, both offset forms: the word at the address without its low bits, or
the byte; the base written back; no other byte, register or flag. The value is Rd, or R15 with the PSR 12 bytes on; for
Rd = Rn with write-back see `BaseAsDataIsOneOfTwoValues`. Other masters may write before the access (R67, entry 26).
Where a device takes it (entry 7), the byte stands on all four lanes and memory is unchanged. What a misaligned STR
leaves in its word is some value where the machine does not ignore A[1:0] (R8, D5, entry 6). -/
def Obligations.StoresWriteMemoryAndBase : Prop :=
  ∀ (byte : Bool) (c : Cond) (p u w : Bool) (rn rd : Reg) (o : Offset) (st : State),
    condPassed c st.psr = true → memoryWf st.mem = true →
    ((!p || w) = true → rn ≠ 15 ∧ st.unsettled rn = false) →
    illegalAddress (st.transferAddr p u rn o) = false → singleAborts st byte true p u w rn o = false →
    let a := singleAddr st p u rn o
    let d := st.storedValue p u w rn rd o
    let b := st.busGap
    let access := singleAccess st byte true p u w rn o
    ((rd = rn → (p = true ∧ w = false)) → st.unsettled rd = false →
      (∀ q, physOf st.psr.mode rd = some q → d = st.regs.get q) ∧ (rd = 15 → d = st.r15full 12)) ∧
    (∀ x, st.answer access = some (.device x) →
      let lane := d.extractLsb' 0 8
      exec (storeInstr byte c p u w rn rd o) st =
        .next (wentOn { b with busLog := st.busLog ++ [(access, if byte then lane ++ lane ++ lane ++ lane else d)] }
          (backedRegs st p u w rn o) st.psr b.mem)) ∧
    (st.answer access = none →
      ∃ m, exec (storeInstr byte c p u w rn rd o) st = .next (wentOn b (backedRegs st p u w rn o) st.psr m) ∧
        (byte = true → readByte m a.toNat = d.extractLsb' 0 8 ∧ ∀ x, x ≠ a.toNat → readByte m x = readByte b.mem x) ∧
        (byte = false →
          (st.params.misalignedWordStore = .ignoreLowBits ∨ a.toNat % 4 = 0 → readWord m a = d) ∧
          ∀ x, x / 4 ≠ a.toNat / 4 → readByte m x = readByte b.mem x))

/-- R231, R232, R244: the base, the offset, `idx` and the transfer address, and what is written back. -/
def Obligations.SingleTransferAddressing : Prop :=
  ∀ (s : State) (p u : Bool) (rn rm : Reg) (off : BitVec 12) (sh : ImmShift) (o : Offset), s.bank = .settled →
    (∀ q, physOf s.psr.mode rn = some q → s.transferBase rn = s.regs.get q) ∧
    (s.transferBase 15).toNat = (4 * s.pc.toNat + 8) % 2 ^ 26 ∧
    (s.offset (.imm off)).toNat = off.toNat ∧
    (∀ q, physOf s.psr.mode rm = some q → s.offset (.reg ⟨rm, sh⟩) = (shiftImm sh (s.regs.get q) s.psr.c).1) ∧
    s.offset (.reg ⟨15, sh⟩) = (shiftImm sh (s.r15full 8) s.psr.c).1 ∧
    ((s.transferIndex true rn o).toNat = ((s.transferBase rn).toNat + (s.offset o).toNat) % 2 ^ 32) ∧
    ((s.transferIndex false rn o).toNat = (2 ^ 32 + (s.transferBase rn).toNat - (s.offset o).toNat) % 2 ^ 32) ∧
    s.transferAddr true u rn o = s.transferIndex u rn o ∧ s.transferAddr false u rn o = s.transferBase rn ∧
    (illegalAddress (s.transferAddr p u rn o) = true ↔ 2 ^ 26 ≤ (s.transferAddr p u rn o).toNat)

/-- R245, R344, R349 (the saved PC being the spec's inference, D10, and that no access is made its decision D23, entry
19): an illegal transfer address of LDR, STR, LDRB, STRB takes the address exception: nothing else changes, and R14_svc
takes R15 8 bytes on. -/
def Obligations.AddressExceptionsChangeNothing : Prop :=
  ∀ (store byte : Bool) (c : Cond) (p u w : Bool) (rn rd : Reg) (o : Offset) (st : State),
    condPassed c st.psr = true → ((!p || w) = true → rn ≠ 15) → illegalAddress (st.transferAddr p u rn o) = true →
    exec (if store then storeInstr byte c p u w rn rd o else loadInstr byte c p u w rn rd o) st =
      .next (trapped st .r14Svc 8 .svc st.psr.f 0x14)

/-- R246 (the spec's decision D17): an access of LDR, STR, LDRB, STRB answered with ABORT takes the data abort: nothing
else changes but what other masters write before it (R67, entry 26), no write-back either, and R14_svc takes R15 8 bytes
on. -/
def Obligations.AbortedSingleTransfersChangeNothing : Prop :=
  ∀ (store byte : Bool) (c : Cond) (p u w : Bool) (rn rd : Reg) (o : Offset) (st : State),
    condPassed c st.psr = true → ((!p || w) = true → rn ≠ 15) → illegalAddress (st.transferAddr p u rn o) = false →
    singleAborts st byte store p u w rn o = true →
    exec (if store then storeInstr byte c p u w rn rd o else loadInstr byte c p u w rn rd o) st =
      .next (trapped st.busGap .r14Svc 8 .svc st.psr.f 0x10)

/-! ## Block data transfer (spec/45_block_data_transfer.md) -/

/-- R261, R262, R265, R269: the base, read with the PSR where it is R15; the start address and the final base of the
four addressing modes, `n` counting the set bits; the `k`-th word's address is the start plus `4 k`, with all its 26
bits on the bus (entry 28). -/
def Obligations.BlockAddressing : Prop :=
  ∀ (s : State) (rn : Reg) (list : BitVec 16), let b := s.blockBase rn
    let n := (listed list).length
    (∀ q, s.bank = .settled → physOf s.psr.mode rn = some q → b = s.regs.get q) ∧ s.blockBase 15 = s.r15full 8 ∧
    n = (List.range 16).countP list.getLsbD ∧
    (listed list).Pairwise (fun r q => r.toNat < q.toNat) ∧ (∀ r : Reg, r ∈ listed list ↔ list.getLsbD r.toNat = true) ∧
    s.blockFirst false true rn list = b ∧
    s.blockFirst true true rn list = b + 4 ∧
    s.blockFirst false false rn list = b - 4 * BitVec.ofNat 32 n + 4 ∧
    s.blockFirst true false rn list = b - 4 * BitVec.ofNat 32 n ∧
    s.blockLast true rn list = b + 4 * BitVec.ofNat 32 n ∧ s.blockLast false rn list = b - 4 * BitVec.ofNat 32 n ∧
    ∀ (p u : Bool) (k : Nat),
      (blockWord s p u rn list k).toNat = ((s.blockFirst p u rn list).toNat + 4 * k) % 2 ^ 26

/-- R263 to R266, R270, R273: LDM without R15 in the list and without an abort: every listed register of the bank
transferred takes its word, the base its new value where it is not itself loaded, and nothing else changes; a User bank
transfer leaves the bank unsettled (R401). How other masters write before each access (R67) and devices answer it is the
model's, entries 26 and 7. -/
def Obligations.LoadMultipleLoadsTheList : Prop :=
  ∀ (c : Cond) (p u s w : Bool) (rn : Reg) (list : BitVec 16) (st : State),
    condPassed c st.psr = true → st.bank = .settled → list ≠ 0 → list.getLsbD 15 = false →
    let user := s && st.psr.mode != .usr
    let m := if user then Mode.usr else st.psr.mode
    let start := st.blockFirst p u rn list
    let v := st.busGaps (listed list).length
    (user = true → w = false) → illegalAddress start = false →
    (∀ k, k < (listed list).length → blockAborts st start false k = false) →
    ∃ g : Regs,
      exec (.ldm c p u s w rn list) st = .next { wentOn v g st.psr v.mem with
        bank := if user then (if st.psr.mode = .fiq then .unsettled8 else .unsettled13) else .settled } ∧
      (∀ k r q, (listed list)[k]? = some r → physOf m r = some q → g.get q = blockRead st start k) ∧
      ∀ q, (∀ r, r ∈ listed list → physOf m r ≠ some q) → g.get q = (blockBackedRegs st u w rn list).get q

/-- R270, R274: LDM with R15 in the list: R15 is loaded last, the PC alone without S, the PC and the PSR with S; the
other registers are those of the mode before. Other masters and devices as in `LoadMultipleLoadsTheList`. -/
def Obligations.LoadMultipleWithR15Branches : Prop :=
  ∀ (c : Cond) (p u s w : Bool) (rn : Reg) (list : BitVec 16) (st : State),
    condPassed c st.psr = true → st.bank = .settled → list.getLsbD 15 = true →
    let start := st.blockFirst p u rn list
    illegalAddress start = false → (∀ k, k < (listed list).length → blockAborts st start false k = false) →
    let v := blockRead st start ((listed list).length - 1)
    ∃ g : Regs,
      exec (.ldm c p u s w rn list) st =
        .next (wentTo (st.busGaps (listed list).length) g (if s then psrFrom st.psr v else st.psr) (v.extractLsb' 2 24)) ∧
      (∀ k r q, (listed list)[k]? = some r → physOf st.psr.mode r = some q → g.get q = blockRead st start k) ∧
      ∀ q, (∀ r, r ∈ listed list → physOf st.psr.mode r ≠ some q) → g.get q = (blockBackedRegs st u w rn list).get q

/-- R263 to R266, R271, R272: STM without an abort: the word of every listed register at its address, the first register
read before the write-back and the others after it, so that a listed base is stored as it was where it is the first and
as it becomes where it is not; no other byte of memory, no flag, no register but the base. How other masters write
before each access (R67) and devices take the words stored to them is the model's, entries 26 and 7. -/
def Obligations.StoreMultipleStoresTheList : Prop :=
  ∀ (c : Cond) (p u s w : Bool) (rn : Reg) (list : BitVec 16) (st : State),
    condPassed c st.psr = true → st.bank = .settled → list ≠ 0 → memoryWf st.mem = true →
    let user := s && st.psr.mode != .usr
    let m := if user then Mode.usr else st.psr.mode
    let start := st.blockFirst p u rn list
    let words := (listed list).mapIdx (blockStored st m u w rn list)
    (user = true → w = false) → illegalAddress start = false →
    (∀ k, k < (listed list).length → blockAborts st start true k = false) →
    (∀ k, w = true → rn ≠ 15 → (listed list)[k]? = some rn →
      words[k]? = some (if k = 0 then st.blockBase rn else st.blockLast u rn list)) ∧
    ∃ mem, exec (.stm c p u s w rn list) st =
        .next (wentOn { st.busGaps words.length with busLog := st.busLog ++ deviceWrites st start words }
          (blockBackedRegs st u w rn list) st.psr mem) ∧
      StoredInOrder st start words mem ∧ (st.now.between = [] → StoredWords st start words mem)

/-- R277, and the decision D18 (entry 21) on the register just before the aborting access: a data abort at the `j`-th
access of an LDM: the registers from it on keep their values, those two or more before it are loaded, the one just
before it has its old or its loaded value, the base is the written-back one whether listed or not, memory changes by
other masters' writes alone (entry 26), and the data abort is taken. -/
def Obligations.AbortedLoadMultipleKeepsTheRest : Prop :=
  ∀ (c : Cond) (p u s w : Bool) (rn : Reg) (list : BitVec 16) (st : State) (j : Nat),
    condPassed c st.psr = true → st.bank = .settled → list ≠ 0 →
    let user := s && !list.getLsbD 15 && st.psr.mode != .usr
    let m := if user then Mode.usr else st.psr.mode
    (user = true → w = false) →
    illegalAddress (st.blockFirst p u rn list) = false →
    j < (listed list).length → blockAborts st (st.blockFirst p u rn list) false j = true →
    (∀ k, k < j → blockAborts st (st.blockFirst p u rn list) false k = false) →
    let base := blockBackedRegs st u w rn list
    ∃ g : Regs,
      exec (.ldm c p u s w rn list) st =
        .next (trapped { st.busGaps (listed list).length with regs := g } .r14Svc 8 .svc st.psr.f 0x10) ∧
      ∀ q, if physOf st.psr.mode rn = some q then g.get q = base.get q else
        (∀ k r, (listed list)[k]? = some r → physOf m r = some q →
          (j ≤ k → g.get q = st.regs.get q) ∧
          (k + 1 < j → g.get q = blockRead st (st.blockFirst p u rn list) k) ∧
          (k + 1 = j → g.get q = st.regs.get q ∨ g.get q = blockRead st (st.blockFirst p u rn list) k)) ∧
        ((∀ r, r ∈ listed list → physOf m r ≠ some q) → g.get q = st.regs.get q)

/-- R276: a data abort during an STM: each access is accepted or aborted on its own, memory changes exactly where it was
accepted, the base is written back, and the data abort is taken. Other masters and devices as in
`StoreMultipleStoresTheList`. -/
def Obligations.AbortedStoreMultipleStoresTheAccepted : Prop :=
  ∀ (c : Cond) (p u s w : Bool) (rn : Reg) (list : BitVec 16) (st : State),
    condPassed c st.psr = true → st.bank = .settled → list ≠ 0 → memoryWf st.mem = true →
    let user := s && st.psr.mode != .usr
    let m := if user then Mode.usr else st.psr.mode
    let start := st.blockFirst p u rn list
    let words := (listed list).mapIdx (blockStored st m u w rn list)
    (user = true → w = false) → illegalAddress start = false →
    (∃ j, j < (listed list).length ∧ blockAborts st start true j = true) →
    ∃ mem, exec (.stm c p u s w rn list) st =
        .next (trapped { st.busGaps words.length with
          regs := blockBackedRegs st u w rn list
          busLog := st.busLog ++ deviceWrites st start words
          mem := mem } .r14Svc 8 .svc st.psr.f 0x10) ∧
      StoredInOrder st start words mem ∧ (st.now.between = [] → StoredWords st start words mem)

/-- R264, R275 (no access is issued: the decision D23, entry 19): an illegal start address of LDM and STM: no access,
the base written back if W = 1, the address exception taken. -/
def Obligations.BlockAddressExceptionKeepsWriteBack : Prop :=
  ∀ (load : Bool) (c : Cond) (p u s w : Bool) (rn : Reg) (list : BitVec 16) (st : State),
    condPassed c st.psr = true → list ≠ 0 → (w = true → st.unsettled rn = false) →
    (s = true → w = true → st.psr.mode = .usr ∨ (load = true ∧ list.getLsbD 15 = true)) →
    illegalAddress (st.blockFirst p u rn list) = true →
    exec (if load then .ldm c p u s w rn list else .stm c p u s w rn list) st =
      .next (trapped { st with regs := blockBackedRegs st u w rn list } .r14Svc 8 .svc st.psr.f 0x14)

/-! ## Branches and the software interrupt (spec/41_branch.md, spec/46_software_interrupt.md) -/

/-- R150 to R152: B and BL go to the instruction's address plus 8 plus four times the offset, modulo 2^26; BL saves R15,
4 bytes on, in R14 of the current bank; B saves nothing. -/
def Obligations.BranchesReachTheirTarget : Prop :=
  ∀ (c : Cond) (off : BitVec 24) (st : State),
    encode (.b c off) = c.code ++ 0b101#3 ++ 0b0#1 ++ off ∧ encode (.bl c off) = c.code ++ 0b101#3 ++ 0b1#1 ++ off ∧
    (condPassed c st.psr = false →
      exec (.b c off) st = .next (wentOn st st.regs st.psr st.mem) ∧
      exec (.bl c off) st = .next (wentOn st st.regs st.psr st.mem)) ∧
    (condPassed c st.psr = true →
      ∃ target : BitVec 24, 4 * target.toNat = (4 * st.pc.toNat + 8 + 4 * off.toNat) % 2 ^ 26 ∧
        exec (.b c off) st = .next (wentTo st st.regs st.psr target) ∧
        (st.unsettled 14 = false →
          exec (.bl c off) st = .next (wentTo st (setReg st.psr.mode st.regs 14 (st.r15full 4)) st.psr target)))

/-- R290, R291: SWI enters supervisor mode at 0x08, whatever its comment field, with R15 4 bytes on in R14_svc; where
its condition fails it only goes on. -/
def Obligations.SoftwareInterruptEntersSupervisor : Prop :=
  ∀ (c : Cond) (comment : BitVec 24) (st : State),
    encode (.swi c comment) = c.code ++ 0b1111#4 ++ comment ∧
    (condPassed c st.psr = true → exec (.swi c comment) st = .next (trapped st .r14Svc 4 .svc st.psr.f 0x08)) ∧
    (condPassed c st.psr = false → exec (.swi c comment) st = .next (wentOn st st.regs st.psr st.mem))

/-! ## Co-processors and undefined instructions (spec/47_coprocessor.md, spec/48_undefined.md) -/

/-- R298, R299, R321: an instruction offered to the co-processors traps through 0x04 when none answers, and waits,
changing nothing, while one is busy. R295, R316, the model's own reading of them (entry 10): a co-processor answers by
its number, the instruction word, the mode and TRANS, the first of its rules deciding, and is absent without one; an
undefined instruction is offered to all sixteen, and one that takes it wins over one that is busy. -/
def Obligations.OfferedInstructionsTrapOrWait : Prop :=
  (∀ (k : Offered) (c : Cond) (st : State), condPassed c st.psr = true →
    (k.answer c st = .absent → exec (k.instr c) st = .next (trapped st .r14Svc 4 .svc st.psr.f 0x04)) ∧
    (k.answer c st = .busy → exec (k.instr c) st = .next { st with busyWait := true })) ∧
  ∀ (st : State) (w : Word),
    (∀ cp, (∀ r ∈ st.coprocessors, r.cp = cp → ¬ Answers r w st.psr.mode) → st.reply (some cp) w = .absent) ∧
    (∀ a r b, st.coprocessors = a ++ r :: b → Answers r w st.psr.mode →
      (∀ q ∈ a, q.cp = r.cp → ¬ Answers q w st.psr.mode) → st.reply (some r.cp) w = r.reply) ∧
    ((∀ n, st.reply (some n) w = .absent) → st.reply none w = .absent) ∧
    ((∀ n, (st.reply (some n) w).isReady = false) → (∃ n, st.reply (some n) w = .busy) → st.reply none w = .busy) ∧
    ((∃ n, (st.reply (some n) w).isReady = true) →
      ∃ n, (st.reply (some n) w).isReady = true ∧ st.reply none w = st.reply (some n) w)

/-- R303, and R322, the spec's inference from R321 and R303: CDP and the undefined instructions, once taken by a
co-processor, only go on; that it was taken stands in the model's own record (entry 10). -/
def Obligations.AcceptedOperationsGoOn : Prop :=
  ∀ (k : Offered) (c : Cond) (st : State), condPassed c st.psr = true → (k.answer c st).isReady = true →
    (match k with
      | .cdp .. | .undefinedA .. | .undefinedB .. => True
      | _ => False) →
    exec (k.instr c) st = .next (wentOn (took st (k.instr c) []) st.regs st.psr st.mem)

/-- R312 to R314: MRC puts the co-processor's word in Rd, or its top four bits in N, Z, C, V for R15; MCR sends Rd, or
R15 with the PSR 12 bytes on. The record of what is sent is the model's own (entry 10). For R15 the model follows R313
against R37 (entry 31). -/
def Obligations.RegisterTransfersMoveOneWord : Prop :=
  ∀ (c : Cond) (opc : BitVec 3) (crn rd cp : Reg) (info : BitVec 3) (crm : Reg) (st : State) (v : Word)
    (rest : List Word), condPassed c st.psr = true →
    let mrc (d : Reg) : Instr := .mrc c opc crn d cp info crm
    let mcr (d : Reg) : Instr := .mcr c opc crn d cp info crm
    (∀ q, physOf st.psr.mode rd = some q → st.unsettled rd = false →
      (st.reply (some cp) (encode (mrc rd)) = .ready v rest →
        exec (mrc rd) st = .next (wentOn (took st (mrc rd) []) (st.regs.set q v) st.psr st.mem)) ∧
      (st.reply (some cp) (encode (mcr rd)) = .ready v rest →
        exec (mcr rd) st = .next (wentOn (took st (mcr rd) [st.regs.get q]) st.regs st.psr st.mem))) ∧
    (st.reply (some cp) (encode (mrc 15)) = .ready v rest →
      exec (mrc 15) st = .next (wentOn (took st (mrc 15) []) st.regs
        { st.psr with n := v.getLsbD 31, z := v.getLsbD 30, c := v.getLsbD 29, v := v.getLsbD 28 } st.mem)) ∧
    (st.reply (some cp) (encode (mcr 15)) = .ready v rest →
      exec (mcr 15) st = .next (wentOn (took st (mcr 15) [st.r15full 12]) st.regs st.psr st.mem))

/-- R305, R307, R311, the record of the words sent being the model's own (entry 10): LDC: as many words as the
co-processor asks for, from consecutive addresses, to the co-processor; the base written back if W = 1; a data abort
where an access aborts. Other masters and devices as in `LoadMultipleLoadsTheList`. -/
def Obligations.CoprocessorLoadSendsTheWords : Prop :=
  ∀ (c : Cond) (p u n w : Bool) (rn crd cp : Reg) (off : BitVec 8) (st : State) (first : Word) (rest : List Word),
    let i : Instr := .ldc c p u n w rn crd cp off
    condPassed c st.psr = true → st.reply (some cp) (encode i) = .ready first rest →
    (w = true → rn ≠ 15 ∧ st.unsettled rn = false) →
    let start := st.coAddr p u rn off
    let g := if w then setReg st.psr.mode st.regs rn (st.coIndex u rn off) else st.regs
    let ok := (List.range (rest.length + 1)).filter (fun k => !blockAborts st start false k)
    let v := took (st.busGaps (rest.length + 1)) i (ok.map (blockRead st start))
    illegalAddress start = false →
    exec i st =
      if ok.length = rest.length + 1 then .next (wentOn v g st.psr v.mem)
      else .next (trapped { v with regs := g } .r14Svc 8 .svc st.psr.f 0x10)

/-- R306, R307, R311, with R276: STC: the co-processor's words at consecutive addresses, no other byte, the base written
back if W = 1; where an access aborts, the accepted words are stored, the base is written back and the data abort is
taken. The record that a co-processor took the instruction is the model's own (entry 10). Other masters and devices as
in `StoreMultipleStoresTheList`. -/
def Obligations.CoprocessorStoreWritesTheWords : Prop :=
  ∀ (c : Cond) (p u n w : Bool) (rn crd cp : Reg) (off : BitVec 8) (st : State) (first : Word) (rest : List Word),
    let i : Instr := .stc c p u n w rn crd cp off
    condPassed c st.psr = true → st.reply (some cp) (encode i) = .ready first rest →
    (w = true → rn ≠ 15 ∧ st.unsettled rn = false) → memoryWf st.mem = true → rest.length + 1 < 2 ^ 24 →
    let start := st.coAddr p u rn off
    let words := first :: rest
    let g := if w then setReg st.psr.mode st.regs rn (st.coIndex u rn off) else st.regs
    let v : State := { took (st.busGaps words.length) i [] with busLog := st.busLog ++ deviceWrites st start words }
    illegalAddress start = false →
    ∃ mem, StoredInOrder st start words mem ∧ (st.now.between = [] → StoredWords st start words mem) ∧
      ((∀ k, k < words.length → blockAborts st start true k = false) → exec i st = .next (wentOn v g st.psr mem)) ∧
      ((∃ k, k < words.length ∧ blockAborts st start true k = true) →
        exec i st = .next (trapped { v with regs := g, mem := mem } .r14Svc 8 .svc st.psr.f 0x10))

/-- R307, R310 (no access is issued, entry 19; the record that the instruction was taken is the model's, entry 10): the
address of LDC and STC, and their address exception, which writes the base back if W = 1. -/
def Obligations.CoprocessorTransferAddressing : Prop :=
  ∀ (load : Bool) (c : Cond) (p u n w : Bool) (rn crd cp : Reg) (off : BitVec 8) (st : State) (first : Word)
    (rest : List Word),
    let i : Instr := if load then .ldc c p u n w rn crd cp off else .stc c p u n w rn crd cp off
    (∀ q, st.bank = .settled → physOf st.psr.mode rn = some q → st.transferBase rn = st.regs.get q) ∧
    st.transferBase 15 = st.r15pc 8 ∧
    (st.coIndex u rn off = if u then st.transferBase rn + 4 * off.setWidth 32 else
      st.transferBase rn - 4 * off.setWidth 32) ∧
    (st.coAddr p u rn off = if p then st.coIndex u rn off else st.transferBase rn) ∧
    (condPassed c st.psr = true → st.reply (some cp) (encode i) = .ready first rest →
      (w = true → rn ≠ 15 ∧ st.unsettled rn = false) → illegalAddress (st.coAddr p u rn off) = true →
      exec i st = .next (trapped { took st i [] with
        regs := if w then setReg st.psr.mode st.regs rn (st.coIndex u rn off) else st.regs } .r14Svc 8 .svc st.psr.f 0x14))

/-! ## Refusals -/

/-- The model's choice among what the spec admits for U1, U5, U6, U10, U13, U14 (entries 15, 16, 17): once its condition
passes and the bank is settled, an instruction is refused exactly when the spec gives its form no meaning; every other
one answers a next state. The parameter `admit_reconstructed` (R4, R8, D1, entry 1): where it is true every word is
admitted, where it is false those alone whose condition is EQ, AL or NV and which do nothing or which the surviving text
describes. -/
def Obligations.OnlyFormsWithoutMeaningAreRefused : Prop :=
  ∀ (w : Word) (s : State), let c := Cond.ofCode (w.extractLsb' 28 4)
    (condPassed c s.psr = true → s.bank = .settled →
      (NoMeaning (decodeWord w) s → ∃ r, exec (decodeWord w) s = .refused r) ∧
      (¬ NoMeaning (decodeWord w) s → ∃ t, exec (decodeWord w) s = .next t)) ∧
    (s.params.admitReconstructed = true → s.admits w = true) ∧
    (s.params.admitReconstructed = false →
      (s.admits w = true ↔
        (c = .eq ∨ c = .al ∨ c = .nv) ∧ (condPassed c s.psr = false ∨ InSurvivingText s (decodeWord w))))

/-- R118 (c), (d), U1, U5, U6, U10, U13, U14: the name of each refusal. The encodings that are not allocated are refused
wherever their condition passes. -/
def Obligations.RefusedFormsAreNamed : Prop :=
  (∀ (k : TestOp) (c : Cond) (rn rd : Reg) (o : Op2) (st : State), condPassed c st.psr = true →
    exec (k.instrS0 c rn rd o) st = .refused .unallocatedTest) ∧
  (∀ (k : UnallocatedMul) (c : Cond) (y : BitVec 4) (st : State), condPassed c st.psr = true →
    exec (k.instr c y) st = .refused .unallocatedMultiply) ∧
  ∀ (c : Cond) (byte p u s w : Bool) (rn rd : Reg) (o : Offset) (list : BitVec 16) (st : State) (off : BitVec 8)
    (crd cp : Reg) (n : Bool) (first : Word) (rest : List Word), condPassed c st.psr = true →
    ((!p || w) = true → exec (loadInstr byte c p u w 15 rd o) st = .refused .transferWritesBackR15 ∧
      exec (storeInstr byte c p u w 15 rd o) st = .refused .transferWritesBackR15) ∧
    exec (.ldm c p u s w rn 0) st = .refused .emptyRegisterList ∧
    exec (.stm c p u s w rn 0) st = .refused .emptyRegisterList ∧
    (list ≠ 0 → st.psr.mode ≠ .usr →
      (list.getLsbD 15 = false → exec (.ldm c p u true true rn list) st = .refused .userBankWriteBack) ∧
      exec (.stm c p u true true rn list) st = .refused .userBankWriteBack) ∧
    (st.reply (some cp) (encode (.ldc c p u n true 15 crd cp off)) = .ready first rest →
      exec (.ldc c p u n true 15 crd cp off) st = .refused .coprocessorWritesBackR15) ∧
    (st.reply (some cp) (encode (.stc c p u n true 15 crd cp off)) = .ready first rest →
      exec (.stc c p u n true 15 crd cp off) st = .refused .coprocessorWritesBackR15)

/-- R400, R401, U11, U12 (entry 14): while the bank is unsettled, an instruction that would write one of its registers,
as its destination, its base or its link, is refused, and a read gives a free value, whatever the register holds. A
single transfer is refused once its access has taken place; one that takes an exception writes none of them. -/
def Obligations.UnsettledRegistersAreNotAccessed : Prop :=
  ∀ (s : State) (r : Reg),
    (s.bank = .unsettled13 → (s.unsettled r = true ↔ r = 13 ∨ r = 14)) ∧
    (s.bank = .unsettled8 → (s.unsettled r = true ↔ 8 ≤ r.toNat ∧ r.toNat ≤ 14)) ∧
    (s.bank = .settled → s.unsettled r = false) ∧
    (s.unsettled r = true →
      (∀ (who : Config.Draw) (r15 : Word) (g : Regs), ({ s with regs := g } : State).readX who r15 r = s.readX who r15 r) ∧
      ∀ c : Cond, condPassed c s.psr = true →
        let refuses (i : Instr) : Prop := exec i s = .refused .bankUnsettled
        (∀ (k : LogicalOp) (f : Bool) (rn : Reg) (o : Op2), refuses (k.instr c f rn r o)) ∧
        (∀ (k : ArithOp) (f : Bool) (rn : Reg) (o : Op2), refuses (k.instr c f rn r o)) ∧
        (∀ (f : Bool) (rn rs rm : Reg), refuses (.mul c f r rn rs rm) ∧ refuses (.mla c f r rn rs rm)) ∧
        (∀ (store byte p u w : Bool) (rn rd : Reg) (o : Offset),
          (store = false ∧ rd = r ∧ ((!p || w) = true → rn ≠ 15)) ∨ (rn = r ∧ (!p || w) = true) →
          exec (if store then storeInstr byte c p u w rn rd o else loadInstr byte c p u w rn rd o) s =
            if illegalAddress (s.transferAddr p u rn o) then .next (trapped s .r14Svc 8 .svc s.psr.f 0x14)
            else if singleAborts s byte store p u w rn o then .next (trapped s.busGap .r14Svc 8 .svc s.psr.f 0x10)
            else .refused .bankUnsettled) ∧
        (∀ (p u f : Bool) (list : BitVec 16), list ≠ 0 → (f = true → s.psr.mode = .usr) →
          refuses (.ldm c p u f true r list) ∧ refuses (.stm c p u f true r list)) ∧
        (∀ (p u f w : Bool) (rn : Reg) (list : BitVec 16), list.getLsbD r.toNat = true →
          (w = true → s.unsettled rn = false ∧ (f = true → s.psr.mode = .usr ∨ list.getLsbD 15 = true)) →
          illegalAddress (s.blockFirst p u rn list) = false →
          (∀ k, k < (listed list).length → blockAborts s (s.blockFirst p u rn list) false k = false) →
          refuses (.ldm c p u f w rn list)) ∧
        (r = 14 → ∀ off : BitVec 24, refuses (.bl c off)) ∧
        (∀ (opc : BitVec 3) (crn cp : Reg) (info : BitVec 3) (crm : Reg),
          (s.reply (some cp) (encode (.mrc c opc crn r cp info crm))).isReady = true →
          refuses (.mrc c opc crn r cp info crm)) ∧
        ∀ (p u n : Bool) (crd cp : Reg) (off : BitVec 8),
          ((s.reply (some cp) (encode (.ldc c p u n true r crd cp off))).isReady = true →
            refuses (.ldc c p u n true r crd cp off)) ∧
          ((s.reply (some cp) (encode (.stc c p u n true r crd cp off))).isReady = true →
            refuses (.stc c p u n true r crd cp off)))

/-! ## Exceptions (spec/60_exceptions.md) -/

/-- R340, with the table of R331, whose saved PCs R349 infers from the return recipes: taking each exception: the R14
written with the old PC and PSR, the mode, I and F, and the vector. -/
def Obligations.ExceptionEntryFollowsTheTable : Prop :=
  ∀ s : State,
    s.raise .undefined = trapped s .r14Svc 4 .svc s.psr.f 0x04 ∧
    s.raise .softwareInterrupt = trapped s .r14Svc 4 .svc s.psr.f 0x08 ∧
    s.raise .prefetchAbort = trapped s .r14Svc 4 .svc s.psr.f 0x0C ∧
    s.raise .dataAbort = trapped s .r14Svc 8 .svc s.psr.f 0x10 ∧
    s.raise .addressException = trapped s .r14Svc 8 .svc s.psr.f 0x14 ∧
    s.raise .irq = trapped s .r14Irq 4 .irq s.psr.f 0x18 ∧
    s.raise .fiq = trapped s .r14Fiq 4 .fiq true 0x1C

/-- R365, with R349 and R366, the spec's inferences: the return the spec prints for each exception restores the whole
PSR and the PC it names: the next instruction after IRQ and FIQ, the aborted one after an abort, the one after for the
others. The PC is assumed low enough for the saved one not to wrap (R366). -/
def Obligations.ReturnsRestoreTheInterruptedState : Prop :=
  ∀ s : State, s.pc.toNat + 2 < 2 ^ 24 →
    let back (t : State) (i : Instr) (a : BitVec 24) : Prop := exec i t = .next (wentTo t t.regs s.psr a)
    let subs (k : BitVec 8) : Instr := .subImm .al true 14 15 ⟨0, k⟩
    let movs : Instr := .movShift .al true 0 15 ⟨14, .lsl 0⟩
    back (s.raise .fiq) (subs 4) s.pc ∧ back (s.raise .irq) (subs 4) s.pc ∧
    back (s.raise .prefetchAbort) (subs 4) s.pc ∧ back (s.raise .dataAbort) (subs 8) s.pc ∧
    back (s.raise .addressException) (subs 4) (s.pc + 1) ∧
    back (s.raise .softwareInterrupt) movs (s.pc + 1) ∧ back (s.raise .undefined) movs (s.pc + 1)

/-! ## The step (spec/60_exceptions.md R370) -/

/-- R370, which the spec puts together from R340 to R362: with RESET LOW and no interrupt to take, a step executes the
instruction that the bytes at the PC decode to, in the state the fetch leaves; then the step's inputs are used up and
writes into prefetched words are looked at. Where a device answers the fetch, it is the device's word, and where the
word was prefetched, the prefetched one. An instruction that the parameters do not admit is refused (entry 1). -/
def Obligations.StepExecutesTheDecodedInstruction : Prop :=
  ∀ (s : State) (i : Instr), s.now.reset = false → s.resetHigh = false →
    (s.fiqSeen && !s.psr.f) = false → (s.irqSeen && !s.psr.i) = false →
    let t := s.sample.fillPipe
    let access := s.sample.fetchAccess s.addr
    let b (k : Nat) : Byte := readByte s.sample.mem (4 * s.pc.toNat + k)
    let runs : Prop := step s =
      if t.admits (encode i) then
        match exec i t with
        | .next u => .next (u.retire.snoop t)
        | .fault e => .fault e
        | .refused e => .refused e
      else .refused .reconstructed
    (s.pipe = [] → s.sample.answer access = none → decode [b 0, b 1, b 2, b 3] = .ok (i, []) → runs) ∧
    (∀ d, s.pipe = [] → s.sample.answer access = some (.device d) → decodeWord d = i → runs) ∧
    (∀ f rest, s.pipe = f :: rest → f.invalid = false → decodeWord f.word = i → runs)

/-- R41, R42, R90, the last the spec's decision D7 (entry 12): before an instruction executes, the pipeline holds the
words at A, A + 4 and A + 8: those prefetched before, and for the rest what the fetches give, the word of memory or a
device's, marked where the fetch is answered with ABORT. Every word in the pipeline after a step was in it when the
instruction began, for the same address and with the same mark; it is the word that was fetched or, at A + 4 and A + 8
where they were written since, the one memory holds now. R44, R299: after a step that waits for a co-processor the PC
and the word about to execute are what they were. -/
def Obligations.PrefetchedWordsAreOldOrNew : Prop :=
  (∀ s : State, s.pipe.length ≤ 3 → let p := s.sample.fillPipe.pipe
    p.length = 3 ∧ (∀ (k : Nat) (f : Fetched), s.pipe[k]? = some f → p[k]? = some f) ∧
    ∀ k : Nat, s.pipe.length ≤ k → k < 3 →
      let access := s.sample.fetchAccess (s.pipeAddr k)
      (s.pipeAddr k).toNat = (4 * s.pc.toNat + 4 * k) % 2 ^ 26 ∧
      ∃ f, p[k]? = some f ∧ f.invalid = s.sample.aborts access ∧
        (s.sample.answer access = none → f.word = readWord s.sample.mem (s.pipeAddr k)) ∧
        ∀ d, s.sample.answer access = some (.device d) → f.word = d) ∧
  (∀ (s t : State) (k : Nat) (f : Fetched), s.pipe.length ≤ 3 → step s = .next t → t.pipe[k]? = some f →
    ∃ (j : Nat) (g : Fetched), s.sample.fillPipe.pipe[j]? = some g ∧ t.pipeAddr k = s.pipeAddr j ∧
      f.invalid = g.invalid ∧
      (f.word = g.word ∨
        (j ≠ 0 ∧ f.word = readWord t.mem (t.pipeAddr k) ∧
          readWord t.mem (t.pipeAddr k) ≠ readWord s.sample.mem (t.pipeAddr k)))) ∧
  ∀ s t : State, step s = .next t → t.busyWait = true → t.pc = s.pc ∧ t.fetched = s.sample.fillPipe.fetched

/-- R341, R342, R346, R360, R361: with RESET LOW, a step takes FIQ if it is seen and F is clear, else IRQ if it is seen
and I is clear, else the prefetch abort if the word about to execute is marked, whether this step fetched it or an
earlier one, with R15 4 bytes on from the PC saved. -/
def Obligations.StepTakesInterruptsInPriority : Prop :=
  ∀ s : State, s.now.reset = false → s.resetHigh = false →
    (s.fiqSeen = true → s.psr.f = false → step s = .next (trapped s.sample .r14Fiq 4 .fiq true 0x1C).retire) ∧
    ((s.fiqSeen = false ∨ s.psr.f = true) → s.irqSeen = true → s.psr.i = false →
      step s = .next (trapped s.sample .r14Irq 4 .irq s.psr.f 0x18).retire) ∧
    ((s.fiqSeen = false ∨ s.psr.f = true) → (s.irqSeen = false ∨ s.psr.i = true) →
      s.sample.fillPipe.fetched.invalid = true →
        step s = .next (trapped s.sample.fillPipe .r14Svc 4 .svc s.psr.f 0x0C).retire)

/-- R352, the spec's decision D14 (entry 9): an interrupt line LOW at this boundary and the two before it is seen; one
HIGH at all three is not. -/
def Obligations.HeldInterruptsAreSeen : Prop :=
  ∀ s : State,
    (s.fiqSync = ⟨true, true⟩ → s.now.fiqLow = true → s.fiqSeen = true) ∧
    (s.fiqSync = ⟨false, false⟩ → s.now.fiqLow = false → s.fiqSeen = false) ∧
    (s.irqSync = ⟨true, true⟩ → s.now.irqLow = true → s.irqSeen = true) ∧
    (s.irqSync = ⟨false, false⟩ → s.now.irqLow = false → s.irqSeen = false) ∧
    ∀ t, step s = .next t → t.fiqSync = ⟨s.now.fiqLow, s.fiqSync.last⟩ ∧ t.irqSync = ⟨s.now.irqLow, s.irqSync.last⟩

/-- R391, R392, applied to a warm reset as R393 admits (entry 18: one word a step). At the step where RESET goes HIGH it
wins over FIQ, IRQ and the instruction: the instruction about to execute, `i`, is abandoned. I, F and the mode stay; so
does every register and flag that `i` could not write, and every byte is as it was, other masters' writes included, or
as the stores of `i` would leave it; the model's records of what co-processors and devices took are as before (entry
18). What `i` could write takes in all that it would write: for a logical operation its destination, for an LDM of the
User bank the registers of that bank, and its base, with W = 1, in both banks; while the bank is unsettled the registers
of that number in every mode, and a store of which the model refuses the write-back stores all the same (U6, U11, U12:
the model's choice, entry 18). While RESET stays HIGH a step changes no register, no flag and no byte but those other
masters write; when it goes LOW the processor is in supervisor mode with I and F set, at address 0, N, Z, C, V and every
register but R14_svc as they were. -/
def Obligations.ResetSequence : Prop :=
  (∀ s : State, s.resetHigh = false → s.now.reset = true → memoryWf s.mem = true →
    let t := s.sample.fillPipe.busRest
    let i := decodeWord t.fetched.word
    ∃ g p m, step s = .next { s.sample with
        regs := g, psr := p, mem := m, pc := s.pc + 1, pipe := [], bank := .settled, busyWait := false, resetHigh := true,
        inputs := s.inputs.tail, stamp := s.stamp + 1 } ∧
      p.i = s.psr.i ∧ p.f = s.psr.f ∧ p.mode = s.psr.mode ∧
      (∀ q, q ∉ t.inProgress.regs → g.get q = s.regs.get q) ∧
      (t.inProgress.nzc = false → p.n = s.psr.n ∧ p.z = s.psr.z ∧ p.c = s.psr.c) ∧
      (t.inProgress.v = false → p.v = s.psr.v) ∧
      (∀ x, readByte m x = readByte t.mem x ∨ readByte m x = readByte t.storesInProgress x) ∧
      (t.fetched.invalid = true → t.storesInProgress = t.mem) ∧
      (t.fetched.invalid = false → ∀ u, exec i t = .next u →
        (∀ q, u.regs.get q = t.regs.get q ∨ q ∈ t.inProgress.regs) ∧
        (t.inProgress.nzc = false → u.psr.n = t.psr.n ∧ u.psr.z = t.psr.z ∧ u.psr.c = t.psr.c) ∧
        (t.inProgress.v = false → u.psr.v = t.psr.v) ∧ u.mem = t.storesInProgress)) ∧
  (∀ (s : State) (byte : Bool) (c : Cond) (p u w : Bool) (rn rd : Reg) (o : Offset), s.now.between = [] →
    illegalAddress (s.transferAddr p u rn o) = false → s.answer (singleAccess s byte true p u w rn o) = none →
    let a := singleAddr s p u rn o
    let d := s.storedValue p u w rn rd o
    s.storedBy (storeInstr byte c p u w rn rd o) =
      if byte then writeByte s.mem a.toNat (d.extractLsb' 0 8) else writeWord s.mem a (s.landedWord a d)) ∧
  (∀ (s : State) (c : Cond) (p u w : Bool) (rn : Reg) (list : BitVec 16) (q : PReg),
    s.psr.mode ≠ .usr → list.getLsbD 15 = false →
    (q ∈ (s.writtenBy (.ldm c p u true w rn list)).regs ↔ q = .r14Svc ∨ ∃ r m, physOf m r = some q ∧
      ((r ∈ listed list ∧ (s.unsettled r = false → m = .usr)) ∨
        (w = true ∧ r = rn ∧ (s.unsettled r = false → m = .usr ∨ m = s.psr.mode))))) ∧
  (∀ (s : State) (k : LogicalOp) (c : Cond) (f : Bool) (rn rd : Reg) (o : Op2), rd ≠ 15 →
    (∀ q, q ∈ (s.writtenBy (k.instr c f rn rd o)).regs ↔
      ∃ m, physOf m rd = some q ∧ (s.unsettled rd = false → m = s.psr.mode)) ∧
    (s.writtenBy (k.instr c f rn rd o)).v = false) ∧
  ∀ s : State, s.resetHigh = true →
    (s.now.reset = true → step s = .next ({ s.sample with
      pc := s.pc + 1, pipe := [], bank := .settled, busyWait := false } : State).retire) ∧
    (s.now.reset = false → ∃ v, step s = .next ({ s.sample with
      regs := s.regs.set .r14Svc v, psr := { s.psr with mode := .svc, i := true, f := true }, pc := 0, pipe := [],
      bank := .settled, busyWait := false, resetHigh := false } : State).retire)

/-! ## Invariants -/

/-- Every step keeps the invariant, which is the model's (entries 4, 12, 18): canonical memory, a pipeline of at most
three words, and what holds while waiting or held in reset. No step changes the parameters of the machine (R8). -/
def Obligations.EveryStepKeepsTheInvariant : Prop :=
  ∀ s t : State, s.Inv → step s = .next t → t.Inv ∧ t.params = s.params

/-- The invariant holds right after reset. -/
def Obligations.ResetMeetsTheInvariant : Prop :=
  State.reset.Inv
end

