-- ==== Sys2Proof/Laws/Memory.lean ====
section
/-! SUPPORT. Memory: every operation keeps the canonical form, a read gives what the last write left. -/

namespace Sys2Proof.Machine

/-! ## The canonical form, unfolded -/

/-- The canonical form, in its parts. -/
theorem memoryWf_cons {k : Nat} {b : Byte} {t : List Host.Cell} :
    memoryWf ((k, b) :: t) = true ↔
      k < 2 ^ 26 ∧ b ≠ Config.unlistedByte ∧ (∀ e ∈ t, k < e.1) ∧ memoryWf t = true := by
  simp [memoryWf, and_assoc]

/-- A byte below every listed address reads as an unlisted one. -/
theorem readByte_below {m : List Host.Cell} {a : Nat} (h : ∀ e ∈ m, a < e.1) : readByte m a = Config.unlistedByte := by
  induction m with
  | nil => rfl
  | cons e t ih =>
    obtain ⟨k, b⟩ := e
    have hk : k ≠ a := Nat.ne_of_gt (h (k, b) (by simp))
    simp only [readByte, if_neg hk]
    exact ih fun e he => h e (by simp [he])

theorem mem_eraseCell {m : List Host.Cell} {a : Nat} {e : Host.Cell} (h : e ∈ eraseCell m a) : e ∈ m := by
  induction m with
  | nil => exact h
  | cons c t ih =>
    obtain ⟨k, b⟩ := c
    simp only [eraseCell] at h
    split at h
    · simp [h]
    · rcases List.mem_cons.1 h with h | h
      · simp [h]
      · simp [ih h]

theorem mem_insertCell {m : List Host.Cell} {a : Nat} {v : Byte} {e : Host.Cell} (h : e ∈ insertCell m a v) :
    e = (a, v) ∨ e ∈ m := by
  induction m with
  | nil => simpa [insertCell] using h
  | cons c t ih =>
    obtain ⟨k, b⟩ := c
    simp only [insertCell] at h
    split at h
    · simpa using h
    · split at h
      · rcases List.mem_cons.1 h with h | h <;> simp [h]
      · rcases List.mem_cons.1 h with h | h
        · simp [h]
        · rcases ih h with h | h <;> simp [h]

/-! ## Every operation keeps the form -/

theorem memoryWf_eraseCell {m : List Host.Cell} {a : Nat} (h : memoryWf m = true) : memoryWf (eraseCell m a) = true := by
  induction m with
  | nil => rfl
  | cons c t ih =>
    obtain ⟨k, b⟩ := c
    rw [memoryWf_cons] at h
    simp only [eraseCell]
    split
    · exact h.2.2.2
    · rw [memoryWf_cons]
      exact ⟨h.1, h.2.1, fun e he => h.2.2.1 e (mem_eraseCell he), ih h.2.2.2⟩

theorem memoryWf_insertCell {m : List Host.Cell} {a : Nat} {v : Byte} (h : memoryWf m = true) (ha : a < 2 ^ 26)
    (hv : v ≠ Config.unlistedByte) : memoryWf (insertCell m a v) = true := by
  induction m with
  | nil => exact memoryWf_cons.2 ⟨ha, hv, by simp, rfl⟩
  | cons c t ih =>
    obtain ⟨k, b⟩ := c
    have h' := memoryWf_cons.1 h
    simp only [insertCell]
    split
    · rename_i hlt
      refine memoryWf_cons.2 ⟨ha, hv, ?_, h⟩
      intro e he
      rcases List.mem_cons.1 he with rfl | he
      · exact hlt
      · exact Nat.lt_trans hlt (h'.2.2.1 e he)
    · split
      · rename_i heq
        exact memoryWf_cons.2 ⟨ha, hv, heq ▸ h'.2.2.1, h'.2.2.2⟩
      · rename_i hlt hne
        refine memoryWf_cons.2 ⟨h'.1, h'.2.1, ?_, ih h'.2.2.2⟩
        intro e he
        rcases mem_insertCell he with rfl | he
        · simp only; omega
        · exact h'.2.2.1 e he

/-- Writing a byte inside the address space keeps the canonical form. -/
theorem memoryWf_writeByte {m : List Host.Cell} {a : Nat} (v : Byte) (h : memoryWf m = true) (ha : a < 2 ^ 26) :
    memoryWf (writeByte m a v) = true := by
  unfold writeByte
  split
  · exact memoryWf_eraseCell h
  · rename_i hv
    exact memoryWf_insertCell h ha hv

theorem wordBase_lt (a : Addr) : wordBase a + 3 < 2 ^ 26 := by
  have := a.isLt
  unfold wordBase
  omega

/-- Writing a word keeps the canonical form. -/
theorem memoryWf_writeWord {m : List Host.Cell} (a : Addr) (v : Word) (h : memoryWf m = true) :
    memoryWf (writeWord m a v) = true := by
  have := wordBase_lt a
  unfold writeWord
  exact memoryWf_writeByte _ (memoryWf_writeByte _ (memoryWf_writeByte _ (memoryWf_writeByte _ h (by omega)) (by omega))
    (by omega)) (by omega)

/-- The writes of other masters keep the canonical form (R82). -/
theorem memoryWf_masterWrites {m : List Host.Cell} (l : List Host.Cell) (h : memoryWf m = true) :
    memoryWf (masterWrites m l) = true := by
  unfold masterWrites
  induction l generalizing m with
  | nil => exact h
  | cons e l ih => exact ih (memoryWf_writeByte _ h (Nat.mod_lt _ (by decide)))

/-- What other masters write before an access keeps the canonical form. -/
theorem memoryWf_busGap {s : State} (h : memoryWf s.mem = true) : memoryWf s.busGap.mem = true := by
  unfold State.busGap
  split
  · exact h
  · exact memoryWf_masterWrites _ h

theorem memoryWf_busGaps {s : State} (n : Nat) (h : memoryWf s.mem = true) : memoryWf (s.busGaps n).mem = true := by
  induction n with
  | zero => exact h
  | succ n ih => exact memoryWf_busGap ih

/-! ## Reading after a write -/

theorem readByte_eraseCell {m : List Host.Cell} (h : memoryWf m = true) (a c : Nat) :
    readByte (eraseCell m a) c = if c = a then Config.unlistedByte else readByte m c := by
  induction m with
  | nil => simp [eraseCell, readByte]
  | cons e t ih =>
    obtain ⟨k, b⟩ := e
    have h' := memoryWf_cons.1 h
    have ih := ih h'.2.2.2
    simp only [eraseCell]
    split
    · rename_i hk
      subst hk
      by_cases hc : c = k
      · subst hc; rw [if_pos rfl]; exact readByte_below h'.2.2.1
      · rw [if_neg hc]; simp only [readByte, if_neg (Ne.symm hc)]
    · rename_i hk
      simp only [readByte, ih]
      by_cases hc : k = c
      · subst hc; rw [if_pos rfl, if_neg hk, if_pos rfl]
      · rw [if_neg hc, if_neg hc]

theorem readByte_insertCell (m : List Host.Cell) (a c : Nat) (v : Byte) :
    readByte (insertCell m a v) c = if c = a then v else readByte m c := by
  induction m with
  | nil => simp only [insertCell, readByte, eq_comm]
  | cons e t ih =>
    obtain ⟨k, b⟩ := e
    simp only [insertCell]
    split
    · simp only [readByte, eq_comm]
    · split
      · rename_i hk
        subst hk
        simp only [readByte, eq_comm]
        split <;> simp_all
      · simp only [readByte, ih]
        by_cases hc : k = c
        · subst hc
          rw [if_pos rfl, if_pos rfl, if_neg (by omega)]
        · rw [if_neg hc, if_neg hc]

/-- Reading a byte after a byte is written: the value written at its address, the old byte elsewhere. -/
theorem readByte_writeByte {m : List Host.Cell} (h : memoryWf m = true) (a c : Nat) (v : Byte) :
    readByte (writeByte m a v) c = if c = a then v else readByte m c := by
  unfold writeByte
  split
  · rename_i hv
    rw [readByte_eraseCell h, hv]
  · exact readByte_insertCell m a c v

/-- Writing a byte leaves every other byte, whatever the form of memory. -/
theorem readByte_writeByte_other (m : List Host.Cell) {a c : Nat} (v : Byte) (hc : c ≠ a) :
    readByte (writeByte m a v) c = readByte m c := by
  unfold writeByte
  split
  · induction m with
    | nil => rfl
    | cons e t ih =>
      obtain ⟨k, b⟩ := e
      simp only [eraseCell]
      split
      · rename_i hk
        subst hk
        simp only [readByte, if_neg (Ne.symm hc)]
      · simp only [readByte, ih]
  · rw [readByte_insertCell, if_neg hc]

/-- Writing a word leaves every byte outside it, whatever the form of memory. -/
theorem readByte_writeWord_other (m : List Host.Cell) (a : Addr) (v : Word) {c : Nat}
    (hc : c < wordBase a ∨ wordBase a + 4 ≤ c) : readByte (writeWord m a v) c = readByte m c := by
  unfold writeWord
  rw [readByte_writeByte_other _ _ (by omega), readByte_writeByte_other _ _ (by omega),
    readByte_writeByte_other _ _ (by omega), readByte_writeByte_other _ _ (by omega)]

/-- The four bytes of a word after it is written, the least significant at the lowest address (R63). -/
theorem readByte_writeWord {m : List Host.Cell} (h : memoryWf m = true) (a : Addr) (v : Word) :
    readByte (writeWord m a v) (wordBase a) = v.extractLsb' 0 8 ∧
    readByte (writeWord m a v) (wordBase a + 1) = v.extractLsb' 8 8 ∧
    readByte (writeWord m a v) (wordBase a + 2) = v.extractLsb' 16 8 ∧
    readByte (writeWord m a v) (wordBase a + 3) = v.extractLsb' 24 8 := by
  have hb := wordBase_lt a
  have h0 := memoryWf_writeByte (a := wordBase a) (v.extractLsb' 0 8) h (by omega)
  have h1 := memoryWf_writeByte (a := wordBase a + 1) (v.extractLsb' 8 8) h0 (by omega)
  have h2 := memoryWf_writeByte (a := wordBase a + 2) (v.extractLsb' 16 8) h1 (by omega)
  unfold writeWord
  simp only [readByte_writeByte h2, readByte_writeByte h1, readByte_writeByte h0, readByte_writeByte h]
  simp

/-- The word read after it is written is the word written (R63, R65). -/
theorem readWord_writeWord {m : List Host.Cell} (h : memoryWf m = true) (a : Addr) (v : Word) :
    readWord (writeWord m a v) a = v := by
  obtain ⟨h0, h1, h2, h3⟩ := readByte_writeWord h a v
  unfold readWord
  rw [h0, h1, h2, h3]
  ext i hi
  simp only [BitVec.getElem_append, BitVec.getElem_extractLsb', Nat.zero_add]
  by_cases a0 : i < 8
  · simp [a0]
    rfl
  · by_cases a1 : i - 8 < 8
    · simp [a0, a1, show 8 + (i - 8) = i by omega]
      rfl
    · by_cases a2 : i - 8 - 8 < 8
      · simp [a0, a1, a2, show 16 + (i - 8 - 8) = i by omega]
        rfl
      · simp [a0, a1, a2, show 24 + (i - 8 - 8 - 8) = i by omega]
        rfl

/-- After other masters' writes a byte reads as the last one to it, or as before (R84). -/
theorem readByte_masterWrites_append {m : List Host.Cell} (l : List Host.Cell) (a x : Nat) (b : Byte)
    (h : memoryWf m = true) :
    readByte (masterWrites m (l ++ [(a, b)])) x =
      if x = a % 2 ^ 26 then b else readByte (masterWrites m l) x := by
  have e : masterWrites m (l ++ [(a, b)]) = writeByte (masterWrites m l) (a % 2 ^ 26) b := by
    simp [masterWrites, List.foldl_append]
  rw [e, readByte_writeByte (memoryWf_masterWrites l h)]

/-- The reset memory has the canonical form. -/
theorem memoryWf_reset : memoryWf State.reset.mem = true := rfl

end Sys2Proof.Machine
end

