-- ==== Sys2Proof/Laws/State.lean ====
section
/-! SUPPORT. One lemma per field per update of State, so that no proof unfolds a record update. -/

namespace Sys2Proof.Machine

/-! ## advance -/

@[simp] theorem advance_regs (s : State) : s.advance.regs = s.regs := rfl
@[simp] theorem advance_psr (s : State) : s.advance.psr = s.psr := rfl
@[simp] theorem advance_pc (s : State) : s.advance.pc = s.pc + 1 := rfl
@[simp] theorem advance_mem (s : State) : s.advance.mem = s.mem := rfl
@[simp] theorem advance_pipe (s : State) : s.advance.pipe = s.pipe.tail := rfl
@[simp] theorem advance_bank (s : State) : s.advance.bank = .settled := rfl
@[simp] theorem advance_busyWait (s : State) : s.advance.busyWait = false := rfl
@[simp] theorem advance_fiqSync (s : State) : s.advance.fiqSync = s.fiqSync := rfl
@[simp] theorem advance_irqSync (s : State) : s.advance.irqSync = s.irqSync := rfl
@[simp] theorem advance_resetHigh (s : State) : s.advance.resetHigh = s.resetHigh := rfl
@[simp] theorem advance_memSystem (s : State) : s.advance.memSystem = s.memSystem := rfl
@[simp] theorem advance_coprocessors (s : State) : s.advance.coprocessors = s.coprocessors := rfl
@[simp] theorem advance_inputs (s : State) : s.advance.inputs = s.inputs := rfl
@[simp] theorem advance_params (s : State) : s.advance.params = s.params := rfl
@[simp] theorem advance_cpLog (s : State) : s.advance.cpLog = s.cpLog := rfl
@[simp] theorem advance_busLog (s : State) : s.advance.busLog = s.busLog := rfl
@[simp] theorem advance_stamp (s : State) : s.advance.stamp = s.stamp := rfl

/-! ## writePC -/

@[simp] theorem writePC_regs (s : State) (w : Word) : (s.writePC w).regs = s.regs := rfl
@[simp] theorem writePC_psr (s : State) (w : Word) : (s.writePC w).psr = s.psr := rfl
@[simp] theorem writePC_pc (s : State) (w : Word) : (s.writePC w).pc = w.extractLsb' 2 24 := rfl
@[simp] theorem writePC_mem (s : State) (w : Word) : (s.writePC w).mem = s.mem := rfl
@[simp] theorem writePC_pipe (s : State) (w : Word) : (s.writePC w).pipe = [] := rfl
@[simp] theorem writePC_bank (s : State) (w : Word) : (s.writePC w).bank = .settled := rfl
@[simp] theorem writePC_busyWait (s : State) (w : Word) : (s.writePC w).busyWait = false := rfl
@[simp] theorem writePC_fiqSync (s : State) (w : Word) : (s.writePC w).fiqSync = s.fiqSync := rfl
@[simp] theorem writePC_irqSync (s : State) (w : Word) : (s.writePC w).irqSync = s.irqSync := rfl
@[simp] theorem writePC_resetHigh (s : State) (w : Word) : (s.writePC w).resetHigh = s.resetHigh := rfl
@[simp] theorem writePC_memSystem (s : State) (w : Word) : (s.writePC w).memSystem = s.memSystem := rfl
@[simp] theorem writePC_coprocessors (s : State) (w : Word) : (s.writePC w).coprocessors = s.coprocessors := rfl
@[simp] theorem writePC_inputs (s : State) (w : Word) : (s.writePC w).inputs = s.inputs := rfl
@[simp] theorem writePC_params (s : State) (w : Word) : (s.writePC w).params = s.params := rfl
@[simp] theorem writePC_cpLog (s : State) (w : Word) : (s.writePC w).cpLog = s.cpLog := rfl
@[simp] theorem writePC_busLog (s : State) (w : Word) : (s.writePC w).busLog = s.busLog := rfl
@[simp] theorem writePC_stamp (s : State) (w : Word) : (s.writePC w).stamp = s.stamp := rfl

/-! ## writePSR -/

@[simp] theorem writePSR_regs (s : State) (w : Word) : (s.writePSR w).regs = s.regs := rfl
@[simp] theorem writePSR_psr (s : State) (w : Word) : (s.writePSR w).psr = s.psr.written w := rfl
@[simp] theorem writePSR_pc (s : State) (w : Word) : (s.writePSR w).pc = s.pc := rfl
@[simp] theorem writePSR_mem (s : State) (w : Word) : (s.writePSR w).mem = s.mem := rfl
@[simp] theorem writePSR_pipe (s : State) (w : Word) : (s.writePSR w).pipe = s.pipe := rfl
@[simp] theorem writePSR_bank (s : State) (w : Word) : (s.writePSR w).bank = s.bank := rfl
@[simp] theorem writePSR_busyWait (s : State) (w : Word) : (s.writePSR w).busyWait = s.busyWait := rfl
@[simp] theorem writePSR_fiqSync (s : State) (w : Word) : (s.writePSR w).fiqSync = s.fiqSync := rfl
@[simp] theorem writePSR_irqSync (s : State) (w : Word) : (s.writePSR w).irqSync = s.irqSync := rfl
@[simp] theorem writePSR_resetHigh (s : State) (w : Word) : (s.writePSR w).resetHigh = s.resetHigh := rfl
@[simp] theorem writePSR_memSystem (s : State) (w : Word) : (s.writePSR w).memSystem = s.memSystem := rfl
@[simp] theorem writePSR_coprocessors (s : State) (w : Word) : (s.writePSR w).coprocessors = s.coprocessors := rfl
@[simp] theorem writePSR_inputs (s : State) (w : Word) : (s.writePSR w).inputs = s.inputs := rfl
@[simp] theorem writePSR_params (s : State) (w : Word) : (s.writePSR w).params = s.params := rfl
@[simp] theorem writePSR_cpLog (s : State) (w : Word) : (s.writePSR w).cpLog = s.cpLog := rfl
@[simp] theorem writePSR_busLog (s : State) (w : Word) : (s.writePSR w).busLog = s.busLog := rfl
@[simp] theorem writePSR_stamp (s : State) (w : Word) : (s.writePSR w).stamp = s.stamp := rfl

/-! ## writePCPSR -/

@[simp] theorem writePCPSR_regs (s : State) (w : Word) : (s.writePCPSR w).regs = s.regs := rfl
@[simp] theorem writePCPSR_psr (s : State) (w : Word) : (s.writePCPSR w).psr = s.psr.written w := rfl
@[simp] theorem writePCPSR_pc (s : State) (w : Word) : (s.writePCPSR w).pc = w.extractLsb' 2 24 := rfl
@[simp] theorem writePCPSR_mem (s : State) (w : Word) : (s.writePCPSR w).mem = s.mem := rfl
@[simp] theorem writePCPSR_pipe (s : State) (w : Word) : (s.writePCPSR w).pipe = [] := rfl
@[simp] theorem writePCPSR_bank (s : State) (w : Word) : (s.writePCPSR w).bank = .settled := rfl
@[simp] theorem writePCPSR_busyWait (s : State) (w : Word) : (s.writePCPSR w).busyWait = false := rfl
@[simp] theorem writePCPSR_fiqSync (s : State) (w : Word) : (s.writePCPSR w).fiqSync = s.fiqSync := rfl
@[simp] theorem writePCPSR_irqSync (s : State) (w : Word) : (s.writePCPSR w).irqSync = s.irqSync := rfl
@[simp] theorem writePCPSR_resetHigh (s : State) (w : Word) : (s.writePCPSR w).resetHigh = s.resetHigh := rfl
@[simp] theorem writePCPSR_memSystem (s : State) (w : Word) : (s.writePCPSR w).memSystem = s.memSystem := rfl
@[simp] theorem writePCPSR_coprocessors (s : State) (w : Word) :
    (s.writePCPSR w).coprocessors = s.coprocessors := rfl
@[simp] theorem writePCPSR_inputs (s : State) (w : Word) : (s.writePCPSR w).inputs = s.inputs := rfl
@[simp] theorem writePCPSR_params (s : State) (w : Word) : (s.writePCPSR w).params = s.params := rfl
@[simp] theorem writePCPSR_cpLog (s : State) (w : Word) : (s.writePCPSR w).cpLog = s.cpLog := rfl
@[simp] theorem writePCPSR_busLog (s : State) (w : Word) : (s.writePCPSR w).busLog = s.busLog := rfl
@[simp] theorem writePCPSR_stamp (s : State) (w : Word) : (s.writePCPSR w).stamp = s.stamp := rfl

/-! ## branchTo -/

@[simp] theorem branchTo_regs (s : State) (t : BitVec 24) : (s.branchTo t).regs = s.regs := rfl
@[simp] theorem branchTo_psr (s : State) (t : BitVec 24) : (s.branchTo t).psr = s.psr := rfl
@[simp] theorem branchTo_pc (s : State) (t : BitVec 24) : (s.branchTo t).pc = t := rfl
@[simp] theorem branchTo_mem (s : State) (t : BitVec 24) : (s.branchTo t).mem = s.mem := rfl
@[simp] theorem branchTo_pipe (s : State) (t : BitVec 24) : (s.branchTo t).pipe = [] := rfl
@[simp] theorem branchTo_bank (s : State) (t : BitVec 24) : (s.branchTo t).bank = .settled := rfl
@[simp] theorem branchTo_busyWait (s : State) (t : BitVec 24) : (s.branchTo t).busyWait = false := rfl
@[simp] theorem branchTo_fiqSync (s : State) (t : BitVec 24) : (s.branchTo t).fiqSync = s.fiqSync := rfl
@[simp] theorem branchTo_irqSync (s : State) (t : BitVec 24) : (s.branchTo t).irqSync = s.irqSync := rfl
@[simp] theorem branchTo_resetHigh (s : State) (t : BitVec 24) : (s.branchTo t).resetHigh = s.resetHigh := rfl
@[simp] theorem branchTo_memSystem (s : State) (t : BitVec 24) : (s.branchTo t).memSystem = s.memSystem := rfl
@[simp] theorem branchTo_coprocessors (s : State) (t : BitVec 24) :
    (s.branchTo t).coprocessors = s.coprocessors := rfl
@[simp] theorem branchTo_inputs (s : State) (t : BitVec 24) : (s.branchTo t).inputs = s.inputs := rfl
@[simp] theorem branchTo_params (s : State) (t : BitVec 24) : (s.branchTo t).params = s.params := rfl
@[simp] theorem branchTo_cpLog (s : State) (t : BitVec 24) : (s.branchTo t).cpLog = s.cpLog := rfl
@[simp] theorem branchTo_busLog (s : State) (t : BitVec 24) : (s.branchTo t).busLog = s.busLog := rfl
@[simp] theorem branchTo_stamp (s : State) (t : BitVec 24) : (s.branchTo t).stamp = s.stamp := rfl

/-! ## raise -/

@[simp] theorem raise_regs (s : State) (e : Exception) :
    (s.raise e).regs = s.regs.set e.link (s.r15full e.savedOffset) := rfl
@[simp] theorem raise_psr (s : State) (e : Exception) :
    (s.raise e).psr = { s.psr with mode := e.mode, i := true, f := s.psr.f || e == .fiq } := rfl
@[simp] theorem raise_pc (s : State) (e : Exception) : (s.raise e).pc = e.vector := rfl
@[simp] theorem raise_mem (s : State) (e : Exception) : (s.raise e).mem = s.mem := rfl
@[simp] theorem raise_pipe (s : State) (e : Exception) : (s.raise e).pipe = [] := rfl
@[simp] theorem raise_bank (s : State) (e : Exception) : (s.raise e).bank = .settled := rfl
@[simp] theorem raise_busyWait (s : State) (e : Exception) : (s.raise e).busyWait = false := rfl
@[simp] theorem raise_fiqSync (s : State) (e : Exception) : (s.raise e).fiqSync = s.fiqSync := rfl
@[simp] theorem raise_irqSync (s : State) (e : Exception) : (s.raise e).irqSync = s.irqSync := rfl
@[simp] theorem raise_resetHigh (s : State) (e : Exception) : (s.raise e).resetHigh = s.resetHigh := rfl
@[simp] theorem raise_memSystem (s : State) (e : Exception) : (s.raise e).memSystem = s.memSystem := rfl
@[simp] theorem raise_coprocessors (s : State) (e : Exception) : (s.raise e).coprocessors = s.coprocessors := rfl
@[simp] theorem raise_inputs (s : State) (e : Exception) : (s.raise e).inputs = s.inputs := rfl
@[simp] theorem raise_params (s : State) (e : Exception) : (s.raise e).params = s.params := rfl
@[simp] theorem raise_cpLog (s : State) (e : Exception) : (s.raise e).cpLog = s.cpLog := rfl
@[simp] theorem raise_busLog (s : State) (e : Exception) : (s.raise e).busLog = s.busLog := rfl
@[simp] theorem raise_stamp (s : State) (e : Exception) : (s.raise e).stamp = s.stamp := rfl

/-! ## busRest -/

@[simp] theorem busRest_regs (s : State) : s.busRest.regs = s.regs := rfl
@[simp] theorem busRest_psr (s : State) : s.busRest.psr = s.psr := rfl
@[simp] theorem busRest_pc (s : State) : s.busRest.pc = s.pc := rfl
@[simp] theorem busRest_mem (s : State) : s.busRest.mem = masterWrites s.mem s.now.between.flatten := rfl
@[simp] theorem busRest_pipe (s : State) : s.busRest.pipe = s.pipe := rfl
@[simp] theorem busRest_bank (s : State) : s.busRest.bank = s.bank := rfl
@[simp] theorem busRest_busyWait (s : State) : s.busRest.busyWait = s.busyWait := rfl
@[simp] theorem busRest_fiqSync (s : State) : s.busRest.fiqSync = s.fiqSync := rfl
@[simp] theorem busRest_irqSync (s : State) : s.busRest.irqSync = s.irqSync := rfl
@[simp] theorem busRest_resetHigh (s : State) : s.busRest.resetHigh = s.resetHigh := rfl
@[simp] theorem busRest_memSystem (s : State) : s.busRest.memSystem = s.memSystem := rfl
@[simp] theorem busRest_coprocessors (s : State) : s.busRest.coprocessors = s.coprocessors := rfl
@[simp] theorem busRest_inputs (s : State) : s.busRest.inputs = { s.now with between := [] } :: s.inputs.tail := rfl
@[simp] theorem busRest_params (s : State) : s.busRest.params = s.params := rfl
@[simp] theorem busRest_cpLog (s : State) : s.busRest.cpLog = s.cpLog := rfl
@[simp] theorem busRest_busLog (s : State) : s.busRest.busLog = s.busLog := rfl
@[simp] theorem busRest_stamp (s : State) : s.busRest.stamp = s.stamp := rfl

/-! ## retire -/

@[simp] theorem retire_regs (s : State) : s.retire.regs = s.regs := rfl
@[simp] theorem retire_psr (s : State) : s.retire.psr = s.psr := rfl
@[simp] theorem retire_pc (s : State) : s.retire.pc = s.pc := rfl
@[simp] theorem retire_mem (s : State) : s.retire.mem = masterWrites s.mem s.now.between.flatten := rfl
@[simp] theorem retire_pipe (s : State) : s.retire.pipe = s.pipe := rfl
@[simp] theorem retire_bank (s : State) : s.retire.bank = s.bank := rfl
@[simp] theorem retire_busyWait (s : State) : s.retire.busyWait = s.busyWait := rfl
@[simp] theorem retire_fiqSync (s : State) : s.retire.fiqSync = s.fiqSync := rfl
@[simp] theorem retire_irqSync (s : State) : s.retire.irqSync = s.irqSync := rfl
@[simp] theorem retire_resetHigh (s : State) : s.retire.resetHigh = s.resetHigh := rfl
@[simp] theorem retire_memSystem (s : State) : s.retire.memSystem = s.memSystem := rfl
@[simp] theorem retire_coprocessors (s : State) : s.retire.coprocessors = s.coprocessors := rfl
@[simp] theorem retire_inputs (s : State) : s.retire.inputs = s.inputs.tail := rfl
@[simp] theorem retire_params (s : State) : s.retire.params = s.params := rfl
@[simp] theorem retire_cpLog (s : State) : s.retire.cpLog = s.cpLog := rfl
@[simp] theorem retire_busLog (s : State) : s.retire.busLog = s.busLog := rfl
@[simp] theorem retire_stamp (s : State) : s.retire.stamp = s.stamp + 1 := rfl

/-! ## accepted -/

@[simp] theorem accepted_regs (s : State) (w : Word) (l : List Word) : (s.accepted w l).regs = s.regs := rfl
@[simp] theorem accepted_psr (s : State) (w : Word) (l : List Word) : (s.accepted w l).psr = s.psr := rfl
@[simp] theorem accepted_pc (s : State) (w : Word) (l : List Word) : (s.accepted w l).pc = s.pc := rfl
@[simp] theorem accepted_mem (s : State) (w : Word) (l : List Word) : (s.accepted w l).mem = s.mem := rfl
@[simp] theorem accepted_pipe (s : State) (w : Word) (l : List Word) : (s.accepted w l).pipe = s.pipe := rfl
@[simp] theorem accepted_bank (s : State) (w : Word) (l : List Word) : (s.accepted w l).bank = s.bank := rfl
@[simp] theorem accepted_busyWait (s : State) (w : Word) (l : List Word) :
    (s.accepted w l).busyWait = s.busyWait := rfl
@[simp] theorem accepted_fiqSync (s : State) (w : Word) (l : List Word) : (s.accepted w l).fiqSync = s.fiqSync := rfl
@[simp] theorem accepted_irqSync (s : State) (w : Word) (l : List Word) : (s.accepted w l).irqSync = s.irqSync := rfl
@[simp] theorem accepted_resetHigh (s : State) (w : Word) (l : List Word) :
    (s.accepted w l).resetHigh = s.resetHigh := rfl
@[simp] theorem accepted_memSystem (s : State) (w : Word) (l : List Word) :
    (s.accepted w l).memSystem = s.memSystem := rfl
@[simp] theorem accepted_coprocessors (s : State) (w : Word) (l : List Word) :
    (s.accepted w l).coprocessors = s.coprocessors := rfl
@[simp] theorem accepted_inputs (s : State) (w : Word) (l : List Word) : (s.accepted w l).inputs = s.inputs := rfl
@[simp] theorem accepted_params (s : State) (w : Word) (l : List Word) : (s.accepted w l).params = s.params := rfl
@[simp] theorem accepted_cpLog (s : State) (w : Word) (l : List Word) :
    (s.accepted w l).cpLog = s.cpLog ++ [{ instr := w, sent := l }] := rfl
@[simp] theorem accepted_busLog (s : State) (w : Word) (l : List Word) : (s.accepted w l).busLog = s.busLog := rfl
@[simp] theorem accepted_stamp (s : State) (w : Word) (l : List Word) : (s.accepted w l).stamp = s.stamp := rfl

/-! ## sample -/

@[simp] theorem sample_regs (s : State) : s.sample.regs = s.regs := rfl
@[simp] theorem sample_psr (s : State) : s.sample.psr = s.psr := rfl
@[simp] theorem sample_pc (s : State) : s.sample.pc = s.pc := rfl
@[simp] theorem sample_mem (s : State) : s.sample.mem = masterWrites s.mem s.now.busWrites := rfl
@[simp] theorem sample_pipe (s : State) : s.sample.pipe = s.pipe := rfl
@[simp] theorem sample_bank (s : State) : s.sample.bank = s.bank := rfl
@[simp] theorem sample_busyWait (s : State) : s.sample.busyWait = s.busyWait := rfl
@[simp] theorem sample_fiqSync (s : State) : s.sample.fiqSync = s.fiqSync.shift s.now.fiqLow := rfl
@[simp] theorem sample_irqSync (s : State) : s.sample.irqSync = s.irqSync.shift s.now.irqLow := rfl
@[simp] theorem sample_resetHigh (s : State) : s.sample.resetHigh = s.resetHigh := rfl
@[simp] theorem sample_memSystem (s : State) : s.sample.memSystem = s.now.memSystem.getD s.memSystem := rfl
@[simp] theorem sample_coprocessors (s : State) :
    s.sample.coprocessors = s.now.coprocessors.getD s.coprocessors := rfl
@[simp] theorem sample_inputs (s : State) : s.sample.inputs = s.inputs := rfl
@[simp] theorem sample_params (s : State) : s.sample.params = s.params := rfl
@[simp] theorem sample_cpLog (s : State) : s.sample.cpLog = s.cpLog := rfl
@[simp] theorem sample_busLog (s : State) : s.sample.busLog = s.busLog := rfl
@[simp] theorem sample_stamp (s : State) : s.sample.stamp = s.stamp := rfl

/-! ## fillPipe -/

@[simp] theorem fillPipe_regs (s : State) : s.fillPipe.regs = s.regs := rfl
@[simp] theorem fillPipe_psr (s : State) : s.fillPipe.psr = s.psr := rfl
@[simp] theorem fillPipe_pc (s : State) : s.fillPipe.pc = s.pc := rfl
@[simp] theorem fillPipe_mem (s : State) : s.fillPipe.mem = s.mem := rfl
@[simp] theorem fillPipe_bank (s : State) : s.fillPipe.bank = s.bank := rfl
@[simp] theorem fillPipe_busyWait (s : State) : s.fillPipe.busyWait = s.busyWait := rfl
@[simp] theorem fillPipe_fiqSync (s : State) : s.fillPipe.fiqSync = s.fiqSync := rfl
@[simp] theorem fillPipe_irqSync (s : State) : s.fillPipe.irqSync = s.irqSync := rfl
@[simp] theorem fillPipe_resetHigh (s : State) : s.fillPipe.resetHigh = s.resetHigh := rfl
@[simp] theorem fillPipe_memSystem (s : State) : s.fillPipe.memSystem = s.memSystem := rfl
@[simp] theorem fillPipe_coprocessors (s : State) : s.fillPipe.coprocessors = s.coprocessors := rfl
@[simp] theorem fillPipe_inputs (s : State) : s.fillPipe.inputs = s.inputs := rfl
@[simp] theorem fillPipe_params (s : State) : s.fillPipe.params = s.params := rfl
@[simp] theorem fillPipe_cpLog (s : State) : s.fillPipe.cpLog = s.cpLog := rfl
@[simp] theorem fillPipe_busLog (s : State) : s.fillPipe.busLog = s.busLog := rfl
@[simp] theorem fillPipe_stamp (s : State) : s.fillPipe.stamp = s.stamp := rfl

/-! ## snoop -/

@[simp] theorem snoop_regs (s old : State) : (s.snoop old).regs = s.regs := rfl
@[simp] theorem snoop_psr (s old : State) : (s.snoop old).psr = s.psr := rfl
@[simp] theorem snoop_pc (s old : State) : (s.snoop old).pc = s.pc := rfl
@[simp] theorem snoop_mem (s old : State) : (s.snoop old).mem = s.mem := rfl
@[simp] theorem snoop_bank (s old : State) : (s.snoop old).bank = s.bank := rfl
@[simp] theorem snoop_busyWait (s old : State) : (s.snoop old).busyWait = s.busyWait := rfl
@[simp] theorem snoop_fiqSync (s old : State) : (s.snoop old).fiqSync = s.fiqSync := rfl
@[simp] theorem snoop_irqSync (s old : State) : (s.snoop old).irqSync = s.irqSync := rfl
@[simp] theorem snoop_resetHigh (s old : State) : (s.snoop old).resetHigh = s.resetHigh := rfl
@[simp] theorem snoop_memSystem (s old : State) : (s.snoop old).memSystem = s.memSystem := rfl
@[simp] theorem snoop_coprocessors (s old : State) : (s.snoop old).coprocessors = s.coprocessors := rfl
@[simp] theorem snoop_inputs (s old : State) : (s.snoop old).inputs = s.inputs := rfl
@[simp] theorem snoop_params (s old : State) : (s.snoop old).params = s.params := rfl
@[simp] theorem snoop_cpLog (s old : State) : (s.snoop old).cpLog = s.cpLog := rfl
@[simp] theorem snoop_busLog (s old : State) : (s.snoop old).busLog = s.busLog := rfl
@[simp] theorem snoop_stamp (s old : State) : (s.snoop old).stamp = s.stamp := rfl

/-! ## withFetchWord -/

@[simp] theorem withFetchWord_regs (s : State) (n w : Nat) : (s.withFetchWord n w).regs = s.regs := rfl
@[simp] theorem withFetchWord_psr (s : State) (n w : Nat) : (s.withFetchWord n w).psr = s.psr := rfl
@[simp] theorem withFetchWord_pc (s : State) (n w : Nat) : (s.withFetchWord n w).pc = s.pc := rfl
@[simp] theorem withFetchWord_mem (s : State) (n w : Nat) :
    (s.withFetchWord n w).mem = writeWord s.mem s.addr (BitVec.ofNat 32 (w % 2 ^ n)) := rfl
@[simp] theorem withFetchWord_pipe (s : State) (n w : Nat) :
    (s.withFetchWord n w).pipe = { word := BitVec.ofNat 32 (w % 2 ^ n), invalid := false } :: s.pipe.tail := rfl
@[simp] theorem withFetchWord_bank (s : State) (n w : Nat) : (s.withFetchWord n w).bank = s.bank := rfl
@[simp] theorem withFetchWord_busyWait (s : State) (n w : Nat) : (s.withFetchWord n w).busyWait = s.busyWait := rfl
@[simp] theorem withFetchWord_fiqSync (s : State) (n w : Nat) : (s.withFetchWord n w).fiqSync = s.fiqSync := rfl
@[simp] theorem withFetchWord_irqSync (s : State) (n w : Nat) : (s.withFetchWord n w).irqSync = s.irqSync := rfl
@[simp] theorem withFetchWord_resetHigh (s : State) (n w : Nat) :
    (s.withFetchWord n w).resetHigh = s.resetHigh := rfl
@[simp] theorem withFetchWord_memSystem (s : State) (n w : Nat) :
    (s.withFetchWord n w).memSystem = s.memSystem := rfl
@[simp] theorem withFetchWord_coprocessors (s : State) (n w : Nat) :
    (s.withFetchWord n w).coprocessors = s.coprocessors := rfl
@[simp] theorem withFetchWord_inputs (s : State) (n w : Nat) : (s.withFetchWord n w).inputs = s.inputs := rfl
@[simp] theorem withFetchWord_params (s : State) (n w : Nat) : (s.withFetchWord n w).params = s.params := rfl
@[simp] theorem withFetchWord_cpLog (s : State) (n w : Nat) : (s.withFetchWord n w).cpLog = s.cpLog := rfl
@[simp] theorem withFetchWord_busLog (s : State) (n w : Nat) : (s.withFetchWord n w).busLog = s.busLog := rfl
@[simp] theorem withFetchWord_stamp (s : State) (n w : Nat) : (s.withFetchWord n w).stamp = s.stamp := rfl

/-! ## writeBank -/

@[simp] theorem writeBank_psr (s : State) (m : Mode) (r : Reg) (v : Word) : (s.writeBank m r v).psr = s.psr := by
  unfold State.writeBank; split <;> rfl
@[simp] theorem writeBank_pc (s : State) (m : Mode) (r : Reg) (v : Word) : (s.writeBank m r v).pc = s.pc := by
  unfold State.writeBank; split <;> rfl
@[simp] theorem writeBank_mem (s : State) (m : Mode) (r : Reg) (v : Word) : (s.writeBank m r v).mem = s.mem := by
  unfold State.writeBank; split <;> rfl
@[simp] theorem writeBank_pipe (s : State) (m : Mode) (r : Reg) (v : Word) : (s.writeBank m r v).pipe = s.pipe := by
  unfold State.writeBank; split <;> rfl
@[simp] theorem writeBank_bank (s : State) (m : Mode) (r : Reg) (v : Word) : (s.writeBank m r v).bank = s.bank := by
  unfold State.writeBank; split <;> rfl
@[simp] theorem writeBank_busyWait (s : State) (m : Mode) (r : Reg) (v : Word) : (s.writeBank m r v).busyWait = s.busyWait := by
  unfold State.writeBank; split <;> rfl
@[simp] theorem writeBank_fiqSync (s : State) (m : Mode) (r : Reg) (v : Word) : (s.writeBank m r v).fiqSync = s.fiqSync := by
  unfold State.writeBank; split <;> rfl
@[simp] theorem writeBank_irqSync (s : State) (m : Mode) (r : Reg) (v : Word) : (s.writeBank m r v).irqSync = s.irqSync := by
  unfold State.writeBank; split <;> rfl
@[simp] theorem writeBank_resetHigh (s : State) (m : Mode) (r : Reg) (v : Word) : (s.writeBank m r v).resetHigh = s.resetHigh := by
  unfold State.writeBank; split <;> rfl
@[simp] theorem writeBank_memSystem (s : State) (m : Mode) (r : Reg) (v : Word) : (s.writeBank m r v).memSystem = s.memSystem := by
  unfold State.writeBank; split <;> rfl
@[simp] theorem writeBank_coprocessors (s : State) (m : Mode) (r : Reg) (v : Word) : (s.writeBank m r v).coprocessors = s.coprocessors := by
  unfold State.writeBank; split <;> rfl
@[simp] theorem writeBank_inputs (s : State) (m : Mode) (r : Reg) (v : Word) : (s.writeBank m r v).inputs = s.inputs := by
  unfold State.writeBank; split <;> rfl
@[simp] theorem writeBank_params (s : State) (m : Mode) (r : Reg) (v : Word) : (s.writeBank m r v).params = s.params := by
  unfold State.writeBank; split <;> rfl
@[simp] theorem writeBank_cpLog (s : State) (m : Mode) (r : Reg) (v : Word) : (s.writeBank m r v).cpLog = s.cpLog := by
  unfold State.writeBank; split <;> rfl
@[simp] theorem writeBank_busLog (s : State) (m : Mode) (r : Reg) (v : Word) : (s.writeBank m r v).busLog = s.busLog := by
  unfold State.writeBank; split <;> rfl
@[simp] theorem writeBank_stamp (s : State) (m : Mode) (r : Reg) (v : Word) : (s.writeBank m r v).stamp = s.stamp := by
  unfold State.writeBank; split <;> rfl

/-! ## writeX -/

@[simp] theorem writeX_psr (s : State) (r : Reg) (v : Word) : (s.writeX r v).psr = s.psr := by
  simp [State.writeX]
@[simp] theorem writeX_pc (s : State) (r : Reg) (v : Word) : (s.writeX r v).pc = s.pc := by
  simp [State.writeX]
@[simp] theorem writeX_mem (s : State) (r : Reg) (v : Word) : (s.writeX r v).mem = s.mem := by
  simp [State.writeX]
@[simp] theorem writeX_pipe (s : State) (r : Reg) (v : Word) : (s.writeX r v).pipe = s.pipe := by
  simp [State.writeX]
@[simp] theorem writeX_bank (s : State) (r : Reg) (v : Word) : (s.writeX r v).bank = s.bank := by
  simp [State.writeX]
@[simp] theorem writeX_busyWait (s : State) (r : Reg) (v : Word) : (s.writeX r v).busyWait = s.busyWait := by
  simp [State.writeX]
@[simp] theorem writeX_fiqSync (s : State) (r : Reg) (v : Word) : (s.writeX r v).fiqSync = s.fiqSync := by
  simp [State.writeX]
@[simp] theorem writeX_irqSync (s : State) (r : Reg) (v : Word) : (s.writeX r v).irqSync = s.irqSync := by
  simp [State.writeX]
@[simp] theorem writeX_resetHigh (s : State) (r : Reg) (v : Word) : (s.writeX r v).resetHigh = s.resetHigh := by
  simp [State.writeX]
@[simp] theorem writeX_memSystem (s : State) (r : Reg) (v : Word) : (s.writeX r v).memSystem = s.memSystem := by
  simp [State.writeX]
@[simp] theorem writeX_coprocessors (s : State) (r : Reg) (v : Word) : (s.writeX r v).coprocessors = s.coprocessors := by
  simp [State.writeX]
@[simp] theorem writeX_inputs (s : State) (r : Reg) (v : Word) : (s.writeX r v).inputs = s.inputs := by
  simp [State.writeX]
@[simp] theorem writeX_params (s : State) (r : Reg) (v : Word) : (s.writeX r v).params = s.params := by
  simp [State.writeX]
@[simp] theorem writeX_cpLog (s : State) (r : Reg) (v : Word) : (s.writeX r v).cpLog = s.cpLog := by
  simp [State.writeX]
@[simp] theorem writeX_busLog (s : State) (r : Reg) (v : Word) : (s.writeX r v).busLog = s.busLog := by
  simp [State.writeX]
@[simp] theorem writeX_stamp (s : State) (r : Reg) (v : Word) : (s.writeX r v).stamp = s.stamp := by
  simp [State.writeX]

/-! ## busGap, busGaps -/

@[simp] theorem busGap_regs (s : State) : s.busGap.regs = s.regs := by
  unfold State.busGap; split <;> rfl
@[simp] theorem busGap_psr (s : State) : s.busGap.psr = s.psr := by
  unfold State.busGap; split <;> rfl
@[simp] theorem busGap_pc (s : State) : s.busGap.pc = s.pc := by
  unfold State.busGap; split <;> rfl
@[simp] theorem busGap_pipe (s : State) : s.busGap.pipe = s.pipe := by
  unfold State.busGap; split <;> rfl
@[simp] theorem busGap_bank (s : State) : s.busGap.bank = s.bank := by
  unfold State.busGap; split <;> rfl
@[simp] theorem busGap_busyWait (s : State) : s.busGap.busyWait = s.busyWait := by
  unfold State.busGap; split <;> rfl
@[simp] theorem busGap_fiqSync (s : State) : s.busGap.fiqSync = s.fiqSync := by
  unfold State.busGap; split <;> rfl
@[simp] theorem busGap_irqSync (s : State) : s.busGap.irqSync = s.irqSync := by
  unfold State.busGap; split <;> rfl
@[simp] theorem busGap_resetHigh (s : State) : s.busGap.resetHigh = s.resetHigh := by
  unfold State.busGap; split <;> rfl
@[simp] theorem busGap_memSystem (s : State) : s.busGap.memSystem = s.memSystem := by
  unfold State.busGap; split <;> rfl
@[simp] theorem busGap_coprocessors (s : State) : s.busGap.coprocessors = s.coprocessors := by
  unfold State.busGap; split <;> rfl
@[simp] theorem busGap_params (s : State) : s.busGap.params = s.params := by
  unfold State.busGap; split <;> rfl
@[simp] theorem busGap_cpLog (s : State) : s.busGap.cpLog = s.cpLog := by
  unfold State.busGap; split <;> rfl
@[simp] theorem busGap_busLog (s : State) : s.busGap.busLog = s.busLog := by
  unfold State.busGap; split <;> rfl
@[simp] theorem busGap_stamp (s : State) : s.busGap.stamp = s.stamp := by
  unfold State.busGap; split <;> rfl
@[simp] theorem busGaps_regs (s : State) (n : Nat) : (s.busGaps n).regs = s.regs := by
  induction n with
  | zero => rfl
  | succ n ih => exact (busGap_regs _).trans ih
@[simp] theorem busGaps_psr (s : State) (n : Nat) : (s.busGaps n).psr = s.psr := by
  induction n with
  | zero => rfl
  | succ n ih => exact (busGap_psr _).trans ih
@[simp] theorem busGaps_pc (s : State) (n : Nat) : (s.busGaps n).pc = s.pc := by
  induction n with
  | zero => rfl
  | succ n ih => exact (busGap_pc _).trans ih
@[simp] theorem busGaps_pipe (s : State) (n : Nat) : (s.busGaps n).pipe = s.pipe := by
  induction n with
  | zero => rfl
  | succ n ih => exact (busGap_pipe _).trans ih
@[simp] theorem busGaps_bank (s : State) (n : Nat) : (s.busGaps n).bank = s.bank := by
  induction n with
  | zero => rfl
  | succ n ih => exact (busGap_bank _).trans ih
@[simp] theorem busGaps_busyWait (s : State) (n : Nat) : (s.busGaps n).busyWait = s.busyWait := by
  induction n with
  | zero => rfl
  | succ n ih => exact (busGap_busyWait _).trans ih
@[simp] theorem busGaps_fiqSync (s : State) (n : Nat) : (s.busGaps n).fiqSync = s.fiqSync := by
  induction n with
  | zero => rfl
  | succ n ih => exact (busGap_fiqSync _).trans ih
@[simp] theorem busGaps_irqSync (s : State) (n : Nat) : (s.busGaps n).irqSync = s.irqSync := by
  induction n with
  | zero => rfl
  | succ n ih => exact (busGap_irqSync _).trans ih
@[simp] theorem busGaps_resetHigh (s : State) (n : Nat) : (s.busGaps n).resetHigh = s.resetHigh := by
  induction n with
  | zero => rfl
  | succ n ih => exact (busGap_resetHigh _).trans ih
@[simp] theorem busGaps_memSystem (s : State) (n : Nat) : (s.busGaps n).memSystem = s.memSystem := by
  induction n with
  | zero => rfl
  | succ n ih => exact (busGap_memSystem _).trans ih
@[simp] theorem busGaps_coprocessors (s : State) (n : Nat) : (s.busGaps n).coprocessors = s.coprocessors := by
  induction n with
  | zero => rfl
  | succ n ih => exact (busGap_coprocessors _).trans ih
@[simp] theorem busGaps_params (s : State) (n : Nat) : (s.busGaps n).params = s.params := by
  induction n with
  | zero => rfl
  | succ n ih => exact (busGap_params _).trans ih
@[simp] theorem busGaps_cpLog (s : State) (n : Nat) : (s.busGaps n).cpLog = s.cpLog := by
  induction n with
  | zero => rfl
  | succ n ih => exact (busGap_cpLog _).trans ih
@[simp] theorem busGaps_busLog (s : State) (n : Nat) : (s.busGaps n).busLog = s.busLog := by
  induction n with
  | zero => rfl
  | succ n ih => exact (busGap_busLog _).trans ih
@[simp] theorem busGaps_stamp (s : State) (n : Nat) : (s.busGaps n).stamp = s.stamp := by
  induction n with
  | zero => rfl
  | succ n ih => exact (busGap_stamp _).trans ih

/-- Nothing happens on the bus where no other master writes. -/
theorem busGap_none {s : State} (h : s.now.between = []) : s.busGap = s := by
  simp [State.busGap, h]

theorem busGaps_none {s : State} (h : s.now.between = []) (n : Nat) : s.busGaps n = s := by
  induction n with
  | zero => rfl
  | succ n ih => rw [State.busGaps, ih, busGap_none h]

/-- A gap on the bus changes memory and the inputs alone. -/
theorem busGap_eq (s : State) : s.busGap = { s with mem := s.busGap.mem, inputs := s.busGap.inputs } := by
  unfold State.busGap
  split <;> rfl

theorem busGaps_eq (s : State) (n : Nat) :
    s.busGaps n = { s with mem := (s.busGaps n).mem, inputs := (s.busGaps n).inputs } := by
  induction n with
  | zero => rfl
  | succ n ih => rw [State.busGaps, busGap_eq, ih]

theorem busGap_cons {s : State} {l : List Host.Cell} {rest : List (List Host.Cell)} (h : s.now.between = l :: rest) :
    s.busGap = { s with mem := masterWrites s.mem l, inputs := { s.now with between := rest } :: s.inputs.tail } := by
  simp [State.busGap, h]

/-- The registers take no part in a gap. -/
theorem busGap_withRegs (s : State) (g : Regs) : ({ s with regs := g } : State).busGap = { s.busGap with regs := g } := by
  cases h : s.now.between with
  | nil => rw [busGap_none h, busGap_none (s := { s with regs := g }) h]
  | cons l rest =>
    rw [busGap_cons h, busGap_cons (s := { s with regs := g }) h]
    rfl

theorem busGaps_withRegs (s : State) (g : Regs) (n : Nat) :
    ({ s with regs := g } : State).busGaps n = { s.busGaps n with regs := g } := by
  induction n with
  | zero => rfl
  | succ n ih => rw [State.busGaps, ih, busGap_withRegs]; rfl

/-- Nor does the record of what co-processors have taken. -/
theorem busGap_accepted (s : State) (w : Word) (l : List Word) : (s.accepted w l).busGap = s.busGap.accepted w l := by
  cases h : s.now.between with
  | nil => rw [busGap_none h, busGap_none (s := s.accepted w l) h]
  | cons c rest =>
    rw [busGap_cons h, busGap_cons (s := s.accepted w l) h]
    rfl

theorem busGaps_accepted (s : State) (w : Word) (l : List Word) (n : Nat) :
    (s.accepted w l).busGaps n = (s.busGaps n).accepted w l := by
  induction n with
  | zero => rfl
  | succ n ih => rw [State.busGaps, ih, busGap_accepted]; rfl

theorem busGaps_busGap (s : State) (n : Nat) : s.busGap.busGaps n = s.busGaps (n + 1) := by
  induction n with
  | zero => rfl
  | succ n ih => rw [State.busGaps, ih]; rfl

/-! ## Registers -/

@[simp] theorem Regs.get_set_same (g : Regs) (p : PReg) (v : Word) : (g.set p v).get p = v := by
  cases p <;> rfl

theorem Regs.get_set_other (g : Regs) {p q : PReg} (v : Word) (h : q ≠ p) : (g.set p v).get q = g.get q := by
  cases p <;> cases q <;> first | rfl | exact absurd rfl h

/-- Two register banks that agree on every register are the same. -/
theorem Regs.ext_get {g h : Regs} (e : ∀ p, g.get p = h.get p) : g = h := by
  cases g; cases h
  have e' := fun p => e p
  simp only [Regs.mk.injEq]
  exact ⟨e' .r0, e' .r1, e' .r2, e' .r3, e' .r4, e' .r5, e' .r6, e' .r7, e' .r8, e' .r9, e' .r10, e' .r11, e' .r12,
    e' .r13, e' .r14, e' .r8Fiq, e' .r9Fiq, e' .r10Fiq, e' .r11Fiq, e' .r12Fiq, e' .r13Fiq, e' .r14Fiq, e' .r13Irq,
    e' .r14Irq, e' .r13Svc, e' .r14Svc⟩

/-- What a write of a register leaves (R10, R22): the register the number names takes the value, every other keeps its. -/
theorem writeBank_get (s : State) (m : Mode) (r : Reg) (v : Word) (p : PReg) :
    (s.writeBank m r v).regs.get p = if physOf m r = some p then v else s.regs.get p := by
  unfold State.writeBank
  split
  · rename_i h; simp [h]
  · rename_i q h
    by_cases e : q = p
    · subst e; simp [h]
    · simp [h, e, Regs.get_set_other _ _ (Ne.symm e)]

theorem writeX_get (s : State) (r : Reg) (v : Word) (p : PReg) :
    (s.writeX r v).regs.get p = if physOf s.psr.mode r = some p then v else s.regs.get p :=
  writeBank_get s s.psr.mode r v p

@[simp] theorem physOf_fifteen (m : Mode) : physOf m 15#4 = none := by cases m <;> rfl

theorem physOf_isSome {m : Mode} {r : Reg} (h : r ≠ 15) : (physOf m r).isSome := by
  revert h; revert r; cases m <;> decide

@[simp] theorem writeX_fifteen (s : State) (v : Word) : s.writeX 15#4 v = s := by
  simp [State.writeX, State.writeBank]

/-- What reading a register gives while the bank is settled. -/
theorem readX_settled (s : State) (who : Config.Draw) (r15 : Word) (r : Reg) (h : s.bank = .settled) :
    s.readX who r15 r = match physOf s.psr.mode r with
      | none => r15
      | some p => s.regs.get p := by
  simp only [State.readX, State.readBank, State.unsettled, h]
  cases physOf s.psr.mode r <;> rfl

end Sys2Proof.Machine
end

