-- ==== Sys2Proof/Laws/Ops.lean ====
section
/-! SUPPORT. For each shared operation, one lemma that says once everything it can do: if it answers a next state, then
which one. A proof cites these and does not unfold the operations. -/

namespace Sys2Proof.Machine

/-! ## Conditions, guards, the co-processors' answer -/

@[simp] theorem whenPassed_passed {c : Cond} {s : State} {k : Result} (h : condPassed c s.psr = true) :
    whenPassed c s k = k := by
  simp [whenPassed, h]

@[simp] theorem whenPassed_failed {c : Cond} {s : State} {k : Result} (h : condPassed c s.psr = false) :
    whenPassed c s k = .next s.advance := by
  simp [whenPassed, h]

theorem whenPassed_next {c : Cond} {s t : State} {k : Result} (h : whenPassed c s k = .next t) :
    (condPassed c s.psr = true ∧ k = .next t) ∨ (condPassed c s.psr = false ∧ t = s.advance) := by
  cases hc : condPassed c s.psr
  · rw [whenPassed_failed hc] at h
    exact .inr ⟨rfl, by injection h with h; exact h.symm⟩
  · rw [whenPassed_passed hc] at h
    exact .inl ⟨rfl, h⟩

theorem guardWrites_next {s t : State} {rs : List Reg} {k : Result} (h : s.guardWrites rs k = .next t) :
    (∀ r ∈ rs, s.unsettled r = false) ∧ k = .next t := by
  unfold State.guardWrites at h
  split at h
  · exact nomatch h
  · rename_i e
    exact ⟨fun r hr => by
      cases hu : s.unsettled r
      · rfl
      · exact absurd (List.any_eq_true.mpr ⟨r, hr, hu⟩) e, h⟩

theorem guardWrites_open {s : State} {rs : List Reg} {k : Result} (h : ∀ r ∈ rs, s.unsettled r = false) :
    s.guardWrites rs k = k := by
  have : rs.any s.unsettled = false := by
    rw [List.any_eq_false]
    intro r hr
    simp [h r hr]
  simp [State.guardWrites, this]

theorem unsettled_settled {s : State} (h : s.bank = .settled) (r : Reg) : s.unsettled r = false := by
  simp [State.unsettled, h]

theorem unsettled_fifteen (s : State) : s.unsettled 15#4 = false := by
  cases h : s.bank <;> simp [State.unsettled, h]

theorem offer_next {s t : State} {cp : Option (BitVec 4)} {w : Word} {k : Word → List Word → Result}
    (h : s.offer cp w k = .next t) :
    (s.reply cp w = .absent ∧ t = s.raise .undefined) ∨ (s.reply cp w = .busy ∧ t = { s with busyWait := true }) ∨
      ∃ first rest, s.reply cp w = .ready first rest ∧ k first rest = .next t := by
  unfold State.offer at h
  split at h
  · rename_i e
    exact .inl ⟨e, by injection h with h; exact h.symm⟩
  · rename_i e
    exact .inr (.inl ⟨e, by injection h with h; exact h.symm⟩)
  · rename_i first rest e
    exact .inr (.inr ⟨first, rest, e, h⟩)

/-! ## The bus -/

/-- The record of a data access and the memory system's answer depend on the status and on the rules alone. -/
@[simp] theorem busGap_dataAccess (s : State) (a : Addr) (z : Size) (w f : Bool) :
    s.busGap.dataAccess a z w f = s.dataAccess a z w f := by
  simp [State.dataAccess]

@[simp] theorem busGaps_dataAccess (s : State) (n : Nat) (a : Addr) (z : Size) (w f : Bool) :
    (s.busGaps n).dataAccess a z w f = s.dataAccess a z w f := by
  simp [State.dataAccess]

@[simp] theorem busGap_answer (s : State) (a : Access) : s.busGap.answer a = s.answer a := by
  simp [State.answer]

@[simp] theorem busGaps_answer (s : State) (n : Nat) (a : Access) : (s.busGaps n).answer a = s.answer a := by
  simp [State.answer]

@[simp] theorem busGap_aborts (s : State) (a : Access) : s.busGap.aborts a = s.aborts a := by
  simp [State.aborts]

@[simp] theorem busGaps_aborts (s : State) (n : Nat) (a : Access) : (s.busGaps n).aborts a = s.aborts a := by
  simp [State.aborts]

/-- What the gaps use up of the inputs depends on the inputs alone. -/
theorem busGap_inputs_congr {s t : State} (h : s.inputs = t.inputs) : s.busGap.inputs = t.busGap.inputs := by
  unfold State.busGap State.now
  rw [h]
  split <;> simp_all

theorem busGaps_inputs_congr {s t : State} (h : s.inputs = t.inputs) (n : Nat) :
    (s.busGaps n).inputs = (t.busGaps n).inputs := by
  induction n with
  | zero => exact h
  | succ n ih => exact busGap_inputs_congr ih

theorem aborts_iff {s : State} {a : Access} : s.aborts a = true ↔ s.answer a = some .abort := by
  simp [State.aborts]

/-- A write access is aborted, or a device has taken the value, or memory has changed. -/
theorem writeAccess_some {s t : State} {a : Access} {v : Word} {landed : List Host.Cell}
    (h : s.writeAccess a v landed = some t) :
    s.aborts a = false ∧
      ((s.answer a = none ∧ t = { s with mem := landed }) ∨
        ∃ w, s.answer a = some (.device w) ∧ t = { s with busLog := s.busLog ++ [(a, v)] }) := by
  unfold State.writeAccess at h
  split at h
  · exact nomatch h
  · rename_i w e
    injection h with h
    exact ⟨by simp [State.aborts, e], .inr ⟨w, e, h.symm⟩⟩
  · rename_i e
    injection h with h
    exact ⟨by simp [State.aborts, e], .inl ⟨e, h.symm⟩⟩

theorem writeAccess_none {s : State} {a : Access} {v : Word} {landed : List Host.Cell} :
    s.writeAccess a v landed = none ↔ s.aborts a = true := by
  unfold State.writeAccess State.aborts
  split <;> rename_i e <;> simp [e]

/-- A write access changes memory and the record of device writes alone. -/
theorem writeAccess_eq {s t : State} {a : Access} {v : Word} {landed : List Host.Cell}
    (h : s.writeAccess a v landed = some t) : t = { s with mem := t.mem, busLog := t.busLog } := by
  obtain ⟨-, ⟨-, rfl⟩ | ⟨-, -, rfl⟩⟩ := writeAccess_some h <;> rfl

/-! ## Registers -/

theorem writeBank_some {s : State} {m : Mode} {r : Reg} {v : Word} {p : PReg} (h : physOf m r = some p) :
    s.writeBank m r v = { s with regs := s.regs.set p v } := by
  simp [State.writeBank, h]

theorem writeX_some {s : State} {r : Reg} {v : Word} {p : PReg} (h : physOf s.psr.mode r = some p) :
    s.writeX r v = { s with regs := s.regs.set p v } :=
  writeBank_some h

theorem writeBank_eq (s : State) (m : Mode) (r : Reg) (v : Word) :
    s.writeBank m r v = { s with regs := (s.writeBank m r v).regs } := by
  unfold State.writeBank
  split <;> rfl

theorem writeX_eq (s : State) (r : Reg) (v : Word) : s.writeX r v = { s with regs := (s.writeX r v).regs } :=
  writeBank_eq s s.psr.mode r v

theorem physOf_ne_fifteen {m : Mode} {r : Reg} {p : PReg} (h : physOf m r = some p) : r ≠ 15 := by
  rintro rfl
  simp at h

/-- In one mode, two numbers never name one register (R22). -/
theorem physOf_inj {m : Mode} {r q : Reg} {p : PReg} (hr : physOf m r = some p) (hq : physOf m q = some p) : r = q := by
  have : ∀ m : Mode, ∀ r q : Reg, physOf m r = physOf m q → physOf m r ≠ none → r = q := by
    intro m
    cases m <;> decide
  exact this m r q (hr.trans hq.symm) (by simp [hr])

theorem readX_some {s : State} {who : Config.Draw} {r15 : Word} {r : Reg} {p : PReg}
    (h : physOf s.psr.mode r = some p) (hu : s.unsettled r = false) : s.readX who r15 r = s.regs.get p := by
  simp [State.readX, State.readBank, h, hu]

@[simp] theorem readX_fifteen (s : State) (who : Config.Draw) (r15 : Word) : s.readX who r15 15#4 = r15 := by
  simp [State.readX, State.readBank]

theorem Mode.ofCode_bits (w : Word) :
    Mode.ofCode (w.extractLsb' 0 2) =
      if w.getLsbD 1 then (if w.getLsbD 0 then .svc else .irq) else (if w.getLsbD 0 then .fiq else .usr) := by
  have h : ∀ x : BitVec 2, Mode.ofCode x =
      if x.getLsbD 1 then (if x.getLsbD 0 then .svc else .irq) else (if x.getLsbD 0 then .fiq else .usr) := by decide
  rw [h]
  simp

/-- In User mode I, F and the mode are protected (R36). -/
theorem written_user {p : Psr} (w : Word) (h : p.mode = .usr) :
    (p.written w).i = p.i ∧ (p.written w).f = p.f ∧ (p.written w).mode = .usr := by
  simp [Psr.written, h]

/-! ## Data processing and multiply -/

theorem writeResult_next {st t : State} {s : Bool} {rd : Reg} {result : Word} {flags : Psr}
    (h : st.writeResult s rd result flags = .next t) :
    (rd = 15 ∧ t = if s then st.writePCPSR result else st.writePC result) ∨
      (rd ≠ 15 ∧ st.unsettled rd = false ∧
        t = { (st.writeX rd result).advance with psr := if s then flags else st.psr }) := by
  unfold State.writeResult at h
  split at h
  · rename_i e
    exact .inl ⟨e, by injection h with h; exact h.symm⟩
  · rename_i e
    obtain ⟨hu, h⟩ := guardWrites_next h
    exact .inr ⟨e, hu rd (by simp), by injection h with h; exact h.symm⟩

theorem writeTest_next {st t : State} {rd : Reg} {result : Word} {flags : Psr}
    (h : st.writeTest rd result flags = .next t) :
    (rd = 15 ∧ t = { (st.writePSR result).advance with
        bank := bankAfter st.psr.mode (st.psr.written result).mode }) ∨
      (rd ≠ 15 ∧ t = { st.advance with psr := flags }) := by
  unfold State.writeTest at h
  split at h
  · rename_i e
    exact .inl ⟨e, by injection h with h; exact h.symm⟩
  · rename_i e
    exact .inr ⟨e, by injection h with h; exact h.symm⟩

theorem logical_next {f : Word → Word → Word} {c : Cond} {s : Bool} {rn rd : Reg} {o : Op2} {st t : State}
    (h : logical f c s rn rd o st = .next t) :
    t = st.advance ∨ ∃ result flags, flags = logicalFlags st.psr result (st.secondOperand o).2 ∧
      st.writeResult s rd result flags = .next t := by
  rcases whenPassed_next h with ⟨-, h⟩ | ⟨-, h⟩
  · exact .inr ⟨_, _, rfl, h⟩
  · exact .inl h

theorem arithmetic_next {f : Addends} {c : Cond} {s : Bool} {rn rd : Reg} {o : Op2} {st t : State}
    (h : arithmetic f c s rn rd o st = .next t) :
    t = st.advance ∨ ∃ result a b cin, st.writeResult s rd result (arithmeticFlags st.psr a b cin) = .next t := by
  rcases whenPassed_next h with ⟨-, h⟩ | ⟨-, h⟩
  · exact .inr ⟨_, _, _, _, h⟩
  · exact .inl h

theorem testLogical_next {f : Word → Word → Word} {c : Cond} {rn rd : Reg} {o : Op2} {st t : State}
    (h : testLogical f c rn rd o st = .next t) :
    t = st.advance ∨ ∃ result sc, st.writeTest rd result (logicalFlags st.psr result sc) = .next t := by
  rcases whenPassed_next h with ⟨-, h⟩ | ⟨-, h⟩
  · exact .inr ⟨_, _, h⟩
  · exact .inl h

theorem testArithmetic_next {f : Addends} {c : Cond} {rn rd : Reg} {o : Op2} {st t : State}
    (h : testArithmetic f c rn rd o st = .next t) :
    t = st.advance ∨ ∃ result a b cin, st.writeTest rd result (arithmeticFlags st.psr a b cin) = .next t := by
  rcases whenPassed_next h with ⟨-, h⟩ | ⟨-, h⟩
  · exact .inr ⟨_, _, _, _, h⟩
  · exact .inl h

theorem unallocatedTest_next {c : Cond} {st t : State} (h : unallocatedTest c st = .next t) : t = st.advance := by
  rcases whenPassed_next h with ⟨-, h⟩ | ⟨-, h⟩
  · exact nomatch h
  · exact h

theorem unallocatedMultiply_next {c : Cond} {st t : State} (h : unallocatedMultiply c st = .next t) :
    t = st.advance := by
  rcases whenPassed_next h with ⟨-, h⟩ | ⟨-, h⟩
  · exact nomatch h
  · exact h

theorem writeProduct_next {st t : State} {s : Bool} {rd rm : Reg} {r : Word}
    (h : st.writeProduct s rd rm r = .next t) :
    (rd = 15 ∧ t = { st.advance with psr := if s then freeFlags st.psr st.stamp else st.psr }) ∨
      (rd ≠ 15 ∧ st.unsettled rd = false ∧ ∃ v flags,
        ((rd = rm ∧ flags = multiplyFlagsClash st.psr st.stamp) ∨
          (rd ≠ rm ∧ v = r ∧ flags = multiplyFlags st.psr st.stamp r)) ∧
        t = { (st.writeX rd v).advance with psr := if s then flags else st.psr }) := by
  unfold State.writeProduct at h
  split at h
  · rename_i e
    exact .inl ⟨e, by injection h with h; exact h.symm⟩
  · rename_i e
    obtain ⟨hu, h⟩ := guardWrites_next h
    refine .inr ⟨e, hu rd (by simp), ?_⟩
    injection h with h
    split at h
    · rename_i e'
      exact ⟨_, _, .inl ⟨e', rfl⟩, h.symm⟩
    · rename_i e'
      exact ⟨_, _, .inr ⟨e', rfl, rfl⟩, h.symm⟩

/-! ## Single data transfer -/

theorem finishLoad_next {st t : State} {back : Bool} {rn rd : Reg} {idx v : Word}
    (h : st.finishLoad back rn rd idx v = .next t) :
    st.unsettled rd = false ∧ (back = true → st.unsettled rn = false) ∧
      ((rd = 15 ∧ t = (if back then st.writeX rn idx else st).writePC v) ∨
        (rd ≠ 15 ∧ back = true ∧ rn = rd ∧ ∃ x, (x = v ∨ x = idx) ∧ t = (st.writeX rd x).advance) ∨
        (rd ≠ 15 ∧ (back = true → rn ≠ rd) ∧ t = ((if back then st.writeX rn idx else st).writeX rd v).advance)) := by
  obtain ⟨hu, h⟩ := guardWrites_next h
  injection h with h
  refine ⟨hu rd (by split <;> simp), fun hb => hu rn (by simp [hb]), ?_⟩
  split at h
  · rename_i e
    exact .inl ⟨e, h.symm⟩
  · rename_i e
    split at h
    · rename_i e'
      simp only [Bool.and_eq_true, beq_iff_eq] at e'
      refine .inr (.inl ⟨e, e'.1, e'.2, _, ?_, h.symm⟩)
      split <;> simp
    · rename_i e'
      refine .inr (.inr ⟨e, fun hb hr => e' ?_, h.symm⟩)
      simp [hb, hr]

theorem loadTransfer_next {read : State → Addr → Bool → Option Word} {c : Cond} {p u w : Bool} {rn rd : Reg} {o : Offset}
    {st t : State} (h : loadTransfer read c p u w rn rd o st = .next t) :
    t = st.advance ∨ t = st.raise .addressException ∨ t = st.busGap.raise .dataAbort ∨
      ∃ v, ¬ (rn = 15 ∧ writesBack p w) ∧ illegalAddress (st.transferAddr p u rn o) = false ∧
        read st.busGap (busAddr (st.transferAddr p u rn o)) (forcesTranslation p w) = some v ∧
        st.busGap.finishLoad (writesBack p w) rn rd (st.transferIndex u rn o) v = .next t := by
  rcases whenPassed_next h with ⟨-, h⟩ | ⟨-, h⟩
  · split at h
    · exact nomatch h
    · rename_i hn
      split at h
      · exact .inr (.inl (by injection h with h; exact h.symm))
      · rename_i hl
        split at h
        · exact .inr (.inr (.inl (by injection h with h; exact h.symm)))
        · rename_i v hv
          exact .inr (.inr (.inr ⟨v, hn, by simpa using hl, hv, h⟩))
  · exact .inl h

theorem storeTransfer_next {write : State → Addr → Word → Bool → Option State} {c : Cond} {p u w : Bool} {rn rd : Reg}
    {o : Offset} {st t : State} (h : storeTransfer write c p u w rn rd o st = .next t) :
    t = st.advance ∨ (illegalAddress (st.transferAddr p u rn o) = true ∧ t = st.raise .addressException) ∨
      (illegalAddress (st.transferAddr p u rn o) = false ∧ st.storeAccess write p u w rn rd o = none ∧
        t = st.busGap.raise .dataAbort) ∨
      ∃ m, ¬ (rn = 15 ∧ writesBack p w) ∧ illegalAddress (st.transferAddr p u rn o) = false ∧
        st.storeAccess write p u w rn rd o = some m ∧ (writesBack p w = true → st.unsettled rn = false) ∧
        t = (if writesBack p w then m.writeX rn (st.transferIndex u rn o) else m).advance := by
  rcases whenPassed_next h with ⟨-, h⟩ | ⟨-, h⟩
  · split at h
    · exact nomatch h
    · rename_i hn
      split at h
      · rename_i hl
        exact .inr (.inl ⟨hl, by injection h with h; exact h.symm⟩)
      · rename_i hl
        split at h
        · rename_i hm
          exact .inr (.inr (.inl ⟨by simpa using hl, hm, by injection h with h; exact h.symm⟩))
        · rename_i m hm
          refine .inr (.inr (.inr ⟨m, hn, by simpa using hl, hm, ?_⟩))
          split at h
          · rename_i hb
            obtain ⟨hu, h⟩ := guardWrites_next h
            injection h with h
            exact ⟨fun _ => hu rn (by simp), by simp [hb, h.symm]⟩
          · rename_i hb
            injection h with h
            exact ⟨fun e => absurd e hb, by simp [hb, h.symm]⟩
  · exact .inl h

/-! ## Block and co-processor data transfer -/

theorem loadRegs_eq (st : State) (m : Mode) (l : List (Reg × Word)) :
    st.loadRegs m l = { st with regs := (st.loadRegs m l).regs } := by
  induction l generalizing st with
  | nil => rfl
  | cons e l ih =>
    rw [State.loadRegs, ih]
    rw [writeBank_eq]

/-- A register that no entry of the list names keeps its value. -/
theorem loadRegs_get_other {st : State} {m : Mode} {l : List (Reg × Word)} {q : PReg}
    (h : ∀ e ∈ l, physOf m e.1 ≠ some q) : (st.loadRegs m l).regs.get q = st.regs.get q := by
  induction l generalizing st with
  | nil => rfl
  | cons e l ih =>
    rw [State.loadRegs, ih fun e' he => h e' (List.mem_cons_of_mem _ he), writeBank_get]
    simp [h e (List.mem_cons_self ..)]

/-- A register that the list names once takes the value beside it. -/
theorem loadRegs_get {st : State} {m : Mode} {l : List (Reg × Word)} {r : Reg} {v : Word} {q : PReg}
    (h : (r, v) ∈ l) (hd : l.Pairwise fun a b => a.1 ≠ b.1) (hq : physOf m r = some q) :
    (st.loadRegs m l).regs.get q = v := by
  induction l generalizing st with
  | nil => simp at h
  | cons e l ih =>
    rw [State.loadRegs]
    rw [List.pairwise_cons] at hd
    rcases List.mem_cons.mp h with rfl | h
    · rw [loadRegs_get_other, writeBank_get]
      · simp [hq]
      · intro e' he' hc
        exact hd.1 e' he' (physOf_inj hq hc)
    · exact ih h hd.2

/-- Block stores change memory, the inputs used up and the record of device writes alone. -/
theorem storeWords_eq (st : State) (start : Word) (k : Nat) (l : List Word) :
    (st.storeWords start k l).1 =
      { st with
        mem := (st.storeWords start k l).1.mem
        inputs := (st.busGaps l.length).inputs
        busLog := (st.storeWords start k l).1.busLog } := by
  induction l generalizing st k with
  | nil => rfl
  | cons v l ih =>
    rw [List.length_cons, ← busGaps_busGap]
    unfold State.storeWords
    split
    · rename_i t h
      have ht := writeAccess_eq h
      rw [ih, busGaps_inputs_congr (show t.inputs = st.busGap.inputs by rw [ht]) l.length, ht, busGap_eq]
    · rw [ih, busGap_eq]

theorem memoryWf_writeAccess {s t : State} {a : Access} {v : Word} {landed : List Host.Cell}
    (h : s.writeAccess a v landed = some t) (hm : memoryWf s.mem = true) (hl : memoryWf landed = true) :
    memoryWf t.mem = true := by
  obtain ⟨-, ⟨-, rfl⟩ | ⟨-, -, rfl⟩⟩ := writeAccess_some h
  · exact hl
  · exact hm

theorem memoryWf_storeWords {st : State} (start : Word) (k : Nat) (l : List Word) (h : memoryWf st.mem = true) :
    memoryWf (st.storeWords start k l).1.mem = true := by
  induction l generalizing st k with
  | nil => exact h
  | cons v l ih =>
    have hb := memoryWf_busGap h
    unfold State.storeWords
    split
    · rename_i t e
      exact ih _ (memoryWf_writeAccess e hb (memoryWf_writeWord _ _ hb))
    · exact ih _ hb

theorem blockBack_eq (st : State) (u w : Bool) (rn : Reg) (list : BitVec 16) :
    st.blockBack u w rn list = { st with regs := (st.blockBack u w rn list).regs } := by
  unfold State.blockBack
  split
  · exact writeX_eq ..
  · rfl

theorem coBack_eq (st : State) (u w : Bool) (rn : Reg) (off : BitVec 8) :
    st.coBack u w rn off = { st with regs := (st.coBack u w rn off).regs } := by
  unfold State.coBack
  split
  · exact writeX_eq ..
  · rfl

/-- LDM: the condition fails; or the base is written back and then an address exception, an abort after some loads, or all
of the list. What is loaded is in the list. -/
theorem execLdm_next {c : Cond} {p u s w : Bool} {rn : Reg} {list : BitVec 16} {st t : State}
    (h : execLdm c p u s w rn list st = .next t) :
    t = st.advance ∨ (list ≠ 0 ∧ (st.loadsUserBank s list && w) = false ∧ ∃ m,
      m = (if st.loadsUserBank s list then .usr else st.psr.mode) ∧
      (t = (st.blockBack u w rn list).raise .addressException ∨
        ∃ l : List (Reg × Word), (∀ e ∈ l, e.1 ∈ listed list ∧ st.unsettled e.1 = false) ∧
          let v := ((st.blockBack u w rn list).busGaps (listed list).length).loadRegs m l
          (t = v.raise .dataAbort ∨ t = v.finishLdm s (st.loadsUserBank s list) l))) := by
  rcases whenPassed_next h with ⟨-, h⟩ | ⟨-, h⟩
  · split at h
    · exact nomatch h
    · rename_i hl
      split at h
      · exact nomatch h
      · rename_i hw
        refine .inr ⟨hl, by simpa using hw, _, rfl, ?_⟩
        obtain ⟨-, h⟩ := guardWrites_next h
        generalize (if st.loadsUserBank s list then Mode.usr else st.psr.mode) = m at h ⊢
        split at h
        · exact .inl (by injection h with h; exact h.symm)
        · dsimp only at h
          split at h
          · obtain ⟨hu, h⟩ := guardWrites_next h
            injection h with h
            refine .inr ⟨_, fun e he => ⟨?_, hu _ (List.mem_map.mpr ⟨e, he, rfl⟩)⟩, .inl h.symm⟩
            exact (List.of_mem_zip (List.mem_of_mem_take (List.mem_filter.mp he).1)).1
          · obtain ⟨hu, h⟩ := guardWrites_next h
            injection h with h
            exact .inr ⟨_, fun e he => ⟨(List.of_mem_zip he).1, hu _ (List.of_mem_zip he).1⟩, .inr h.symm⟩
  · exact .inl h

/-- STM: the condition fails; or the base is written back and then an address exception, or the stores, with an abort or
without. -/
theorem execStm_next {c : Cond} {p u s w : Bool} {rn : Reg} {list : BitVec 16} {st t : State}
    (h : execStm c p u s w rn list st = .next t) :
    t = st.advance ∨
      (illegalAddress (st.blockFirst p u rn list) = true ∧ t = (st.blockBack u w rn list).raise .addressException) ∨
      (illegalAddress (st.blockFirst p u rn list) = false ∧
        let r := st.stmStores p u s w rn list
        t = if r.2 then r.1.raise .dataAbort else r.1.advance) := by
  rcases whenPassed_next h with ⟨-, h⟩ | ⟨-, h⟩
  · split at h
    · exact nomatch h
    · split at h
      · exact nomatch h
      · obtain ⟨-, h⟩ := guardWrites_next h
        split at h
        · rename_i hl
          exact .inr (.inl ⟨hl, by injection h with h; exact h.symm⟩)
        · rename_i hl
          exact .inr (.inr ⟨by simpa using hl, by injection h with h; exact h.symm⟩)
  · exact .inl h

/-- LDC: the condition fails, no co-processor takes it, one is busy; or the base is written back and then an address
exception, or the reads, with an abort or without. -/
theorem execLdc_next {c : Cond} {p u n w : Bool} {rn crd cp : Reg} {off : BitVec 8} {st t : State}
    (h : execLdc c p u n w rn crd cp off st = .next t) :
    let word := cdtWord c p u n w true rn crd cp off
    t = st.advance ∨ (st.reply (some cp) word = .absent ∧ t = st.raise .undefined) ∨
      (st.reply (some cp) word = .busy ∧ t = { st with busyWait := true }) ∨
      ∃ first rest, st.reply (some cp) word = .ready first rest ∧ (t = ((st.coBack u w rn off).accepted word []).raise .addressException ∨
        ∃ k sent, let v := ((st.coBack u w rn off).busGaps k).accepted word sent
          t = v.raise .dataAbort ∨ t = v.advance) := by
  rcases whenPassed_next h with ⟨-, h⟩ | ⟨-, h⟩
  · rcases offer_next h with h | h | ⟨first, rest, hr, h⟩
    · exact .inr (.inl h)
    · exact .inr (.inr (.inl h))
    · split at h
      · exact nomatch h
      · obtain ⟨-, h⟩ := guardWrites_next h
        injection h with h
        refine .inr (.inr (.inr ⟨first, rest, hr, ?_⟩))
        split at h
        · exact .inl h.symm
        · dsimp only at h
          split at h
          · exact .inr ⟨_, _, .inl h.symm⟩
          · exact .inr ⟨_, _, .inr h.symm⟩
  · exact .inl h

/-- STC, as LDC, with the stores. -/
theorem execStc_next {c : Cond} {p u n w : Bool} {rn crd cp : Reg} {off : BitVec 8} {st t : State}
    (h : execStc c p u n w rn crd cp off st = .next t) :
    let word := cdtWord c p u n w false rn crd cp off
    t = st.advance ∨ (st.reply (some cp) word = .absent ∧ t = st.raise .undefined) ∨
      (st.reply (some cp) word = .busy ∧ t = { st with busyWait := true }) ∨
      ∃ first rest, st.reply (some cp) word = .ready first rest ∧
        ((illegalAddress (st.coAddr p u rn off) = true ∧
            t = ((st.coBack u w rn off).accepted word []).raise .addressException) ∨
          (illegalAddress (st.coAddr p u rn off) = false ∧
            let r := ((st.coBack u w rn off).accepted word []).storeWords (st.coAddr p u rn off) 0 (first :: rest)
            t = if r.2 then r.1.raise .dataAbort else r.1.advance)) := by
  rcases whenPassed_next h with ⟨-, h⟩ | ⟨-, h⟩
  · rcases offer_next h with h | h | ⟨first, rest, hr, h⟩
    · exact .inr (.inl h)
    · exact .inr (.inr (.inl h))
    · split at h
      · exact nomatch h
      · obtain ⟨-, h⟩ := guardWrites_next h
        injection h with h
        refine .inr (.inr (.inr ⟨first, rest, hr, ?_⟩))
        split at h
        · rename_i hl
          exact .inl ⟨hl, h.symm⟩
        · rename_i hl
          exact .inr ⟨by simpa using hl, h.symm⟩
  · exact .inl h

/-! ## The step -/

/-- What is at the head of the pipeline: a prefetch abort, or an instruction that the machine gives a meaning. -/
theorem runFetched_next {s t : State} (h : s.runFetched = .next t) :
    (s.fetched.invalid = true ∧ t = s.raise .prefetchAbort) ∨
      (s.fetched.invalid = false ∧ s.admits s.fetched.word = true ∧ exec (decodeWord s.fetched.word) s = .next t) := by
  unfold State.runFetched at h
  split at h
  · rename_i e
    exact .inl ⟨e, by injection h with h; exact h.symm⟩
  · rename_i e
    split at h
    · rename_i ha
      exact .inr ⟨by simpa using e, ha, h⟩
    · exact nomatch h

/-- With `admitReconstructed` every instruction has a meaning. -/
theorem admits_all {s : State} (h : s.params.admitReconstructed = true) (w : Word) : s.admits w = true := by
  simp [State.admits, h]

/-- A step: the reset sequence, an interrupt, or the instruction at the head of the pipeline. -/
theorem boundary_next {s t : State} (h : s.boundary = .next t) :
    (s.now.reset = true ∧ t = s.sample.holdInReset.retire) ∨
      (s.now.reset = false ∧ s.resetHigh = true ∧ t = s.sample.resetEntry.retire) ∨
      (s.now.reset = false ∧ s.resetHigh = false ∧
        ((∃ e, (e = .fiq ∨ e = .irq) ∧ t = (s.sample.raise e).retire) ∨
          ∃ u, s.sample.fillPipe.runFetched = .next u ∧ t = u.retire.snoop s.sample.fillPipe)) := by
  unfold State.boundary at h
  split at h
  · rename_i hr
    exact .inl ⟨hr, by injection h with h; exact h.symm⟩
  · rename_i hr
    simp only [Bool.not_eq_true] at hr
    split at h
    · rename_i hh
      exact .inr (.inl ⟨hr, hh, by injection h with h; exact h.symm⟩)
    · rename_i hh
      refine .inr (.inr ⟨hr, by simpa using hh, ?_⟩)
      split at h
      · exact .inl ⟨_, .inl rfl, by injection h with h; exact h.symm⟩
      · split at h
        · exact .inl ⟨_, .inr rfl, by injection h with h; exact h.symm⟩
        · dsimp only at h
          cases hx : s.sample.fillPipe.runFetched with
          | next u =>
            rw [hx] at h
            exact .inr ⟨u, rfl, by injection h with h; exact h.symm⟩
          | fault e => exact nomatch e
          | refused e =>
            rw [hx] at h
            exact nomatch h

end Sys2Proof.Machine
end

