-- ==== Sys2Proof/Laws/Block.lean ====
section
/-! SUPPORT. Transfers of consecutive words: where the words lie, what a run of stores leaves in memory, what a run of
reads gives. -/

namespace Sys2Proof.Machine

/-- The address of the `k`-th word of a transfer: `4 k` on from the start, modulo 2^26. -/
theorem blockAddr_toNat (start : Word) (k : Nat) : (blockAddr start k).toNat = (start.toNat + 4 * k) % 2 ^ 26 := by
  rw [blockAddr, busAddr, BitVec.toNat_setWidth, BitVec.toNat_add, BitVec.toNat_ofNat]
  omega

/-- Fewer than 2^24 consecutive words lie in different places. -/
theorem blockAddr_inj {start : Word} {j k : Nat} (hj : j < k + 2 ^ 24) (hk : k < j + 2 ^ 24)
    (h : (blockAddr start j).toNat / 4 = (blockAddr start k).toNat / 4) : j = k := by
  rw [blockAddr_toNat, blockAddr_toNat] at h
  omega

/-- Reading a word of memory that differs elsewhere only. -/
theorem readWord_congr {m m' : List Host.Cell} {a : Addr}
    (h : ∀ x, x / 4 = a.toNat / 4 → readByte m x = readByte m' x) : readWord m a = readWord m' a := by
  unfold readWord wordBase
  rw [h _ (by omega), h _ (by omega), h _ (by omega), h _ (by omega)]

/-! ## What other masters write between the accesses -/

theorem busGap_between (s : State) : s.busGap.now.between = s.now.between.tail := by
  unfold State.busGap
  split
  · rename_i e
    simp [e]
  · rename_i l rest e
    rw [e]
    rfl

theorem busGap_mem (s : State) : s.busGap.mem = masterWrites s.mem (s.now.between.headD []) := by
  unfold State.busGap
  split
  · rename_i e
    simp [e, masterWrites]
  · rename_i l rest e
    simp [e]

/-! ## A run of stores -/

theorem writeAccess_between {s t : State} {a : Access} {v : Word} {landed : List Host.Cell}
    (h : s.writeAccess a v landed = some t) : t.now.between = s.now.between := by
  rw [writeAccess_eq h]
  rfl

/-- Everything a run of stores does to memory, access by access: what other masters write first is written, then the word
where memory answers. -/
theorem storeWords_mem (st : State) (start : Word) (k : Nat) (l : List Word) :
    ∃ m : Nat → List Host.Cell, m 0 = st.mem ∧ m l.length = (st.storeWords start k l).1.mem ∧
      ∀ i v, l[i]? = some v →
        m (i + 1) =
          if st.answer (st.dataAccess (blockAddr start (k + i)) .word true false) = none then
            writeWord (masterWrites (m i) (st.now.between[i]?.getD [])) (blockAddr start (k + i)) v
          else masterWrites (m i) (st.now.between[i]?.getD []) := by
  induction l generalizing st k with
  | nil => exact ⟨fun _ => st.mem, rfl, rfl, fun i v h => by simp at h⟩
  | cons u l ih =>
    have head : ∀ t : State, t.now.between = st.now.between.tail →
        (t.answer = st.answer) → (t.dataAccess = st.dataAccess) →
        t.mem = (if st.answer (st.dataAccess (blockAddr start k) .word true false) = none then
            writeWord st.busGap.mem (blockAddr start k) u else st.busGap.mem) →
        ∃ m : Nat → List Host.Cell, m 0 = st.mem ∧ m (l.length + 1) = (t.storeWords start (k + 1) l).1.mem ∧
          ∀ i v, (u :: l)[i]? = some v →
            m (i + 1) =
              if st.answer (st.dataAccess (blockAddr start (k + i)) .word true false) = none then
                writeWord (masterWrites (m i) (st.now.between[i]?.getD [])) (blockAddr start (k + i)) v
              else masterWrites (m i) (st.now.between[i]?.getD []) := by
      intro t hb ha hd hm
      obtain ⟨m, h0, hl, hs⟩ := ih t (k + 1)
      refine ⟨fun i => match i with
        | 0 => st.mem
        | i + 1 => m i, rfl, hl, fun i v hv => ?_⟩
      cases i with
      | zero =>
        simp only [List.getElem?_cons_zero, Option.some.injEq] at hv
        subst hv
        have hg : masterWrites st.mem (st.now.between[0]?.getD []) = st.busGap.mem := by
          rw [busGap_mem]
          cases st.now.between <;> rfl
        show m 0 = _
        rw [h0, hm, Nat.add_zero, hg]
      | succ i =>
        have := hs i v (by simpa using hv)
        rw [ha, hd, hb] at this
        show m (i + 1) = _
        rw [this, show k + 1 + i = k + (i + 1) by omega, List.getElem?_tail]
    rw [List.length_cons]
    unfold State.storeWords
    split
    · rename_i t e
      have hw := writeAccess_eq e
      refine head t ((writeAccess_between e).trans (busGap_between st)) ?_ ?_ ?_
      · funext a
        rw [hw]
        exact busGap_answer st a
      · funext a z w f
        rw [hw]
        exact busGap_dataAccess st a z w f
      · obtain ⟨-, ⟨hn, rfl⟩ | ⟨w, hn, rfl⟩⟩ := writeAccess_some e <;> simp at hn <;> simp [hn]
    · rename_i e
      have e := aborts_iff.mp (writeAccess_none.mp e)
      simp only [busGap_answer, busGap_dataAccess] at e
      refine head st.busGap (busGap_between st) ?_ ?_ ?_
      · funext a
        exact busGap_answer st a
      · funext a z w f
        exact busGap_dataAccess st a z w f
      · simp [e]

/-- Bytes outside the words of a run of stores keep their values, where no other master writes. -/
theorem storeWords_other {st : State} {start : Word} {k : Nat} {l : List Word} {x : Nat} (hb : st.now.between = [])
    (h : ∀ j, j < l.length → x / 4 ≠ (blockAddr start (k + j)).toNat / 4) :
    readByte (st.storeWords start k l).1.mem x = readByte st.mem x := by
  obtain ⟨m, h0, hl, hs⟩ := storeWords_mem st start k l
  rw [← hl, ← h0]
  suffices H : ∀ n, n ≤ l.length → readByte (m n) x = readByte (m 0) x from H _ (Nat.le_refl _)
  intro n hn
  induction n with
  | zero => rfl
  | succ n ih =>
    have := hs n l[n] (by simp [Nat.lt_of_succ_le hn])
    rw [this]
    simp only [hb, List.getElem?_nil, Option.getD_none, masterWrites, List.foldl_nil]
    split
    · rw [readByte_writeWord_other]
      · exact ih (by omega)
      · have := h n (by omega)
        unfold wordBase
        omega
    · exact ih (by omega)

/-- What a run of stores leaves in each of its words where no other master writes: the value where memory answered, what was
there otherwise. -/
theorem storeWords_get {st : State} {start : Word} {k : Nat} {l : List Word} (hb : st.now.between = [])
    (hm : memoryWf st.mem = true) (hl : l.length < 2 ^ 24) {i : Nat} {v : Word} (hi : l[i]? = some v) :
    readWord (st.storeWords start k l).1.mem (blockAddr start (k + i)) =
      if st.answer (st.dataAccess (blockAddr start (k + i)) .word true false) = none then v
      else readWord st.mem (blockAddr start (k + i)) := by
  obtain ⟨m, h0, hn, hs⟩ := storeWords_mem st start k l
  have hlt : i < l.length := (List.getElem?_eq_some_iff.mp hi).1
  have gap : ∀ n, masterWrites (m n) (st.now.between[n]?.getD []) = m n := fun n => by simp [hb, masterWrites]
  have wf : ∀ n, n ≤ l.length → memoryWf (m n) = true := by
    intro n hle
    induction n with
    | zero => rw [h0]; exact hm
    | succ n ih =>
      rw [hs n l[n] (by simp [Nat.lt_of_succ_le hle]), gap]
      split
      · exact memoryWf_writeWord _ _ (ih (by omega))
      · exact ih (by omega)
  have other : ∀ n, n < l.length → n ≠ i →
      readWord (m (n + 1)) (blockAddr start (k + i)) = readWord (m n) (blockAddr start (k + i)) := by
    intro n hn' hne
    rw [hs n l[n] (by simp [hn']), gap]
    split
    · refine readWord_congr fun x hx => readByte_writeWord_other _ _ _ ?_
      have : x / 4 ≠ (blockAddr start (k + n)).toNat / 4 := fun hc => by
        have := blockAddr_inj (start := start) (j := k + i) (k := k + n) (by omega) (by omega) (hx.symm.trans hc)
        omega
      unfold wordBase
      omega
    · rfl
  have before : ∀ n, n ≤ i → readWord (m n) (blockAddr start (k + i)) = readWord st.mem (blockAddr start (k + i)) := by
    intro n hle
    induction n with
    | zero => rw [h0]
    | succ n ih => rw [other n (by omega) (by omega)]; exact ih (by omega)
  have after : ∀ n, i < n → n ≤ l.length → readWord (m n) (blockAddr start (k + i)) =
      if st.answer (st.dataAccess (blockAddr start (k + i)) .word true false) = none then v
      else readWord st.mem (blockAddr start (k + i)) := by
    intro n
    induction n with
    | zero => intro h _; omega
    | succ n ih =>
      intro h hle
      by_cases e : n = i
      · subst e
        rw [hs n v hi, gap]
        split
        · exact readWord_writeWord (wf _ (by omega)) _ _
        · exact before n (Nat.le_refl _)
      · rw [other n (by omega) e]
        exact ih (by omega) (by omega)
  rw [← hn]
  exact after _ hlt (Nat.le_refl _)

/-- A run of stores reports an abort when one of its accesses was aborted. -/
theorem storeWords_aborted (st : State) (start : Word) (k : Nat) (l : List Word) :
    (st.storeWords start k l).2 =
      (List.range l.length).any fun i => st.aborts (st.dataAccess (blockAddr start (k + i)) .word true false) := by
  induction l generalizing st k with
  | nil => rfl
  | cons v l ih =>
    rw [List.length_cons, List.range_succ_eq_map, List.any_cons, List.any_map]
    have hf : ((fun i => st.aborts (st.dataAccess (blockAddr start (k + i)) .word true false)) ∘ Nat.succ) =
        fun i => st.aborts (st.dataAccess (blockAddr start (k + 1 + i)) .word true false) := by
      funext i
      simp only [Function.comp]
      rw [show k + i.succ = k + 1 + i by omega]
    rw [hf, Nat.add_zero]
    unfold State.storeWords
    split
    · rename_i t e
      have hw := writeAccess_eq e
      obtain ⟨ha, -⟩ := writeAccess_some e
      simp only [busGap_aborts, busGap_dataAccess] at ha
      rw [ih, ha, Bool.false_or]
      congr 1
      funext i
      rw [hw]
      exact congrArg _ (busGap_dataAccess st ..) |>.trans (busGap_aborts st _)
    · rename_i e
      have e := writeAccess_none.mp e
      simp only [busGap_aborts, busGap_dataAccess] at e
      simp [e]

/-- The writes that devices take in a run of stores, in order. -/
theorem storeWords_busLog (st : State) (start : Word) (k : Nat) (l : List Word) :
    (st.storeWords start k l).1.busLog = st.busLog ++ (l.zipIdx k).filterMap fun e =>
      let a := st.dataAccess (blockAddr start e.2) .word true false
      match st.answer a with
      | some (.device _) => some (a, e.1)
      | _ => none := by
  induction l generalizing st k with
  | nil => simp [State.storeWords]
  | cons v l ih =>
    rw [List.zipIdx_cons, List.filterMap_cons]
    unfold State.storeWords
    split
    · rename_i t e
      have hw := writeAccess_eq e
      have hd : ∀ a, t.dataAccess a .word true false = st.dataAccess a .word true false := fun a => by
        rw [hw]
        exact busGap_dataAccess st ..
      have ha : ∀ a, t.answer a = st.answer a := fun a => by
        rw [hw]
        exact busGap_answer st a
      rw [ih]
      simp only [hd, ha]
      obtain ⟨-, ⟨hn, rfl⟩ | ⟨w, hn, rfl⟩⟩ := writeAccess_some e <;>
        simp only [busGap_answer, busGap_dataAccess] at hn <;> simp [hn]
    · rename_i e
      have e := aborts_iff.mp (writeAccess_none.mp e)
      simp only [busGap_answer, busGap_dataAccess] at e
      rw [ih]
      simp [e]

/-! ## A run of reads -/

/-- The reads of a run, each the word on the bus or none. -/
theorem blockReads_get (st : State) (start : Word) {n k : Nat} (h : k < n) :
    (st.blockReads start n)[k]? = some
      (if st.aborts (st.dataAccess (blockAddr start k) .word false false) then none
        else some ((st.busGaps (k + 1)).busWord (st.dataAccess (blockAddr start k) .word false false))) := by
  simp [State.blockReads, h, State.loadWord]

/-! ## The register list -/

/-- The listed registers rise, so that each is listed once. -/
theorem listed_rising (list : BitVec 16) : (listed list).Pairwise fun r q => r.toNat < q.toNat := by
  unfold listed
  rw [List.pairwise_map]
  have : (List.range 16).Pairwise fun a b => a < b ∧ b < 16 := by decide
  refine (List.Pairwise.filter _ this).imp ?_
  rintro a b ⟨h1, h2⟩
  simp only [BitVec.toNat_ofNat]
  omega

theorem mem_listed {list : BitVec 16} {r : Reg} : r ∈ listed list ↔ list.getLsbD r.toNat = true := by
  unfold listed
  simp only [List.mem_map, List.mem_filter, List.mem_range]
  constructor
  · rintro ⟨i, ⟨hi, hl⟩, rfl⟩
    simpa [Nat.mod_eq_of_lt hi] using hl
  · intro h
    exact ⟨r.toNat, ⟨r.isLt, h⟩, by simp⟩

theorem listed_length_le (list : BitVec 16) : (listed list).length ≤ 16 := by
  unfold listed
  rw [List.length_map]
  exact Nat.le_trans (List.length_filter_le _ _) (by simp)

theorem listed_ne_nil {list : BitVec 16} (h : list ≠ 0) : listed list ≠ [] := by
  intro e
  refine h (BitVec.eq_of_getLsbD_eq fun i hi => ?_)
  have : (BitVec.ofNat 4 i) ∉ listed list := by simp [e]
  rw [mem_listed] at this
  simpa [Nat.mod_eq_of_lt hi] using this

end Sys2Proof.Machine
end

