-- ==== Sys2Proof/Laws/Decode.lean ====
section
/-! SUPPORT. Decoding each format's word: the fields of spec/30_encoding.md come back as they were put in. -/

namespace Sys2Proof

theorem Cond.ofCode_code (c : Cond) : Cond.ofCode c.code = c := by cases c <;> rfl

theorem ShiftType.ofCode_code (t : ShiftType) : ShiftType.ofCode t.code = t := by cases t <;> rfl

theorem ImmShift.ofFields_amount {sh : ImmShift} (h : sh.wf = true) : ImmShift.ofFields sh.amount sh.type = sh := by
  cases sh <;> simp only [ImmShift.wf, Bool.and_eq_true, decide_eq_true_eq] at h <;>
    simp only [ImmShift.ofFields, ImmShift.amount, ImmShift.type, BitVec.toNat_ofNat]
  case lsl n => rw [Nat.mod_eq_of_lt (by omega)]
  case ror n =>
    rw [if_neg, Nat.mod_eq_of_lt (by omega)]
    intro e
    have := congrArg BitVec.toNat e
    simp at this
    omega
  case rrx => rfl
  all_goals
    rename_i n
    by_cases e : n = 32
    · subst e; rfl
    · rw [if_neg, Nat.mod_eq_of_lt (by omega)]
      intro e'
      have := congrArg BitVec.toNat e'
      simp at this
      omega

/-! ## Fields of a concatenation -/

theorem field_high {v w : Nat} (x : BitVec v) (y : BitVec w) (k n : Nat) (h : w ≤ k) :
    (x ++ y).extractLsb' k n = x.extractLsb' (k - w) n := by
  ext i hi
  simp only [BitVec.getElem_extractLsb', BitVec.getLsbD_append]
  rw [if_neg (by omega)]
  congr 1
  omega

theorem field_low {v w : Nat} (x : BitVec v) (y : BitVec w) (k n : Nat) (h : k + n ≤ w) :
    (x ++ y).extractLsb' k n = y.extractLsb' k n := by
  ext i hi
  simp only [BitVec.getElem_extractLsb', BitVec.getLsbD_append]
  rw [if_pos (by omega)]

theorem field_all {n : Nat} (x : BitVec n) : x.extractLsb' 0 n = x := by
  ext i hi
  simp

theorem bit_high {v w : Nat} (x : BitVec v) (y : BitVec w) (k : Nat) (h : w ≤ k) :
    (x ++ y).getLsbD k = x.getLsbD (k - w) := by
  rw [BitVec.getLsbD_append, if_neg (by omega)]

theorem bit_low {v w : Nat} (x : BitVec v) (y : BitVec w) (k : Nat) (h : k < w) : (x ++ y).getLsbD k = y.getLsbD k := by
  rw [BitVec.getLsbD_append, if_pos h]

theorem bit_ofBool (b : Bool) : (BitVec.ofBool b).getLsbD 0 = b := by cases b <;> rfl

/-! ## The formats -/

theorem decode_dpImmWord (c : Cond) (op : BitVec 4) (s : Bool) (rn rd : Reg) (o : RotImm) :
    decodeWord (dpImmWord c op s rn rd o) = dpImmOf op c s rn rd o := by
  have F : ∀ k m, (dpImmWord c op s rn rd o).extractLsb' k m =
      (c.code ++ 1#3 ++ op ++ BitVec.ofBool s ++ rn ++ rd ++ o.rot ++ o.imm8).extractLsb' k m :=
    fun _ _ => rfl
  have B : ∀ k, (dpImmWord c op s rn rd o).getLsbD k =
      (c.code ++ 1#3 ++ op ++ BitVec.ofBool s ++ rn ++ rd ++ o.rot ++ o.imm8).getLsbD k :=
    fun _ => rfl
  simp (disch := decide) only [decodeWord, decodeData, F, B, field_high, field_low, field_all,
    bit_high, bit_low, bit_ofBool, Nat.reduceSub, Cond.ofCode_code, BitVec.reduceGetLsb, if_true]

theorem decode_dpShiftWord (c : Cond) (op : BitVec 4) (s : Bool) (rn rd : Reg) (o : ShiftedReg)
    (h : o.shift.wf = true) :
    decodeWord (dpShiftWord c op s rn rd o) = dpShiftOf op c s rn rd o := by
  have F : ∀ k m, (dpShiftWord c op s rn rd o).extractLsb' k m =
      (c.code ++ 0#3 ++ op ++ BitVec.ofBool s ++ rn ++ rd ++ o.shift.amount ++ o.shift.type.code ++
        0#1 ++ o.rm).extractLsb' k m :=
    fun _ _ => rfl
  have B : ∀ k, (dpShiftWord c op s rn rd o).getLsbD k =
      (c.code ++ 0#3 ++ op ++ BitVec.ofBool s ++ rn ++ rd ++ o.shift.amount ++ o.shift.type.code ++
        0#1 ++ o.rm).getLsbD k :=
    fun _ => rfl
  simp (disch := decide) only [decodeWord, decodeData, F, B, field_high, field_low, field_all,
    bit_high, bit_low, bit_ofBool, Nat.reduceSub, Cond.ofCode_code, BitVec.reduceGetLsb, Bool.not_false, if_true,
    Bool.false_eq_true, if_false, shiftedRegOf, ShiftType.ofCode_code, ImmShift.ofFields_amount h]

theorem decode_dpRegShiftWord (c : Cond) (op : BitVec 4) (s : Bool) (rn rd : Reg) (o : RegShifted) :
    decodeWord (dpRegShiftWord c op s rn rd o) = dpRegShiftOf op c s rn rd o := by
  have F : ∀ k m, (dpRegShiftWord c op s rn rd o).extractLsb' k m =
      (c.code ++ 0#3 ++ op ++ BitVec.ofBool s ++ rn ++ rd ++ o.rs ++ 0#1 ++ o.type.code ++ 1#1 ++
        o.rm).extractLsb' k m :=
    fun _ _ => rfl
  have B : ∀ k, (dpRegShiftWord c op s rn rd o).getLsbD k =
      (c.code ++ 0#3 ++ op ++ BitVec.ofBool s ++ rn ++ rd ++ o.rs ++ 0#1 ++ o.type.code ++ 1#1 ++
        o.rm).getLsbD k :=
    fun _ => rfl
  simp (disch := decide) only [decodeWord, decodeData, F, B, field_high, field_low, field_all,
    bit_high, bit_low, bit_ofBool, Nat.reduceSub, Cond.ofCode_code, BitVec.reduceGetLsb, Bool.not_true, Bool.not_false, if_true,
    Bool.false_eq_true, if_false, ShiftType.ofCode_code]

theorem decode_mulWord (c : Cond) (a s : Bool) (rd rn rs rm : Reg) :
    decodeWord (mulWord c a s rd rn rs rm) = if a then Instr.mla c s rd rn rs rm else .mul c s rd rn rs rm := by
  have F : ∀ k m, (mulWord c a s rd rn rs rm).extractLsb' k m =
      (c.code ++ 0#6 ++ BitVec.ofBool a ++ BitVec.ofBool s ++ rd ++ rn ++ rs ++ 9#4 ++ rm).extractLsb' k m :=
    fun _ _ => rfl
  have B : ∀ k, (mulWord c a s rd rn rs rm).getLsbD k =
      (c.code ++ 0#6 ++ BitVec.ofBool a ++ BitVec.ofBool s ++ rd ++ rn ++ rs ++ 9#4 ++ rm).getLsbD k :=
    fun _ => rfl
  simp (disch := decide) only [decodeWord, decodeData, decodeMultiply, F, B, field_high, field_low, field_all,
    bit_high, bit_low, bit_ofBool, Nat.reduceSub, Cond.ofCode_code, BitVec.reduceGetLsb, Bool.not_true,
    Bool.false_eq_true, if_false, BitVec.reduceExtractLsb']

theorem decode_unallocBWord (c : Cond) (x : BitVec 16) (y : BitVec 4) :
    decodeWord (unallocWord65 c x 0b1011#4 y) = .unallocB c x y := by
  have F : ∀ k m, (unallocWord65 c x 0b1011#4 y).extractLsb' k m =
      (c.code ++ 0#4 ++ x ++ 11#4 ++ y).extractLsb' k m :=
    fun _ _ => rfl
  have B : ∀ k, (unallocWord65 c x 0b1011#4 y).getLsbD k =
      (c.code ++ 0#4 ++ x ++ 11#4 ++ y).getLsbD k :=
    fun _ => rfl
  simp (disch := decide) only [decodeWord, decodeData, decodeMultiply, F, B, field_high, field_low, field_all,
    bit_high, bit_low, Nat.reduceSub, Cond.ofCode_code, BitVec.reduceGetLsb, Bool.not_true,
    Bool.false_eq_true, if_false, BitVec.reduceExtractLsb']

theorem decode_unallocDWord (c : Cond) (x : BitVec 16) (y : BitVec 4) :
    decodeWord (unallocWord65 c x 0b1101#4 y) = .unallocD c x y := by
  have F : ∀ k m, (unallocWord65 c x 0b1101#4 y).extractLsb' k m =
      (c.code ++ 0#4 ++ x ++ 13#4 ++ y).extractLsb' k m :=
    fun _ _ => rfl
  have B : ∀ k, (unallocWord65 c x 0b1101#4 y).getLsbD k =
      (c.code ++ 0#4 ++ x ++ 13#4 ++ y).getLsbD k :=
    fun _ => rfl
  simp (disch := decide) only [decodeWord, decodeData, decodeMultiply, F, B, field_high, field_low, field_all,
    bit_high, bit_low, Nat.reduceSub, Cond.ofCode_code, BitVec.reduceGetLsb, Bool.not_true,
    Bool.false_eq_true, if_false, BitVec.reduceExtractLsb']

theorem decode_unallocFWord (c : Cond) (x : BitVec 16) (y : BitVec 4) :
    decodeWord (unallocWord65 c x 0b1111#4 y) = .unallocF c x y := by
  have F : ∀ k m, (unallocWord65 c x 0b1111#4 y).extractLsb' k m =
      (c.code ++ 0#4 ++ x ++ 15#4 ++ y).extractLsb' k m :=
    fun _ _ => rfl
  have B : ∀ k, (unallocWord65 c x 0b1111#4 y).getLsbD k =
      (c.code ++ 0#4 ++ x ++ 15#4 ++ y).getLsbD k :=
    fun _ => rfl
  simp (disch := decide) only [decodeWord, decodeData, decodeMultiply, F, B, field_high, field_low, field_all,
    bit_high, bit_low, Nat.reduceSub, Cond.ofCode_code, BitVec.reduceGetLsb, Bool.not_true,
    Bool.false_eq_true, if_false, BitVec.reduceExtractLsb']
  rfl

theorem decode_unalloc4Word (c : Cond) (x : BitVec 14) (y : BitVec 4) :
    decodeWord (unallocWord2322 c 0b01#2 x y) = .unalloc4 c x y := by
  have F : ∀ k m, (unallocWord2322 c 0b01#2 x y).extractLsb' k m =
      (c.code ++ 0#4 ++ 1#2 ++ x ++ 9#4 ++ y).extractLsb' k m :=
    fun _ _ => rfl
  have B : ∀ k, (unallocWord2322 c 0b01#2 x y).getLsbD k =
      (c.code ++ 0#4 ++ 1#2 ++ x ++ 9#4 ++ y).getLsbD k :=
    fun _ => rfl
  simp (disch := decide) only [decodeWord, decodeData, decodeMultiply, F, B, field_high, field_low, field_all,
    bit_high, bit_low, Nat.reduceSub, Cond.ofCode_code, BitVec.reduceGetLsb, Bool.not_true,
    Bool.false_eq_true, if_false, BitVec.reduceExtractLsb']

theorem decode_unalloc8Word (c : Cond) (x : BitVec 14) (y : BitVec 4) :
    decodeWord (unallocWord2322 c 0b10#2 x y) = .unalloc8 c x y := by
  have F : ∀ k m, (unallocWord2322 c 0b10#2 x y).extractLsb' k m =
      (c.code ++ 0#4 ++ 2#2 ++ x ++ 9#4 ++ y).extractLsb' k m :=
    fun _ _ => rfl
  have B : ∀ k, (unallocWord2322 c 0b10#2 x y).getLsbD k =
      (c.code ++ 0#4 ++ 2#2 ++ x ++ 9#4 ++ y).getLsbD k :=
    fun _ => rfl
  simp (disch := decide) only [decodeWord, decodeData, decodeMultiply, F, B, field_high, field_low, field_all,
    bit_high, bit_low, Nat.reduceSub, Cond.ofCode_code, BitVec.reduceGetLsb, Bool.not_true,
    Bool.false_eq_true, if_false, BitVec.reduceExtractLsb']

theorem decode_unallocCWord (c : Cond) (x : BitVec 14) (y : BitVec 4) :
    decodeWord (unallocWord2322 c 0b11#2 x y) = .unallocC c x y := by
  have F : ∀ k m, (unallocWord2322 c 0b11#2 x y).extractLsb' k m =
      (c.code ++ 0#4 ++ 3#2 ++ x ++ 9#4 ++ y).extractLsb' k m :=
    fun _ _ => rfl
  have B : ∀ k, (unallocWord2322 c 0b11#2 x y).getLsbD k =
      (c.code ++ 0#4 ++ 3#2 ++ x ++ 9#4 ++ y).getLsbD k :=
    fun _ => rfl
  simp (disch := decide) only [decodeWord, decodeData, decodeMultiply, F, B, field_high, field_low, field_all,
    bit_high, bit_low, Nat.reduceSub, Cond.ofCode_code, BitVec.reduceGetLsb, Bool.not_true,
    Bool.false_eq_true, if_false, BitVec.reduceExtractLsb']

theorem decode_sdtImmWord (c : Cond) (p u b w l : Bool) (rn rd : Reg) (off : BitVec 12) :
    decodeWord (sdtImmWord c p u b w l rn rd off) = sdtImmOf b l c p u w rn rd off := by
  have F : ∀ k m, (sdtImmWord c p u b w l rn rd off).extractLsb' k m =
      (c.code ++ 2#3 ++ BitVec.ofBool p ++ BitVec.ofBool u ++ BitVec.ofBool b ++ BitVec.ofBool w ++
        BitVec.ofBool l ++ rn ++ rd ++ off).extractLsb' k m :=
    fun _ _ => rfl
  have B : ∀ k, (sdtImmWord c p u b w l rn rd off).getLsbD k =
      (c.code ++ 2#3 ++ BitVec.ofBool p ++ BitVec.ofBool u ++ BitVec.ofBool b ++ BitVec.ofBool w ++
        BitVec.ofBool l ++ rn ++ rd ++ off).getLsbD k :=
    fun _ => rfl
  simp (disch := decide) only [decodeWord, decodeTransfer, F, B, field_high, field_low, field_all,
    bit_high, bit_low, bit_ofBool, Nat.reduceSub, Cond.ofCode_code, BitVec.reduceGetLsb, Bool.not_false, if_true]

theorem decode_sdtRegWord (c : Cond) (p u b w l : Bool) (rn rd : Reg) (o : ShiftedReg) (h : o.shift.wf = true) :
    decodeWord (sdtRegWord c p u b w l rn rd o) = sdtRegOf b l c p u w rn rd o := by
  have F : ∀ k m, (sdtRegWord c p u b w l rn rd o).extractLsb' k m =
      (c.code ++ 3#3 ++ BitVec.ofBool p ++ BitVec.ofBool u ++ BitVec.ofBool b ++ BitVec.ofBool w ++
        BitVec.ofBool l ++ rn ++ rd ++ o.shift.amount ++ o.shift.type.code ++ 0#1 ++ o.rm).extractLsb' k m :=
    fun _ _ => rfl
  have B : ∀ k, (sdtRegWord c p u b w l rn rd o).getLsbD k =
      (c.code ++ 3#3 ++ BitVec.ofBool p ++ BitVec.ofBool u ++ BitVec.ofBool b ++ BitVec.ofBool w ++
        BitVec.ofBool l ++ rn ++ rd ++ o.shift.amount ++ o.shift.type.code ++ 0#1 ++ o.rm).getLsbD k :=
    fun _ => rfl
  simp (disch := decide) only [decodeWord, decodeTransfer, F, B, field_high, field_low, field_all,
    bit_high, bit_low, bit_ofBool, Nat.reduceSub, Cond.ofCode_code, BitVec.reduceGetLsb, Bool.not_true,
    Bool.false_eq_true, if_false, shiftedRegOf, ShiftType.ofCode_code, ImmShift.ofFields_amount h]

theorem decode_undefinedAWord (c : Cond) (x : BitVec 20) (y : BitVec 4) :
    decodeWord (undefinedAWord c x y) = .undefinedA c x y := by
  have F : ∀ k m, (undefinedAWord c x y).extractLsb' k m =
      (c.code ++ 3#3 ++ x ++ 1#1 ++ y).extractLsb' k m :=
    fun _ _ => rfl
  have B : ∀ k, (undefinedAWord c x y).getLsbD k =
      (c.code ++ 3#3 ++ x ++ 1#1 ++ y).getLsbD k :=
    fun _ => rfl
  simp (disch := decide) only [decodeWord, decodeTransfer, F, B, field_high, field_low, field_all,
    bit_high, bit_low, Nat.reduceSub, Cond.ofCode_code, BitVec.reduceGetLsb, Bool.not_true, if_true,
    Bool.false_eq_true, if_false]

theorem decode_undefinedBWord (c : Cond) (x : BitVec 16) (y : BitVec 2) (z : BitVec 4) :
    decodeWord (undefinedBWord c x y z) = .undefinedB c x y z := by
  have F : ∀ k m, (undefinedBWord c x y z).extractLsb' k m =
      (c.code ++ 1#4 ++ x ++ 1#1 ++ y ++ 1#1 ++ z).extractLsb' k m :=
    fun _ _ => rfl
  have B : ∀ k, (undefinedBWord c x y z).getLsbD k =
      (c.code ++ 1#4 ++ x ++ 1#1 ++ y ++ 1#1 ++ z).getLsbD k :=
    fun _ => rfl
  simp (disch := decide) only [decodeWord, decodeData, F, B, field_high, field_low, field_all,
    bit_high, bit_low, Nat.reduceSub, Cond.ofCode_code, BitVec.reduceGetLsb, Bool.not_true, if_true,
    Bool.false_eq_true, if_false]

theorem decode_bdtWord (c : Cond) (p u s w l : Bool) (rn : Reg) (list : BitVec 16) :
    decodeWord (bdtWord c p u s w l rn list) = if l then Instr.ldm c p u s w rn list else .stm c p u s w rn list := by
  have F : ∀ k m, (bdtWord c p u s w l rn list).extractLsb' k m =
      (c.code ++ 4#3 ++ BitVec.ofBool p ++ BitVec.ofBool u ++ BitVec.ofBool s ++ BitVec.ofBool w ++
        BitVec.ofBool l ++ rn ++ list).extractLsb' k m :=
    fun _ _ => rfl
  have B : ∀ k, (bdtWord c p u s w l rn list).getLsbD k =
      (c.code ++ 4#3 ++ BitVec.ofBool p ++ BitVec.ofBool u ++ BitVec.ofBool s ++ BitVec.ofBool w ++
        BitVec.ofBool l ++ rn ++ list).getLsbD k :=
    fun _ => rfl
  simp (disch := decide) only [decodeWord, decodeBlockOrBranch, F, B, field_high, field_low, field_all,
    bit_high, bit_low, bit_ofBool, Nat.reduceSub, Cond.ofCode_code, BitVec.reduceGetLsb, Bool.not_false, if_true]

theorem decode_branchWord (c : Cond) (l : Bool) (off : BitVec 24) :
    decodeWord (branchWord c l off) = if l then Instr.bl c off else .b c off := by
  have F : ∀ k m, (branchWord c l off).extractLsb' k m =
      (c.code ++ 5#3 ++ BitVec.ofBool l ++ off).extractLsb' k m :=
    fun _ _ => rfl
  have B : ∀ k, (branchWord c l off).getLsbD k =
      (c.code ++ 5#3 ++ BitVec.ofBool l ++ off).getLsbD k :=
    fun _ => rfl
  simp (disch := decide) only [decodeWord, decodeBlockOrBranch, F, B, field_high, field_low, field_all,
    bit_high, bit_low, bit_ofBool, Nat.reduceSub, Cond.ofCode_code, BitVec.reduceGetLsb, Bool.not_true,
    Bool.false_eq_true, if_false]

theorem decode_cdtWord (c : Cond) (p u n w l : Bool) (rn crd cp : Reg) (off : BitVec 8) :
    decodeWord (cdtWord c p u n w l rn crd cp off) = if l then Instr.ldc c p u n w rn crd cp off else .stc c p u n w rn crd cp off := by
  have F : ∀ k m, (cdtWord c p u n w l rn crd cp off).extractLsb' k m =
      (c.code ++ 6#3 ++ BitVec.ofBool p ++ BitVec.ofBool u ++ BitVec.ofBool n ++ BitVec.ofBool w ++
        BitVec.ofBool l ++ rn ++ crd ++ cp ++ off).extractLsb' k m :=
    fun _ _ => rfl
  have B : ∀ k, (cdtWord c p u n w l rn crd cp off).getLsbD k =
      (c.code ++ 6#3 ++ BitVec.ofBool p ++ BitVec.ofBool u ++ BitVec.ofBool n ++ BitVec.ofBool w ++
        BitVec.ofBool l ++ rn ++ crd ++ cp ++ off).getLsbD k :=
    fun _ => rfl
  simp (disch := decide) only [decodeWord, decodeCoprocessorOrSwi, F, B, field_high, field_low, field_all,
    bit_high, bit_low, bit_ofBool, Nat.reduceSub, Cond.ofCode_code, BitVec.reduceGetLsb, Bool.not_false, if_true]

theorem decode_cdpWord (c : Cond) (opc : BitVec 4) (crn crd cp : Reg) (info : BitVec 3) (crm : Reg) :
    decodeWord (cdpWord c opc crn crd cp info crm) = .cdp c opc crn crd cp info crm := by
  have F : ∀ k m, (cdpWord c opc crn crd cp info crm).extractLsb' k m =
      (c.code ++ 14#4 ++ opc ++ crn ++ crd ++ cp ++ info ++ 0#1 ++ crm).extractLsb' k m :=
    fun _ _ => rfl
  have B : ∀ k, (cdpWord c opc crn crd cp info crm).getLsbD k =
      (c.code ++ 14#4 ++ opc ++ crn ++ crd ++ cp ++ info ++ 0#1 ++ crm).getLsbD k :=
    fun _ => rfl
  simp (disch := decide) only [decodeWord, decodeCoprocessorOrSwi, F, B, field_high, field_low, field_all,
    bit_high, bit_low, Nat.reduceSub, Cond.ofCode_code, BitVec.reduceGetLsb, Bool.not_true, Bool.not_false, if_true,
    Bool.false_eq_true, if_false]

theorem decode_crtWord (c : Cond) (opc : BitVec 3) (l : Bool) (crn rd cp : Reg) (info : BitVec 3) (crm : Reg) :
    decodeWord (crtWord c opc l crn rd cp info crm) = if l then Instr.mrc c opc crn rd cp info crm else .mcr c opc crn rd cp info crm := by
  have F : ∀ k m, (crtWord c opc l crn rd cp info crm).extractLsb' k m =
      (c.code ++ 14#4 ++ opc ++ BitVec.ofBool l ++ crn ++ rd ++ cp ++ info ++ 1#1 ++ crm).extractLsb' k m :=
    fun _ _ => rfl
  have B : ∀ k, (crtWord c opc l crn rd cp info crm).getLsbD k =
      (c.code ++ 14#4 ++ opc ++ BitVec.ofBool l ++ crn ++ rd ++ cp ++ info ++ 1#1 ++ crm).getLsbD k :=
    fun _ => rfl
  simp (disch := decide) only [decodeWord, decodeCoprocessorOrSwi, F, B, field_high, field_low, field_all,
    bit_high, bit_low, bit_ofBool, Nat.reduceSub, Cond.ofCode_code, BitVec.reduceGetLsb, Bool.not_true,
    Bool.false_eq_true, if_false]

theorem decode_swiWord (c : Cond) (comment : BitVec 24) :
    decodeWord (swiWord c comment) = .swi c comment := by
  have F : ∀ k m, (swiWord c comment).extractLsb' k m =
      (c.code ++ 15#4 ++ comment).extractLsb' k m :=
    fun _ _ => rfl
  have B : ∀ k, (swiWord c comment).getLsbD k =
      (c.code ++ 15#4 ++ comment).getLsbD k :=
    fun _ => rfl
  simp (disch := decide) only [decodeWord, decodeCoprocessorOrSwi, F, B, field_high, field_low, field_all,
    bit_high, bit_low, Nat.reduceSub, Cond.ofCode_code, BitVec.reduceGetLsb, Bool.not_true, if_true,
    Bool.false_eq_true, if_false]

/-! ## The opcode and S fields of a data processing word -/

theorem field_join {u v w : Nat} (z : BitVec u) (x : BitVec v) (y : BitVec w) :
    (z ++ x ++ y).extractLsb' 0 (v + w) = x ++ y := by
  ext i hi
  simp only [BitVec.getElem_extractLsb', BitVec.getElem_append, BitVec.getLsbD_append, Nat.zero_add]
  split
  · rw [BitVec.getLsbD_eq_getElem]
  · rw [if_pos (by omega), BitVec.getLsbD_eq_getElem]

theorem opcode_dpImmWord (c : Cond) (op : BitVec 4) (s : Bool) (rn rd : Reg) (o : RotImm) :
    (dpImmWord c op s rn rd o).extractLsb' 21 4 = op ∧
      (dpImmWord c op s rn rd o).extractLsb' 20 5 = op ++ BitVec.ofBool s := by
  have F : ∀ k m, (dpImmWord c op s rn rd o).extractLsb' k m =
      (c.code ++ 1#3 ++ op ++ BitVec.ofBool s ++ rn ++ rd ++ o.rot ++ o.imm8).extractLsb' k m :=
    fun _ _ => rfl
  constructor
  · simp (disch := decide) only [F, field_high, field_low, field_all, Nat.reduceSub]
  · simp (disch := decide) only [F, field_high, Nat.reduceSub, field_join (v := 4) (w := 1)]

theorem opcode_dpShiftWord (c : Cond) (op : BitVec 4) (s : Bool) (rn rd : Reg) (o : ShiftedReg) :
    (dpShiftWord c op s rn rd o).extractLsb' 21 4 = op ∧
      (dpShiftWord c op s rn rd o).extractLsb' 20 5 = op ++ BitVec.ofBool s := by
  have F : ∀ k m, (dpShiftWord c op s rn rd o).extractLsb' k m =
      (c.code ++ 0#3 ++ op ++ BitVec.ofBool s ++ rn ++ rd ++ o.shift.amount ++ o.shift.type.code ++
        0#1 ++ o.rm).extractLsb' k m :=
    fun _ _ => rfl
  constructor
  · simp (disch := decide) only [F, field_high, field_low, field_all, Nat.reduceSub]
  · simp (disch := decide) only [F, field_high, Nat.reduceSub, field_join (v := 4) (w := 1)]

theorem opcode_dpRegShiftWord (c : Cond) (op : BitVec 4) (s : Bool) (rn rd : Reg) (o : RegShifted) :
    (dpRegShiftWord c op s rn rd o).extractLsb' 21 4 = op ∧
      (dpRegShiftWord c op s rn rd o).extractLsb' 20 5 = op ++ BitVec.ofBool s := by
  have F : ∀ k m, (dpRegShiftWord c op s rn rd o).extractLsb' k m =
      (c.code ++ 0#3 ++ op ++ BitVec.ofBool s ++ rn ++ rd ++ o.rs ++ 0#1 ++ o.type.code ++ 1#1 ++
        o.rm).extractLsb' k m :=
    fun _ _ => rfl
  constructor
  · simp (disch := decide) only [F, field_high, field_low, field_all, Nat.reduceSub]
  · simp (disch := decide) only [F, field_high, Nat.reduceSub, field_join (v := 4) (w := 1)]

end Sys2Proof
end

