-- ==== Sys2Proof/Laws/Exec.lean ====
section
/-! SUPPORT. What each instruction is: its meaning as the shared operation it stands for, one lemma each, so that
no proof unfolds `exec`. -/

namespace Sys2Proof.Machine

@[simp] theorem exec_andImm (c : Cond) (s : Bool) (rn rd : Reg) (o : RotImm) (st : State) :
    exec (.andImm c s rn rd o) st = logical (fun a b => a &&& b) c s rn rd (.imm o) st := rfl
@[simp] theorem exec_andShift (c : Cond) (s : Bool) (rn rd : Reg) (o : ShiftedReg) (st : State) :
    exec (.andShift c s rn rd o) st = logical (fun a b => a &&& b) c s rn rd (.shift o) st := rfl
@[simp] theorem exec_andRegShift (c : Cond) (s : Bool) (rn rd : Reg) (o : RegShifted) (st : State) :
    exec (.andRegShift c s rn rd o) st = logical (fun a b => a &&& b) c s rn rd (.regShift o) st := rfl
@[simp] theorem exec_eorImm (c : Cond) (s : Bool) (rn rd : Reg) (o : RotImm) (st : State) :
    exec (.eorImm c s rn rd o) st = logical (fun a b => a ^^^ b) c s rn rd (.imm o) st := rfl
@[simp] theorem exec_eorShift (c : Cond) (s : Bool) (rn rd : Reg) (o : ShiftedReg) (st : State) :
    exec (.eorShift c s rn rd o) st = logical (fun a b => a ^^^ b) c s rn rd (.shift o) st := rfl
@[simp] theorem exec_eorRegShift (c : Cond) (s : Bool) (rn rd : Reg) (o : RegShifted) (st : State) :
    exec (.eorRegShift c s rn rd o) st = logical (fun a b => a ^^^ b) c s rn rd (.regShift o) st := rfl
@[simp] theorem exec_subImm (c : Cond) (s : Bool) (rn rd : Reg) (o : RotImm) (st : State) :
    exec (.subImm c s rn rd o) st = arithmetic addendsSub c s rn rd (.imm o) st := rfl
@[simp] theorem exec_subShift (c : Cond) (s : Bool) (rn rd : Reg) (o : ShiftedReg) (st : State) :
    exec (.subShift c s rn rd o) st = arithmetic addendsSub c s rn rd (.shift o) st := rfl
@[simp] theorem exec_subRegShift (c : Cond) (s : Bool) (rn rd : Reg) (o : RegShifted) (st : State) :
    exec (.subRegShift c s rn rd o) st = arithmetic addendsSub c s rn rd (.regShift o) st := rfl
@[simp] theorem exec_rsbImm (c : Cond) (s : Bool) (rn rd : Reg) (o : RotImm) (st : State) :
    exec (.rsbImm c s rn rd o) st = arithmetic addendsRsb c s rn rd (.imm o) st := rfl
@[simp] theorem exec_rsbShift (c : Cond) (s : Bool) (rn rd : Reg) (o : ShiftedReg) (st : State) :
    exec (.rsbShift c s rn rd o) st = arithmetic addendsRsb c s rn rd (.shift o) st := rfl
@[simp] theorem exec_rsbRegShift (c : Cond) (s : Bool) (rn rd : Reg) (o : RegShifted) (st : State) :
    exec (.rsbRegShift c s rn rd o) st = arithmetic addendsRsb c s rn rd (.regShift o) st := rfl
@[simp] theorem exec_addImm (c : Cond) (s : Bool) (rn rd : Reg) (o : RotImm) (st : State) :
    exec (.addImm c s rn rd o) st = arithmetic addendsAdd c s rn rd (.imm o) st := rfl
@[simp] theorem exec_addShift (c : Cond) (s : Bool) (rn rd : Reg) (o : ShiftedReg) (st : State) :
    exec (.addShift c s rn rd o) st = arithmetic addendsAdd c s rn rd (.shift o) st := rfl
@[simp] theorem exec_addRegShift (c : Cond) (s : Bool) (rn rd : Reg) (o : RegShifted) (st : State) :
    exec (.addRegShift c s rn rd o) st = arithmetic addendsAdd c s rn rd (.regShift o) st := rfl
@[simp] theorem exec_adcImm (c : Cond) (s : Bool) (rn rd : Reg) (o : RotImm) (st : State) :
    exec (.adcImm c s rn rd o) st = arithmetic addendsAdc c s rn rd (.imm o) st := rfl
@[simp] theorem exec_adcShift (c : Cond) (s : Bool) (rn rd : Reg) (o : ShiftedReg) (st : State) :
    exec (.adcShift c s rn rd o) st = arithmetic addendsAdc c s rn rd (.shift o) st := rfl
@[simp] theorem exec_adcRegShift (c : Cond) (s : Bool) (rn rd : Reg) (o : RegShifted) (st : State) :
    exec (.adcRegShift c s rn rd o) st = arithmetic addendsAdc c s rn rd (.regShift o) st := rfl
@[simp] theorem exec_sbcImm (c : Cond) (s : Bool) (rn rd : Reg) (o : RotImm) (st : State) :
    exec (.sbcImm c s rn rd o) st = arithmetic addendsSbc c s rn rd (.imm o) st := rfl
@[simp] theorem exec_sbcShift (c : Cond) (s : Bool) (rn rd : Reg) (o : ShiftedReg) (st : State) :
    exec (.sbcShift c s rn rd o) st = arithmetic addendsSbc c s rn rd (.shift o) st := rfl
@[simp] theorem exec_sbcRegShift (c : Cond) (s : Bool) (rn rd : Reg) (o : RegShifted) (st : State) :
    exec (.sbcRegShift c s rn rd o) st = arithmetic addendsSbc c s rn rd (.regShift o) st := rfl
@[simp] theorem exec_rscImm (c : Cond) (s : Bool) (rn rd : Reg) (o : RotImm) (st : State) :
    exec (.rscImm c s rn rd o) st = arithmetic addendsRsc c s rn rd (.imm o) st := rfl
@[simp] theorem exec_rscShift (c : Cond) (s : Bool) (rn rd : Reg) (o : ShiftedReg) (st : State) :
    exec (.rscShift c s rn rd o) st = arithmetic addendsRsc c s rn rd (.shift o) st := rfl
@[simp] theorem exec_rscRegShift (c : Cond) (s : Bool) (rn rd : Reg) (o : RegShifted) (st : State) :
    exec (.rscRegShift c s rn rd o) st = arithmetic addendsRsc c s rn rd (.regShift o) st := rfl
@[simp] theorem exec_orrImm (c : Cond) (s : Bool) (rn rd : Reg) (o : RotImm) (st : State) :
    exec (.orrImm c s rn rd o) st = logical (fun a b => a ||| b) c s rn rd (.imm o) st := rfl
@[simp] theorem exec_orrShift (c : Cond) (s : Bool) (rn rd : Reg) (o : ShiftedReg) (st : State) :
    exec (.orrShift c s rn rd o) st = logical (fun a b => a ||| b) c s rn rd (.shift o) st := rfl
@[simp] theorem exec_orrRegShift (c : Cond) (s : Bool) (rn rd : Reg) (o : RegShifted) (st : State) :
    exec (.orrRegShift c s rn rd o) st = logical (fun a b => a ||| b) c s rn rd (.regShift o) st := rfl
@[simp] theorem exec_movImm (c : Cond) (s : Bool) (rn rd : Reg) (o : RotImm) (st : State) :
    exec (.movImm c s rn rd o) st = logical (fun _ b => b) c s rn rd (.imm o) st := rfl
@[simp] theorem exec_movShift (c : Cond) (s : Bool) (rn rd : Reg) (o : ShiftedReg) (st : State) :
    exec (.movShift c s rn rd o) st = logical (fun _ b => b) c s rn rd (.shift o) st := rfl
@[simp] theorem exec_movRegShift (c : Cond) (s : Bool) (rn rd : Reg) (o : RegShifted) (st : State) :
    exec (.movRegShift c s rn rd o) st = logical (fun _ b => b) c s rn rd (.regShift o) st := rfl
@[simp] theorem exec_bicImm (c : Cond) (s : Bool) (rn rd : Reg) (o : RotImm) (st : State) :
    exec (.bicImm c s rn rd o) st = logical (fun a b => a &&& ~~~b) c s rn rd (.imm o) st := rfl
@[simp] theorem exec_bicShift (c : Cond) (s : Bool) (rn rd : Reg) (o : ShiftedReg) (st : State) :
    exec (.bicShift c s rn rd o) st = logical (fun a b => a &&& ~~~b) c s rn rd (.shift o) st := rfl
@[simp] theorem exec_bicRegShift (c : Cond) (s : Bool) (rn rd : Reg) (o : RegShifted) (st : State) :
    exec (.bicRegShift c s rn rd o) st = logical (fun a b => a &&& ~~~b) c s rn rd (.regShift o) st := rfl
@[simp] theorem exec_mvnImm (c : Cond) (s : Bool) (rn rd : Reg) (o : RotImm) (st : State) :
    exec (.mvnImm c s rn rd o) st = logical (fun _ b => ~~~b) c s rn rd (.imm o) st := rfl
@[simp] theorem exec_mvnShift (c : Cond) (s : Bool) (rn rd : Reg) (o : ShiftedReg) (st : State) :
    exec (.mvnShift c s rn rd o) st = logical (fun _ b => ~~~b) c s rn rd (.shift o) st := rfl
@[simp] theorem exec_mvnRegShift (c : Cond) (s : Bool) (rn rd : Reg) (o : RegShifted) (st : State) :
    exec (.mvnRegShift c s rn rd o) st = logical (fun _ b => ~~~b) c s rn rd (.regShift o) st := rfl
@[simp] theorem exec_tstImm (c : Cond) (rn rd : Reg) (o : RotImm) (st : State) :
    exec (.tstImm c rn rd o) st = testLogical (fun a b => a &&& b) c rn rd (.imm o) st := rfl
@[simp] theorem exec_tstImmS0 (c : Cond) (rn rd : Reg) (o : RotImm) (st : State) :
    exec (.tstImmS0 c rn rd o) st = unallocatedTest c st := rfl
@[simp] theorem exec_tstShift (c : Cond) (rn rd : Reg) (o : ShiftedReg) (st : State) :
    exec (.tstShift c rn rd o) st = testLogical (fun a b => a &&& b) c rn rd (.shift o) st := rfl
@[simp] theorem exec_tstShiftS0 (c : Cond) (rn rd : Reg) (o : ShiftedReg) (st : State) :
    exec (.tstShiftS0 c rn rd o) st = unallocatedTest c st := rfl
@[simp] theorem exec_tstRegShift (c : Cond) (rn rd : Reg) (o : RegShifted) (st : State) :
    exec (.tstRegShift c rn rd o) st = testLogical (fun a b => a &&& b) c rn rd (.regShift o) st := rfl
@[simp] theorem exec_tstRegShiftS0 (c : Cond) (rn rd : Reg) (o : RegShifted) (st : State) :
    exec (.tstRegShiftS0 c rn rd o) st = unallocatedTest c st := rfl
@[simp] theorem exec_teqImm (c : Cond) (rn rd : Reg) (o : RotImm) (st : State) :
    exec (.teqImm c rn rd o) st = testLogical (fun a b => a ^^^ b) c rn rd (.imm o) st := rfl
@[simp] theorem exec_teqImmS0 (c : Cond) (rn rd : Reg) (o : RotImm) (st : State) :
    exec (.teqImmS0 c rn rd o) st = unallocatedTest c st := rfl
@[simp] theorem exec_teqShift (c : Cond) (rn rd : Reg) (o : ShiftedReg) (st : State) :
    exec (.teqShift c rn rd o) st = testLogical (fun a b => a ^^^ b) c rn rd (.shift o) st := rfl
@[simp] theorem exec_teqShiftS0 (c : Cond) (rn rd : Reg) (o : ShiftedReg) (st : State) :
    exec (.teqShiftS0 c rn rd o) st = unallocatedTest c st := rfl
@[simp] theorem exec_teqRegShift (c : Cond) (rn rd : Reg) (o : RegShifted) (st : State) :
    exec (.teqRegShift c rn rd o) st = testLogical (fun a b => a ^^^ b) c rn rd (.regShift o) st := rfl
@[simp] theorem exec_teqRegShiftS0 (c : Cond) (rn rd : Reg) (o : RegShifted) (st : State) :
    exec (.teqRegShiftS0 c rn rd o) st = unallocatedTest c st := rfl
@[simp] theorem exec_cmpImm (c : Cond) (rn rd : Reg) (o : RotImm) (st : State) :
    exec (.cmpImm c rn rd o) st = testArithmetic addendsSub c rn rd (.imm o) st := rfl
@[simp] theorem exec_cmpImmS0 (c : Cond) (rn rd : Reg) (o : RotImm) (st : State) :
    exec (.cmpImmS0 c rn rd o) st = unallocatedTest c st := rfl
@[simp] theorem exec_cmpShift (c : Cond) (rn rd : Reg) (o : ShiftedReg) (st : State) :
    exec (.cmpShift c rn rd o) st = testArithmetic addendsSub c rn rd (.shift o) st := rfl
@[simp] theorem exec_cmpShiftS0 (c : Cond) (rn rd : Reg) (o : ShiftedReg) (st : State) :
    exec (.cmpShiftS0 c rn rd o) st = unallocatedTest c st := rfl
@[simp] theorem exec_cmpRegShift (c : Cond) (rn rd : Reg) (o : RegShifted) (st : State) :
    exec (.cmpRegShift c rn rd o) st = testArithmetic addendsSub c rn rd (.regShift o) st := rfl
@[simp] theorem exec_cmpRegShiftS0 (c : Cond) (rn rd : Reg) (o : RegShifted) (st : State) :
    exec (.cmpRegShiftS0 c rn rd o) st = unallocatedTest c st := rfl
@[simp] theorem exec_cmnImm (c : Cond) (rn rd : Reg) (o : RotImm) (st : State) :
    exec (.cmnImm c rn rd o) st = testArithmetic addendsAdd c rn rd (.imm o) st := rfl
@[simp] theorem exec_cmnImmS0 (c : Cond) (rn rd : Reg) (o : RotImm) (st : State) :
    exec (.cmnImmS0 c rn rd o) st = unallocatedTest c st := rfl
@[simp] theorem exec_cmnShift (c : Cond) (rn rd : Reg) (o : ShiftedReg) (st : State) :
    exec (.cmnShift c rn rd o) st = testArithmetic addendsAdd c rn rd (.shift o) st := rfl
@[simp] theorem exec_cmnShiftS0 (c : Cond) (rn rd : Reg) (o : ShiftedReg) (st : State) :
    exec (.cmnShiftS0 c rn rd o) st = unallocatedTest c st := rfl
@[simp] theorem exec_cmnRegShift (c : Cond) (rn rd : Reg) (o : RegShifted) (st : State) :
    exec (.cmnRegShift c rn rd o) st = testArithmetic addendsAdd c rn rd (.regShift o) st := rfl
@[simp] theorem exec_cmnRegShiftS0 (c : Cond) (rn rd : Reg) (o : RegShifted) (st : State) :
    exec (.cmnRegShiftS0 c rn rd o) st = unallocatedTest c st := rfl
@[simp] theorem exec_mul (c : Cond) (s : Bool) (rd rn rs rm : Reg) (st : State) :
    exec (.mul c s rd rn rs rm) st = execMul c s rd rs rm st := rfl
@[simp] theorem exec_mla (c : Cond) (s : Bool) (rd rn rs rm : Reg) (st : State) :
    exec (.mla c s rd rn rs rm) st = execMla c s rd rn rs rm st := rfl
@[simp] theorem exec_unallocB (c : Cond) (x : BitVec 16) (y : BitVec 4) (st : State) :
    exec (.unallocB c x y) st = unallocatedMultiply c st := rfl
@[simp] theorem exec_unallocD (c : Cond) (x : BitVec 16) (y : BitVec 4) (st : State) :
    exec (.unallocD c x y) st = unallocatedMultiply c st := rfl
@[simp] theorem exec_unallocF (c : Cond) (x : BitVec 16) (y : BitVec 4) (st : State) :
    exec (.unallocF c x y) st = unallocatedMultiply c st := rfl
@[simp] theorem exec_unalloc4 (c : Cond) (x : BitVec 14) (y : BitVec 4) (st : State) :
    exec (.unalloc4 c x y) st = unallocatedMultiply c st := rfl
@[simp] theorem exec_unalloc8 (c : Cond) (x : BitVec 14) (y : BitVec 4) (st : State) :
    exec (.unalloc8 c x y) st = unallocatedMultiply c st := rfl
@[simp] theorem exec_unallocC (c : Cond) (x : BitVec 14) (y : BitVec 4) (st : State) :
    exec (.unallocC c x y) st = unallocatedMultiply c st := rfl
@[simp] theorem exec_ldrImm (c : Cond) (p u w : Bool) (rn rd : Reg) (off : BitVec 12) (st : State) :
    exec (.ldrImm c p u w rn rd off) st = loadTransfer State.loadRotated c p u w rn rd (.imm off) st := rfl
@[simp] theorem exec_ldrReg (c : Cond) (p u w : Bool) (rn rd : Reg) (o : ShiftedReg) (st : State) :
    exec (.ldrReg c p u w rn rd o) st = loadTransfer State.loadRotated c p u w rn rd (.reg o) st := rfl
@[simp] theorem exec_strImm (c : Cond) (p u w : Bool) (rn rd : Reg) (off : BitVec 12) (st : State) :
    exec (.strImm c p u w rn rd off) st = storeTransfer State.storeRegister c p u w rn rd (.imm off) st := rfl
@[simp] theorem exec_strReg (c : Cond) (p u w : Bool) (rn rd : Reg) (o : ShiftedReg) (st : State) :
    exec (.strReg c p u w rn rd o) st = storeTransfer State.storeRegister c p u w rn rd (.reg o) st := rfl
@[simp] theorem exec_ldrbImm (c : Cond) (p u w : Bool) (rn rd : Reg) (off : BitVec 12) (st : State) :
    exec (.ldrbImm c p u w rn rd off) st = loadTransfer State.loadExtended c p u w rn rd (.imm off) st := rfl
@[simp] theorem exec_ldrbReg (c : Cond) (p u w : Bool) (rn rd : Reg) (o : ShiftedReg) (st : State) :
    exec (.ldrbReg c p u w rn rd o) st = loadTransfer State.loadExtended c p u w rn rd (.reg o) st := rfl
@[simp] theorem exec_strbImm (c : Cond) (p u w : Bool) (rn rd : Reg) (off : BitVec 12) (st : State) :
    exec (.strbImm c p u w rn rd off) st = storeTransfer State.storeLowByte c p u w rn rd (.imm off) st := rfl
@[simp] theorem exec_strbReg (c : Cond) (p u w : Bool) (rn rd : Reg) (o : ShiftedReg) (st : State) :
    exec (.strbReg c p u w rn rd o) st = storeTransfer State.storeLowByte c p u w rn rd (.reg o) st := rfl
@[simp] theorem exec_undefinedA (c : Cond) (x : BitVec 20) (y : BitVec 4) (st : State) :
    exec (.undefinedA c x y) st = undefinedInstruction c (undefinedAWord c x y) st := rfl
@[simp] theorem exec_undefinedB (c : Cond) (x : BitVec 16) (y : BitVec 2) (z : BitVec 4) (st : State) :
    exec (.undefinedB c x y z) st = undefinedInstruction c (undefinedBWord c x y z) st := rfl
@[simp] theorem exec_ldm (c : Cond) (p u s w : Bool) (rn : Reg) (list : BitVec 16) (st : State) :
    exec (.ldm c p u s w rn list) st = execLdm c p u s w rn list st := rfl
@[simp] theorem exec_stm (c : Cond) (p u s w : Bool) (rn : Reg) (list : BitVec 16) (st : State) :
    exec (.stm c p u s w rn list) st = execStm c p u s w rn list st := rfl
@[simp] theorem exec_b (c : Cond) (off : BitVec 24) (st : State) :
    exec (.b c off) st = execB c off st := rfl
@[simp] theorem exec_bl (c : Cond) (off : BitVec 24) (st : State) :
    exec (.bl c off) st = execBl c off st := rfl
@[simp] theorem exec_ldc (c : Cond) (p u n w : Bool) (rn crd cp : Reg) (off : BitVec 8) (st : State) :
    exec (.ldc c p u n w rn crd cp off) st = execLdc c p u n w rn crd cp off st := rfl
@[simp] theorem exec_stc (c : Cond) (p u n w : Bool) (rn crd cp : Reg) (off : BitVec 8) (st : State) :
    exec (.stc c p u n w rn crd cp off) st = execStc c p u n w rn crd cp off st := rfl
@[simp] theorem exec_cdp (c : Cond) (opc : BitVec 4) (crn crd cp : Reg) (info : BitVec 3) (crm : Reg) (st : State) :
    exec (.cdp c opc crn crd cp info crm) st = execCdp c opc crn crd cp info crm st := rfl
@[simp] theorem exec_mrc (c : Cond) (opc : BitVec 3) (crn rd cp : Reg) (info : BitVec 3) (crm : Reg) (st : State) :
    exec (.mrc c opc crn rd cp info crm) st = execMrc c opc crn rd cp info crm st := rfl
@[simp] theorem exec_mcr (c : Cond) (opc : BitVec 3) (crn rd cp : Reg) (info : BitVec 3) (crm : Reg) (st : State) :
    exec (.mcr c opc crn rd cp info crm) st = execMcr c opc crn rd cp info crm st := rfl
@[simp] theorem exec_swi (c : Cond) (comment : BitVec 24) (st : State) :
    exec (.swi c comment) st = execSwi c st := rfl

end Sys2Proof.Machine
end

