-- ==== Sys2Proof/Laws/Flags.lean ====
section
/-! SUPPORT. The flag computations and the shifter as numbers: what the carry, the overflow and the result of a sum are. -/

namespace Sys2Proof.Machine

theorem sum33_toNat (a b : Word) (cin : Bool) : (sum33 a b cin).toNat = a.toNat + b.toNat + cin.toNat := by
  have := a.isLt
  have := b.isLt
  cases cin <;> simp [sum33] <;> omega

theorem sumResult_toNat (a b : Word) (cin : Bool) :
    (sumResult a b cin).toNat = (a.toNat + b.toNat + cin.toNat) % 2 ^ 32 := by
  simp [sumResult, sum33_toNat]

/-- The carry out of bit 31 (R178): the unsigned sum does not fit in 32 bits. -/
theorem sum33_carry (a b : Word) (cin : Bool) :
    (sum33 a b cin).msb = decide (2 ^ 32 ≤ a.toNat + b.toNat + cin.toNat) := by
  rw [BitVec.msb_eq_decide, sum33_toNat]

theorem toInt_not (b : Word) : (~~~b).toInt = -b.toInt - 1 := by
  have := b.isLt
  rw [BitVec.toInt_eq_toNat_cond, BitVec.toInt_eq_toNat_cond, BitVec.toNat_not]
  split <;> split <;> omega

/-- The signed overflow (R178): the signed sum does not fit in 32 bits. -/
theorem sumResult_overflow (a b : Word) (cin : Bool) :
    (a.msb == b.msb && (sumResult a b cin).msb != a.msb) =
      decide ((sumResult a b cin).toInt ≠ a.toInt + b.toInt + cin.toNat) := by
  have hr := sumResult_toNat a b cin
  generalize sumResult a b cin = r at hr
  have ha := BitVec.toInt_eq_toNat_cond a
  have hb := BitVec.toInt_eq_toNat_cond b
  have hs := BitVec.toInt_eq_toNat_cond r
  have := a.isLt
  have := b.isLt
  have := r.isLt
  have hc : cin.toNat = 0 ∨ cin.toNat = 1 := by cases cin <;> simp
  have ma : a.msb = decide (2 ^ 31 ≤ a.toNat) := BitVec.msb_eq_decide a
  have mb : b.msb = decide (2 ^ 31 ≤ b.toNat) := BitVec.msb_eq_decide b
  have mr : r.msb = decide (2 ^ 31 ≤ r.toNat) := BitVec.msb_eq_decide r
  rw [ma, mb, mr, Bool.eq_iff_iff]
  simp only [Bool.and_eq_true, beq_iff_eq, bne_iff_ne, decide_eq_true_eq, decide_eq_decide, ne_eq]
  split at ha <;> split at hb <;> split at hs <;> omega

end Sys2Proof.Machine
end

