-- ==== Sys2Proof/Laws/PerInstr.lean ====
section
/-! SUPPORT. Decoding what is encoded, instruction by instruction (spec/30_encoding.md R100 to R118). -/

namespace Sys2Proof.Laws.RoundTrip

/-- The word of a well-formed instruction decodes to it, every operand with it. -/
def Statement (i : Instr) : Prop :=
  i.wellFormed = true → decodeWord (encode i) = i

theorem andImm (c : Cond) (s : Bool) (rn rd : Reg) (o : RotImm) : Statement (.andImm c s rn rd o) :=
  fun _ => decode_dpImmWord ..

theorem andShift (c : Cond) (s : Bool) (rn rd : Reg) (o : ShiftedReg) : Statement (.andShift c s rn rd o) :=
  fun h => decode_dpShiftWord (h := h) ..

theorem andRegShift (c : Cond) (s : Bool) (rn rd : Reg) (o : RegShifted) : Statement (.andRegShift c s rn rd o) :=
  fun _ => decode_dpRegShiftWord ..

theorem eorImm (c : Cond) (s : Bool) (rn rd : Reg) (o : RotImm) : Statement (.eorImm c s rn rd o) :=
  fun _ => decode_dpImmWord ..

theorem eorShift (c : Cond) (s : Bool) (rn rd : Reg) (o : ShiftedReg) : Statement (.eorShift c s rn rd o) :=
  fun h => decode_dpShiftWord (h := h) ..

theorem eorRegShift (c : Cond) (s : Bool) (rn rd : Reg) (o : RegShifted) : Statement (.eorRegShift c s rn rd o) :=
  fun _ => decode_dpRegShiftWord ..

theorem subImm (c : Cond) (s : Bool) (rn rd : Reg) (o : RotImm) : Statement (.subImm c s rn rd o) :=
  fun _ => decode_dpImmWord ..

theorem subShift (c : Cond) (s : Bool) (rn rd : Reg) (o : ShiftedReg) : Statement (.subShift c s rn rd o) :=
  fun h => decode_dpShiftWord (h := h) ..

theorem subRegShift (c : Cond) (s : Bool) (rn rd : Reg) (o : RegShifted) : Statement (.subRegShift c s rn rd o) :=
  fun _ => decode_dpRegShiftWord ..

theorem rsbImm (c : Cond) (s : Bool) (rn rd : Reg) (o : RotImm) : Statement (.rsbImm c s rn rd o) :=
  fun _ => decode_dpImmWord ..

theorem rsbShift (c : Cond) (s : Bool) (rn rd : Reg) (o : ShiftedReg) : Statement (.rsbShift c s rn rd o) :=
  fun h => decode_dpShiftWord (h := h) ..

theorem rsbRegShift (c : Cond) (s : Bool) (rn rd : Reg) (o : RegShifted) : Statement (.rsbRegShift c s rn rd o) :=
  fun _ => decode_dpRegShiftWord ..

theorem addImm (c : Cond) (s : Bool) (rn rd : Reg) (o : RotImm) : Statement (.addImm c s rn rd o) :=
  fun _ => decode_dpImmWord ..

theorem addShift (c : Cond) (s : Bool) (rn rd : Reg) (o : ShiftedReg) : Statement (.addShift c s rn rd o) :=
  fun h => decode_dpShiftWord (h := h) ..

theorem addRegShift (c : Cond) (s : Bool) (rn rd : Reg) (o : RegShifted) : Statement (.addRegShift c s rn rd o) :=
  fun _ => decode_dpRegShiftWord ..

theorem adcImm (c : Cond) (s : Bool) (rn rd : Reg) (o : RotImm) : Statement (.adcImm c s rn rd o) :=
  fun _ => decode_dpImmWord ..

theorem adcShift (c : Cond) (s : Bool) (rn rd : Reg) (o : ShiftedReg) : Statement (.adcShift c s rn rd o) :=
  fun h => decode_dpShiftWord (h := h) ..

theorem adcRegShift (c : Cond) (s : Bool) (rn rd : Reg) (o : RegShifted) : Statement (.adcRegShift c s rn rd o) :=
  fun _ => decode_dpRegShiftWord ..

theorem sbcImm (c : Cond) (s : Bool) (rn rd : Reg) (o : RotImm) : Statement (.sbcImm c s rn rd o) :=
  fun _ => decode_dpImmWord ..

theorem sbcShift (c : Cond) (s : Bool) (rn rd : Reg) (o : ShiftedReg) : Statement (.sbcShift c s rn rd o) :=
  fun h => decode_dpShiftWord (h := h) ..

theorem sbcRegShift (c : Cond) (s : Bool) (rn rd : Reg) (o : RegShifted) : Statement (.sbcRegShift c s rn rd o) :=
  fun _ => decode_dpRegShiftWord ..

theorem rscImm (c : Cond) (s : Bool) (rn rd : Reg) (o : RotImm) : Statement (.rscImm c s rn rd o) :=
  fun _ => decode_dpImmWord ..

theorem rscShift (c : Cond) (s : Bool) (rn rd : Reg) (o : ShiftedReg) : Statement (.rscShift c s rn rd o) :=
  fun h => decode_dpShiftWord (h := h) ..

theorem rscRegShift (c : Cond) (s : Bool) (rn rd : Reg) (o : RegShifted) : Statement (.rscRegShift c s rn rd o) :=
  fun _ => decode_dpRegShiftWord ..

theorem tstImm (c : Cond) (rn rd : Reg) (o : RotImm) : Statement (.tstImm c rn rd o) :=
  fun _ => decode_dpImmWord ..

theorem tstShift (c : Cond) (rn rd : Reg) (o : ShiftedReg) : Statement (.tstShift c rn rd o) :=
  fun h => decode_dpShiftWord (h := h) ..

theorem tstRegShift (c : Cond) (rn rd : Reg) (o : RegShifted) : Statement (.tstRegShift c rn rd o) :=
  fun _ => decode_dpRegShiftWord ..

theorem tstImmS0 (c : Cond) (rn rd : Reg) (o : RotImm) : Statement (.tstImmS0 c rn rd o) :=
  fun _ => decode_dpImmWord ..

theorem tstShiftS0 (c : Cond) (rn rd : Reg) (o : ShiftedReg) : Statement (.tstShiftS0 c rn rd o) :=
  fun h => decode_dpShiftWord (h := h) ..

theorem tstRegShiftS0 (c : Cond) (rn rd : Reg) (o : RegShifted) : Statement (.tstRegShiftS0 c rn rd o) :=
  fun _ => decode_dpRegShiftWord ..

theorem teqImm (c : Cond) (rn rd : Reg) (o : RotImm) : Statement (.teqImm c rn rd o) :=
  fun _ => decode_dpImmWord ..

theorem teqShift (c : Cond) (rn rd : Reg) (o : ShiftedReg) : Statement (.teqShift c rn rd o) :=
  fun h => decode_dpShiftWord (h := h) ..

theorem teqRegShift (c : Cond) (rn rd : Reg) (o : RegShifted) : Statement (.teqRegShift c rn rd o) :=
  fun _ => decode_dpRegShiftWord ..

theorem teqImmS0 (c : Cond) (rn rd : Reg) (o : RotImm) : Statement (.teqImmS0 c rn rd o) :=
  fun _ => decode_dpImmWord ..

theorem teqShiftS0 (c : Cond) (rn rd : Reg) (o : ShiftedReg) : Statement (.teqShiftS0 c rn rd o) :=
  fun h => decode_dpShiftWord (h := h) ..

theorem teqRegShiftS0 (c : Cond) (rn rd : Reg) (o : RegShifted) : Statement (.teqRegShiftS0 c rn rd o) :=
  fun _ => decode_dpRegShiftWord ..

theorem cmpImm (c : Cond) (rn rd : Reg) (o : RotImm) : Statement (.cmpImm c rn rd o) :=
  fun _ => decode_dpImmWord ..

theorem cmpShift (c : Cond) (rn rd : Reg) (o : ShiftedReg) : Statement (.cmpShift c rn rd o) :=
  fun h => decode_dpShiftWord (h := h) ..

theorem cmpRegShift (c : Cond) (rn rd : Reg) (o : RegShifted) : Statement (.cmpRegShift c rn rd o) :=
  fun _ => decode_dpRegShiftWord ..

theorem cmpImmS0 (c : Cond) (rn rd : Reg) (o : RotImm) : Statement (.cmpImmS0 c rn rd o) :=
  fun _ => decode_dpImmWord ..

theorem cmpShiftS0 (c : Cond) (rn rd : Reg) (o : ShiftedReg) : Statement (.cmpShiftS0 c rn rd o) :=
  fun h => decode_dpShiftWord (h := h) ..

theorem cmpRegShiftS0 (c : Cond) (rn rd : Reg) (o : RegShifted) : Statement (.cmpRegShiftS0 c rn rd o) :=
  fun _ => decode_dpRegShiftWord ..

theorem cmnImm (c : Cond) (rn rd : Reg) (o : RotImm) : Statement (.cmnImm c rn rd o) :=
  fun _ => decode_dpImmWord ..

theorem cmnShift (c : Cond) (rn rd : Reg) (o : ShiftedReg) : Statement (.cmnShift c rn rd o) :=
  fun h => decode_dpShiftWord (h := h) ..

theorem cmnRegShift (c : Cond) (rn rd : Reg) (o : RegShifted) : Statement (.cmnRegShift c rn rd o) :=
  fun _ => decode_dpRegShiftWord ..

theorem cmnImmS0 (c : Cond) (rn rd : Reg) (o : RotImm) : Statement (.cmnImmS0 c rn rd o) :=
  fun _ => decode_dpImmWord ..

theorem cmnShiftS0 (c : Cond) (rn rd : Reg) (o : ShiftedReg) : Statement (.cmnShiftS0 c rn rd o) :=
  fun h => decode_dpShiftWord (h := h) ..

theorem cmnRegShiftS0 (c : Cond) (rn rd : Reg) (o : RegShifted) : Statement (.cmnRegShiftS0 c rn rd o) :=
  fun _ => decode_dpRegShiftWord ..

theorem orrImm (c : Cond) (s : Bool) (rn rd : Reg) (o : RotImm) : Statement (.orrImm c s rn rd o) :=
  fun _ => decode_dpImmWord ..

theorem orrShift (c : Cond) (s : Bool) (rn rd : Reg) (o : ShiftedReg) : Statement (.orrShift c s rn rd o) :=
  fun h => decode_dpShiftWord (h := h) ..

theorem orrRegShift (c : Cond) (s : Bool) (rn rd : Reg) (o : RegShifted) : Statement (.orrRegShift c s rn rd o) :=
  fun _ => decode_dpRegShiftWord ..

theorem movImm (c : Cond) (s : Bool) (rn rd : Reg) (o : RotImm) : Statement (.movImm c s rn rd o) :=
  fun _ => decode_dpImmWord ..

theorem movShift (c : Cond) (s : Bool) (rn rd : Reg) (o : ShiftedReg) : Statement (.movShift c s rn rd o) :=
  fun h => decode_dpShiftWord (h := h) ..

theorem movRegShift (c : Cond) (s : Bool) (rn rd : Reg) (o : RegShifted) : Statement (.movRegShift c s rn rd o) :=
  fun _ => decode_dpRegShiftWord ..

theorem bicImm (c : Cond) (s : Bool) (rn rd : Reg) (o : RotImm) : Statement (.bicImm c s rn rd o) :=
  fun _ => decode_dpImmWord ..

theorem bicShift (c : Cond) (s : Bool) (rn rd : Reg) (o : ShiftedReg) : Statement (.bicShift c s rn rd o) :=
  fun h => decode_dpShiftWord (h := h) ..

theorem bicRegShift (c : Cond) (s : Bool) (rn rd : Reg) (o : RegShifted) : Statement (.bicRegShift c s rn rd o) :=
  fun _ => decode_dpRegShiftWord ..

theorem mvnImm (c : Cond) (s : Bool) (rn rd : Reg) (o : RotImm) : Statement (.mvnImm c s rn rd o) :=
  fun _ => decode_dpImmWord ..

theorem mvnShift (c : Cond) (s : Bool) (rn rd : Reg) (o : ShiftedReg) : Statement (.mvnShift c s rn rd o) :=
  fun h => decode_dpShiftWord (h := h) ..

theorem mvnRegShift (c : Cond) (s : Bool) (rn rd : Reg) (o : RegShifted) : Statement (.mvnRegShift c s rn rd o) :=
  fun _ => decode_dpRegShiftWord ..

theorem mul (c : Cond) (s : Bool) (rd rn rs rm : Reg) : Statement (.mul c s rd rn rs rm) :=
  fun _ => decode_mulWord ..

theorem mla (c : Cond) (s : Bool) (rd rn rs rm : Reg) : Statement (.mla c s rd rn rs rm) :=
  fun _ => decode_mulWord ..

theorem unallocB (c : Cond) (x : BitVec 16) (y : BitVec 4) : Statement (.unallocB c x y) :=
  fun _ => decode_unallocBWord ..

theorem unallocD (c : Cond) (x : BitVec 16) (y : BitVec 4) : Statement (.unallocD c x y) :=
  fun _ => decode_unallocDWord ..

theorem unallocF (c : Cond) (x : BitVec 16) (y : BitVec 4) : Statement (.unallocF c x y) :=
  fun _ => decode_unallocFWord ..

theorem unalloc4 (c : Cond) (x : BitVec 14) (y : BitVec 4) : Statement (.unalloc4 c x y) :=
  fun _ => decode_unalloc4Word ..

theorem unalloc8 (c : Cond) (x : BitVec 14) (y : BitVec 4) : Statement (.unalloc8 c x y) :=
  fun _ => decode_unalloc8Word ..

theorem unallocC (c : Cond) (x : BitVec 14) (y : BitVec 4) : Statement (.unallocC c x y) :=
  fun _ => decode_unallocCWord ..

theorem ldrImm (c : Cond) (p u w : Bool) (rn rd : Reg) (off : BitVec 12) : Statement (.ldrImm c p u w rn rd off) :=
  fun _ => decode_sdtImmWord ..

theorem ldrReg (c : Cond) (p u w : Bool) (rn rd : Reg) (o : ShiftedReg) : Statement (.ldrReg c p u w rn rd o) :=
  fun h => decode_sdtRegWord (h := h) ..

theorem strImm (c : Cond) (p u w : Bool) (rn rd : Reg) (off : BitVec 12) : Statement (.strImm c p u w rn rd off) :=
  fun _ => decode_sdtImmWord ..

theorem strReg (c : Cond) (p u w : Bool) (rn rd : Reg) (o : ShiftedReg) : Statement (.strReg c p u w rn rd o) :=
  fun h => decode_sdtRegWord (h := h) ..

theorem ldrbImm (c : Cond) (p u w : Bool) (rn rd : Reg) (off : BitVec 12) : Statement (.ldrbImm c p u w rn rd off) :=
  fun _ => decode_sdtImmWord ..

theorem ldrbReg (c : Cond) (p u w : Bool) (rn rd : Reg) (o : ShiftedReg) : Statement (.ldrbReg c p u w rn rd o) :=
  fun h => decode_sdtRegWord (h := h) ..

theorem strbImm (c : Cond) (p u w : Bool) (rn rd : Reg) (off : BitVec 12) : Statement (.strbImm c p u w rn rd off) :=
  fun _ => decode_sdtImmWord ..

theorem strbReg (c : Cond) (p u w : Bool) (rn rd : Reg) (o : ShiftedReg) : Statement (.strbReg c p u w rn rd o) :=
  fun h => decode_sdtRegWord (h := h) ..

theorem undefinedA (c : Cond) (x : BitVec 20) (y : BitVec 4) : Statement (.undefinedA c x y) :=
  fun _ => decode_undefinedAWord ..

theorem undefinedB (c : Cond) (x : BitVec 16) (y : BitVec 2) (z : BitVec 4) : Statement (.undefinedB c x y z) :=
  fun _ => decode_undefinedBWord ..

theorem ldm (c : Cond) (p u s w : Bool) (rn : Reg) (list : BitVec 16) : Statement (.ldm c p u s w rn list) :=
  fun _ => decode_bdtWord ..

theorem stm (c : Cond) (p u s w : Bool) (rn : Reg) (list : BitVec 16) : Statement (.stm c p u s w rn list) :=
  fun _ => decode_bdtWord ..

theorem b (c : Cond) (off : BitVec 24) : Statement (.b c off) :=
  fun _ => decode_branchWord ..

theorem bl (c : Cond) (off : BitVec 24) : Statement (.bl c off) :=
  fun _ => decode_branchWord ..

theorem ldc (c : Cond) (p u n w : Bool) (rn crd cp : Reg) (off : BitVec 8) : Statement (.ldc c p u n w rn crd cp off) :=
  fun _ => decode_cdtWord ..

theorem stc (c : Cond) (p u n w : Bool) (rn crd cp : Reg) (off : BitVec 8) : Statement (.stc c p u n w rn crd cp off) :=
  fun _ => decode_cdtWord ..

theorem cdp (c : Cond) (opc : BitVec 4) (crn crd cp : Reg) (info : BitVec 3) (crm : Reg) : Statement (.cdp c opc crn crd cp info crm) :=
  fun _ => decode_cdpWord ..

theorem mrc (c : Cond) (opc : BitVec 3) (crn rd cp : Reg) (info : BitVec 3) (crm : Reg) : Statement (.mrc c opc crn rd cp info crm) :=
  fun _ => decode_crtWord ..

theorem mcr (c : Cond) (opc : BitVec 3) (crn rd cp : Reg) (info : BitVec 3) (crm : Reg) : Statement (.mcr c opc crn rd cp info crm) :=
  fun _ => decode_crtWord ..

theorem swi (c : Cond) (comment : BitVec 24) : Statement (.swi c comment) :=
  fun _ => decode_swiWord ..

end Sys2Proof.Laws.RoundTrip
end

