-- ==== Sys2Proof/Machine/Run.lean ====
section
/-! DEFINITION. Runs of the machine, and what ends one: the parameter `end_of_run` of spec/00_scope.md R8 (D12). -/

namespace Sys2Proof.Machine

/-- The instances of `end_of_run` that D12 suggests. A run takes any predicate of the state. -/
inductive EndOfRun where
  /-- The PC reaches the byte address. -/
  | reaches (a : Addr)
  /-- The branch to itself, 0xEAFFFFFE, is about to execute with interrupts masked or absent. -/
  | loops
  /-- The software interrupt with this comment is about to be taken. -/
  | calls (comment : BitVec 24)
deriving DecidableEq, Repr

/-- Are FIQ and IRQ masked, or requested neither now nor by any later input? -/
def State.noInterrupts (s : State) : Bool :=
  let quiet (y : Sync) (low : Inputs → Bool) : Bool := !y.last && !y.before && s.inputs.all (fun e => !low e)
  (s.psr.f || quiet s.fiqSync (·.fiqLow)) && (s.psr.i || quiet s.irqSync (·.irqLow))

/-- Is the run at its end (R8, D12)? -/
def EndOfRun.holds (e : EndOfRun) (s : State) : Bool :=
  match e with
  | .reaches a => s.addr == a
  | .loops => !s.fetched.invalid && s.fetched.word == 0xEAFFFFFE && s.noInterrupts
  | .calls n =>
    !s.fetched.invalid && match decodeWord s.fetched.word with
      | .swi c m => condPassed c s.psr && m == n
      | _ => false

/-- At most `n` steps, ending where `ended` holds; the last state answered need not be at the end when the steps run out. -/
def runUntil (ended : State → Bool) : Nat → State → Result
  | 0, s => .next s
  | n + 1, s =>
    if ended s then .next s
    else match step s with
      | .next t => runUntil ended n t
      | .fault e => .fault e
      | .refused e => .refused e

end Sys2Proof.Machine
end

