-- ==== Sys2Proof/Tests/Slice0.lean ====
section
/-! SUPPORT. Tests: ill-formed terms, one word of every constructor written out from the encodings of spec/30_encoding.md,
one or two steps of every family, and for every statement a state and operands that meet its hypotheses. -/

namespace Sys2Proof.Tests

open Sys2Proof.Machine Sys2Proof.Spec

/-- A machine at byte address `a` with status `psr` (the PSR bits of R15), some registers and some words of memory. -/
def machine (psr : Word) (a : Nat) (regs : List (PReg × Word)) (mem : List (Addr × Word)) : State :=
  { State.reset with
    psr := State.reset.psr.written psr
    pc := BitVec.ofNat 24 (a / 4)
    regs := regs.foldl (fun g e => g.set e.1 e.2) Regs.zero
    mem := mem.foldl (fun m e => writeWord m e.1 e.2) [] }

/-- The same machine, data accesses at the given addresses answered with ABORT. -/
def aborting (s : State) (at' : List Nat) : State :=
  { s with memSystem := at'.map fun a =>
      { lo := a, hi := a, write := none, size := none, opc := some false, trans := none, mode := none,
        answer := .abort } }

/-- One step of the word `w`. -/
def run (s : State) (w : Nat) : Result :=
  step (s.withFetchWord 32 w)

/-- What a test looks at in the next state: a register, R15 as one word, a word of memory. -/
inductive Probe where
  | reg (p : PReg) (v : Word)
  | r15 (v : Word)
  | word (a : Addr) (v : Word)

def Probe.holds (t : State) : Probe → Bool
  | .reg p v => t.regs.get p == v
  | .r15 v => t.r15 == v
  | .word a v => readWord t.mem a == v

/-- The step answers a next state in which every probe holds. -/
def sees (r : Result) (ps : List Probe) : Bool :=
  match r with
  | .next t => ps.all (·.holds t)
  | _ => false

/-! ## Ill-formed terms (spec/42_data_processing.md R165 to R168)

A shift amount that no encoding has, in each instruction that holds one. -/

theorem test_lsl_32_is_ill_formed : (Instr.andShift .al false 1 2 ⟨3, .lsl 32⟩).wellFormed = false := by decide
theorem test_lsr_0_is_ill_formed : (Instr.ldrReg .al true true false 1 2 ⟨3, .lsr 0⟩).wellFormed = false := by decide
theorem test_lsr_33_is_ill_formed : (Instr.cmpShift .al 1 2 ⟨3, .lsr 33⟩).wellFormed = false := by decide
theorem test_asr_0_is_ill_formed : (Instr.movShift .al false 1 2 ⟨3, .asr 0⟩).wellFormed = false := by decide
theorem test_asr_33_is_ill_formed : (Instr.strbReg .al true true false 1 2 ⟨3, .asr 33⟩).wellFormed = false := by decide
theorem test_ror_0_is_ill_formed : (Instr.tstShiftS0 .al 1 2 ⟨3, .ror 0⟩).wellFormed = false := by decide
theorem test_ror_32_is_ill_formed : (Instr.subShift .al false 1 2 ⟨3, .ror 32⟩).wellFormed = false := by decide

/-- Every instruction with a shift amount in its word has the check. -/
theorem test_every_shift_is_checked :
    [Instr.andShift .al false 1 2 ⟨3, .lsl 32⟩, .eorShift .al false 1 2 ⟨3, .lsl 32⟩, .subShift .al false 1 2 ⟨3, .lsl 32⟩,
      .rsbShift .al false 1 2 ⟨3, .lsl 32⟩, .addShift .al false 1 2 ⟨3, .lsl 32⟩, .adcShift .al false 1 2 ⟨3, .lsl 32⟩,
      .sbcShift .al false 1 2 ⟨3, .lsl 32⟩, .rscShift .al false 1 2 ⟨3, .lsl 32⟩, .tstShift .al 1 2 ⟨3, .lsl 32⟩,
      .tstShiftS0 .al 1 2 ⟨3, .lsl 32⟩, .teqShift .al 1 2 ⟨3, .lsl 32⟩, .teqShiftS0 .al 1 2 ⟨3, .lsl 32⟩,
      .cmpShift .al 1 2 ⟨3, .lsl 32⟩, .cmpShiftS0 .al 1 2 ⟨3, .lsl 32⟩, .cmnShift .al 1 2 ⟨3, .lsl 32⟩,
      .cmnShiftS0 .al 1 2 ⟨3, .lsl 32⟩, .orrShift .al false 1 2 ⟨3, .lsl 32⟩, .movShift .al false 1 2 ⟨3, .lsl 32⟩,
      .bicShift .al false 1 2 ⟨3, .lsl 32⟩, .mvnShift .al false 1 2 ⟨3, .lsl 32⟩, .ldrReg .al true true false 1 2 ⟨3, .lsl 32⟩,
      .strReg .al true true false 1 2 ⟨3, .lsl 32⟩, .ldrbReg .al true true false 1 2 ⟨3, .lsl 32⟩,
      .strbReg .al true true false 1 2 ⟨3, .lsl 32⟩].all (fun i => !i.wellFormed) = true := by decide

/-! ## Decoding: field by field from spec/30_encoding.md R103 to R118 -/

theorem test_decode_andImm :
    decodeWord 0b0000_00_1_0000_0_0001_0010_0100_10100110 =
      .andImm .eq false 1 2 ⟨4, 166⟩ := by decide
theorem test_decode_andShift :
    decodeWord 0b0011_00_0_0000_0_0110_1001_10110_10_0_1011 =
      .andShift .cc false 6 9 ⟨11, .asr 22⟩ := by decide
theorem test_decode_andRegShift :
    decodeWord 0b0110_00_0_0000_1_1011_0000_1111_0_11_1_1110 =
      .andRegShift .vs true 11 0 ⟨14, .ror, 15⟩ := by decide
theorem test_decode_eorImm :
    decodeWord 0b1001_00_1_0001_1_0000_0111_1101_00010101 =
      .eorImm .ls true 0 7 ⟨13, 21⟩ := by decide
theorem test_decode_eorShift :
    decodeWord 0b1100_00_0_0001_1_0101_1110_00000_01_0_0100 =
      .eorShift .gt true 5 14 ⟨4, .lsr 32⟩ := by decide
theorem test_decode_eorRegShift :
    decodeWord 0b1111_00_0_0001_0_1010_0101_1010_0_10_1_0111 =
      .eorRegShift .nv false 10 5 ⟨7, .asr, 10⟩ := by decide
theorem test_decode_subImm :
    decodeWord 0b0010_00_1_0010_0_1111_1100_0110_10000100 =
      .subImm .cs false 15 12 ⟨6, 132⟩ := by decide
theorem test_decode_subShift :
    decodeWord 0b0101_00_0_0010_0_0100_0011_11000_00_0_1101 =
      .subShift .pl false 4 3 ⟨13, .lsl 24⟩ := by decide
theorem test_decode_subRegShift :
    decodeWord 0b1000_00_0_0010_1_1001_1010_0101_0_01_1_0000 =
      .subRegShift .hi true 9 10 ⟨0, .lsr, 5⟩ := by decide
theorem test_decode_rsbImm :
    decodeWord 0b1011_00_1_0011_1_1110_0001_1111_11110011 =
      .rsbImm .lt true 14 1 ⟨15, 243⟩ := by decide
theorem test_decode_rsbShift :
    decodeWord 0b1110_00_0_0011_1_0011_1000_11001_11_0_0110 =
      .rsbShift .al true 3 8 ⟨6, .ror 25⟩ := by decide
theorem test_decode_rsbRegShift :
    decodeWord 0b0001_00_0_0011_0_1000_1111_0000_0_00_1_1001 =
      .rsbRegShift .ne false 8 15 ⟨9, .lsl, 0⟩ := by decide
theorem test_decode_addImm :
    decodeWord 0b0100_00_1_0100_0_1101_0110_1000_01100010 =
      .addImm .mi false 13 6 ⟨8, 98⟩ := by decide
theorem test_decode_addShift :
    decodeWord 0b0111_00_0_0100_0_0010_1101_11010_10_0_1111 =
      .addShift .vc false 2 13 ⟨15, .asr 26⟩ := by decide
theorem test_decode_addRegShift :
    decodeWord 0b1010_00_0_0100_1_0111_0100_1011_0_11_1_0010 =
      .addRegShift .ge true 7 4 ⟨2, .ror, 11⟩ := by decide
theorem test_decode_adcImm :
    decodeWord 0b1101_00_1_0101_1_1100_1011_0001_11010001 =
      .adcImm .le true 12 11 ⟨1, 209⟩ := by decide
theorem test_decode_adcShift :
    decodeWord 0b0000_00_0_0101_1_0001_0010_11011_01_0_1000 =
      .adcShift .eq true 1 2 ⟨8, .lsr 27⟩ := by decide
theorem test_decode_adcRegShift :
    decodeWord 0b0011_00_0_0101_0_0110_1001_0110_0_10_1_1011 =
      .adcRegShift .cc false 6 9 ⟨11, .asr, 6⟩ := by decide
theorem test_decode_sbcImm :
    decodeWord 0b0110_00_1_0110_0_1011_0000_1010_01000000 =
      .sbcImm .vs false 11 0 ⟨10, 64⟩ := by decide
theorem test_decode_sbcShift :
    decodeWord 0b1001_00_0_0110_0_0000_0111_00000_00_0_0001 =
      .sbcShift .ls false 0 7 ⟨1, .lsl 0⟩ := by decide
theorem test_decode_sbcRegShift :
    decodeWord 0b1100_00_0_0110_1_0101_1110_0001_0_01_1_0100 =
      .sbcRegShift .gt true 5 14 ⟨4, .lsr, 1⟩ := by decide
theorem test_decode_rscImm :
    decodeWord 0b1111_00_1_0111_1_1010_0101_0011_10101111 =
      .rscImm .nv true 10 5 ⟨3, 175⟩ := by decide
theorem test_decode_rscShift :
    decodeWord 0b0010_00_0_0111_1_1111_1100_11101_11_0_1010 =
      .rscShift .cs true 15 12 ⟨10, .ror 29⟩ := by decide
theorem test_decode_rscRegShift :
    decodeWord 0b0101_00_0_0111_0_0100_0011_1100_0_00_1_1101 =
      .rscRegShift .pl false 4 3 ⟨13, .lsl, 12⟩ := by decide
theorem test_decode_tstImm :
    decodeWord 0b1000_00_1_1000_1_1001_1010_1100_00011110 =
      .tstImm .hi 9 10 ⟨12, 30⟩ := by decide
theorem test_decode_tstImmS0 :
    decodeWord 0b1011_00_1_1000_0_1110_0001_1111_01000011 =
      .tstImmS0 .lt 14 1 ⟨15, 67⟩ := by decide
theorem test_decode_tstShift :
    decodeWord 0b1110_00_0_1000_1_0011_1000_01001_11_0_0110 =
      .tstShift .al 3 8 ⟨6, .ror 9⟩ := by decide
theorem test_decode_tstShiftS0 :
    decodeWord 0b0001_00_0_1000_0_1000_1111_10100_00_0_1001 =
      .tstShiftS0 .ne 8 15 ⟨9, .lsl 20⟩ := by decide
theorem test_decode_tstRegShift :
    decodeWord 0b0100_00_0_1000_1_1101_0110_1001_0_01_1_1100 =
      .tstRegShift .mi 13 6 ⟨12, .lsr, 9⟩ := by decide
theorem test_decode_tstRegShiftS0 :
    decodeWord 0b0111_00_0_1000_0_0010_1101_0010_0_10_1_1111 =
      .tstRegShiftS0 .vc 2 13 ⟨15, .asr, 2⟩ := by decide
theorem test_decode_teqImm :
    decodeWord 0b1010_00_1_1001_1_0111_0100_1110_11111100 =
      .teqImm .ge 7 4 ⟨14, 252⟩ := by decide
theorem test_decode_teqImmS0 :
    decodeWord 0b1101_00_1_1001_0_1100_1011_0001_00100001 =
      .teqImmS0 .le 12 11 ⟨1, 33⟩ := by decide
theorem test_decode_teqShift :
    decodeWord 0b0000_00_0_1001_1_0001_0010_01011_01_0_1000 =
      .teqShift .eq 1 2 ⟨8, .lsr 11⟩ := by decide
theorem test_decode_teqShiftS0 :
    decodeWord 0b0011_00_0_1001_0_0110_1001_10110_10_0_1011 =
      .teqShiftS0 .cc 6 9 ⟨11, .asr 22⟩ := by decide
theorem test_decode_teqRegShift :
    decodeWord 0b0110_00_0_1001_1_1011_0000_1111_0_11_1_1110 =
      .teqRegShift .vs 11 0 ⟨14, .ror, 15⟩ := by decide
theorem test_decode_teqRegShiftS0 :
    decodeWord 0b1001_00_0_1001_0_0000_0111_1000_0_00_1_0001 =
      .teqRegShiftS0 .ls 0 7 ⟨1, .lsl, 8⟩ := by decide
theorem test_decode_cmpImm :
    decodeWord 0b1100_00_1_1010_1_0101_1110_0000_11011010 =
      .cmpImm .gt 5 14 ⟨0, 218⟩ := by decide
theorem test_decode_cmpImmS0 :
    decodeWord 0b1111_00_1_1010_0_1010_0101_0011_11111111 =
      .cmpImmS0 .nv 10 5 ⟨3, 255⟩ := by decide
theorem test_decode_cmpShift :
    decodeWord 0b0010_00_0_1010_1_1111_1100_01101_11_0_1010 =
      .cmpShift .cs 15 12 ⟨10, .ror 13⟩ := by decide
theorem test_decode_cmpShiftS0 :
    decodeWord 0b0101_00_0_1010_0_0100_0011_00000_00_0_1101 =
      .cmpShiftS0 .pl 4 3 ⟨13, .lsl 0⟩ := by decide
theorem test_decode_cmpRegShift :
    decodeWord 0b1000_00_0_1010_1_1001_1010_0101_0_01_1_0000 =
      .cmpRegShift .hi 9 10 ⟨0, .lsr, 5⟩ := by decide
theorem test_decode_cmpRegShiftS0 :
    decodeWord 0b1011_00_0_1010_0_1110_0001_1110_0_10_1_0011 =
      .cmpRegShiftS0 .lt 14 1 ⟨3, .asr, 14⟩ := by decide
theorem test_decode_cmnImm :
    decodeWord 0b1110_00_1_1011_1_0011_1000_0010_10111000 =
      .cmnImm .al 3 8 ⟨2, 184⟩ := by decide
theorem test_decode_cmnImmS0 :
    decodeWord 0b0001_00_1_1011_0_1000_1111_0101_11011101 =
      .cmnImmS0 .ne 8 15 ⟨5, 221⟩ := by decide
theorem test_decode_cmnShift :
    decodeWord 0b0100_00_0_1011_1_1101_0110_00000_01_0_1100 =
      .cmnShift .mi 13 6 ⟨12, .lsr 32⟩ := by decide
theorem test_decode_cmnShiftS0 :
    decodeWord 0b0111_00_0_1011_0_0010_1101_11010_10_0_1111 =
      .cmnShiftS0 .vc 2 13 ⟨15, .asr 26⟩ := by decide
theorem test_decode_cmnRegShift :
    decodeWord 0b1010_00_0_1011_1_0111_0100_1011_0_11_1_0010 =
      .cmnRegShift .ge 7 4 ⟨2, .ror, 11⟩ := by decide
theorem test_decode_cmnRegShiftS0 :
    decodeWord 0b1101_00_0_1011_0_1100_1011_0100_0_00_1_0101 =
      .cmnRegShiftS0 .le 12 11 ⟨5, .lsl, 4⟩ := by decide
theorem test_decode_orrImm :
    decodeWord 0b0000_00_1_1100_0_0001_0010_0100_10010110 =
      .orrImm .eq false 1 2 ⟨4, 150⟩ := by decide
theorem test_decode_orrShift :
    decodeWord 0b0011_00_0_1100_0_0110_1001_00000_10_0_1011 =
      .orrShift .cc false 6 9 ⟨11, .asr 32⟩ := by decide
theorem test_decode_orrRegShift :
    decodeWord 0b0110_00_0_1100_1_1011_0000_1111_0_11_1_1110 =
      .orrRegShift .vs true 11 0 ⟨14, .ror, 15⟩ := by decide
theorem test_decode_movImm :
    decodeWord 0b1001_00_1_1101_1_0000_0111_1101_00000101 =
      .movImm .ls true 0 7 ⟨13, 5⟩ := by decide
theorem test_decode_movShift :
    decodeWord 0b1100_00_0_1101_1_0101_1110_00111_01_0_0100 =
      .movShift .gt true 5 14 ⟨4, .lsr 7⟩ := by decide
theorem test_decode_movRegShift :
    decodeWord 0b1111_00_0_1101_0_1010_0101_1010_0_10_1_0111 =
      .movRegShift .nv false 10 5 ⟨7, .asr, 10⟩ := by decide
theorem test_decode_bicImm :
    decodeWord 0b0010_00_1_1110_0_1111_1100_0110_01110100 =
      .bicImm .cs false 15 12 ⟨6, 116⟩ := by decide
theorem test_decode_bicShift :
    decodeWord 0b0101_00_0_1110_0_0100_0011_01000_00_0_1101 =
      .bicShift .pl false 4 3 ⟨13, .lsl 8⟩ := by decide
theorem test_decode_bicRegShift :
    decodeWord 0b1000_00_0_1110_1_1001_1010_0101_0_01_1_0000 =
      .bicRegShift .hi true 9 10 ⟨0, .lsr, 5⟩ := by decide
theorem test_decode_mvnImm :
    decodeWord 0b1011_00_1_1111_1_1110_0001_1111_11100011 =
      .mvnImm .lt true 14 1 ⟨15, 227⟩ := by decide
theorem test_decode_mvnShift :
    decodeWord 0b1110_00_0_1111_1_0011_1000_01001_11_0_0110 =
      .mvnShift .al true 3 8 ⟨6, .ror 9⟩ := by decide
theorem test_decode_mvnRegShift :
    decodeWord 0b0001_00_0_1111_0_1000_1111_0000_0_00_1_1001 =
      .mvnRegShift .ne false 8 15 ⟨9, .lsl, 0⟩ := by decide
theorem test_decode_mul : decodeWord 0b1110_000000_0_1_0011_0101_0110_1001_0111 = .mul .al true 3 5 6 7 := by decide
theorem test_decode_mla : decodeWord 0b0001_000000_1_0_0011_0101_0110_1001_0111 = .mla .ne false 3 5 6 7 := by decide
theorem test_decode_unallocB : decodeWord 0b1110_0000_1000000000000001_1_01_1_0101 = .unallocB .al 0x8001 5 := by decide
theorem test_decode_unallocD :
    decodeWord 0b1110_0000_0100000000000010_1_10_1_1010 =
      .unallocD .al 0x4002 10 := by decide
theorem test_decode_unallocF : decodeWord 0b1110_0000_0010000000000100_1_11_1_0011 = .unallocF .al 0x2004 3 := by decide
theorem test_decode_unalloc4 : decodeWord 0b1110_0000_01_10000000000001_1001_0110 = .unalloc4 .al 0x2001 6 := by decide
theorem test_decode_unalloc8 : decodeWord 0b1110_0000_10_01000000000010_1001_1001 = .unalloc8 .al 0x1002 9 := by decide
theorem test_decode_unallocC : decodeWord 0b1110_0000_11_00100000000100_1001_1100 = .unallocC .al 0x804 12 := by decide
theorem test_decode_ldrImm :
    decodeWord 0b1110_01_0_1_0_0_0_1_0111_1100_001010101000 =
      .ldrImm .al true false false 7 12 680 := by decide
theorem test_decode_ldrReg :
    decodeWord 0b1110_01_1_0_1_0_0_1_1100_1111_01010_01_0_1110 =
      .ldrReg .al false true false 12 15 ⟨14, .lsr 10⟩ := by decide
theorem test_decode_strImm :
    decodeWord 0b1110_01_0_1_1_0_0_0_0001_0010_011111110110 =
      .strImm .al true true false 1 2 2038 := by decide
theorem test_decode_strReg :
    decodeWord 0b1110_01_1_0_0_0_1_0_0110_0101_10100_10_0_1100 =
      .strReg .al false false true 6 5 ⟨12, .asr 20⟩ := by decide
theorem test_decode_ldrbImm :
    decodeWord 0b1110_01_0_1_0_1_1_1_1011_1000_110101000100 =
      .ldrbImm .al true false true 11 8 3396 := by decide
theorem test_decode_ldrbReg :
    decodeWord 0b1110_01_1_0_1_1_1_1_0000_1011_11110_11_0_1010 =
      .ldrbReg .al false true true 0 11 ⟨10, .ror 30⟩ := by decide
theorem test_decode_strbImm :
    decodeWord 0b1110_01_0_1_1_1_1_0_0101_1110_001010010010 =
      .strbImm .al true true true 5 14 658 := by decide
theorem test_decode_strbReg :
    decodeWord 0b1110_01_1_0_0_1_0_0_1010_0001_01000_00_0_1000 =
      .strbReg .al false false false 10 1 ⟨8, .lsl 8⟩ := by decide
theorem test_decode_undefinedA :
    decodeWord 0b1110_011_10000000000000000001_1_0110 =
      .undefinedA .al 0x80001 6 := by decide
theorem test_decode_undefinedB :
    decodeWord 0b1110_0001_1000000000000001_1_10_1_0101 =
      .undefinedB .al 0x8001 2 5 := by decide
theorem test_decode_ldm :
    decodeWord 0b1110_100_0_1_1_0_1_1101_1000000000000110 =
      .ldm .al false true true false 13 0x8006 := by decide
theorem test_decode_stm :
    decodeWord 0b1110_100_1_0_0_1_0_1101_0100000000000011 =
      .stm .al true false false true 13 0x4003 := by decide
theorem test_decode_b : decodeWord 0b1101_101_0_100000000000000000000001 = .b .le 0x800001 := by decide
theorem test_decode_bl : decodeWord 0b1011_101_1_000000000000000000000010 = .bl .lt 2 := by decide
theorem test_decode_ldc :
    decodeWord 0b1110_110_1_0_1_0_1_0101_0110_0111_10000001 =
      .ldc .al true false true false 5 6 7 0x81 := by decide
theorem test_decode_stc :
    decodeWord 0b1110_110_0_1_0_1_0_0101_0110_0111_01000010 =
      .stc .al false true false true 5 6 7 0x42 := by decide
theorem test_decode_cdp : decodeWord 0b1110_1110_1010_0010_0011_0100_101_0_0110 = .cdp .al 10 2 3 4 5 6 := by decide
theorem test_decode_mrc : decodeWord 0b1110_1110_101_1_0010_0011_0100_110_1_0111 = .mrc .al 5 2 3 4 6 7 := by decide
theorem test_decode_mcr : decodeWord 0b1110_1110_011_0_0010_0011_0100_001_1_0111 = .mcr .al 3 2 3 4 1 7 := by decide
theorem test_decode_swi : decodeWord 0b1100_1111_100100011010001010110011 = .swi .gt 0x91A2B3 := by decide

/-! ## Steps of spec/95_test_vectors.md -/

/-- spec/95_test_vectors.md B1. -/
theorem test_b_back :
  sees (run (machine 0x0 0x100 [(.r14, 0xDEADBEEF)] []) 0xEAFFFFFE) [.reg .r14 0xDEADBEEF,
    .r15 0x100] = true := by decide

/-- spec/95_test_vectors.md B6. -/
theorem test_bl_wraps :
  sees (run (machine 0xC000003 0x3FFFFFC [(.r14Svc, 0xDEADBEEF)] []) 0xEB000000) [.reg .r14Svc 0xC000003,
    .r15 0xC000007] = true := by decide

/-- spec/95_test_vectors.md DP3. -/
theorem test_andShift :
  sees (run (machine 0x0 0x8000 [(.r1, 0xFFFFFFFF), (.r2, 0x3)] []) 0xE01100A2) [.reg .r0 0x1,
    .r15 0x20008004] = true := by decide

/-- spec/95_test_vectors.md DP1. -/
theorem test_andImm :
  sees (run (machine 0x30000000 0x8000 [(.r1, 0x12345678)] []) 0xE21100FF) [.reg .r0 0x78,
    .r15 0x30008004] = true := by decide

/-- spec/95_test_vectors.md DP4. -/
theorem test_eorShift :
  sees (run (machine 0x60000000 0x8000 [(.r2, 0xFF00FF00), (.r3, 0xFF00FF0)] []) 0xE0322003) [.reg .r2 0xF0F0F0F0,
    .r15 0xA0008004] = true := by decide

/-- spec/95_test_vectors.md DP9. -/
theorem test_subImm_overflow :
  sees (run (machine 0x0 0x8000 [(.r1, 0x80000000)] []) 0xE2510001) [.reg .r0 0x7FFFFFFF,
    .r15 0x30008004] = true := by decide

/-- spec/95_test_vectors.md P8. -/
theorem test_subImm_returns :
  sees (run (machine 0x8000002 0x8000 [(.r14Irq, 0x60008010)] []) 0xE25EF004) [.r15 0x6000800C] = true := by decide

/-- spec/95_test_vectors.md DP7. -/
theorem test_subShift_borrow :
  sees (run (machine 0x0 0x8000 [(.r1, 0x3), (.r2, 0x5)] []) 0xE0510002) [.reg .r0 0xFFFFFFFE,
    .r15 0x80008004] = true := by decide

/-- spec/95_test_vectors.md DP12. -/
theorem test_rsbImm :
  sees (run (machine 0x0 0x8000 [(.r0, 0x80000000)] []) 0xE2700000) [.reg .r0 0x80000000,
    .r15 0x90008004] = true := by decide

/-- spec/95_test_vectors.md DP51. -/
theorem test_rsbShift :
  sees (run (machine 0x0 0x8000 [(.r0, 0x7)] []) 0xE0600180) [.reg .r0 0x31, .r15 0x8004] = true := by decide

/-- spec/95_test_vectors.md P2. -/
theorem test_addImm_r15 :
  sees (run (machine 0xA4000003 0x8000 [] []) 0xE28F0000) [.reg .r0 0x8008, .r15 0xA4008007] = true := by decide

/-- spec/95_test_vectors.md DP18. -/
theorem test_addShift :
  sees (run (machine 0x0 0x8000 [(.r1, 0x80000000), (.r2, 0x80000000)] []) 0xE0910002) [.reg .r0 0x0,
    .r15 0x70008004] = true := by decide

/-- spec/95_test_vectors.md P4. -/
theorem test_addRegShift_r15 :
  sees (run (machine 0xA4000003 0x8000 [(.r1, 0x0), (.r2, 0x0)] []) 0xE08F0211) [.reg .r0 0x800C,
    .r15 0xA4008007] = true := by decide

/-- spec/95_test_vectors.md DP21. -/
theorem test_adcShift :
  sees (run (machine 0x20000000 0x8000 [(.r1, 0x7FFFFFFF), (.r2, 0x0)] []) 0xE0B10002) [.reg .r0 0x80000000,
    .r15 0x90008004] = true := by decide

/-- spec/95_test_vectors.md DP24. -/
theorem test_sbcShift :
  sees (run (machine 0x0 0x8000 [(.r1, 0x80000000), (.r2, 0x0)] []) 0xE0D10002) [.reg .r0 0x7FFFFFFF,
    .r15 0x30008004] = true := by decide

/-- spec/95_test_vectors.md DP27. -/
theorem test_rscImm :
  sees (run (machine 0x20000000 0x8000 [(.r1, 0x7)] []) 0xE2F11000) [.reg .r1 0xFFFFFFF9,
    .r15 0x80008004] = true := by decide

/-- spec/95_test_vectors.md DP29. -/
theorem test_tstImm :
  sees (run (machine 0x0 0x8000 [(.r0, 0x80000000)] []) 0xE3100102) [.r15 0xA0008004] = true := by decide

/-- spec/95_test_vectors.md DP31. -/
theorem test_teqShift :
  sees (run (machine 0x50000000 0x8000 [(.r4, 0x80000000), (.r5,
    0x0)] []) 0xE1340005) [.r15 0x90008004] = true := by decide

/-- spec/95_test_vectors.md P10. -/
theorem test_teqImm_psr :
  sees (run (machine 0xAC000003 0x8000 [] []) 0xE33FF000) [.r15 0x8004] = true := by decide

/-- spec/95_test_vectors.md DP34. -/
theorem test_cmpShift :
  sees (run (machine 0x0 0x8000 [(.r1, 0x80000000), (.r2, 0x1)] []) 0xE1510002) [.r15 0x30008004] = true := by decide

/-- spec/95_test_vectors.md P13. -/
theorem test_cmpImm_psr :
  sees (run (machine 0x3 0x8000 [(.r0, 0x4C000001)] []) 0xE350F000) [.r15 0x4C008005] = true := by decide

/-- spec/95_test_vectors.md DP37. -/
theorem test_cmnImm :
  sees (run (machine 0x0 0x8000 [(.r0, 0x7FFFFFFF)] []) 0xE3700001) [.r15 0x90008004] = true := by decide

/-- spec/95_test_vectors.md DP38. -/
theorem test_orrImm :
  sees (run (machine 0x0 0x8000 [(.r0, 0x1)] []) 0xE3900102) [.reg .r0 0x80000001,
    .r15 0xA0008004] = true := by decide

/-- spec/95_test_vectors.md DP43. -/
theorem test_movShift_rrx :
  sees (run (machine 0x20000000 0x8000 [(.r1, 0x1)] []) 0xE1B00061) [.reg .r0 0x80000000,
    .r15 0xA0008004] = true := by decide

/-- spec/95_test_vectors.md P3. -/
theorem test_movRegShift_r15 :
  sees (run (machine 0xA4000003 0x8000 [(.r1, 0x0)] []) 0xE1A0011F) [.reg .r0 0xA400800F,
    .r15 0xA4008007] = true := by decide

/-- spec/95_test_vectors.md DP46. -/
theorem test_movRegShift_ror :
  sees (run (machine 0x0 0x8000 [(.r1, 0x80000000), (.r2, 0x20)] []) 0xE1B00271) [.reg .r0 0x80000000,
    .r15 0xA0008004] = true := by decide

/-- spec/95_test_vectors.md P6. -/
theorem test_movShift_user :
  sees (run (machine 0x20000000 0x8000 [(.r14, 0x9C00A123)] []) 0xE1B0F00E) [.r15 0x9000A120] = true := by decide

/-- spec/95_test_vectors.md DP47. -/
theorem test_bicImm :
  sees (run (machine 0x0 0x8000 [(.r0, 0xA4008007)] []) 0xE3D003FF) [.reg .r0 0x8004,
    .r15 0x20008004] = true := by decide

/-- spec/95_test_vectors.md DP48. -/
theorem test_mvnImm :
  sees (run (machine 0x60000000 0x8000 [] []) 0xE3F00000) [.reg .r0 0xFFFFFFFF, .r15 0xA0008004] = true := by decide

/-- spec/95_test_vectors.md DP49. -/
theorem test_mvnShift :
  sees (run (machine 0x80000000 0x8000 [(.r1, 0xFFFFFFFF)] []) 0xE1F00001) [.reg .r0 0x0,
    .r15 0x40008004] = true := by decide

/-- spec/95_test_vectors.md M6. -/
theorem test_mul :
  sees (run (machine 0x0 0x8000 [(.r2, 0x12345678), (.r3, 0x9ABCDEF0)] []) 0xE0010392) [.reg .r1 0x242D2080,
    .r15 0x8004] = true := by decide

/-- spec/95_test_vectors.md M9. -/
theorem test_mla_rd_is_rn :
  sees (run (machine 0x0 0x8000 [(.r1, 0x5), (.r2, 0x3), (.r3, 0x4)] []) 0xE0211392) [.reg .r1 0x11,
    .r15 0x8004] = true := by decide

/-- spec/95_test_vectors.md ST10. -/
theorem test_ldrImm_rotates :
  sees (run (machine 0x0 0x8000 [(.r1, 0x9003)] [(0x9000, 0x44332211)]) 0xE5910000) [.reg .r0 0x33221144,
    .r15 0x8004] = true := by decide

/-- spec/95_test_vectors.md ST20. -/
theorem test_ldrImm_r15 :
  sees (run (machine 0x0 0x8000 [(.r1, 0x9000)] [(0x9000,
    0x44332211)]) 0xE591F000) [.r15 0x332210] = true := by decide

/-- spec/95_test_vectors.md ST14. -/
theorem test_ldrbImm :
  sees (run (machine 0x0 0x8000 [(.r3, 0x9002)] [(0x9000, 0x44332211)]) 0xE4D32001) [.reg .r2 0x33, .reg .r3 0x9003,
    .r15 0x8004] = true := by decide

/-- spec/95_test_vectors.md ST15. -/
theorem test_strImm_writes_back :
  sees (run (machine 0x0 0x8000 [(.r0, 0xCAFEBABE), (.r1, 0x9000)] [(0x9000,
    0x44332211)]) 0xE5A10004) [.reg .r1 0x9004, .r15 0x8004, .word 0x9000 0x44332211,
    .word 0x9004 0xCAFEBABE] = true := by decide

/-- spec/95_test_vectors.md ST17. -/
theorem test_strbImm :
  sees (run (machine 0x0 0x8000 [(.r2, 0x123456AB), (.r3, 0x9002)] [(0x9000,
    0x44332211)]) 0xE5432001) [.reg .r3 0x9002, .r15 0x8004, .word 0x9000 0x4433AB11] = true := by decide

/-- spec/95_test_vectors.md ST22. -/
theorem test_ldrImm_address_exception :
  sees (run (machine 0x0 0x8000 [(.r0, 0xDEAD), (.r1, 0x4000000)] [(0x9000,
    0x44332211)]) 0xE5910000) [.reg .r0 0xDEAD, .reg .r1 0x4000000, .r15 0x8000017] = true := by decide

/-- spec/95_test_vectors.md T5. -/
theorem test_swi_fiq :
  sees (run (machine 0x6C000001 0x100 [(.r14Svc, 0x11111111)] []) 0xEF000000) [.reg .r14Svc 0x6C000105,
    .r15 0x6C00000B] = true := by decide

/-- spec/95_test_vectors.md T3. -/
theorem test_swi_skipped :
  sees (run (machine 0x40000000 0x8000 [(.r14Svc, 0x11111111)] []) 0x1F123456) [.reg .r14Svc 0x11111111,
    .r15 0x40008004] = true := by decide

/-- spec/95_test_vectors.md T9. -/
theorem test_undefinedA :
  sees (run (machine 0x30000000 0x8000 [(.r14Svc, 0x11111111)] []) 0xE7FFFFFF) [.reg .r14Svc 0x30008004,
    .r15 0x38000007] = true := by decide

/-- spec/95_test_vectors.md T10. -/
theorem test_undefinedB :
  sees (run (machine 0x0 0x8000 [(.r14Svc, 0x11111111)] []) 0xE1000090) [.reg .r14Svc 0x8004,
    .r15 0x8000007] = true := by decide

/-- spec/95_test_vectors.md T12. -/
theorem test_cdp_absent :
  sees (run (machine 0x0 0x8000 [(.r14Svc, 0x11111111)] []) 0xEE000000) [.reg .r14Svc 0x8004,
    .r15 0x8000007] = true := by decide

/-- spec/95_test_vectors.md T13. -/
theorem test_mrc_absent :
  sees (run (machine 0x0 0x8000 [(.r14Svc, 0x11111111)] []) 0xEE100010) [.reg .r14Svc 0x8004,
    .r15 0x8000007] = true := by decide

/-- spec/95_test_vectors.md T14. -/
theorem test_mcr_absent :
  sees (run (machine 0x0 0x8000 [(.r14Svc, 0x11111111)] []) 0xEE000010) [.reg .r14Svc 0x8004,
    .r15 0x8000007] = true := by decide

/-- spec/95_test_vectors.md T15. -/
theorem test_ldc_absent :
  sees (run (machine 0x0 0x8000 [(.r14Svc, 0x11111111)] []) 0xED900000) [.reg .r14Svc 0x8004,
    .r15 0x8000007] = true := by decide

/-- spec/95_test_vectors.md T16. -/
theorem test_stc_absent :
  sees (run (machine 0x3 0x8000 [(.r14Svc, 0x11111111)] []) 0xED800000) [.reg .r14Svc 0x8007,
    .r15 0x8000007] = true := by decide

/-- spec/95_test_vectors.md L7. -/
theorem test_ldm_base_loaded :
  sees (run (machine 0x0 0x8000 [(.r0, 0x9000)] [(0x9000, 0x10000000), (0x9004,
    0x10000001)]) 0xE8B00003) [.reg .r0 0x10000000, .reg .r1 0x10000001, .r15 0x8004] = true := by decide

/-- spec/95_test_vectors.md L17. -/
theorem test_ldm_returns_to_user :
  sees (run (machine 0xC000003 0x8000 [(.r13Svc, 0x9000)] [(0x9000, 0x10000000), (0x9004, 0x10000001), (0x9004,
    0xA000A120)]) 0xE8FD8001) [.reg .r0 0x10000000, .reg .r13Svc 0x9008, .r15 0xA000A120] = true := by decide

/-- spec/95_test_vectors.md L14. -/
theorem test_stm_stores_new_base :
  sees (run (machine 0x0 0x8000 [(.r0, 0xA0000000), (.r1, 0x9020)] []) 0xE8A10003) [.reg .r1 0x9028, .r15 0x8004,
    .word 0x9020 0xA0000000, .word 0x9024 0x9028] = true := by decide

/-- spec/95_test_vectors.md L30. -/
theorem test_stm_aborted :
  sees (run (aborting (machine 0x0 0x8000 [(.r0, 0x9020), (.r1, 0xA0000001), (.r2, 0xA0000002), (.r3,
    0xA0000003)] []) [0x9024]) 0xE8A0000E) [.reg .r0 0x902C, .reg .r14Svc 0x8008, .r15 0x8000013,
    .word 0x9020 0xA0000001, .word 0x9024 0x0, .word 0x9028 0xA0000003] = true := by decide

/-! ## Co-processors that answer (spec/47_coprocessor.md, worked out by hand from the rules) -/

/-- Every co-processor answers every instruction so. -/
def answering (s : State) (r : CpReply) : State :=
  { s with
    coprocessors := (List.range 16).map fun n =>
      { cp := BitVec.ofNat 4 n, mask := 0, value := 0, mode := none, trans := none, reply := r } }

/-- R303: CDP, taken. -/
theorem test_cdp_taken :
    sees (run (answering (machine 0x0 0x8000 [] []) (.ready 5 [])) 0xEE000000) [.r15 0x8004] = true := by decide

/-- R299: CDP, the co-processor busy. -/
theorem test_cdp_waits :
    sees (run (answering (machine 0x0 0x8000 [] []) .busy) 0xEE000000) [.r15 0x8000] = true := by decide

/-- R312: MRC p0,0,R5,c0,c0. -/
theorem test_mrc_reads :
    sees (run (answering (machine 0x0 0x8000 [] []) (.ready 0x89ABCDEF [])) 0xEE105010)
      [.reg .r5 0x89ABCDEF, .r15 0x8004] = true := by decide

/-- R313: MRC p0,0,R15,c0,c0 takes N, Z, C, V from bits 31 to 28. -/
theorem test_mrc_flags :
    sees (run (answering (machine 0x0 0x8000 [] []) (.ready 0xA4000003 [])) 0xEE10F010) [.r15 0xA0008004] = true := by
  decide

/-- What co-processors have taken in a step. -/
def taken (r : Result) : Option (List CpEvent) :=
  match r with
  | .next t => some t.cpLog
  | _ => none

/-- R314: MCR p0,0,R15,c0,c0 sends R15 with the PSR, 12 bytes on. -/
theorem test_mcr_r15 :
    taken (run (answering (machine 0xA0000000 0x8000 [] []) (.ready 0 [])) 0xEE00F010) =
      some [⟨0xEE00F010, [0xA000800C]⟩] := by decide

/-- R305, R307: LDC p0,c0,[R0],#8 of two words: post-indexed, written back. -/
theorem test_ldc_two_words :
    taken (run (answering (machine 0x0 0x8000 [(.r0, 0x9000)] [(0x9000, 0x11), (0x9004, 0x22)]) (.ready 0 [0])) 0xECB00002) =
      some [⟨0xECB00002, [0x11, 0x22]⟩] := by decide

theorem test_ldc_writes_back :
    sees (run (answering (machine 0x0 0x8000 [(.r0, 0x9000)] []) (.ready 0 [0])) 0xECB00002)
      [.reg .r0 0x9008, .r15 0x8004] = true := by decide

/-- R295: p1 is present and takes its CDPs alone, p2 is absent. -/
def onlyP1 : State :=
  { machine 0x0 0x8000 [] [] with coprocessors := [⟨1, 0x0F000010, 0x0E000000, none, none, .ready 0 []⟩] }

theorem test_cdp_of_p1_taken : sees (run onlyP1 0xEE000100) [.r15 0x8004] = true := by decide

theorem test_cdp_of_p2_traps : sees (run onlyP1 0xEE000200) [.r15 0x8000007, .reg .r14Svc 0x8004] = true := by decide

/-- R316: p1 takes its instructions with TRANS HIGH alone; the same CDP in supervisor and in User mode. -/
def privilegedP1 (psr : Word) : State :=
  { machine psr 0x8000 [] [] with coprocessors := [⟨1, 0, 0, none, some false, .ready 0 []⟩] }

theorem test_privileged_cdp_taken : sees (run (privilegedP1 3) 0xEE000100) [.r15 0x8007] = true := by decide

theorem test_privileged_cdp_traps :
    sees (run (privilegedP1 0) 0xEE000100) [.r15 0x8000007, .reg .r14Svc 0x8004] = true := by decide

/-- R299, R90: another master writes the word of the instruction that waits for a co-processor; the word stays. -/
def waiting0 : State :=
  { answering (machine 0x0 0x8000 [] []) .busy with inputs := [{ Inputs.quiet with between := [[(0x8000, 0x11)]] }] }

/-- The word about to execute after a step, and the one that memory holds there. -/
def upcoming (r : Result) : Option (Word × Word) :=
  match r with
  | .next t => some (t.fetched.word, readWord t.mem t.addr)
  | _ => none

theorem test_waiting_word_stays : upcoming (run waiting0 0xEE000000) = some (0xEE000000, 0xEE000011) := by decide

/-- R306, R307: STC p0,c0,[R0,#-8] of two words. -/
theorem test_stc_two_words :
    sees (run (answering (machine 0x0 0x8000 [(.r0, 0x9010)] []) (.ready 0x33 [0x44])) 0xED000002)
      [.reg .r0 0x9010, .word 0x9008 0x33, .word 0x900C 0x44, .r15 0x8004] = true := by decide

/-! ## Encodings and forms without a meaning -/

/-- Why a step was refused. -/
def refusal (r : Result) : Option Refusal :=
  match r with
  | .refused e => some e
  | _ => none

theorem test_unallocated_multiply_refused :
    refusal (run (machine 0x0 0x8000 [] []) 0xE0400090) = some .unallocatedMultiply := by decide

theorem test_unallocated_test_refused :
    refusal (run (machine 0x0 0x8000 [] []) 0xE1000000) = some .unallocatedTest := by decide

theorem test_empty_list_refused :
    refusal (run (machine 0x0 0x8000 [] []) 0xE8900000) = some .emptyRegisterList := by decide

theorem test_load_writes_back_r15_refused :
    refusal (run (machine 0x0 0x8000 [] []) 0xE49F0004) = some .transferWritesBackR15 := by decide

/-! ## Interrupts, aborts and reset (spec/95_test_vectors.md, section 2.11) -/

/-- The machine at 0x8010, the pins at the three last boundaries LOW as given. -/
def interrupted (psr : Word) (fiq irq : Bool) : State :=
  { machine psr 0x8010 [(.r1, 0x9000)] [] with
    fiqSync := ⟨fiq, fiq⟩
    irqSync := ⟨irq, irq⟩
    inputs := [{ Inputs.quiet with fiqLow := fiq, irqLow := irq }] }

/-- E1. -/
theorem test_irq_taken :
    sees (step (interrupted 0x80000000 false true)) [.r15 0x8800001A, .reg .r14Irq 0x80008014] = true := by decide

/-- E2: MOV R0,R0 executes. -/
theorem test_irq_masked : sees (run (interrupted 0x88000000 false true) 0xE1A00000) [.r15 0x88008014] = true := by decide

/-- E4. -/
theorem test_fiq_before_irq :
    sees (step (interrupted 0x80000000 true true)) [.r15 0x8C00001D, .reg .r14Fiq 0x80008014] = true := by decide

/-- E8. -/
theorem test_prefetch_abort :
    sees (step { machine 0x20000000 0x8010 [] [] with pipe := [⟨0xE1A00000, true⟩] })
      [.r15 0x2800000F, .reg .r14Svc 0x20008014] = true := by decide

/-- E10: LDR R0,[R1]. -/
theorem test_data_abort :
    sees (run (aborting (machine 0x20000000 0x8010 [(.r1, 0x9000)] []) [0x9000]) 0xE5910000)
      [.r15 0x28000013, .reg .r14Svc 0x20008018] = true := by decide

/-- R392: RESET goes LOW. -/
theorem test_reset_entry :
    sees (step { machine 0xA0000000 0x8010 [(.r1, 7)] [] with resetHigh := true }) [.r15 0xAC000003, .reg .r1 7] = true := by
  decide

/-- R400: `MOV R13,R1` right after a change of mode without a write of the PC is refused; `MOV R1,R13` is not. -/
theorem test_unsettled_write_refused :
    refusal (run { machine 0x00000003 0x8000 [] [] with bank := .unsettled13 } 0xE1A0D001) = some .bankUnsettled := by decide

theorem test_unsettled_read_goes_on :
    sees (run { machine 0x00000003 0x8000 [] [] with bank := .unsettled13 } 0xE1A0100D) [.r15 0x8007] = true := by decide

/-- R391, R46: RESET abandons LDM R1,{R13}^ in supervisor mode: R13 of the User bank may be lost, R13_svc is not. -/
theorem test_reset_abandons_user_load :
    sees (run { machine 0x00000003 0x8000 [(.r1, 0x9000), (.r13Svc, 0x7777)] [] with
        inputs := [{ Inputs.quiet with reset := true, fiqLow := true }] } 0xE8D12000)
      [.reg .r1 0x9000, .reg .r13Svc 0x7777, .r15 0x8007] = true := by decide

/-! ## The outside: devices, other bus masters, parameters, the end of a run -/

/-- The word at 0x9000 is a device's, which reads as 0xAABBCCDD. -/
def device0 : State :=
  { machine 0x0 0x8000 [(.r1, 0x9000), (.r2, 0x12345678)] [] with
    memSystem := [⟨0x9000, 0x9003, none, none, some false, none, none, .device 0xAABBCCDD⟩] }

/-- R77, R235: LDRB R0,[R1,#1] from a device. -/
theorem test_device_read : sees (run device0 0xE5D10001) [.reg .r0 0xCC, .r15 0x8004] = true := by decide

/-- R77: STR R2,[R1] to a device leaves memory alone. -/
theorem test_device_write : sees (run device0 0xE5812000) [.word 0x9000 0, .r15 0x8004] = true := by decide

/-- R67, R82: another master writes 0x9004 between the two reads of LDM R1,{R2,R3}, and 0x9000 after the first. -/
theorem test_master_between_accesses :
    sees (run { machine 0x0 0x8000 [(.r1, 0x9000)] [(0x9000, 0x11), (0x9004, 0x22)] with
        inputs := [{ Inputs.quiet with between := [[], [(0x9000, 0x99), (0x9004, 0x33)]] }] } 0xE891000C)
      [.reg .r2 0x11, .reg .r3 0x33, .word 0x9000 0x99, .r15 0x8004] = true := by decide

/-- The reconstructed rules have no meaning (R4, D1). -/
def printed0 : State :=
  { machine 0x0 0x8000 [(.r14, 0x9000)] [] with params := ⟨false, .ignoreLowBits⟩ }

theorem test_reconstructed_refused : refusal (run printed0 0xE0810002) = some .reconstructed := by decide

/-- B and MOV PC,R14. -/
theorem test_printed_runs :
    sees (run printed0 0xEAFFFFFE) [.r15 0x8000] = true ∧ sees (run printed0 0xE1A0F00E) [.r15 0x9000] = true := by decide

/-- R8: a run ends at the branch to itself, at an address, at SWI 0x11. -/
theorem test_end_of_run :
    (EndOfRun.loops.holds (printed0.withFetchWord 32 0xEAFFFFFE) && (EndOfRun.reaches 0x8000).holds printed0 &&
      (EndOfRun.calls 0x11).holds (printed0.withFetchWord 32 0xEF000011) &&
      !(EndOfRun.calls 0x11).holds (printed0.withFetchWord 32 0x0F000011)) = true := by decide

/-- From reset, empty memory runs on to 0x0C. -/
theorem test_run_until : sees (runUntil (EndOfRun.reaches 0x0C).holds 5 State.reset) [.r15 0x0C00000F] = true := by decide

/-! ## The invariant, memory and a run from reset -/

theorem test_reset_inv : State.reset.Inv :=
  ⟨rfl, by decide, by decide, by decide⟩

/-- Reset memory reads as ANDEQ R0,R0,R0, which the first step executes (Z is clear: nothing but the PC changes). -/
theorem test_first_step : sees (step State.reset) [.r15 0x0C000007, .reg .r0 0] = true := by decide

theorem test_little_endian : readByte (writeWord [] 0x9000 0x44332211) 0x9001 = 0x22 := by decide

theorem test_write_of_zero_removes : writeWord (writeWord [] 0x9000 0x44332211) 0x9002 0 = [] := by decide

/-! ## The hypotheses of the statements can be met

For every statement that has hypotheses, a concrete state and operands that meet them together; at the ends of a range
where a clause has one. -/

/-- Does the result go on? -/
def goesOn (r : Result) : Bool :=
  match r with
  | .next _ => true
  | _ => false

theorem next_of_goesOn {r : Result} (h : goesOn r = true) : ∃ t, r = .next t := by
  cases r with
  | next t => exact ⟨t, rfl⟩
  | fault e => exact nomatch h
  | refused e => exact nomatch h

/-- User mode, N and C set, a base in R1. -/
def usr0 : State := machine 0xA0000000 0x8000 [(.r1, 0x9000), (.r2, 6), (.r3, 7)] [(0x9000, 0x44332211)]

/-- Supervisor mode, a base in R1. -/
def svc0 : State := machine 0x00000003 0x8000 [(.r1, 0x9000)] []

/-- `usr0` with the base outside the 26-bit space. -/
def far0 : State := machine 0xA0000000 0x8000 [(.r1, 0x4000000)] []

/-- `usr0` with the word at 0x9004 aborting. -/
def abort0 : State := aborting usr0 [0x9004]

/-- `usr0`, with another master that writes before the first two data accesses. -/
def shared0 : State := { usr0 with inputs := [{ Inputs.quiet with between := [[(0x9000, 0x55)], [(0x9004, 0x66)]] }] }

/-- `usr0`, with a device at 0x9000 to 0x9007. -/
def mapped0 : State :=
  { usr0 with memSystem := [⟨0x9000, 0x9007, none, none, some false, none, none, .device 0xAABBCCDD⟩] }

theorem witness_WellFormedInstructionsRoundTrip :
    [ImmShift.lsl 0, .lsl 31, .lsr 1, .lsr 32, .asr 1, .asr 32, .ror 1, .ror 31, .rrx].all
      (fun sh => (Instr.ldrReg .al true true false 1 2 ⟨3, sh⟩).wellFormed) = true := by decide

theorem witness_BytesDecodeLittleEndian : ([] : List Byte).length < 4 ∧ ([1, 2, 3] : List Byte).length < 4 := by decide

theorem witness_FailedConditionIsANoOp :
    condPassed (Cond.ofCode ((0xFA000000 : Word).extractLsb' 28 4)) usr0.psr = false ∧
    condPassed (Cond.ofCode ((0x0A000000 : Word).extractLsb' 28 4)) usr0.psr = false := by decide

theorem witness_RegisterBanksFollowTheMode : Mode.usr ≠ .fiq ∧ Mode.irq ≠ .fiq ∧ Mode.svc ≠ .fiq := by decide

theorem witness_RegisterWritesStayInTheirBank :
    usr0.bank = .settled ∧ (14 : Reg) ≠ 15 ∧ physOf .svc 14 ≠ physOf .irq 14 ∧ physOf .fiq 8 ≠ physOf .usr 8 := by decide

theorem witness_R15ReadsAsStatusAndPc : 0 % 4 = 0 ∧ 12 % 4 = 0 := by decide

theorem witness_UserModeKeepsMasksAndMode :
    usr0.psr.mode = .usr ∧ (∃ t, exec (.movImm .al true 0 15 ⟨3, 0xFF⟩) usr0 = .next t) ∧
      ∃ t, exec (.swi .al 0) usr0 = .next t :=
  ⟨rfl, next_of_goesOn (by decide), next_of_goesOn (by decide)⟩

theorem witness_UserModeCannotReachOtherBanks :
    usr0.psr.mode = .usr ∧ (∃ t, exec (.ldm .al false true true false 1 0x6000) usr0 = .next t) ∧
      (∃ t, exec (.swi .al 0) usr0 = .next t) ∧ PReg.r14Svc ∈ [PReg.r13Svc, .r14Svc] :=
  ⟨rfl, next_of_goesOn (by decide), next_of_goesOn (by decide), by decide⟩

theorem witness_MemoryReadsSeeWrites :
    memoryWf usr0.mem = true ∧ (0x9001 : Nat) ≠ (0x9000 : Addr).toNat ∧ 0x8FFF / 4 ≠ (0x9000 : Addr).toNat / 4 ∧
      0x9004 / 4 ≠ (0x9003 : Addr).toNat / 4 ∧ 0 < 32 ∧ 31 < 32 ∧ usr0.now.between = [] ∧
      shared0.now.between = [(0x9000, 0x55)] :: [[(0x9004, 0x66)]] := by decide

theorem witness_CanonicalMemoryIsDeterminedByItsBytes :
    ∃ m m' : List Host.Cell, m ≠ [] ∧ memoryWf m = true ∧ memoryWf m' = true ∧ ∀ a, readByte m a = readByte m' a :=
  ⟨[(0x3FFFFFF, 1)], [(0x3FFFFFF, 1)], by decide, by decide, by decide, fun _ => rfl⟩

theorem witness_TransIsLowInUserModeOrForced :
    ({ usr0 with memSystem := [⟨0, 2 ^ 26 - 1, none, none, none, some true, none, .abort⟩] } : State).memSystem =
      [⟨0, 2 ^ 26 - 1, none, none, none, some true, none, .abort⟩] := rfl

theorem witness_InstructionSpecifiedShifts : 1 ≤ 1 ∧ 1 ≤ 31 ∧ 1 ≤ 31 ∧ 31 ≤ 31 := by decide

theorem witness_RegisterSpecifiedShifts :
    (1 ≤ 1 ∧ 1 ≤ 31) ∧ (1 ≤ 31 ∧ 31 ≤ 31) ∧ (33 ≤ 33 ∧ 33 ≤ 255) ∧ (33 ≤ 255 ∧ 255 ≤ 255) ∧ (32 ≤ 32 ∧ 32 ≤ 255) ∧
      (32 ≤ 255 ∧ 255 ≤ 255) := by decide

theorem witness_RotatedImmediates :
    0 < 32 ∧ 31 < 32 ∧ (⟨0, 0xFF⟩ : RotImm).rot = 0 ∧ (⟨1, 0xFF⟩ : RotImm).rot ≠ 0 ∧ (⟨15, 0xFF⟩ : RotImm).rot ≠ 0 := by
  decide

theorem witness_OperandsReadRegistersAndR15 :
    usr0.bank = .settled ∧ physOf usr0.psr.mode 0 = some .r0 ∧ physOf usr0.psr.mode 14 = some .r14 := by decide

theorem witness_LogicalOperationsWriteTheirResult :
    condPassed .al usr0.psr = true ∧ physOf usr0.psr.mode 0 = some .r0 ∧ usr0.unsettled 0 = false ∧
      condPassed .mi usr0.psr = true ∧ physOf usr0.psr.mode 14 = some .r14 ∧ usr0.unsettled 14 = false ∧
      condPassed .al svc0.psr = true ∧ svc0.unsettled 15 = false := by decide

theorem witness_ArithmeticOperationsWriteTheirResult :
    condPassed .al svc0.psr = true ∧ physOf svc0.psr.mode 0 = some .r0 ∧ svc0.unsettled 0 = false ∧
      physOf svc0.psr.mode 14 = some .r14Svc ∧ svc0.unsettled 14 = false ∧
      condPassed .cs usr0.psr = true ∧ usr0.unsettled 15 = false := by decide

theorem witness_TestsWriteThePsrAlone :
    condPassed .al usr0.psr = true ∧ (0 : Reg) ≠ 15 ∧ (14 : Reg) ≠ 15 ∧ condPassed .al svc0.psr = true := by decide

theorem witness_MultiplyWritesTheProduct :
    condPassed .al usr0.psr = true ∧ physOf usr0.psr.mode 4 = some .r4 ∧ usr0.unsettled 4 = false ∧ (4 : Reg) ≠ 2 ∧
      (42 : Word).toNat =
        (usr0.readX .rm (usr0.r15full 12) 2).toNat * (usr0.readX .rs (usr0.r15pc 8) 3).toNat % 2 ^ 32 ∧
      (0x902A : Word).toNat =
        ((usr0.readX .rm (usr0.r15full 12) 2).toNat * (usr0.readX .rs (usr0.r15pc 8) 3).toNat +
          (usr0.readX .rn (usr0.r15full 8) 1).toNat) % 2 ^ 32 := by decide

theorem witness_RestrictedMultipliesTouchOnlyRdAndFlags :
    condPassed .al usr0.psr = true ∧ physOf usr0.psr.mode 0 = some .r0 ∧ usr0.unsettled 0 = false ∧
      physOf usr0.psr.mode 14 = some .r14 ∧ usr0.unsettled 14 = false := by decide

theorem witness_LoadsWriteRdAndBase :
    condPassed .al usr0.psr = true ∧ physOf usr0.psr.mode 0 = some .r0 ∧ usr0.unsettled 0 = false ∧
      ((!false || true) = true → (1 : Reg) ≠ 15 ∧ (1 : Reg) ≠ 0 ∧ usr0.unsettled 1 = false) ∧
      illegalAddress (usr0.transferAddr false true 1 (.imm 4)) = false ∧
      (∀ byte : Bool, singleAborts usr0 byte false false true true 1 (.imm 4) = false ∧
        singleAborts shared0 byte false false true true 1 (.imm 4) = false ∧
        singleAborts mapped0 byte false false true true 1 (.imm 4) = false) ∧
      loadedValue shared0.busGap true (singleAccess shared0 true false false true true 1 (.imm 4)) = 0x55 ∧
      loadedValue mapped0 false (singleAccess mapped0 false false false true true 1 (.imm 4)) = 0xAABBCCDD := by decide

theorem witness_LoadsToR15WriteThePcAlone :
    condPassed .al usr0.psr = true ∧ ((!true || false) = true → (1 : Reg) ≠ 15 ∧ usr0.unsettled 1 = false) ∧
      illegalAddress (usr0.transferAddr true true 1 (.imm 0)) = false ∧
      singleAborts usr0 false false true true false 1 (.imm 0) = false := by decide

theorem witness_BaseAsDataIsOneOfTwoValues :
    condPassed .al usr0.psr = true ∧ physOf usr0.psr.mode 1 = some .r1 ∧ usr0.unsettled 1 = false ∧
      (!true || true) = true ∧ (!false || false) = true ∧
      illegalAddress (usr0.transferAddr false true 1 (.imm 4)) = false ∧
      singleAborts usr0 false false false true false 1 (.imm 4) = false := by decide

theorem witness_StoresWriteMemoryAndBase :
    condPassed .al usr0.psr = true ∧ memoryWf usr0.mem = true ∧
      ((!true || true) = true → (1 : Reg) ≠ 15 ∧ usr0.unsettled 1 = false) ∧
      illegalAddress (usr0.transferAddr true true 1 (.imm 4)) = false ∧
      singleAborts usr0 false true true true true 1 (.imm 4) = false ∧
      singleAborts usr0 true true true true true 1 (.imm 4) = false ∧
      ((2 : Reg) = 1 → (true = true ∧ true = false)) ∧ usr0.unsettled 2 = false ∧ physOf usr0.psr.mode 2 = some .r2 ∧
      ((15 : Reg) = 1 → (true = true ∧ true = false)) ∧ usr0.unsettled 15 = false ∧
      usr0.answer (singleAccess usr0 false true true true true 1 (.imm 4)) = none ∧
      mapped0.answer (singleAccess mapped0 true true true true true 1 (.imm 7)) = some (.device 0xAABBCCDD) ∧
      (singleAddr usr0 true true 1 (.imm 4)).toNat % 4 = 0 ∧ (singleAddr usr0 true true 1 (.imm 7)).toNat % 4 ≠ 0 ∧
      usr0.params.misalignedWordStore = .ignoreLowBits := by decide

theorem witness_SingleTransferAddressing :
    usr0.bank = .settled ∧ physOf usr0.psr.mode 1 = some .r1 ∧ physOf usr0.psr.mode 14 = some .r14 := by decide

theorem witness_AddressExceptionsChangeNothing :
    condPassed .al far0.psr = true ∧ ((!false || false) = true → (1 : Reg) ≠ 15) ∧
      illegalAddress (far0.transferAddr false true 1 (.imm 4)) = true := by decide

theorem witness_AbortedSingleTransfersChangeNothing :
    condPassed .al abort0.psr = true ∧ ((!true || true) = true → (1 : Reg) ≠ 15) ∧
      illegalAddress (abort0.transferAddr true true 1 (.imm 4)) = false ∧
      singleAborts abort0 false true true true true 1 (.imm 4) = true ∧
      singleAborts abort0 true false true true true 1 (.imm 4) = true := by decide

theorem witness_LoadMultipleLoadsTheList :
    (condPassed .al usr0.psr = true ∧ usr0.bank = .settled ∧ (0x7FFF : BitVec 16) ≠ 0 ∧
      (0x7FFF : BitVec 16).getLsbD 15 = false ∧ ((false && usr0.psr.mode != .usr) = true → true = false) ∧
      illegalAddress (usr0.blockFirst false true 1 0x7FFF) = false ∧
      ∀ k, k < (listed 0x7FFF).length → blockAborts usr0 (usr0.blockFirst false true 1 0x7FFF) false k = false) ∧
    condPassed .al svc0.psr = true ∧ svc0.bank = .settled ∧ (0x6000 : BitVec 16) ≠ 0 ∧
      (0x6000 : BitVec 16).getLsbD 15 = false ∧ (true && svc0.psr.mode != .usr) = true ∧
      ((true && svc0.psr.mode != .usr) = true → false = false) ∧
      illegalAddress (svc0.blockFirst false true 1 0x6000) = false ∧
      ∀ k, k < (listed 0x6000).length → blockAborts svc0 (svc0.blockFirst false true 1 0x6000) false k = false := by decide

theorem witness_LoadMultipleWithR15Branches :
    condPassed .al svc0.psr = true ∧ svc0.bank = .settled ∧ (0x8000 : BitVec 16).getLsbD 15 = true ∧
      (0xFFFF : BitVec 16).getLsbD 15 = true ∧ illegalAddress (svc0.blockFirst false true 1 0xFFFF) = false ∧
      (∀ k, k < (listed 0xFFFF).length → blockAborts svc0 (svc0.blockFirst false true 1 0xFFFF) false k = false) ∧
      illegalAddress (svc0.blockFirst true false 1 0x8000) = false ∧
      ∀ k, k < (listed 0x8000).length → blockAborts svc0 (svc0.blockFirst true false 1 0x8000) false k = false := by decide

theorem witness_StoreMultipleStoresTheList :
    (condPassed .al usr0.psr = true ∧ usr0.bank = .settled ∧ (0xFFFF : BitVec 16) ≠ 0 ∧ memoryWf usr0.mem = true ∧
      ((false && usr0.psr.mode != .usr) = true → true = false) ∧
      illegalAddress (usr0.blockFirst false true 1 0xFFFF) = false ∧
      (∀ k, k < (listed 0xFFFF).length → blockAborts usr0 (usr0.blockFirst false true 1 0xFFFF) true k = false) ∧
      (listed 0xFFFF)[1]? = some 1 ∧ (1 : Reg) ≠ 15) ∧
    condPassed .al svc0.psr = true ∧ svc0.bank = .settled ∧ memoryWf svc0.mem = true ∧
      (true && svc0.psr.mode != .usr) = true ∧ ((true && svc0.psr.mode != .usr) = true → false = false) ∧
      illegalAddress (svc0.blockFirst false true 1 0x0002) = false ∧ (listed 0x0002)[0]? = some 1 ∧
      ∀ k, k < (listed 0x0002).length → blockAborts svc0 (svc0.blockFirst false true 1 0x0002) true k = false := by decide

theorem witness_AbortedLoadMultipleKeepsTheRest :
    condPassed .al abort0.psr = true ∧ abort0.bank = .settled ∧ (0x000C : BitVec 16) ≠ 0 ∧
      ((false && !(0x000C : BitVec 16).getLsbD 15 && abort0.psr.mode != .usr) = true → true = false) ∧
      illegalAddress (abort0.blockFirst false true 1 0x000C) = false ∧ 1 < (listed 0x000C).length ∧
      blockAborts abort0 (abort0.blockFirst false true 1 0x000C) false 1 = true ∧
      ∀ k, k < 1 → blockAborts abort0 (abort0.blockFirst false true 1 0x000C) false k = false := by decide

theorem witness_AbortedStoreMultipleStoresTheAccepted :
    condPassed .al abort0.psr = true ∧ abort0.bank = .settled ∧ (0x000C : BitVec 16) ≠ 0 ∧ memoryWf abort0.mem = true ∧
      ((false && abort0.psr.mode != .usr) = true → true = false) ∧
      illegalAddress (abort0.blockFirst false true 1 0x000C) = false ∧
      1 < (listed 0x000C).length ∧ blockAborts abort0 (abort0.blockFirst false true 1 0x000C) true 1 = true := by decide

theorem witness_BlockAddressExceptionKeepsWriteBack :
    condPassed .al far0.psr = true ∧ (1 : BitVec 16) ≠ 0 ∧ (true = true → far0.unsettled 1 = false) ∧
      (true = true → true = true → far0.psr.mode = .usr ∨ (true = true ∧ (1 : BitVec 16).getLsbD 15 = true)) ∧
      illegalAddress (far0.blockFirst false true 1 1) = true := by decide

theorem witness_BlockAddressing :
    usr0.bank = .settled ∧ physOf usr0.psr.mode 0 = some .r0 ∧ physOf usr0.psr.mode 14 = some .r14 ∧
      (blockWord { usr0 with regs := usr0.regs.set .r1 0x3FFFFFF } false true 1 0x000C 1).toNat = 3 := by decide

theorem witness_BranchesReachTheirTarget :
    condPassed .al usr0.psr = true ∧ usr0.unsettled 14 = false ∧ condPassed .nv usr0.psr = false := by decide

theorem witness_SoftwareInterruptEntersSupervisor :
    condPassed .al usr0.psr = true ∧ condPassed .nv usr0.psr = false := by decide

theorem witness_OfferedInstructionsTrapOrWait :
    let cdp : Offered := .cdp 0 0 0 1 0 0
    let i : Word := 0xEE000100
    (condPassed .al usr0.psr = true ∧ cdp.answer .al usr0 = .absent) ∧
    (condPassed .al (answering usr0 .busy).psr = true ∧ cdp.answer .al (answering usr0 .busy) = .busy) ∧
    (∀ r ∈ onlyP1.coprocessors, r.cp = 2 → ¬ Answers r i onlyP1.psr.mode) ∧
    (∀ r ∈ (privilegedP1 0).coprocessors, r.cp = 1 → ¬ Answers r i (privilegedP1 0).psr.mode) ∧
    (onlyP1.coprocessors = [] ++ ⟨1, 0x0F000010, 0x0E000000, none, none, .ready 0 []⟩ :: [] ∧
      Answers ⟨1, 0x0F000010, 0x0E000000, none, none, .ready 0 []⟩ i onlyP1.psr.mode) ∧
    (∀ n, usr0.reply (some n) i = .absent) ∧
    ((∀ n, ((answering usr0 .busy).reply (some n) i).isReady = false) ∧ (answering usr0 .busy).reply (some 15) i = .busy) ∧
    (onlyP1.reply (some 1) i).isReady = true := by decide

/-- Co-processors that take every instruction and supply two words. -/
def ready0 : State := answering usr0 (.ready 0x33 [0x44])

theorem witness_AcceptedOperationsGoOn :
    condPassed .al ready0.psr = true ∧ ((Offered.cdp 0 0 0 1 0 0).answer .al ready0).isReady = true ∧
      ((Offered.undefinedA 0 0).answer .al ready0).isReady = true ∧ ((Offered.undefinedB 0 0 0).answer .al ready0).isReady = true := by
  decide

theorem witness_RegisterTransfersMoveOneWord :
    condPassed .al ready0.psr = true ∧ physOf ready0.psr.mode 14 = some .r14 ∧ ready0.unsettled 14 = false ∧
      ready0.reply (some 1) (encode (.mrc .al 0 0 14 1 0 0)) = .ready 0x33 [0x44] ∧
      ready0.reply (some 1) (encode (.mcr .al 0 0 14 1 0 0)) = .ready 0x33 [0x44] ∧
      ready0.reply (some 1) (encode (.mrc .al 0 0 15 1 0 0)) = .ready 0x33 [0x44] ∧
      ready0.reply (some 1) (encode (.mcr .al 0 0 15 1 0 0)) = .ready 0x33 [0x44] := by decide

theorem witness_CoprocessorLoadSendsTheWords :
    condPassed .al ready0.psr = true ∧
      ready0.reply (some 1) (encode (.ldc .al false true false true 1 0 1 2)) = .ready 0x33 [0x44] ∧
      (true = true → (1 : Reg) ≠ 15 ∧ ready0.unsettled 1 = false) ∧
      illegalAddress (ready0.coAddr false true 1 2) = false ∧
      blockAborts ready0 (ready0.coAddr false true 1 2) false 1 = false ∧
      blockAborts (aborting ready0 [0x9004]) (ready0.coAddr false true 1 2) false 1 = true := by decide

theorem witness_CoprocessorStoreWritesTheWords :
    condPassed .al ready0.psr = true ∧
      ready0.reply (some 1) (encode (.stc .al false true false true 1 0 1 2)) = .ready 0x33 [0x44] ∧
      (true = true → (1 : Reg) ≠ 15 ∧ ready0.unsettled 1 = false) ∧ memoryWf ready0.mem = true ∧
      ([0x44] : List Word).length + 1 < 2 ^ 24 ∧ illegalAddress (ready0.coAddr false true 1 2) = false ∧
      ready0.now.between = [] ∧ (∀ k, k < 2 → blockAborts ready0 (ready0.coAddr false true 1 2) true k = false) ∧
      1 < 2 ∧ blockAborts (aborting ready0 [0x9004]) (ready0.coAddr false true 1 2) true 1 = true := by decide

theorem witness_CoprocessorTransferAddressing :
    let t := answering far0 (.ready 0 [])
    usr0.bank = .settled ∧ physOf usr0.psr.mode 14 = some .r14 ∧ condPassed .al t.psr = true ∧
      t.reply (some 1) (encode (.ldc .al false true false true 1 0 1 2)) = .ready 0 [] ∧
      t.reply (some 1) (encode (.stc .al false true false true 1 0 1 2)) = .ready 0 [] ∧
      (true = true → (1 : Reg) ≠ 15 ∧ t.unsettled 1 = false) ∧ illegalAddress (t.coAddr false true 1 2) = true := by decide

theorem witness_OnlyFormsWithoutMeaningAreRefused :
    condPassed (Cond.ofCode ((0xE8900000 : Word).extractLsb' 28 4)) usr0.psr = true ∧ usr0.bank = .settled ∧
      usr0.params.admitReconstructed = true ∧ printed0.params.admitReconstructed = false ∧
      NoMeaning (decodeWord 0xE8900000) usr0 ∧ ¬ NoMeaning (decodeWord 0xE8900001) usr0 := by
  refine ⟨by decide, by decide, rfl, rfl, .inl (by decide), ?_⟩
  rintro (h | ⟨h, -⟩)
  · exact absurd h (by decide)
  · exact absurd h (by decide)

theorem witness_RefusedFormsAreNamed :
    condPassed .al svc0.psr = true ∧ (!false || false) = true ∧ (!true || true) = true ∧ (1 : BitVec 16) ≠ 0 ∧
      svc0.psr.mode ≠ .usr ∧ (1 : BitVec 16).getLsbD 15 = false ∧ condPassed .al ready0.psr = true ∧
      ready0.reply (some 1) (encode (.ldc .al true true false true 15 0 1 0)) = .ready 0x33 [0x44] ∧
      ready0.reply (some 1) (encode (.stc .al true true false true 15 0 1 0)) = .ready 0x33 [0x44] := by decide

theorem witness_UnsettledRegistersAreNotAccessed :
    let s : State := { svc0 with bank := .unsettled13 }
    let t : State := { ready0 with bank := .unsettled8 }
    let start := s.blockFirst false true 1 0x6000
    s.unsettled 13 = true ∧ s.unsettled 14 = true ∧ t.unsettled 8 = true ∧ t.unsettled 14 = true ∧
      svc0.bank = .settled ∧ condPassed .al s.psr = true ∧ condPassed .al t.psr = true ∧
      ((!true || false) = true → (1 : Reg) ≠ 15) ∧ (13 = 13 ∧ (!false || false) = true) ∧ (0x6000 : BitVec 16) ≠ 0 ∧
      (true = true → t.psr.mode = .usr) ∧ (0x6000 : BitVec 16).getLsbD (13 : Reg).toNat = true ∧ s.unsettled 1 = false ∧
      illegalAddress start = false ∧ (∀ k, k < (listed 0x6000).length → blockAborts s start false k = false) ∧
      (t.reply (some 1) (encode (.mrc .al 0 0 8 1 0 0))).isReady = true ∧
      (t.reply (some 1) (encode (.ldc .al true true false true 14 0 1 0))).isReady = true ∧
      (t.reply (some 1) (encode (.stc .al true true false true 14 0 1 0))).isReady = true := by decide

theorem witness_ReturnsRestoreTheInterruptedState :
    State.reset.pc.toNat + 2 < 2 ^ 24 ∧ ({ State.reset with pc := 0xFFFFFD } : State).pc.toNat + 2 < 2 ^ 24 := by decide

/-- `svc0`, with a device that answers every fetch with a software interrupt. -/
def rom0 : State := { svc0 with memSystem := [⟨0, 2 ^ 26 - 1, none, none, some true, none, none, .device 0xEF000000⟩] }

theorem witness_StepExecutesTheDecodedInstruction :
    svc0.now.reset = false ∧ svc0.resetHigh = false ∧ (svc0.fiqSeen && !svc0.psr.f) = false ∧
      (svc0.irqSeen && !svc0.psr.i) = false ∧ svc0.pipe = [] ∧
      svc0.sample.answer (svc0.sample.fetchAccess svc0.addr) = none ∧
      (decode ([0, 1, 2, 3].map fun k => readByte svc0.sample.mem (4 * svc0.pc.toNat + k))).toOption =
        some (.andShift .eq false 0 0 ⟨0, .lsl 0⟩, []) ∧
      ({ svc0 with pipe := [⟨0xEF000000, false⟩] } : State).pipe = ⟨0xEF000000, false⟩ :: [] ∧
      decodeWord 0xEF000000 = .swi .al 0 ∧ rom0.pipe = [] ∧
      rom0.sample.answer (rom0.sample.fetchAccess rom0.addr) = some (.device 0xEF000000) := by decide

theorem witness_PrefetchedWordsAreOldOrNew :
    let one : State := { usr0 with pipe := [⟨0, true⟩] }
    (one.pipe[0]? = some ⟨0, true⟩ ∧ one.pipe.length ≤ 1 ∧ 1 < 3 ∧ 2 < 3 ∧
      usr0.sample.answer (usr0.sample.fetchAccess (usr0.pipeAddr 0)) = none ∧
      rom0.sample.answer (rom0.sample.fetchAccess (rom0.pipeAddr 2)) = some (.device 0xEF000000)) ∧
    (usr0.pipe.length ≤ 3 ∧ ∃ t, step usr0 = .next t ∧ ∃ f, t.pipe[0]? = some f) ∧
    ∃ t, step (waiting0.withFetchWord 32 0xEE000000) = .next t ∧ t.busyWait = true :=
  ⟨by decide, ⟨by decide, _, rfl, _, rfl⟩, _, rfl, rfl⟩

theorem witness_StepTakesInterruptsInPriority :
    let a := interrupted 0x80000000 true true
    let b := interrupted 0x84000000 true true
    let c : State := { interrupted 0x88000000 false true with pipe := [⟨0, true⟩] }
    let d : State := { usr0 with memSystem := [⟨0x8000, 0x8000, none, none, some true, none, none, .abort⟩] }
    (a.now.reset = false ∧ a.resetHigh = false ∧ a.fiqSeen = true ∧ a.psr.f = false) ∧
    (b.now.reset = false ∧ b.resetHigh = false ∧ (b.fiqSeen = false ∨ b.psr.f = true) ∧ b.irqSeen = true ∧
      b.psr.i = false) ∧
    c.now.reset = false ∧ c.resetHigh = false ∧ (c.fiqSeen = false ∨ c.psr.f = true) ∧
      (c.irqSeen = false ∨ c.psr.i = true) ∧ c.sample.fillPipe.fetched.invalid = true ∧
      d.pipe = [] ∧ d.sample.fillPipe.fetched.invalid = true := by decide

theorem witness_HeldInterruptsAreSeen :
    (interrupted 0 true true).fiqSync = ⟨true, true⟩ ∧ (interrupted 0 true true).now.fiqLow = true ∧
      (interrupted 0 true true).irqSync = ⟨true, true⟩ ∧ (interrupted 0 true true).now.irqLow = true ∧
      usr0.fiqSync = ⟨false, false⟩ ∧ usr0.now.fiqLow = false ∧ usr0.irqSync = ⟨false, false⟩ ∧
      usr0.now.irqLow = false ∧ ∃ t, step usr0 = .next t :=
  ⟨rfl, rfl, rfl, rfl, rfl, rfl, rfl, rfl, _, rfl⟩

theorem witness_ResetSequence :
    let s : State := { svc0 with resetHigh := true, inputs := [{ Inputs.quiet with reset := true }] }
    let t : State := { svc0 with resetHigh := true }
    let r : State := { usr0 with inputs := [{ Inputs.quiet with reset := true, fiqLow := true }], fiqSync := ⟨true, true⟩ }
    let i := r.sample.fillPipe.busRest
    (s.resetHigh = true ∧ s.now.reset = true) ∧ (t.resetHigh = true ∧ t.now.reset = false) ∧
    (r.resetHigh = false ∧ r.now.reset = true ∧ memoryWf r.mem = true ∧ i.inProgress.nzc = false ∧ i.inProgress.v = false ∧
      i.fetched.invalid = false ∧ PReg.r0 ∉ i.inProgress.regs) ∧
    ({ r with pipe := [⟨0, true⟩] } : State).sample.fillPipe.busRest.fetched.invalid = true ∧
    (usr0.now.between = [] ∧ illegalAddress (usr0.transferAddr true true 1 (.imm 4)) = false ∧
      usr0.answer (singleAccess usr0 false true true true true 1 (.imm 4)) = none) ∧
    (svc0.psr.mode ≠ .usr ∧ (0x6000 : BitVec 16).getLsbD 15 = false) ∧ (14 : Reg) ≠ 15 := by decide

/-- S3: what RESET may disturb, by hand: a load of the User bank in supervisor mode its User registers, with W = 1 (U6) its base
in both banks; with the bank unsettled a write of R13 reaches any bank. -/
theorem test_reset_disturbs :
    (svc0.writtenBy (.ldm .al false true true false 1 0x6000)).regs = [.r13, .r14, .r14Svc] ∧
    (svc0.writtenBy (.ldm .al false true true true 13 1)).regs = [.r0, .r13Svc, .r13, .r14Svc] ∧
    (({ svc0 with bank := .unsettled13 } : State).writtenBy (.strImm .al true true true 13 1 4)).regs =
      [.r13, .r13Fiq, .r13Irq, .r13Svc, .r14Svc] := by decide

/-- An instruction that RESET interrupts would complete. -/
theorem witness_ResetSequence_completes :
    let i := usr0.sample.fillPipe.busRest
    ∃ u, exec (decodeWord i.fetched.word) i = .next u :=
  ⟨_, rfl⟩

theorem witness_EveryStepKeepsTheInvariant : State.reset.Inv ∧ ∃ t, step State.reset = .next t :=
  ⟨test_reset_inv, _, rfl⟩

end Sys2Proof.Tests
end

section
/-! SUPPORT. Encoding what is decoded: every word is the word of its own decoding (spec/30_encoding.md R103 to R118), and the
condition of a decoded instruction is the condition field of its word. -/

namespace Sys2Proof

/-! ## Codes and fields -/

theorem Cond.code_ofCode (k : BitVec 4) : (Cond.ofCode k).code = k := by
  revert k
  decide

theorem ShiftType.code_ofCode (t : BitVec 2) : (ShiftType.ofCode t).code = t := by
  revert t
  decide

theorem ImmShift.amount_ofFields (a : BitVec 5) (t : ShiftType) : (ImmShift.ofFields a t).amount = a := by
  revert a
  cases t <;> decide

theorem ImmShift.type_ofFields (a : BitVec 5) (t : ShiftType) : (ImmShift.ofFields a t).type = t := by
  revert a
  cases t <;> decide

/-- A bit of a word is its field of one bit. -/
theorem bit_field (w : Word) (k : Nat) : BitVec.ofBool (w.getLsbD k) = w.extractLsb' k 1 := by
  ext i hi
  simp [show i = 0 by omega]

/-- Two neighbouring fields are one field. -/
theorem fields_join (w : Word) {j k m n : Nat} (h : j = k + n) :
    w.extractLsb' j m ++ w.extractLsb' k n = w.extractLsb' k (m + n) :=
  BitVec.extractLsb'_append_extractLsb'_eq_extractLsb' h

/-- A field of one bit, by the bit. -/
theorem field_one {w : Word} {k : Nat} {a : Bool} (h : w.getLsbD k = a) : w.extractLsb' k 1 = BitVec.ofBool a := by
  rw [← bit_field, h]

/-- A field of three bits, by its bits. -/
theorem field_three {w : Word} {k : Nat} {a b c : Bool} (ha : w.getLsbD (k + 2) = a) (hb : w.getLsbD (k + 1) = b)
    (hc : w.getLsbD k = c) : w.extractLsb' k 3 = BitVec.ofBool a ++ BitVec.ofBool b ++ BitVec.ofBool c := by
  rw [← ha, ← hb, ← hc, bit_field, bit_field, bit_field, fields_join w (j := k + 2) (k := k + 1) rfl,
    fields_join w (k := k) rfl]

/-- A field of four bits, by its bits. -/
theorem field_four {w : Word} {k : Nat} {a b c d : Bool} (ha : w.getLsbD (k + 3) = a) (hb : w.getLsbD (k + 2) = b)
    (hc : w.getLsbD (k + 1) = c) (hd : w.getLsbD k = d) :
    w.extractLsb' k 4 = BitVec.ofBool a ++ BitVec.ofBool b ++ BitVec.ofBool c ++ BitVec.ofBool d := by
  rw [← field_three (k := k + 1) ha hb hc, ← hd, bit_field, fields_join w rfl]

/-! ## The formats: each word with its own fields put in is the word, where its constant fields are the format's -/

theorem dpImmWord_fields {w : Word} (h : w.extractLsb' 25 3 = 0b001#3) :
    dpImmWord (Cond.ofCode (w.extractLsb' 28 4)) (w.extractLsb' 21 4) (w.getLsbD 20) (w.extractLsb' 16 4)
      (w.extractLsb' 12 4) ⟨w.extractLsb' 8 4, w.extractLsb' 0 8⟩ = w := by
  simp (disch := decide) only [dpImmWord, Cond.code_ofCode, bit_field, ← h, fields_join]
  exact field_all w

theorem dpShiftWord_fields {w : Word} (h : w.extractLsb' 25 3 = 0b000#3) (h4 : w.extractLsb' 4 1 = 0b0#1) :
    dpShiftWord (Cond.ofCode (w.extractLsb' 28 4)) (w.extractLsb' 21 4) (w.getLsbD 20) (w.extractLsb' 16 4)
      (w.extractLsb' 12 4) (shiftedRegOf w) = w := by
  simp (disch := decide) only [dpShiftWord, shiftedRegOf, Cond.code_ofCode, ImmShift.amount_ofFields,
    ImmShift.type_ofFields, ShiftType.code_ofCode, bit_field, ← h, ← h4, fields_join]
  exact field_all w

theorem dpRegShiftWord_fields {w : Word} (h : w.extractLsb' 25 3 = 0b000#3) (h7 : w.extractLsb' 7 1 = 0b0#1)
    (h4 : w.extractLsb' 4 1 = 0b1#1) :
    dpRegShiftWord (Cond.ofCode (w.extractLsb' 28 4)) (w.extractLsb' 21 4) (w.getLsbD 20) (w.extractLsb' 16 4)
      (w.extractLsb' 12 4) ⟨w.extractLsb' 0 4, ShiftType.ofCode (w.extractLsb' 5 2), w.extractLsb' 8 4⟩ = w := by
  simp (disch := decide) only [dpRegShiftWord, Cond.code_ofCode, ShiftType.code_ofCode, bit_field, ← h, ← h7, ← h4,
    fields_join]
  exact field_all w

theorem mulWord_fields {w : Word} (h : w.extractLsb' 22 6 = 0b000000#6) (h4 : w.extractLsb' 4 4 = 0b1001#4) :
    mulWord (Cond.ofCode (w.extractLsb' 28 4)) (w.getLsbD 21) (w.getLsbD 20) (w.extractLsb' 16 4) (w.extractLsb' 12 4)
      (w.extractLsb' 8 4) (w.extractLsb' 0 4) = w := by
  simp (disch := decide) only [mulWord, Cond.code_ofCode, bit_field, ← h, ← h4, fields_join]
  exact field_all w

theorem unallocWord65_fields {w : Word} (h : w.extractLsb' 24 4 = 0b0000#4) :
    unallocWord65 (Cond.ofCode (w.extractLsb' 28 4)) (w.extractLsb' 8 16) (w.extractLsb' 4 4) (w.extractLsb' 0 4) = w := by
  simp (disch := decide) only [unallocWord65, Cond.code_ofCode, ← h, fields_join]
  exact field_all w

theorem unallocWord2322_fields {w : Word} (h : w.extractLsb' 24 4 = 0b0000#4) (h4 : w.extractLsb' 4 4 = 0b1001#4) :
    unallocWord2322 (Cond.ofCode (w.extractLsb' 28 4)) (w.extractLsb' 22 2) (w.extractLsb' 8 14) (w.extractLsb' 0 4) = w := by
  simp (disch := decide) only [unallocWord2322, Cond.code_ofCode, ← h, ← h4, fields_join]
  exact field_all w

theorem sdtImmWord_fields {w : Word} (h : w.extractLsb' 25 3 = 0b010#3) :
    sdtImmWord (Cond.ofCode (w.extractLsb' 28 4)) (w.getLsbD 24) (w.getLsbD 23) (w.getLsbD 22) (w.getLsbD 21)
      (w.getLsbD 20) (w.extractLsb' 16 4) (w.extractLsb' 12 4) (w.extractLsb' 0 12) = w := by
  simp (disch := decide) only [sdtImmWord, Cond.code_ofCode, bit_field, ← h, fields_join]
  exact field_all w

theorem sdtRegWord_fields {w : Word} (h : w.extractLsb' 25 3 = 0b011#3) (h4 : w.extractLsb' 4 1 = 0b0#1) :
    sdtRegWord (Cond.ofCode (w.extractLsb' 28 4)) (w.getLsbD 24) (w.getLsbD 23) (w.getLsbD 22) (w.getLsbD 21)
      (w.getLsbD 20) (w.extractLsb' 16 4) (w.extractLsb' 12 4) (shiftedRegOf w) = w := by
  simp (disch := decide) only [sdtRegWord, shiftedRegOf, Cond.code_ofCode, ImmShift.amount_ofFields,
    ImmShift.type_ofFields, ShiftType.code_ofCode, bit_field, ← h, ← h4, fields_join]
  exact field_all w

theorem undefinedAWord_fields {w : Word} (h : w.extractLsb' 25 3 = 0b011#3) (h4 : w.extractLsb' 4 1 = 0b1#1) :
    undefinedAWord (Cond.ofCode (w.extractLsb' 28 4)) (w.extractLsb' 5 20) (w.extractLsb' 0 4) = w := by
  simp (disch := decide) only [undefinedAWord, Cond.code_ofCode, ← h, ← h4, fields_join]
  exact field_all w

theorem undefinedBWord_fields {w : Word} (h : w.extractLsb' 24 4 = 0b0001#4) (h7 : w.extractLsb' 7 1 = 0b1#1)
    (h4 : w.extractLsb' 4 1 = 0b1#1) :
    undefinedBWord (Cond.ofCode (w.extractLsb' 28 4)) (w.extractLsb' 8 16) (w.extractLsb' 5 2) (w.extractLsb' 0 4) = w := by
  calc
    _ = w.extractLsb' 28 4 ++ w.extractLsb' 24 4 ++ w.extractLsb' 8 16 ++ w.extractLsb' 7 1 ++ w.extractLsb' 5 2 ++
          w.extractLsb' 4 1 ++ w.extractLsb' 0 4 := by
      rw [h, h7, h4, undefinedBWord, Cond.code_ofCode]
    _ = w := by
      simp (disch := decide) only [fields_join]
      exact field_all w

theorem bdtWord_fields {w : Word} (h : w.extractLsb' 25 3 = 0b100#3) :
    bdtWord (Cond.ofCode (w.extractLsb' 28 4)) (w.getLsbD 24) (w.getLsbD 23) (w.getLsbD 22) (w.getLsbD 21)
      (w.getLsbD 20) (w.extractLsb' 16 4) (w.extractLsb' 0 16) = w := by
  simp (disch := decide) only [bdtWord, Cond.code_ofCode, bit_field, ← h, fields_join]
  exact field_all w

theorem branchWord_fields {w : Word} (h : w.extractLsb' 25 3 = 0b101#3) :
    branchWord (Cond.ofCode (w.extractLsb' 28 4)) (w.getLsbD 24) (w.extractLsb' 0 24) = w := by
  simp (disch := decide) only [branchWord, Cond.code_ofCode, bit_field, ← h, fields_join]
  exact field_all w

theorem cdtWord_fields {w : Word} (h : w.extractLsb' 25 3 = 0b110#3) :
    cdtWord (Cond.ofCode (w.extractLsb' 28 4)) (w.getLsbD 24) (w.getLsbD 23) (w.getLsbD 22) (w.getLsbD 21)
      (w.getLsbD 20) (w.extractLsb' 16 4) (w.extractLsb' 12 4) (w.extractLsb' 8 4) (w.extractLsb' 0 8) = w := by
  simp (disch := decide) only [cdtWord, Cond.code_ofCode, bit_field, ← h, fields_join]
  exact field_all w

theorem cdpWord_fields {w : Word} (h : w.extractLsb' 24 4 = 0b1110#4) (h4 : w.extractLsb' 4 1 = 0b0#1) :
    cdpWord (Cond.ofCode (w.extractLsb' 28 4)) (w.extractLsb' 20 4) (w.extractLsb' 16 4) (w.extractLsb' 12 4)
      (w.extractLsb' 8 4) (w.extractLsb' 5 3) (w.extractLsb' 0 4) = w := by
  simp (disch := decide) only [cdpWord, Cond.code_ofCode, ← h, ← h4, fields_join]
  exact field_all w

theorem crtWord_fields {w : Word} (h : w.extractLsb' 24 4 = 0b1110#4) (h4 : w.extractLsb' 4 1 = 0b1#1) :
    crtWord (Cond.ofCode (w.extractLsb' 28 4)) (w.extractLsb' 21 3) (w.getLsbD 20) (w.extractLsb' 16 4)
      (w.extractLsb' 12 4) (w.extractLsb' 8 4) (w.extractLsb' 5 3) (w.extractLsb' 0 4) = w := by
  simp (disch := decide) only [crtWord, Cond.code_ofCode, bit_field, ← h, ← h4, fields_join]
  exact field_all w

theorem swiWord_fields {w : Word} (h : w.extractLsb' 24 4 = 0b1111#4) :
    swiWord (Cond.ofCode (w.extractLsb' 28 4)) (w.extractLsb' 0 24) = w := by
  simp (disch := decide) only [swiWord, Cond.code_ofCode, ← h, fields_join]
  exact field_all w

/-! ## The decoder's choices: each encodes to the format it was chosen for -/

/-- Sixteen cases of an opcode field. -/
theorem opcode_cases {motive : BitVec 4 → Prop} (x : BitVec 4)
    (h0 : motive 0#4) (h1 : motive 1#4) (h2 : motive 2#4) (h3 : motive 3#4) (h4 : motive 4#4) (h5 : motive 5#4)
    (h6 : motive 6#4) (h7 : motive 7#4) (h8 : motive 8#4) (h9 : motive 9#4) (h10 : motive 10#4) (h11 : motive 11#4)
    (h12 : motive 12#4) (h13 : motive 13#4) (h14 : motive 14#4) (h15 : motive 15#4) : motive x := by
  have values : x = 0#4 ∨ x = 1#4 ∨ x = 2#4 ∨ x = 3#4 ∨ x = 4#4 ∨ x = 5#4 ∨ x = 6#4 ∨ x = 7#4 ∨
      x = 8#4 ∨ x = 9#4 ∨ x = 10#4 ∨ x = 11#4 ∨ x = 12#4 ∨ x = 13#4 ∨ x = 14#4 ∨ x = 15#4 := by
    revert x
    decide
  rcases values with rfl | rfl | rfl | rfl | rfl | rfl | rfl | rfl | rfl | rfl | rfl | rfl | rfl | rfl | rfl | rfl <;>
    assumption

theorem encode_dpImmOf (op : BitVec 4) (c : Cond) (s : Bool) (rn rd : Reg) (o : RotImm) :
    encode (dpImmOf op c s rn rd o) = dpImmWord c op s rn rd o := by
  cases op using opcode_cases <;> cases s <;> rfl

theorem encode_dpShiftOf (op : BitVec 4) (c : Cond) (s : Bool) (rn rd : Reg) (o : ShiftedReg) :
    encode (dpShiftOf op c s rn rd o) = dpShiftWord c op s rn rd o := by
  cases op using opcode_cases <;> cases s <;> rfl

theorem encode_dpRegShiftOf (op : BitVec 4) (c : Cond) (s : Bool) (rn rd : Reg) (o : RegShifted) :
    encode (dpRegShiftOf op c s rn rd o) = dpRegShiftWord c op s rn rd o := by
  cases op using opcode_cases <;> cases s <;> rfl

theorem encode_sdtImmOf (b l : Bool) (c : Cond) (p u w : Bool) (rn rd : Reg) (off : BitVec 12) :
    encode (sdtImmOf b l c p u w rn rd off) = sdtImmWord c p u b w l rn rd off := by
  cases b <;> cases l <;> rfl

theorem encode_sdtRegOf (b l : Bool) (c : Cond) (p u w : Bool) (rn rd : Reg) (o : ShiftedReg) :
    encode (sdtRegOf b l c p u w rn rd o) = sdtRegWord c p u b w l rn rd o := by
  cases b <;> cases l <;> rfl

/-! ## The decision list of R116 -/

theorem two_bits_cases (x : BitVec 2) : x = 0b00#2 ∨ x = 0b01#2 ∨ x = 0b10#2 ∨ x = 0b11#2 := by
  revert x
  decide

theorem encode_decodeMultiply {w : Word} (h24 : w.extractLsb' 24 4 = 0b0000#4) (h7 : w.getLsbD 7 = true)
    (h4 : w.getLsbD 4 = true) : encode (decodeMultiply (Cond.ofCode (w.extractLsb' 28 4)) w) = w := by
  have low : w.extractLsb' 4 4 = BitVec.ofBool true ++ w.extractLsb' 5 2 ++ BitVec.ofBool true :=
    calc w.extractLsb' 4 4
      _ = w.extractLsb' 7 1 ++ w.extractLsb' 5 2 ++ w.extractLsb' 4 1 := by
        rw [fields_join w (j := 7) (k := 5) (n := 2) rfl, fields_join w (j := 5) (k := 4) (n := 1) rfl]
      _ = _ := by rw [field_one h7, field_one h4]
  have high : w.extractLsb' 22 6 = w.extractLsb' 24 4 ++ w.extractLsb' 22 2 :=
    (fields_join w (j := 24) (k := 22) (n := 2) rfl).symm
  have unalloc65 := unallocWord65_fields h24
  have unalloc2322 := @unallocWord2322_fields w h24
  unfold decodeMultiply
  rcases two_bits_cases (w.extractLsb' 5 2) with h5 | h5 | h5 | h5
  · rw [h5] at low ⊢
    rcases two_bits_cases (w.extractLsb' 22 2) with h22 | h22 | h22 | h22
    · have multiply := mulWord_fields (by rw [high, h24, h22]; rfl) low
      rw [h22]
      cases h21 : w.getLsbD 21 <;> rw [h21] at multiply <;> exact multiply
    all_goals
      rw [h22] at unalloc2322 ⊢
      exact unalloc2322 low
  all_goals
    rw [low, h5] at unalloc65
    rw [h5]
    exact unalloc65

theorem encode_decodeData {w : Word} (h27 : w.getLsbD 27 = false) (h26 : w.getLsbD 26 = false) :
    encode (decodeData (Cond.ofCode (w.extractLsb' 28 4)) w) = w := by
  unfold decodeData
  cases h25 : w.getLsbD 25
  case true => exact (encode_dpImmOf ..).trans (dpImmWord_fields (field_three h27 h26 h25))
  cases h4 : w.getLsbD 4
  case false => exact (encode_dpShiftOf ..).trans (dpShiftWord_fields (field_three h27 h26 h25) (field_one h4))
  cases h7 : w.getLsbD 7
  case false =>
    exact (encode_dpRegShiftOf ..).trans
      (dpRegShiftWord_fields (field_three h27 h26 h25) (field_one h7) (field_one h4))
  cases h24 : w.getLsbD 24
  case true => exact undefinedBWord_fields (field_four h27 h26 h25 h24) (field_one h7) (field_one h4)
  case false => exact encode_decodeMultiply (field_four h27 h26 h25 h24) h7 h4

theorem encode_decodeTransfer {w : Word} (h27 : w.getLsbD 27 = false) (h26 : w.getLsbD 26 = true) :
    encode (decodeTransfer (Cond.ofCode (w.extractLsb' 28 4)) w) = w := by
  unfold decodeTransfer
  cases h25 : w.getLsbD 25
  case false => exact (encode_sdtImmOf ..).trans (sdtImmWord_fields (field_three h27 h26 h25))
  cases h4 : w.getLsbD 4
  case true => exact undefinedAWord_fields (field_three h27 h26 h25) (field_one h4)
  case false => exact (encode_sdtRegOf ..).trans (sdtRegWord_fields (field_three h27 h26 h25) (field_one h4))

theorem encode_decodeBlockOrBranch {w : Word} (h27 : w.getLsbD 27 = true) (h26 : w.getLsbD 26 = false) :
    encode (decodeBlockOrBranch (Cond.ofCode (w.extractLsb' 28 4)) w) = w := by
  unfold decodeBlockOrBranch
  cases h25 : w.getLsbD 25
  case false =>
    have block := bdtWord_fields (field_three h27 h26 h25)
    cases h20 : w.getLsbD 20 <;> rw [h20] at block <;> exact block
  case true =>
    have branch := branchWord_fields (field_three h27 h26 h25)
    cases h24 : w.getLsbD 24 <;> rw [h24] at branch <;> exact branch

theorem encode_decodeCoprocessorOrSwi {w : Word} (h27 : w.getLsbD 27 = true) (h26 : w.getLsbD 26 = true) :
    encode (decodeCoprocessorOrSwi (Cond.ofCode (w.extractLsb' 28 4)) w) = w := by
  unfold decodeCoprocessorOrSwi
  cases h25 : w.getLsbD 25
  case false =>
    have transfer := cdtWord_fields (field_three h27 h26 h25)
    cases h20 : w.getLsbD 20 <;> rw [h20] at transfer <;> exact transfer
  cases h24 : w.getLsbD 24
  case true => exact swiWord_fields (field_four h27 h26 h25 h24)
  cases h4 : w.getLsbD 4
  case false => exact cdpWord_fields (field_four h27 h26 h25 h24) (field_one h4)
  have register := crtWord_fields (field_four h27 h26 h25 h24) (field_one h4)
  cases h20 : w.getLsbD 20 <;> rw [h20] at register <;> exact register

/-- Every word is the word of its decoding (R116: every word has a class, and a class keeps every field). -/
theorem encode_decodeWord (w : Word) : encode (decodeWord w) = w := by
  unfold decodeWord
  cases h27 : w.getLsbD 27 <;> cases h26 : w.getLsbD 26
  · exact encode_decodeData h27 h26
  · exact encode_decodeTransfer h27 h26
  · exact encode_decodeBlockOrBranch h27 h26
  · exact encode_decodeCoprocessorOrSwi h27 h26

end Sys2Proof
end

section
/-! SUPPORT. The condition of an instruction, and that decoding takes it from the condition field (R101, R132 to R148). -/

namespace Sys2Proof

/-- The condition of an instruction. -/
def Instr.cond (i : Instr) : Cond :=
  match i with
  | .andImm c .. | .andShift c .. | .andRegShift c .. | .eorImm c .. | .eorShift c .. | .eorRegShift c .. | .orrImm c ..
  | .orrShift c .. | .orrRegShift c .. | .movImm c .. | .movShift c .. | .movRegShift c .. | .bicImm c ..
  | .bicShift c .. | .bicRegShift c .. | .mvnImm c .. | .mvnShift c .. | .mvnRegShift c .. | .subImm c ..
  | .subShift c .. | .subRegShift c .. | .rsbImm c .. | .rsbShift c .. | .rsbRegShift c .. | .addImm c ..
  | .addShift c .. | .addRegShift c .. | .adcImm c .. | .adcShift c .. | .adcRegShift c .. | .sbcImm c ..
  | .sbcShift c .. | .sbcRegShift c .. | .rscImm c .. | .rscShift c .. | .rscRegShift c .. | .tstImm c ..
  | .tstShift c .. | .tstRegShift c .. | .teqImm c .. | .teqShift c .. | .teqRegShift c .. | .cmpImm c ..
  | .cmpShift c .. | .cmpRegShift c .. | .cmnImm c .. | .cmnShift c .. | .cmnRegShift c .. | .tstImmS0 c ..
  | .tstShiftS0 c .. | .tstRegShiftS0 c .. | .teqImmS0 c .. | .teqShiftS0 c .. | .teqRegShiftS0 c .. | .cmpImmS0 c ..
  | .cmpShiftS0 c .. | .cmpRegShiftS0 c .. | .cmnImmS0 c .. | .cmnShiftS0 c .. | .cmnRegShiftS0 c .. | .mul c ..
  | .mla c .. | .unallocB c .. | .unallocD c .. | .unallocF c .. | .unalloc4 c .. | .unalloc8 c .. | .unallocC c ..
  | .ldrImm c .. | .ldrReg c .. | .ldrbImm c .. | .ldrbReg c .. | .strImm c .. | .strReg c .. | .strbImm c ..
  | .strbReg c .. | .undefinedA c .. | .undefinedB c .. | .ldm c .. | .stm c .. | .b c .. | .bl c .. | .ldc c ..
  | .stc c .. | .cdp c .. | .mrc c .. | .mcr c .. | .swi c .. => c

theorem cond_dpImmOf (op : BitVec 4) (c : Cond) (s : Bool) (rn rd : Reg) (o : RotImm) :
    (dpImmOf op c s rn rd o).cond = c := by
  cases op using opcode_cases <;> cases s <;> rfl

theorem cond_dpShiftOf (op : BitVec 4) (c : Cond) (s : Bool) (rn rd : Reg) (o : ShiftedReg) :
    (dpShiftOf op c s rn rd o).cond = c := by
  cases op using opcode_cases <;> cases s <;> rfl

theorem cond_dpRegShiftOf (op : BitVec 4) (c : Cond) (s : Bool) (rn rd : Reg) (o : RegShifted) :
    (dpRegShiftOf op c s rn rd o).cond = c := by
  cases op using opcode_cases <;> cases s <;> rfl

theorem cond_decodeMultiply (c : Cond) (w : Word) : (decodeMultiply c w).cond = c := by
  unfold decodeMultiply
  split
  · split <;> rfl
  all_goals rfl

theorem cond_decodeData (c : Cond) (w : Word) : (decodeData c w).cond = c := by
  unfold decodeData
  split
  · exact cond_dpImmOf ..
  split
  · exact cond_dpShiftOf ..
  split
  · exact cond_dpRegShiftOf ..
  split
  · rfl
  · exact cond_decodeMultiply c w

theorem cond_decodeTransfer (c : Cond) (w : Word) : (decodeTransfer c w).cond = c := by
  unfold decodeTransfer
  split
  · cases w.getLsbD 22 <;> cases w.getLsbD 20 <;> rfl
  split
  · rfl
  · cases w.getLsbD 22 <;> cases w.getLsbD 20 <;> rfl

theorem cond_decodeBlockOrBranch (c : Cond) (w : Word) : (decodeBlockOrBranch c w).cond = c := by
  unfold decodeBlockOrBranch
  split <;> split <;> rfl

theorem cond_decodeCoprocessorOrSwi (c : Cond) (w : Word) : (decodeCoprocessorOrSwi c w).cond = c := by
  unfold decodeCoprocessorOrSwi
  split
  · split <;> rfl
  split
  · rfl
  split
  · rfl
  split <;> rfl

/-- The condition of a decoded instruction is w[31:28]. -/
theorem cond_decodeWord (w : Word) : (decodeWord w).cond = Cond.ofCode (w.extractLsb' 28 4) := by
  unfold decodeWord
  cases w.getLsbD 27 <;> cases w.getLsbD 26
  · exact cond_decodeData ..
  · exact cond_decodeTransfer ..
  · exact cond_decodeBlockOrBranch ..
  · exact cond_decodeCoprocessorOrSwi ..

end Sys2Proof
end

section
/-! SUPPORT. What an instruction leaves unchanged, whatever it is: it works on the registers, the PSR, memory and the records
of the outside, and then goes on, goes elsewhere, or waits (spec/10_state.md R31, R41, R44). -/

namespace Sys2Proof.Machine

/-! ## The work of an instruction -/

/-- `t` differs from `s` in the registers, the PSR, memory, what the bus has used of the inputs and the two records alone, and
memory has kept its canonical form (R40). -/
structure Works (s t : State) : Prop where
  memory : memoryWf s.mem = true → memoryWf t.mem = true
  frame : t = { s with
    regs := t.regs, psr := t.psr, mem := t.mem, inputs := t.inputs, cpLog := t.cpLog, busLog := t.busLog }

theorem Works.refl (s : State) : Works s s := ⟨id, rfl⟩

theorem Works.trans {s t u : State} (h : Works s t) (k : Works t u) : Works s u :=
  ⟨k.memory ∘ h.memory, by rw [k.frame, h.frame]⟩

theorem Works.pipe {s t : State} (h : Works s t) : t.pipe = s.pipe :=
  (congrArg State.pipe h.frame :)

theorem Works.resetHigh {s t : State} (h : Works s t) : t.resetHigh = s.resetHigh :=
  (congrArg State.resetHigh h.frame :)

theorem Works.params {s t : State} (h : Works s t) : t.params = s.params :=
  (congrArg State.params h.frame :)

theorem works_withRegs (s : State) (g : Regs) : Works s { s with regs := g } := ⟨id, rfl⟩

theorem works_withPsr (s : State) (p : Psr) : Works s { s with psr := p } := ⟨id, rfl⟩

theorem works_writeX (s : State) (r : Reg) (v : Word) : Works s (s.writeX r v) := by
  rw [writeX_eq]
  exact works_withRegs ..

theorem works_accepted (s : State) (w : Word) (l : List Word) : Works s (s.accepted w l) := ⟨id, rfl⟩

theorem works_busGap (s : State) : Works s s.busGap :=
  ⟨memoryWf_busGap, by rw [busGap_eq]⟩

theorem works_busGaps (s : State) (n : Nat) : Works s (s.busGaps n) :=
  ⟨memoryWf_busGaps n, by rw [busGaps_eq]⟩

theorem works_loadRegs (s : State) (m : Mode) (l : List (Reg × Word)) : Works s (s.loadRegs m l) := by
  rw [loadRegs_eq]
  exact works_withRegs ..

theorem works_blockBack (s : State) (u w : Bool) (rn : Reg) (list : BitVec 16) : Works s (s.blockBack u w rn list) := by
  rw [blockBack_eq]
  exact works_withRegs ..

theorem works_coBack (s : State) (u w : Bool) (rn : Reg) (off : BitVec 8) : Works s (s.coBack u w rn off) := by
  rw [coBack_eq]
  exact works_withRegs ..

theorem works_storeWords (s : State) (start : Word) (k : Nat) (l : List Word) : Works s (s.storeWords start k l).1 :=
  ⟨memoryWf_storeWords start k l, by rw [storeWords_eq]⟩

theorem works_stmStores (s : State) (p u f w : Bool) (rn : Reg) (list : BitVec 16) :
    Works s (s.stmStores p u f w rn list).1 :=
  (works_blockBack s u w rn list).trans (works_storeWords ..)

theorem works_writeAccess {s t : State} {a : Access} {v : Word} {landed : List Host.Cell}
    (h : s.writeAccess a v landed = some t) (hl : memoryWf s.mem = true → memoryWf landed = true) : Works s t :=
  ⟨fun hm => memoryWf_writeAccess h hm (hl hm), by rw [writeAccess_eq h]⟩

theorem works_storeRegister {s t : State} {a : Addr} {v : Word} {force : Bool} (h : s.storeRegister a v force = some t) :
    Works s t :=
  works_writeAccess h (memoryWf_writeWord _ _)

theorem works_storeLowByte {s t : State} {a : Addr} {v : Word} {force : Bool} (h : s.storeLowByte a v force = some t) :
    Works s t :=
  works_writeAccess h fun hm => memoryWf_writeByte _ hm a.isLt

/-! ## The end of an instruction -/

/-- How an instruction that began in `s` can end in `t`: after its work it goes on to the next one, the bank settled or not;
or it goes to an address, the prefetched words discarded; or it waits for a co-processor, nothing done. -/
inductive Completes (s t : State) : Prop where
  | goesOn (u : State) (b : Bank) (work : Works s u) (end_eq : t = { u.advance with bank := b })
  | goesTo (u : State) (a : BitVec 24) (work : Works s u) (end_eq : t = u.branchTo a)
  | waits (end_eq : t = { s with busyWait := true })

theorem completes_advance {s u : State} (h : Works s u) : Completes s u.advance :=
  .goesOn u .settled h rfl

/-- Going on with a status given last. -/
theorem completes_advance_withPsr {s u : State} (h : Works s u) (p : Psr) : Completes s { u.advance with psr := p } :=
  .goesOn { u with psr := p } .settled (h.trans (works_withPsr u p)) rfl

theorem completes_raise {s u : State} (h : Works s u) (e : Exception) : Completes s (u.raise e) :=
  .goesTo _ e.vector ((h.trans (works_withRegs u (u.regs.set e.link (u.r15full e.savedOffset)))).trans
    (works_withPsr _ { u.psr with mode := e.mode, i := true, f := u.psr.f || e == .fiq })) rfl

theorem completes_writePC {s u : State} (h : Works s u) (w : Word) : Completes s (u.writePC w) :=
  .goesTo u _ h rfl

theorem completes_writePCPSR {s u : State} (h : Works s u) (w : Word) : Completes s (u.writePCPSR w) :=
  completes_writePC (h.trans (works_withPsr u (u.psr.written w))) w

/-! ## Each shared operation -/

theorem completes_whenPassed {c : Cond} {s t : State} {k : Result} (h : whenPassed c s k = .next t)
    (hk : k = .next t → Completes s t) : Completes s t := by
  rcases whenPassed_next h with ⟨-, h⟩ | ⟨-, rfl⟩
  · exact hk h
  · exact completes_advance (.refl s)

theorem completes_offer {s t : State} {cp : Option (BitVec 4)} {w : Word} {k : Word → List Word → Result}
    (h : s.offer cp w k = .next t) (hk : ∀ first rest, k first rest = .next t → Completes s t) : Completes s t := by
  rcases offer_next h with ⟨-, rfl⟩ | ⟨-, rfl⟩ | ⟨first, rest, -, h⟩
  · exact completes_raise (.refl s) _
  · exact .waits rfl
  · exact hk first rest h

theorem completes_writeResult {st t : State} {s : Bool} {rd : Reg} {result : Word} {flags : Psr}
    (h : st.writeResult s rd result flags = .next t) : Completes st t := by
  rcases writeResult_next h with ⟨-, rfl⟩ | ⟨-, -, rfl⟩
  · cases s
    · exact completes_writePC (.refl st) result
    · exact completes_writePCPSR (.refl st) result
  · exact completes_advance_withPsr (works_writeX ..) _

theorem completes_writeTest {st t : State} {rd : Reg} {result : Word} {flags : Psr}
    (h : st.writeTest rd result flags = .next t) : Completes st t := by
  rcases writeTest_next h with ⟨-, rfl⟩ | ⟨-, rfl⟩
  · exact .goesOn (st.writePSR result) _ (works_withPsr ..) rfl
  · exact completes_advance_withPsr (.refl st) _

theorem completes_logical {f : Word → Word → Word} {c : Cond} {s : Bool} {rn rd : Reg} {o : Op2} {st t : State}
    (h : logical f c s rn rd o st = .next t) : Completes st t :=
  completes_whenPassed h completes_writeResult

theorem completes_arithmetic {f : Addends} {c : Cond} {s : Bool} {rn rd : Reg} {o : Op2} {st t : State}
    (h : arithmetic f c s rn rd o st = .next t) : Completes st t :=
  completes_whenPassed h completes_writeResult

theorem completes_testLogical {f : Word → Word → Word} {c : Cond} {rn rd : Reg} {o : Op2} {st t : State}
    (h : testLogical f c rn rd o st = .next t) : Completes st t :=
  completes_whenPassed h completes_writeTest

theorem completes_testArithmetic {f : Addends} {c : Cond} {rn rd : Reg} {o : Op2} {st t : State}
    (h : testArithmetic f c rn rd o st = .next t) : Completes st t :=
  completes_whenPassed h completes_writeTest

theorem completes_unallocatedTest {c : Cond} {st t : State} (h : unallocatedTest c st = .next t) : Completes st t :=
  completes_whenPassed h nofun

theorem completes_unallocatedMultiply {c : Cond} {st t : State} (h : unallocatedMultiply c st = .next t) :
    Completes st t :=
  completes_whenPassed h nofun

theorem completes_writeProduct {st t : State} {s : Bool} {rd rm : Reg} {r : Word}
    (h : st.writeProduct s rd rm r = .next t) : Completes st t := by
  rcases writeProduct_next h with ⟨-, rfl⟩ | ⟨-, -, v, flags, -, rfl⟩
  · exact completes_advance_withPsr (.refl st) _
  · exact completes_advance_withPsr (works_writeX ..) _

theorem completes_execMul {c : Cond} {s : Bool} {rd rs rm : Reg} {st t : State} (h : execMul c s rd rs rm st = .next t) :
    Completes st t :=
  completes_whenPassed h completes_writeProduct

theorem completes_execMla {c : Cond} {s : Bool} {rd rn rs rm : Reg} {st t : State}
    (h : execMla c s rd rn rs rm st = .next t) : Completes st t :=
  completes_whenPassed h completes_writeProduct

/-- The write-back of a single transfer, where there is one. -/
theorem works_back (s : State) (back : Bool) (rn : Reg) (idx : Word) :
    Works s (if back then s.writeX rn idx else s) := by
  cases back
  · exact .refl s
  · exact works_writeX ..

theorem completes_loadTransfer {read : State → Addr → Bool → Option Word} {c : Cond} {p u w : Bool} {rn rd : Reg}
    {o : Offset} {st t : State} (h : loadTransfer read c p u w rn rd o st = .next t) : Completes st t := by
  have gap := works_busGap st
  rcases loadTransfer_next h with rfl | rfl | rfl | ⟨v, -, -, -, h⟩
  · exact completes_advance (.refl st)
  · exact completes_raise (.refl st) _
  · exact completes_raise gap _
  · obtain ⟨-, -, ⟨-, rfl⟩ | ⟨-, -, -, x, -, rfl⟩ | ⟨-, -, rfl⟩⟩ := finishLoad_next h
    · exact completes_writePC (gap.trans (works_back ..)) v
    · exact completes_advance (gap.trans (works_writeX ..))
    · exact completes_advance ((gap.trans (works_back ..)).trans (works_writeX ..))

theorem completes_storeTransfer {write : State → Addr → Word → Bool → Option State}
    (works : ∀ {s t : State} {a : Addr} {v : Word} {force : Bool}, write s a v force = some t → Works s t)
    {c : Cond} {p u w : Bool} {rn rd : Reg} {o : Offset} {st t : State}
    (h : storeTransfer write c p u w rn rd o st = .next t) : Completes st t := by
  have gap := works_busGap st
  rcases storeTransfer_next h with rfl | ⟨-, rfl⟩ | ⟨-, -, rfl⟩ | ⟨m, -, -, hm, -, rfl⟩
  · exact completes_advance (.refl st)
  · exact completes_raise (.refl st) _
  · exact completes_raise gap _
  · exact completes_advance ((gap.trans (works hm)).trans (works_back ..))

theorem completes_finishLdm {s v : State} (h : Works s v) (f user : Bool) (l : List (Reg × Word)) :
    Completes s (v.finishLdm f user l) := by
  unfold State.finishLdm
  split
  · split
    · exact completes_writePCPSR h _
    · exact completes_writePC h _
  · exact .goesOn v _ h rfl

theorem completes_execLdm {c : Cond} {p u s w : Bool} {rn : Reg} {list : BitVec 16} {st t : State}
    (h : execLdm c p u s w rn list st = .next t) : Completes st t := by
  have back := works_blockBack st u w rn list
  rcases execLdm_next h with rfl | ⟨-, -, m, -, rfl | ⟨l, -, ends⟩⟩
  · exact completes_advance (.refl st)
  · exact completes_raise back _
  · have loaded := (back.trans (works_busGaps _ (listed list).length)).trans (works_loadRegs _ m l)
    rcases ends with rfl | rfl
    · exact completes_raise loaded _
    · exact completes_finishLdm loaded ..

theorem completes_execStm {c : Cond} {p u s w : Bool} {rn : Reg} {list : BitVec 16} {st t : State}
    (h : execStm c p u s w rn list st = .next t) : Completes st t := by
  rcases execStm_next h with rfl | ⟨-, rfl⟩ | ⟨-, rfl⟩
  · exact completes_advance (.refl st)
  · exact completes_raise (works_blockBack ..) _
  · have stored := works_stmStores st p u s w rn list
    split
    · exact completes_raise stored _
    · exact completes_advance stored

theorem completes_execB {c : Cond} {off : BitVec 24} {st t : State} (h : execB c off st = .next t) : Completes st t :=
  completes_whenPassed h fun e => by
    injection e with e
    exact .goesTo st _ (.refl st) e.symm

theorem completes_execBl {c : Cond} {off : BitVec 24} {st t : State} (h : execBl c off st = .next t) :
    Completes st t :=
  completes_whenPassed h fun e => by
    obtain ⟨-, e⟩ := guardWrites_next e
    injection e with e
    exact .goesTo _ _ (works_writeX ..) e.symm

theorem completes_execSwi {c : Cond} {st t : State} (h : execSwi c st = .next t) : Completes st t :=
  completes_whenPassed h fun e => by
    injection e with e
    exact e ▸ completes_raise (.refl st) _

theorem completes_undefinedInstruction {c : Cond} {w : Word} {st t : State}
    (h : undefinedInstruction c w st = .next t) : Completes st t :=
  completes_whenPassed h fun h => completes_offer h fun _ _ e => by
    injection e with e
    exact e ▸ completes_advance (works_accepted ..)

theorem completes_execCdp {c : Cond} {opc : BitVec 4} {crn crd cp : Reg} {info : BitVec 3} {crm : Reg} {st t : State}
    (h : execCdp c opc crn crd cp info crm st = .next t) : Completes st t :=
  completes_whenPassed h fun h => completes_offer h fun _ _ e => by
    injection e with e
    exact e ▸ completes_advance (works_accepted ..)

theorem completes_execMcr {c : Cond} {opc : BitVec 3} {crn rd cp : Reg} {info : BitVec 3} {crm : Reg} {st t : State}
    (h : execMcr c opc crn rd cp info crm st = .next t) : Completes st t :=
  completes_whenPassed h fun h => completes_offer h fun _ _ e => by
    injection e with e
    exact e ▸ completes_advance (works_accepted ..)

theorem completes_execMrc {c : Cond} {opc : BitVec 3} {crn rd cp : Reg} {info : BitVec 3} {crm : Reg} {st t : State}
    (h : execMrc c opc crn rd cp info crm st = .next t) : Completes st t :=
  completes_whenPassed h fun h => completes_offer h fun v _ e => by
    have taken := works_accepted st (crtWord c opc true crn rd cp info crm) []
    dsimp only at e
    split at e
    · injection e with e
      exact e ▸ completes_advance_withPsr taken _
    · obtain ⟨-, e⟩ := guardWrites_next e
      injection e with e
      exact e ▸ completes_advance (taken.trans (works_writeX ..))

theorem completes_execLdc {c : Cond} {p u n w : Bool} {rn crd cp : Reg} {off : BitVec 8} {st t : State}
    (h : execLdc c p u n w rn crd cp off st = .next t) : Completes st t := by
  have back := works_coBack st u w rn off
  rcases execLdc_next h with rfl | ⟨-, rfl⟩ | ⟨-, rfl⟩ | ⟨first, rest, -, rfl | ⟨k, sent, ends⟩⟩
  · exact completes_advance (.refl st)
  · exact completes_raise (.refl st) _
  · exact .waits rfl
  · exact completes_raise (back.trans (works_accepted ..)) _
  · have read := (back.trans (works_busGaps _ k)).trans
      (works_accepted _ (cdtWord c p u n w true rn crd cp off) sent)
    rcases ends with rfl | rfl
    · exact completes_raise read _
    · exact completes_advance read

theorem completes_execStc {c : Cond} {p u n w : Bool} {rn crd cp : Reg} {off : BitVec 8} {st t : State}
    (h : execStc c p u n w rn crd cp off st = .next t) : Completes st t := by
  have taken := (works_coBack st u w rn off).trans
    (works_accepted _ (cdtWord c p u n w false rn crd cp off) [])
  rcases execStc_next h with rfl | ⟨-, rfl⟩ | ⟨-, rfl⟩ | ⟨first, rest, -, ⟨-, rfl⟩ | ⟨-, rfl⟩⟩
  · exact completes_advance (.refl st)
  · exact completes_raise (.refl st) _
  · exact .waits rfl
  · exact completes_raise taken _
  · have stored := taken.trans (works_storeWords _ (st.coAddr p u rn off) 0 (first :: rest))
    split
    · exact completes_raise stored _
    · exact completes_advance stored

/-! ## Every instruction -/

/-- Every instruction that answers a next state completes in one of the three ways. -/
theorem exec_completes {i : Instr} {s t : State} (h : exec i s = .next t) : Completes s t := by
  cases i with
  | andImm | andShift | andRegShift | eorImm | eorShift | eorRegShift | orrImm | orrShift | orrRegShift | movImm
  | movShift | movRegShift | bicImm | bicShift | bicRegShift | mvnImm | mvnShift | mvnRegShift =>
    simp only [exec_andImm, exec_andShift, exec_andRegShift, exec_eorImm, exec_eorShift, exec_eorRegShift, exec_orrImm,
      exec_orrShift, exec_orrRegShift, exec_movImm, exec_movShift, exec_movRegShift, exec_bicImm, exec_bicShift,
      exec_bicRegShift, exec_mvnImm, exec_mvnShift, exec_mvnRegShift] at h
    exact completes_logical h
  | subImm | subShift | subRegShift | rsbImm | rsbShift | rsbRegShift | addImm | addShift | addRegShift | adcImm
  | adcShift | adcRegShift | sbcImm | sbcShift | sbcRegShift | rscImm | rscShift | rscRegShift =>
    exact completes_arithmetic h
  | tstImm | tstShift | tstRegShift | teqImm | teqShift | teqRegShift =>
    simp only [exec_tstImm, exec_tstShift, exec_tstRegShift, exec_teqImm, exec_teqShift, exec_teqRegShift] at h
    exact completes_testLogical h
  | cmpImm | cmpShift | cmpRegShift | cmnImm | cmnShift | cmnRegShift => exact completes_testArithmetic h
  | tstImmS0 | tstShiftS0 | tstRegShiftS0 | teqImmS0 | teqShiftS0 | teqRegShiftS0 | cmpImmS0 | cmpShiftS0
  | cmpRegShiftS0 | cmnImmS0 | cmnShiftS0 | cmnRegShiftS0 => exact completes_unallocatedTest h
  | mul => exact completes_execMul h
  | mla => exact completes_execMla h
  | unallocB | unallocD | unallocF | unalloc4 | unalloc8 | unallocC => exact completes_unallocatedMultiply h
  | ldrImm | ldrReg | ldrbImm | ldrbReg => exact completes_loadTransfer h
  | strImm | strReg => exact completes_storeTransfer works_storeRegister h
  | strbImm | strbReg => exact completes_storeTransfer works_storeLowByte h
  | undefinedA | undefinedB => exact completes_undefinedInstruction h
  | ldm => exact completes_execLdm h
  | stm => exact completes_execStm h
  | b => exact completes_execB h
  | bl => exact completes_execBl h
  | ldc => exact completes_execLdc h
  | stc => exact completes_execStc h
  | cdp => exact completes_execCdp h
  | mrc => exact completes_execMrc h
  | mcr => exact completes_execMcr h
  | swi => exact completes_execSwi h

end Sys2Proof.Machine
end

section
/-! SUPPORT. Every step keeps the invariant (O59). -/

namespace Sys2Proof.Machine

/-! ## The boundary before the instruction -/

theorem memoryWf_sample {s : State} (h : memoryWf s.mem = true) : memoryWf s.sample.mem = true :=
  memoryWf_masterWrites _ h

theorem memoryWf_busRest {s : State} (h : memoryWf s.mem = true) : memoryWf s.busRest.mem = true :=
  memoryWf_masterWrites _ h

theorem memoryWf_retire {s : State} (h : memoryWf s.mem = true) : memoryWf s.retire.mem = true :=
  memoryWf_busRest h

/-- Filling the pipeline gives it its three words, where it had no more (R41). -/
theorem fillPipe_pipe_length {s : State} (h : s.pipe.length ≤ 3) : s.fillPipe.pipe.length = 3 := by
  simp only [State.fillPipe, List.length_append, List.length_map, List.length_drop, List.length_range]
  omega

@[simp] theorem snoop_pipe_length (s old : State) : (s.snoop old).pipe.length = s.pipe.length := by
  simp [State.snoop]

/-! ## RESET -/

/-- The bytes that RESET leaves of a store keep the canonical form: each is written inside the address space (R391). -/
theorem memoryWf_loseBytes (stamp : Nat) {old : List Host.Cell} (new : List Host.Cell) (h : memoryWf old = true) :
    memoryWf (loseBytes stamp old new) = true := by
  unfold loseBytes
  generalize old ++ new = cells
  induction cells generalizing old with
  | nil => exact h
  | cons e cells ih =>
    refine ih ?_
    dsimp only
    split
    · rename_i he
      exact memoryWf_writeByte _ h he.1
    · exact h

theorem memoryWf_abandon {s : State} (h : memoryWf s.mem = true) : memoryWf s.abandon.mem = true :=
  memoryWf_loseBytes _ _ (memoryWf_busRest h)

theorem memoryWf_holdInReset {s : State} (h : memoryWf s.mem = true) : memoryWf s.holdInReset.mem = true := by
  unfold State.holdInReset
  split
  · exact h
  · exact memoryWf_abandon h

theorem holdInReset_params (s : State) : s.holdInReset.params = s.params := by
  unfold State.holdInReset
  split <;> rfl

/-! ## The invariant, where the pipeline has been emptied and where an instruction has run -/

/-- With no word prefetched, nothing waited for and the bank settled, canonical memory is all the invariant asks. -/
theorem inv_of_emptied {s : State} (memory : memoryWf s.mem = true) (pipe : s.pipe = []) (bank : s.bank = .settled)
    (waits : s.busyWait = false) : s.Inv where
  memory := memory
  pipeline := by simp [pipe]
  waiting := by simp [waits]
  held _ := ⟨pipe, bank⟩

/-- What the invariant speaks of, after an instruction that began with three words in the pipeline. -/
theorem inv_of_completes {s t : State} (h : Completes s t) (memory : memoryWf s.mem = true) (full : s.pipe.length = 3)
    (running : s.resetHigh = false) : t.Inv ∧ t.params = s.params := by
  cases h with
  | goesOn u b work end_eq =>
    subst end_eq
    refine ⟨⟨work.memory memory, ?_, by simp, ?_⟩, work.params⟩
    · simp [work.pipe, full]
    · simp [work.resetHigh, running]
  | goesTo u a work end_eq =>
    subst end_eq
    exact ⟨inv_of_emptied (work.memory memory) rfl rfl rfl, work.params⟩
  | waits end_eq =>
    subst end_eq
    refine ⟨⟨memory, Nat.le_of_eq full, fun _ empty => ?_, fun held => ?_⟩, rfl⟩
    · simp [show s.pipe = [] from empty] at full
    · exact absurd held (by simp [running])

/-- The end of a step keeps the invariant and the parameters: other masters write, prefetched words may change. -/
theorem inv_retire_snoop {u : State} (old : State) (h : u.Inv) : (u.retire.snoop old).Inv where
  memory := memoryWf_retire h.memory
  pipeline := by simpa using h.pipeline
  waiting waits empty := h.waiting waits (by simpa [← List.length_eq_zero_iff] using empty)
  held high := ⟨by simpa [← List.length_eq_zero_iff] using (h.held high).1, (h.held high).2⟩

theorem inv_runFetched {s t : State} (h : s.runFetched = .next t) (memory : memoryWf s.mem = true)
    (full : s.pipe.length = 3) (running : s.resetHigh = false) : t.Inv ∧ t.params = s.params := by
  rcases runFetched_next h with ⟨-, rfl⟩ | ⟨-, -, h⟩
  · exact ⟨inv_of_emptied memory rfl rfl rfl, rfl⟩
  · exact inv_of_completes (exec_completes h) memory full running

/-- Settles O59, by the three things a step can be: RESET, an interrupt, or the word at the head of the pipeline. -/
theorem everyStepKeepsTheInvariant : Obligations.EveryStepKeepsTheInvariant := by
  intro s t inv h
  have memory := memoryWf_sample inv.memory
  rcases boundary_next h with ⟨-, rfl⟩ | ⟨-, -, rfl⟩ | ⟨-, running, ⟨e, -, rfl⟩ | ⟨u, hu, rfl⟩⟩
  · exact ⟨inv_of_emptied (memoryWf_retire (memoryWf_holdInReset memory)) rfl rfl rfl, holdInReset_params s.sample⟩
  · exact ⟨inv_of_emptied (memoryWf_retire memory) rfl rfl rfl, rfl⟩
  · exact ⟨inv_of_emptied (memoryWf_retire memory) rfl rfl rfl, rfl⟩
  · obtain ⟨uInv, params⟩ := inv_runFetched hu memory (fillPipe_pipe_length inv.pipeline) running
    exact ⟨inv_retire_snoop _ uInv, params⟩

end Sys2Proof.Machine
end

section
/-! SUPPORT. Which instructions are refused, and which words the parameters admit (O49). -/

namespace Sys2Proof.Machine

open Sys2Proof.Spec

/-! ## Forms without a meaning are refused, by name -/

theorem unallocatedTest_refused {c : Cond} {st : State} (passed : condPassed c st.psr = true) :
    unallocatedTest c st = .refused .unallocatedTest :=
  whenPassed_passed passed

theorem unallocatedMultiply_refused {c : Cond} {st : State} (passed : condPassed c st.psr = true) :
    unallocatedMultiply c st = .refused .unallocatedMultiply :=
  whenPassed_passed passed

theorem writesBack_iff {p w : Bool} : writesBack p w = true ↔ p = false ∨ w = true := by
  simp [writesBack]

/-- U1: a load may not write back to R15. -/
theorem loadTransfer_refused {read : State → Addr → Bool → Option Word} {c : Cond} {p u w : Bool} {rn rd : Reg}
    {o : Offset} {st : State} (passed : condPassed c st.psr = true) (h : rn = 15 ∧ (p = false ∨ w = true)) :
    loadTransfer read c p u w rn rd o st = .refused .transferWritesBackR15 := by
  rw [loadTransfer, whenPassed_passed passed, if_pos ⟨h.1, writesBack_iff.2 h.2⟩]

/-- U1: nor may a store. -/
theorem storeTransfer_refused {write : State → Addr → Word → Bool → Option State} {c : Cond} {p u w : Bool}
    {rn rd : Reg} {o : Offset} {st : State} (passed : condPassed c st.psr = true) (h : rn = 15 ∧ (p = false ∨ w = true)) :
    storeTransfer write c p u w rn rd o st = .refused .transferWritesBackR15 := by
  rw [storeTransfer, whenPassed_passed passed, if_pos ⟨h.1, writesBack_iff.2 h.2⟩]

/-- U5: a block transfer has a register to transfer. -/
theorem execLdm_emptyList {c : Cond} {p u s w : Bool} {rn : Reg} {st : State} (passed : condPassed c st.psr = true) :
    execLdm c p u s w rn 0 st = .refused .emptyRegisterList := by
  rw [execLdm, whenPassed_passed passed, if_pos rfl]

theorem execStm_emptyList {c : Cond} {p u s w : Bool} {rn : Reg} {st : State} (passed : condPassed c st.psr = true) :
    execStm c p u s w rn 0 st = .refused .emptyRegisterList := by
  rw [execStm, whenPassed_passed passed, if_pos rfl]

theorem loadsUserBank_iff {st : State} {s : Bool} {list : BitVec 16} :
    st.loadsUserBank s list = true ↔ s = true ∧ list.getLsbD 15 = false ∧ st.psr.mode ≠ .usr := by
  simp [State.loadsUserBank, and_assoc]

theorem storesUserBank_iff {st : State} {s : Bool} : st.storesUserBank s = true ↔ s = true ∧ st.psr.mode ≠ .usr := by
  simp [State.storesUserBank]

/-- U6: a transfer of the User bank does not write back. -/
theorem execLdm_userBankWriteBack {c : Cond} {p u s w : Bool} {rn : Reg} {list : BitVec 16} {st : State}
    (passed : condPassed c st.psr = true) (some : list ≠ 0) (user : st.loadsUserBank s list = true) (back : w = true) :
    execLdm c p u s w rn list st = .refused .userBankWriteBack := by
  rw [execLdm, whenPassed_passed passed, if_neg some, if_pos (by rw [user, back]; rfl)]

theorem execStm_userBankWriteBack {c : Cond} {p u s w : Bool} {rn : Reg} {list : BitVec 16} {st : State}
    (passed : condPassed c st.psr = true) (some : list ≠ 0) (user : st.storesUserBank s = true) (back : w = true) :
    execStm c p u s w rn list st = .refused .userBankWriteBack := by
  rw [execStm, whenPassed_passed passed, if_neg some, if_pos (by rw [user, back]; rfl)]

theorem CpReply.isReady_iff {r : CpReply} : r.isReady = true ↔ ∃ first rest, r = .ready first rest := by
  cases r <;> simp [CpReply.isReady]

theorem CpReply.isReady_eq_false_iff {r : CpReply} : r.isReady = false ↔ r = .absent ∨ r = .busy := by
  cases r <;> simp [CpReply.isReady]

theorem offer_ready {s : State} {cp : Option (BitVec 4)} {w first : Word} {rest : List Word}
    {k : Word → List Word → Result} (h : s.reply cp w = .ready first rest) : s.offer cp w k = k first rest := by
  rw [State.offer, h]

/-- U10: a co-processor transfer that is taken may not write back to R15. -/
theorem execLdc_refused {c : Cond} {p u n w : Bool} {rn crd cp : Reg} {off : BitVec 8} {st : State}
    (passed : condPassed c st.psr = true) (form : rn = 15 ∧ w = true)
    (ready : (st.reply (some cp) (cdtWord c p u n w true rn crd cp off)).isReady = true) :
    execLdc c p u n w rn crd cp off st = .refused .coprocessorWritesBackR15 := by
  obtain ⟨first, rest, h⟩ := CpReply.isReady_iff.1 ready
  rw [execLdc, whenPassed_passed passed, offer_ready h, if_pos form]

theorem execStc_refused {c : Cond} {p u n w : Bool} {rn crd cp : Reg} {off : BitVec 8} {st : State}
    (passed : condPassed c st.psr = true) (form : rn = 15 ∧ w = true)
    (ready : (st.reply (some cp) (cdtWord c p u n w false rn crd cp off)).isReady = true) :
    execStc c p u n w rn crd cp off st = .refused .coprocessorWritesBackR15 := by
  obtain ⟨first, rest, h⟩ := CpReply.isReady_iff.1 ready
  rw [execStc, whenPassed_passed passed, offer_ready h, if_pos form]

/-- An instruction of a form without a meaning is refused where its condition passes, whether the bank is settled or not. -/
theorem exec_refused {i : Instr} {s : State} (h : NoMeaning i s) (passed : condPassed i.cond s.psr = true) :
    ∃ r, exec i s = .refused r := by
  cases i with
  | tstImmS0 | tstShiftS0 | tstRegShiftS0 | teqImmS0 | teqShiftS0 | teqRegShiftS0 | cmpImmS0 | cmpShiftS0
  | cmpRegShiftS0 | cmnImmS0 | cmnShiftS0 | cmnRegShiftS0 => exact ⟨_, unallocatedTest_refused passed⟩
  | unallocB | unallocD | unallocF | unalloc4 | unalloc8 | unallocC => exact ⟨_, unallocatedMultiply_refused passed⟩
  | ldrImm | ldrReg | ldrbImm | ldrbReg => exact ⟨_, loadTransfer_refused passed h⟩
  | strImm | strReg | strbImm | strbReg => exact ⟨_, storeTransfer_refused passed h⟩
  | ldm c p u f w rn list =>
    by_cases empty : list = 0
    · subst empty
      exact ⟨_, execLdm_emptyList passed⟩
    · obtain ⟨hf, back, low, mode⟩ := h.resolve_left empty
      exact ⟨_, execLdm_userBankWriteBack passed empty (loadsUserBank_iff.2 ⟨hf, low, mode⟩) back⟩
  | stm c p u f w rn list =>
    by_cases empty : list = 0
    · subst empty
      exact ⟨_, execStm_emptyList passed⟩
    · obtain ⟨hf, back, mode⟩ := h.resolve_left empty
      exact ⟨_, execStm_userBankWriteBack passed empty (storesUserBank_iff.2 ⟨hf, mode⟩) back⟩
  | ldc =>
    obtain ⟨r15, back, ready⟩ := h
    exact ⟨_, execLdc_refused passed ⟨r15, back⟩ ready⟩
  | stc =>
    obtain ⟨r15, back, ready⟩ := h
    exact ⟨_, execStc_refused passed ⟨r15, back⟩ ready⟩
  | _ => exact False.elim h

/-! ## With the bank settled every other form answers a next state -/

theorem whenPassed_answers {c : Cond} {s : State} {k : Result} (h : ∃ t, k = .next t) :
    ∃ t, whenPassed c s k = .next t := by
  cases passed : condPassed c s.psr
  · exact ⟨_, whenPassed_failed passed⟩
  · rwa [whenPassed_passed passed]

theorem guardWrites_settled {s : State} (h : s.bank = .settled) (rs : List Reg) (k : Result) : s.guardWrites rs k = k :=
  guardWrites_open fun r _ => unsettled_settled h r

theorem offer_answers {s : State} {cp : Option (BitVec 4)} {w : Word} {k : Word → List Word → Result}
    (h : ∀ first rest, s.reply cp w = .ready first rest → ∃ t, k first rest = .next t) :
    ∃ t, s.offer cp w k = .next t := by
  unfold State.offer
  split
  · exact ⟨_, rfl⟩
  · exact ⟨_, rfl⟩
  · rename_i first rest ready
    exact h first rest ready

theorem writeResult_answers {st : State} (settled : st.bank = .settled) (s : Bool) (rd : Reg) (result : Word) (flags : Psr) :
    ∃ t, st.writeResult s rd result flags = .next t := by
  rw [State.writeResult, guardWrites_settled settled]
  split <;> exact ⟨_, rfl⟩

theorem writeTest_answers (st : State) (rd : Reg) (result : Word) (flags : Psr) :
    ∃ t, st.writeTest rd result flags = .next t := by
  unfold State.writeTest
  split <;> exact ⟨_, rfl⟩

theorem logical_answers {f : Word → Word → Word} {c : Cond} {s : Bool} {rn rd : Reg} {o : Op2} {st : State}
    (settled : st.bank = .settled) : ∃ t, logical f c s rn rd o st = .next t :=
  whenPassed_answers (writeResult_answers settled ..)

theorem arithmetic_answers {f : Addends} {c : Cond} {s : Bool} {rn rd : Reg} {o : Op2} {st : State}
    (settled : st.bank = .settled) : ∃ t, arithmetic f c s rn rd o st = .next t :=
  whenPassed_answers (writeResult_answers settled ..)

theorem testLogical_answers (f : Word → Word → Word) (c : Cond) (rn rd : Reg) (o : Op2) (st : State) :
    ∃ t, testLogical f c rn rd o st = .next t :=
  whenPassed_answers (writeTest_answers ..)

theorem testArithmetic_answers (f : Addends) (c : Cond) (rn rd : Reg) (o : Op2) (st : State) :
    ∃ t, testArithmetic f c rn rd o st = .next t :=
  whenPassed_answers (writeTest_answers ..)

theorem writeProduct_answers {st : State} (settled : st.bank = .settled) (s : Bool) (rd rm : Reg) (r : Word) :
    ∃ t, st.writeProduct s rd rm r = .next t := by
  rw [State.writeProduct, guardWrites_settled settled]
  split <;> exact ⟨_, rfl⟩

theorem loadTransfer_answers {read : State → Addr → Bool → Option Word} {c : Cond} {p u w : Bool} {rn rd : Reg}
    {o : Offset} {st : State} (settled : st.bank = .settled) (h : ¬ (rn = 15 ∧ (p = false ∨ w = true))) :
    ∃ t, loadTransfer read c p u w rn rd o st = .next t := by
  refine whenPassed_answers ?_
  rw [if_neg (by rwa [writesBack_iff])]
  split
  · exact ⟨_, rfl⟩
  split
  · exact ⟨_, rfl⟩
  · rw [State.finishLoad, guardWrites_settled (by simpa using settled)]
    exact ⟨_, rfl⟩

theorem storeTransfer_answers {write : State → Addr → Word → Bool → Option State} {c : Cond} {p u w : Bool}
    {rn rd : Reg} {o : Offset} {st : State} (settled : st.bank = .settled) (h : ¬ (rn = 15 ∧ (p = false ∨ w = true))) :
    ∃ t, storeTransfer write c p u w rn rd o st = .next t := by
  refine whenPassed_answers ?_
  rw [if_neg (by rwa [writesBack_iff])]
  split
  · exact ⟨_, rfl⟩
  split
  · exact ⟨_, rfl⟩
  split
  · rw [guardWrites_settled settled]
    exact ⟨_, rfl⟩
  · exact ⟨_, rfl⟩

theorem execLdm_answers {c : Cond} {p u s w : Bool} {rn : Reg} {list : BitVec 16} {st : State}
    (settled : st.bank = .settled) (some : list ≠ 0) (h : ¬ (st.loadsUserBank s list = true ∧ w = true)) :
    ∃ t, execLdm c p u s w rn list st = .next t := by
  refine whenPassed_answers ?_
  rw [if_neg some, if_neg (by rwa [Bool.and_eq_true])]
  simp only [guardWrites_settled settled]
  split
  · exact ⟨_, rfl⟩
  split <;> exact ⟨_, rfl⟩

theorem execStm_answers {c : Cond} {p u s w : Bool} {rn : Reg} {list : BitVec 16} {st : State}
    (settled : st.bank = .settled) (some : list ≠ 0) (h : ¬ (st.storesUserBank s = true ∧ w = true)) :
    ∃ t, execStm c p u s w rn list st = .next t := by
  refine whenPassed_answers ?_
  rw [if_neg some, if_neg (by rwa [Bool.and_eq_true]), guardWrites_settled settled]
  split <;> exact ⟨_, rfl⟩

theorem execLdc_answers {c : Cond} {p u n w : Bool} {rn crd cp : Reg} {off : BitVec 8} {st : State}
    (settled : st.bank = .settled)
    (h : ¬ (rn = 15 ∧ w = true ∧ (st.reply (some cp) (cdtWord c p u n w true rn crd cp off)).isReady = true)) :
    ∃ t, execLdc c p u n w rn crd cp off st = .next t := by
  refine whenPassed_answers (offer_answers fun first rest reply => ?_)
  have ready := CpReply.isReady_iff.2 ⟨first, rest, reply⟩
  rw [if_neg fun form => h ⟨form.1, form.2, ready⟩]
  exact ⟨_, guardWrites_settled settled ..⟩

theorem execStc_answers {c : Cond} {p u n w : Bool} {rn crd cp : Reg} {off : BitVec 8} {st : State}
    (settled : st.bank = .settled)
    (h : ¬ (rn = 15 ∧ w = true ∧ (st.reply (some cp) (cdtWord c p u n w false rn crd cp off)).isReady = true)) :
    ∃ t, execStc c p u n w rn crd cp off st = .next t := by
  refine whenPassed_answers (offer_answers fun first rest reply => ?_)
  have ready := CpReply.isReady_iff.2 ⟨first, rest, reply⟩
  rw [if_neg fun form => h ⟨form.1, form.2, ready⟩]
  exact ⟨_, guardWrites_settled settled ..⟩

theorem execMrc_answers {c : Cond} {opc : BitVec 3} {crn rd cp : Reg} {info : BitVec 3} {crm : Reg} {st : State}
    (settled : st.bank = .settled) : ∃ t, execMrc c opc crn rd cp info crm st = .next t := by
  refine whenPassed_answers (offer_answers fun _ _ _ => ?_)
  dsimp only
  rw [guardWrites_settled settled]
  split <;> exact ⟨_, rfl⟩

/-- With the bank settled an instruction of a form with a meaning answers a next state, its condition passing or not. -/
theorem exec_answers {i : Instr} {s : State} (settled : s.bank = .settled) (h : ¬ NoMeaning i s) :
    ∃ t, exec i s = .next t := by
  cases i with
  | andImm | andShift | andRegShift | eorImm | eorShift | eorRegShift | orrImm | orrShift | orrRegShift | movImm
  | movShift | movRegShift | bicImm | bicShift | bicRegShift | mvnImm | mvnShift | mvnRegShift =>
    simp only [exec_andImm, exec_andShift, exec_andRegShift, exec_eorImm, exec_eorShift, exec_eorRegShift, exec_orrImm,
      exec_orrShift, exec_orrRegShift, exec_movImm, exec_movShift, exec_movRegShift, exec_bicImm, exec_bicShift,
      exec_bicRegShift, exec_mvnImm, exec_mvnShift, exec_mvnRegShift]
    exact logical_answers settled
  | subImm | subShift | subRegShift | rsbImm | rsbShift | rsbRegShift | addImm | addShift | addRegShift | adcImm
  | adcShift | adcRegShift | sbcImm | sbcShift | sbcRegShift | rscImm | rscShift | rscRegShift =>
    exact arithmetic_answers settled
  | tstImm | tstShift | tstRegShift | teqImm | teqShift | teqRegShift => exact testLogical_answers ..
  | cmpImm | cmpShift | cmpRegShift | cmnImm | cmnShift | cmnRegShift => exact testArithmetic_answers ..
  | tstImmS0 | tstShiftS0 | tstRegShiftS0 | teqImmS0 | teqShiftS0 | teqRegShiftS0 | cmpImmS0 | cmpShiftS0
  | cmpRegShiftS0 | cmnImmS0 | cmnShiftS0 | cmnRegShiftS0 | unallocB | unallocD | unallocF | unalloc4 | unalloc8
  | unallocC => exact absurd trivial h
  | mul | mla => exact whenPassed_answers (writeProduct_answers settled ..)
  | ldrImm | ldrReg | ldrbImm | ldrbReg => exact loadTransfer_answers settled h
  | strImm | strReg | strbImm | strbReg => exact storeTransfer_answers settled h
  | undefinedA | undefinedB | cdp | mcr => exact whenPassed_answers (offer_answers fun _ _ _ => ⟨_, rfl⟩)
  | ldm c p u f w rn list =>
    refine execLdm_answers settled (fun empty => h (.inl empty)) fun ⟨user, back⟩ => ?_
    obtain ⟨hf, low, mode⟩ := loadsUserBank_iff.1 user
    exact h (.inr ⟨hf, back, low, mode⟩)
  | stm c p u f w rn list =>
    refine execStm_answers settled (fun empty => h (.inl empty)) fun ⟨user, back⟩ => ?_
    obtain ⟨hf, mode⟩ := storesUserBank_iff.1 user
    exact h (.inr ⟨hf, back, mode⟩)
  | ldc => exact execLdc_answers settled h
  | stc => exact execStc_answers settled h
  | mrc => exact execMrc_answers settled
  | b | swi => exact whenPassed_answers ⟨_, rfl⟩
  | bl => exact whenPassed_answers ⟨_, guardWrites_settled settled ..⟩

/-! ## What the parameters admit (R4, R8, D1) -/

/-- The return recipes that the source prints. -/
theorem isReturnRecipe_iff {i : Instr} :
    isReturnRecipe i = true ↔
      (∃ c f, i = .movShift c f 0 15 ⟨14, .lsl 0⟩) ∨
        ∃ c, i = .subImm c true 14 15 ⟨0, 4⟩ ∨ i = .subImm c true 14 15 ⟨0, 8⟩ := by
  constructor
  · intro h
    cases i with
    | subImm c s rn rd o =>
      obtain ⟨rot, imm8⟩ := o
      simp only [isReturnRecipe, Bool.and_eq_true, Bool.or_eq_true, beq_iff_eq] at h
      obtain ⟨⟨⟨⟨rfl, rfl⟩, rfl⟩, rfl⟩, rfl | rfl⟩ := h
      · exact .inr ⟨c, .inl rfl⟩
      · exact .inr ⟨c, .inr rfl⟩
    | movShift c s rn rd o =>
      simp only [isReturnRecipe, Bool.and_eq_true, beq_iff_eq] at h
      obtain ⟨⟨rfl, rfl⟩, rfl⟩ := h
      exact .inl ⟨c, s, rfl⟩
    | _ => exact nomatch h
  · rintro (⟨c, f, rfl⟩ | ⟨c, rfl | rfl⟩) <;> rfl

/-- The surviving text describes an instruction offered to the co-processors as long as none takes it. -/
theorem inSurvivingText_offered {s : State} {w : Word} {k : Offered} {c : Cond} (h : decodeWord w = k.instr c) :
    s.inSurvivingText w = true ↔ k.answer c s = .absent ∨ k.answer c s = .busy := by
  have text : s.inSurvivingText w = !(s.reply k.number w).isReady := by
    rw [State.inSurvivingText, h]
    cases k <;> rfl
  rw [text, Offered.answer, ← h, encode_decodeWord, Bool.not_eq_true', CpReply.isReady_eq_false_iff]

theorem inSurvivingText_of_offered {s : State} {w : Word} (k : Offered) {c : Cond} (h : decodeWord w = k.instr c)
    (text : s.inSurvivingText w = true) : InSurvivingText s (k.instr c) :=
  .inr (.inl ⟨k, c, rfl, (inSurvivingText_offered h).1 text⟩)

/-- The model's reading of the surviving text, instruction by instruction. -/
theorem inSurvivingText_iff (s : State) (w : Word) :
    s.inSurvivingText w = true ↔ InSurvivingText s (decodeWord w) := by
  constructor
  · intro text
    cases h : decodeWord w with
    | b c n => exact .inl ⟨c, n, .inl rfl⟩
    | bl c n => exact .inl ⟨c, n, .inr (.inl rfl)⟩
    | swi c n => exact .inl ⟨c, n, .inr (.inr rfl)⟩
    | cdp c opc crn crd cp info crm => exact inSurvivingText_of_offered (.cdp opc crn crd cp info crm) h text
    | ldc c p u n b rn crd cp off => exact inSurvivingText_of_offered (.ldc p u n b rn crd cp off) h text
    | stc c p u n b rn crd cp off => exact inSurvivingText_of_offered (.stc p u n b rn crd cp off) h text
    | mrc c opc crn rd cp info crm => exact inSurvivingText_of_offered (.mrc opc crn rd cp info crm) h text
    | mcr c opc crn rd cp info crm => exact inSurvivingText_of_offered (.mcr opc crn rd cp info crm) h text
    | undefinedA c x y => exact inSurvivingText_of_offered (.undefinedA x y) h text
    | undefinedB c x y z => exact inSurvivingText_of_offered (.undefinedB x y z) h text
    | _ =>
      rw [State.inSurvivingText, h] at text
      exact .inr (.inr (isReturnRecipe_iff.1 text))
  · rintro (⟨c, n, printed⟩ | ⟨k, c, h, answer⟩ | recipe)
    · rcases printed with h | h | h <;> simp [State.inSurvivingText, h]
    · exact (inSurvivingText_offered h).2 answer
    · rcases recipe with ⟨c, f, h⟩ | ⟨c, h | h⟩ <;> simp [State.inSurvivingText, h, isReturnRecipe]

/-- What is admitted without the reconstructed rules. -/
theorem admits_iff {s : State} (h : s.params.admitReconstructed = false) (w : Word) :
    let c := Cond.ofCode (w.extractLsb' 28 4)
    s.admits w = true ↔
      (c = .eq ∨ c = .al ∨ c = .nv) ∧ (condPassed c s.psr = false ∨ InSurvivingText s (decodeWord w)) := by
  simp [State.admits, h, inSurvivingText_iff]

/-- Settles O49: forms without a meaning are refused and the others answer, by the instruction; what is admitted, by the
parameter. -/
theorem onlyFormsWithoutMeaningAreRefused : Obligations.OnlyFormsWithoutMeaningAreRefused := by
  intro w s c
  refine ⟨fun passed settled => ⟨fun noMeaning => ?_, exec_answers settled⟩, (admits_all · w), (admits_iff · w)⟩
  exact exec_refused noMeaning (by rwa [cond_decodeWord])

end Sys2Proof.Machine
end

section
/-! SUPPORT. A step runs the instruction at the head of the pipeline (O54). -/

namespace Sys2Proof.Machine

/-! ## The word at the head of the pipeline -/

theorem addr_toNat (s : State) : s.addr.toNat = 4 * s.pc.toNat := by
  simp only [State.addr, BitVec.toNat_append, BitVec.toNat_ofNat, Nat.zero_mod, Nat.or_zero, Nat.shiftLeft_eq]
  omega

theorem wordBase_addr (s : State) : wordBase s.addr = 4 * s.pc.toNat := by
  rw [wordBase, addr_toNat]
  omega

/-- The four bytes at the PC decode to what the word there decodes to (R63, R100). -/
theorem decode_bytes_at_pc (s : State) (m : List Host.Cell) :
    decode [readByte m (4 * s.pc.toNat + 0), readByte m (4 * s.pc.toNat + 1), readByte m (4 * s.pc.toNat + 2),
      readByte m (4 * s.pc.toNat + 3)] = .ok (decodeWord (readWord m s.addr), []) := by
  rw [readWord, wordBase_addr]
  rfl

/-- After an empty pipeline is filled, its first word is the one fetched at the PC (R41). -/
theorem fetched_of_empty {s : State} (h : s.pipe = []) : s.fillPipe.fetched = s.fetch s.addr := by
  have first : s.pipeAddr 0 = s.addr := by simp [State.pipeAddr]
  rw [State.fetched, State.fillPipe, h, ← first]
  rfl

/-- A word prefetched stays the first one. -/
theorem fetched_of_prefetched {s : State} {f : Fetched} {rest : List Fetched} (h : s.pipe = f :: rest) :
    s.fillPipe.fetched = f := by
  rw [State.fetched, State.fillPipe, h]
  rfl

/-- A fetch that memory answers. -/
theorem fetch_of_memory {s : State} {a : Addr} (h : s.answer (s.fetchAccess a) = none) :
    s.fetch a = ⟨readWord s.mem a, false⟩ := by
  have notAborted : s.aborts (s.fetchAccess a) = false := by simp [State.aborts, h]
  rw [State.fetch, State.busWord, notAborted, h]
  rfl

/-- A fetch that a device answers. -/
theorem fetch_of_device {s : State} {a : Addr} {d : Word} (h : s.answer (s.fetchAccess a) = some (.device d)) :
    s.fetch a = ⟨d, false⟩ := by
  simp [State.fetch, State.busWord, State.aborts, h]

/-! ## The step -/

/-- With RESET LOW and no interrupt to take, a step is the word at the head of the pipeline (R370). -/
theorem step_of_undisturbed {s : State} (low : s.now.reset = false) (running : s.resetHigh = false)
    (noFiq : (s.fiqSeen && !s.psr.f) = false) (noIrq : (s.irqSeen && !s.psr.i) = false) :
    step s = s.sample.fillPipe.finish s.sample.fillPipe.runFetched := by
  simp [step, State.boundary, low, running, noFiq, noIrq]

/-- A word that is not marked is admitted and executed, or refused (R4, R346). -/
theorem runFetched_of_valid {s : State} (h : s.fetched.invalid = false) :
    s.runFetched =
      if s.admits s.fetched.word then exec (decodeWord s.fetched.word) s else .refused .reconstructed := by
  simp [State.runFetched, h]

/-- Settles O54: whatever the first word comes from, it is the word of the instruction it decodes to, so that the step is that
instruction's. -/
theorem stepExecutesTheDecodedInstruction : Obligations.StepExecutesTheDecodedInstruction := by
  intro s i low running noFiq noIrq t access b runs
  have run (w : Word) (first : t.fetched = ⟨w, false⟩) (hi : decodeWord w = i) : runs := by
    have word : t.fetched.word = encode i := by rw [first, ← hi, encode_decodeWord]
    have instr : decodeWord (encode i) = i := by rw [← hi, encode_decodeWord]
    show step s = _
    rw [step_of_undisturbed low running noFiq noIrq, runFetched_of_valid (by rw [first]), word, instr]
    split
    · cases exec i t <;> rfl
    · rfl
  refine ⟨fun empty memory bytes => ?_, fun d empty device hi => ?_, fun f rest prefetched valid hi => ?_⟩
  · refine run _ ((fetched_of_empty (s := s.sample) empty).trans (fetch_of_memory memory)) ?_
    rw [show decode [b 0, b 1, b 2, b 3] = _ from decode_bytes_at_pc s s.sample.mem] at bytes
    injection bytes with bytes
    exact congrArg Prod.fst bytes
  · exact run d ((fetched_of_empty (s := s.sample) empty).trans (fetch_of_device device)) hi
  · obtain ⟨w, invalid⟩ := f
    obtain rfl : invalid = false := valid
    exact run w (fetched_of_prefetched (s := s.sample) prefetched) hi

end Sys2Proof.Machine
end

section
/-! SUPPORT. What an instruction can do in User mode: it writes registers of the User bank and the flags, and beside that it
takes an exception or it does not (O13, O14; spec/10_state.md R22, R26, R36; spec/60_exceptions.md R372, R373). -/

namespace Sys2Proof.Machine

/-! ## The registers of each mode (O8) -/

/-- Settles O8: R0 to R7 do not look at the mode, R8 to R12 look at FIQ mode alone, and number 15 names none. -/
theorem registerBanksFollowTheMode : Obligations.RegisterBanksFollowTheMode :=
  ⟨fun _ => rfl, fun _ notFiq => by simp [physOf, notFiq], rfl, rfl, rfl, rfl, physOf_fifteen⟩

/-- A register that no number names in User mode: one of another mode's bank (R22). -/
def PReg.OutsideUser (q : PReg) : Prop :=
  ∀ r : Reg, physOf .usr r ≠ some q

/-- The registers of the other modes (R21, R22). -/
theorem PReg.outsideUser_of_mem {q : PReg}
    (h : q ∈ [.r8Fiq, .r9Fiq, .r10Fiq, .r11Fiq, .r12Fiq, .r13Fiq, .r14Fiq, .r13Irq, .r14Irq, .r13Svc, .r14Svc]) :
    q.OutsideUser := by
  have table : ∀ q ∈ [PReg.r8Fiq, .r9Fiq, .r10Fiq, .r11Fiq, .r12Fiq, .r13Fiq, .r14Fiq, .r13Irq, .r14Irq, .r13Svc,
      .r14Svc], ∀ r : Reg, physOf .usr r ≠ some q := by decide
  exact table q h

/-! ## A status that differs in the flags alone -/

/-- `q` has the I, F and mode of `p`. -/
def Psr.SameControl (p q : Psr) : Prop :=
  q.i = p.i ∧ q.f = p.f ∧ q.mode = p.mode

theorem sameControl_refl (p : Psr) : p.SameControl p := ⟨rfl, rfl, rfl⟩

theorem sameControl_logicalFlags (p : Psr) (r : Word) (sc : Bool) : p.SameControl (logicalFlags p r sc) := ⟨rfl, rfl, rfl⟩

theorem sameControl_arithmeticFlags (p : Psr) (a b : Word) (cin : Bool) :
    p.SameControl (arithmeticFlags p a b cin) := ⟨rfl, rfl, rfl⟩

theorem sameControl_multiplyFlags (p : Psr) (n : Nat) (r : Word) : p.SameControl (multiplyFlags p n r) := ⟨rfl, rfl, rfl⟩

theorem sameControl_multiplyFlagsClash (p : Psr) (n : Nat) : p.SameControl (multiplyFlagsClash p n) := ⟨rfl, rfl, rfl⟩

theorem sameControl_freeFlags (p : Psr) (n : Nat) : p.SameControl (freeFlags p n) := ⟨rfl, rfl, rfl⟩

theorem sameControl_withFlagsOf (p : Psr) (w : Word) : p.SameControl (p.withFlagsOf w) := ⟨rfl, rfl, rfl⟩

/-- Where the flags are written only with the S bit. -/
theorem sameControl_ite {p q : Psr} (h : p.SameControl q) (s : Bool) : p.SameControl (if s then q else p) := by
  cases s
  · exact sameControl_refl p
  · exact h

/-! ## The work of an instruction in User mode -/

/-- From `s`, a state in User mode, to `t`: still in User mode, I and F kept, and every register outside the User bank. -/
structure UserWorks (s t : State) : Prop where
  mode : t.psr.mode = .usr
  i : t.psr.i = s.psr.i
  f : t.psr.f = s.psr.f
  banks : ∀ q : PReg, q.OutsideUser → t.regs.get q = s.regs.get q

namespace UserWorks

variable {s u : State}

theorem refl (user : s.psr.mode = .usr) : UserWorks s s := ⟨user, rfl, rfl, fun _ _ => rfl⟩

/-- Work on anything but the registers and the PSR. -/
theorem congr {v : State} (h : UserWorks s u) (regs : v.regs = u.regs) (psr : v.psr = u.psr) : UserWorks s v where
  mode := psr ▸ h.mode
  i := psr ▸ h.i
  f := psr ▸ h.f
  banks := regs ▸ h.banks

theorem withPsr {p : Psr} (h : UserWorks s u) (control : u.psr.SameControl p) : UserWorks s { u with psr := p } := by
  obtain ⟨i, f, mode⟩ := control
  exact ⟨mode.trans h.mode, i.trans h.i, f.trans h.f, h.banks⟩

/-- R36: in User mode a write of the PSR keeps I, F and the mode. -/
theorem writePSR (h : UserWorks s u) (w : Word) : UserWorks s (u.writePSR w) := by
  obtain ⟨i, f, mode⟩ := written_user w h.mode
  exact h.withPsr ⟨i, f, mode.trans h.mode.symm⟩

/-- R22: a write by number in the User bank reaches no other bank. -/
theorem writeBank (h : UserWorks s u) (r : Reg) (v : Word) : UserWorks s (u.writeBank .usr r v) where
  mode := by simpa using h.mode
  i := by simpa using h.i
  f := by simpa using h.f
  banks q hq := by rw [writeBank_get, if_neg (hq r), h.banks q hq]

theorem writeX (h : UserWorks s u) (r : Reg) (v : Word) : UserWorks s (u.writeX r v) := by
  rw [State.writeX, h.mode]
  exact h.writeBank r v

theorem loadRegs (h : UserWorks s u) (l : List (Reg × Word)) : UserWorks s (u.loadRegs .usr l) := by
  induction l generalizing u with
  | nil => exact h
  | cons e l ih => exact ih (h.writeBank e.1 e.2)

/-- A write-back, where there is one. -/
theorem back (h : UserWorks s u) (w : Bool) (rn : Reg) (v : Word) : UserWorks s (if w then u.writeX rn v else u) := by
  cases w
  · exact h
  · exact h.writeX rn v

theorem blockBack (h : UserWorks s u) (up w : Bool) (rn : Reg) (list : BitVec 16) :
    UserWorks s (u.blockBack up w rn list) :=
  h.back w rn _

theorem coBack (h : UserWorks s u) (up w : Bool) (rn : Reg) (off : BitVec 8) : UserWorks s (u.coBack up w rn off) :=
  h.back w rn _

theorem busGap (h : UserWorks s u) : UserWorks s u.busGap := h.congr (busGap_regs u) (busGap_psr u)

theorem busGaps (h : UserWorks s u) (n : Nat) : UserWorks s (u.busGaps n) := h.congr (busGaps_regs u n) (busGaps_psr u n)

theorem accepted (h : UserWorks s u) (w : Word) (l : List Word) : UserWorks s (u.accepted w l) := h.congr rfl rfl

theorem writeAccess {t : State} {a : Access} {v : Word} {landed : List Host.Cell} (h : UserWorks s u)
    (stored : u.writeAccess a v landed = some t) : UserWorks s t := by
  rw [writeAccess_eq stored]
  exact h.congr rfl rfl

theorem storeWords (h : UserWorks s u) (start : Word) (k : Nat) (l : List Word) :
    UserWorks s (u.storeWords start k l).1 := by
  rw [storeWords_eq]
  exact h.congr rfl rfl

theorem advance (h : UserWorks s u) : UserWorks s u.advance := h.congr rfl rfl

theorem branchTo (h : UserWorks s u) (a : BitVec 24) : UserWorks s (u.branchTo a) := h.congr rfl rfl

theorem writePC (h : UserWorks s u) (w : Word) : UserWorks s (u.writePC w) := h.congr rfl rfl

theorem writePCPSR (h : UserWorks s u) (w : Word) : UserWorks s (u.writePCPSR w) := (h.writePSR w).writePC w

theorem finishLdm (h : UserWorks s u) (f user : Bool) (l : List (Reg × Word)) : UserWorks s (u.finishLdm f user l) := by
  unfold State.finishLdm
  split
  · split
    · exact h.writePCPSR _
    · exact h.writePC _
  · exact h.congr rfl rfl

end UserWorks

/-! ## The end of an instruction in User mode -/

/-- An exception that an instruction takes by what it does itself; the prefetch abort and the interrupts come from the step
around it (R370). -/
def Exception.OfInstruction (e : Exception) : Prop :=
  e = .undefined ∨ e = .softwareInterrupt ∨ e = .dataAbort ∨ e = .addressException

/-- How an instruction that began in `s`, in User mode, can end in `t`: in User mode, or, after work in User mode, with an
exception of its own. -/
inductive UserEnds (s t : State) : Prop where
  | stays (work : UserWorks s t)
  | traps (u : State) (e : Exception) (work : UserWorks s u) (own : e.OfInstruction) (end_eq : t = u.raise e)

theorem UserWorks.undefined {s u : State} (h : UserWorks s u) : UserEnds s (u.raise .undefined) :=
  .traps u _ h (.inl rfl) rfl

theorem UserWorks.softwareInterrupt {s u : State} (h : UserWorks s u) : UserEnds s (u.raise .softwareInterrupt) :=
  .traps u _ h (.inr (.inl rfl)) rfl

theorem UserWorks.dataAbort {s u : State} (h : UserWorks s u) : UserEnds s (u.raise .dataAbort) :=
  .traps u _ h (.inr (.inr (.inl rfl))) rfl

theorem UserWorks.addressException {s u : State} (h : UserWorks s u) : UserEnds s (u.raise .addressException) :=
  .traps u _ h (.inr (.inr (.inr rfl))) rfl

/-- The end of a run of accesses, one of them aborted or none. -/
theorem UserWorks.abortOrAdvance {s u : State} (h : UserWorks s u) (aborted : Bool) :
    UserEnds s (if aborted then u.raise .dataAbort else u.advance) := by
  cases aborted
  · exact .stays h.advance
  · exact h.dataAbort

/-- An exception of an instruction enters supervisor mode through R14_svc, keeps F, and its vector is one of four (R331). -/
theorem Exception.OfInstruction.entry {e : Exception} (h : e.OfInstruction) :
    e.mode = .svc ∧ e.link = .r14Svc ∧ (e == .fiq) = false ∧ e.vector.toNat ∈ [1, 2, 4, 5] := by
  rcases h with rfl | rfl | rfl | rfl <;> decide

/-- I, F, the mode and the PC at the end of a User mode instruction (R36, R373). -/
theorem UserEnds.control {s t : State} (h : UserEnds s t) :
    (t.psr.i = s.psr.i ∧ t.psr.f = s.psr.f ∧ t.psr.mode = .usr) ∨
      (t.psr.i = true ∧ t.psr.f = s.psr.f ∧ t.psr.mode = .svc ∧ t.pc.toNat ∈ [1, 2, 4, 5]) := by
  cases h with
  | stays work => exact .inl ⟨work.i, work.f, work.mode⟩
  | traps u e work own end_eq =>
    obtain ⟨mode, -, notFiq, vector⟩ := own.entry
    subst end_eq
    refine .inr ⟨rfl, ?_, mode, vector⟩
    simp [notFiq, work.f]

/-- The registers of the other modes at the end of a User mode instruction (R26, R372 (c)). -/
theorem UserEnds.banks {s t : State} (h : UserEnds s t) {q : PReg} (outside : q.OutsideUser) :
    t.regs.get q = s.regs.get q ∨ (q = .r14Svc ∧ t.psr.mode = .svc) := by
  cases h with
  | stays work => exact .inl (work.banks q outside)
  | traps u e work own end_eq =>
    obtain ⟨mode, link, -, -⟩ := own.entry
    subst end_eq
    by_cases isLink : q = .r14Svc
    · exact .inr ⟨isLink, mode⟩
    · refine .inl ?_
      rw [raise_regs, link, Regs.get_set_other _ _ isLink, work.banks q outside]

/-! ## Each shared operation -/

section
variable {st t : State} (user : st.psr.mode = .usr)
include user

theorem userEnds_whenPassed {c : Cond} {k : Result} (h : whenPassed c st k = .next t)
    (hk : k = .next t → UserEnds st t) : UserEnds st t := by
  rcases whenPassed_next h with ⟨-, h⟩ | ⟨-, rfl⟩
  · exact hk h
  · exact .stays (UserWorks.refl user).advance

theorem userEnds_offer {cp : Option (BitVec 4)} {w : Word} {k : Word → List Word → Result}
    (h : st.offer cp w k = .next t) (hk : ∀ first rest, k first rest = .next t → UserEnds st t) : UserEnds st t := by
  have start := UserWorks.refl user
  rcases offer_next h with ⟨-, rfl⟩ | ⟨-, rfl⟩ | ⟨first, rest, -, h⟩
  · exact start.undefined
  · exact .stays (start.congr rfl rfl)
  · exact hk first rest h

theorem userEnds_writeResult {s : Bool} {rd : Reg} {result : Word} {flags : Psr} (control : st.psr.SameControl flags)
    (h : st.writeResult s rd result flags = .next t) : UserEnds st t := by
  have start := UserWorks.refl user
  rcases writeResult_next h with ⟨-, rfl⟩ | ⟨-, -, rfl⟩
  · cases s
    · exact .stays (start.writePC result)
    · exact .stays (start.writePCPSR result)
  · exact .stays ((start.writeX rd result).advance.withPsr (by simpa using sameControl_ite control s))

theorem userEnds_writeTest {rd : Reg} {result : Word} {flags : Psr} (control : st.psr.SameControl flags)
    (h : st.writeTest rd result flags = .next t) : UserEnds st t := by
  have start := UserWorks.refl user
  rcases writeTest_next h with ⟨-, rfl⟩ | ⟨-, rfl⟩
  · exact .stays ((start.writePSR result).congr rfl rfl)
  · exact .stays (start.advance.withPsr control)

theorem userEnds_logical {f : Word → Word → Word} {c : Cond} {s : Bool} {rn rd : Reg} {o : Op2}
    (h : logical f c s rn rd o st = .next t) : UserEnds st t :=
  userEnds_whenPassed user h (userEnds_writeResult user (sameControl_logicalFlags ..))

theorem userEnds_arithmetic {f : Addends} {c : Cond} {s : Bool} {rn rd : Reg} {o : Op2}
    (h : arithmetic f c s rn rd o st = .next t) : UserEnds st t :=
  userEnds_whenPassed user h (userEnds_writeResult user (sameControl_arithmeticFlags ..))

theorem userEnds_testLogical {f : Word → Word → Word} {c : Cond} {rn rd : Reg} {o : Op2}
    (h : testLogical f c rn rd o st = .next t) : UserEnds st t :=
  userEnds_whenPassed user h (userEnds_writeTest user (sameControl_logicalFlags ..))

theorem userEnds_testArithmetic {f : Addends} {c : Cond} {rn rd : Reg} {o : Op2}
    (h : testArithmetic f c rn rd o st = .next t) : UserEnds st t :=
  userEnds_whenPassed user h (userEnds_writeTest user (sameControl_arithmeticFlags ..))

theorem userEnds_writeProduct {s : Bool} {rd rm : Reg} {r : Word} (h : st.writeProduct s rd rm r = .next t) :
    UserEnds st t := by
  have start := UserWorks.refl user
  rcases writeProduct_next h with ⟨-, rfl⟩ | ⟨-, -, v, flags, form, rfl⟩
  · exact .stays (start.advance.withPsr (sameControl_ite (sameControl_freeFlags ..) s))
  · have control : st.psr.SameControl flags := by
      rcases form with ⟨-, rfl⟩ | ⟨-, -, rfl⟩
      · exact sameControl_multiplyFlagsClash ..
      · exact sameControl_multiplyFlags ..
    exact .stays ((start.writeX rd v).advance.withPsr (by simpa using sameControl_ite control s))

theorem userEnds_loadTransfer {read : State → Addr → Bool → Option Word} {c : Cond} {p u w : Bool} {rn rd : Reg}
    {o : Offset} (h : loadTransfer read c p u w rn rd o st = .next t) : UserEnds st t := by
  have start := UserWorks.refl user
  rcases loadTransfer_next h with rfl | rfl | rfl | ⟨v, -, -, -, h⟩
  · exact .stays start.advance
  · exact start.addressException
  · exact start.busGap.dataAbort
  · obtain ⟨-, -, ⟨-, rfl⟩ | ⟨-, -, -, x, -, rfl⟩ | ⟨-, -, rfl⟩⟩ := finishLoad_next h
    · exact .stays ((start.busGap.back ..).writePC v)
    · exact .stays (start.busGap.writeX rd x).advance
    · exact .stays ((start.busGap.back ..).writeX rd v).advance

theorem userEnds_storeTransfer {write : State → Addr → Word → Bool → Option State}
    (works : ∀ {s u v : State} {a : Addr} {x : Word} {force : Bool},
      UserWorks s u → write u a x force = some v → UserWorks s v)
    {c : Cond} {p u w : Bool} {rn rd : Reg} {o : Offset} (h : storeTransfer write c p u w rn rd o st = .next t) :
    UserEnds st t := by
  have start := UserWorks.refl user
  rcases storeTransfer_next h with rfl | ⟨-, rfl⟩ | ⟨-, -, rfl⟩ | ⟨m, -, -, stored, -, rfl⟩
  · exact .stays start.advance
  · exact start.addressException
  · exact start.busGap.dataAbort
  · exact .stays ((works start.busGap stored).back ..).advance

/-- In User mode LDM loads the current bank, whatever its S bit (R272, R273). -/
theorem userEnds_execLdm {c : Cond} {p u s w : Bool} {rn : Reg} {list : BitVec 16}
    (h : execLdm c p u s w rn list st = .next t) : UserEnds st t := by
  have start := UserWorks.refl user
  have based := start.blockBack u w rn list
  rcases execLdm_next h with rfl | ⟨-, -, m, bank, rfl | ⟨l, -, ends⟩⟩
  · exact .stays start.advance
  · exact based.addressException
  · obtain rfl : m = .usr := by rw [bank, user, ite_self]
    have loaded := (based.busGaps (listed list).length).loadRegs l
    rcases ends with rfl | rfl
    · exact loaded.dataAbort
    · exact .stays (loaded.finishLdm ..)

theorem userEnds_execStm {c : Cond} {p u s w : Bool} {rn : Reg} {list : BitVec 16}
    (h : execStm c p u s w rn list st = .next t) : UserEnds st t := by
  have start := UserWorks.refl user
  have based := start.blockBack u w rn list
  rcases execStm_next h with rfl | ⟨-, rfl⟩ | ⟨-, rfl⟩
  · exact .stays start.advance
  · exact based.addressException
  · exact (based.storeWords ..).abortOrAdvance _

theorem userEnds_execB {c : Cond} {off : BitVec 24} (h : execB c off st = .next t) : UserEnds st t :=
  userEnds_whenPassed user h fun e => by
    injection e with e
    exact e ▸ .stays ((UserWorks.refl user).branchTo _)

theorem userEnds_execBl {c : Cond} {off : BitVec 24} (h : execBl c off st = .next t) : UserEnds st t :=
  userEnds_whenPassed user h fun e => by
    obtain ⟨-, e⟩ := guardWrites_next e
    injection e with e
    exact e ▸ .stays (((UserWorks.refl user).writeX ..).branchTo _)

theorem userEnds_execSwi {c : Cond} (h : execSwi c st = .next t) : UserEnds st t :=
  userEnds_whenPassed user h fun e => by
    injection e with e
    exact e ▸ (UserWorks.refl user).softwareInterrupt

/-- An instruction offered to the co-processors that, once taken, does nothing but send words and go on. -/
theorem userEnds_offerAdvance {c : Cond} {cp : Option (BitVec 4)} {w : Word} {sent : List Word}
    (h : whenPassed c st (st.offer cp w fun _ _ => .next (st.accepted w sent).advance) = .next t) : UserEnds st t :=
  userEnds_whenPassed user h fun h => userEnds_offer user h fun _ _ e => by
    injection e with e
    exact e ▸ .stays ((UserWorks.refl user).accepted ..).advance

theorem userEnds_execMrc {c : Cond} {opc : BitVec 3} {crn rd cp : Reg} {info : BitVec 3} {crm : Reg}
    (h : execMrc c opc crn rd cp info crm st = .next t) : UserEnds st t :=
  userEnds_whenPassed user h fun h => userEnds_offer user h fun v _ e => by
    have taken := (UserWorks.refl user).accepted (crtWord c opc true crn rd cp info crm) []
    dsimp only at e
    split at e
    · injection e with e
      exact e ▸ .stays (taken.advance.withPsr (sameControl_withFlagsOf ..))
    · obtain ⟨-, e⟩ := guardWrites_next e
      injection e with e
      exact e ▸ .stays (taken.writeX ..).advance

theorem userEnds_execLdc {c : Cond} {p u n w : Bool} {rn crd cp : Reg} {off : BitVec 8}
    (h : execLdc c p u n w rn crd cp off st = .next t) : UserEnds st t := by
  have start := UserWorks.refl user
  have based := start.coBack u w rn off
  rcases execLdc_next h with rfl | ⟨-, rfl⟩ | ⟨-, rfl⟩ | ⟨first, rest, -, rfl | ⟨k, sent, rfl | rfl⟩⟩
  · exact .stays start.advance
  · exact start.undefined
  · exact .stays (start.congr rfl rfl)
  · exact (based.accepted ..).addressException
  · exact ((based.busGaps k).accepted ..).dataAbort
  · exact .stays ((based.busGaps k).accepted ..).advance

theorem userEnds_execStc {c : Cond} {p u n w : Bool} {rn crd cp : Reg} {off : BitVec 8}
    (h : execStc c p u n w rn crd cp off st = .next t) : UserEnds st t := by
  have start := UserWorks.refl user
  have taken := (start.coBack u w rn off).accepted (cdtWord c p u n w false rn crd cp off) []
  rcases execStc_next h with rfl | ⟨-, rfl⟩ | ⟨-, rfl⟩ | ⟨first, rest, -, ⟨-, rfl⟩ | ⟨-, rfl⟩⟩
  · exact .stays start.advance
  · exact start.undefined
  · exact .stays (start.congr rfl rfl)
  · exact taken.addressException
  · exact (taken.storeWords ..).abortOrAdvance _

/-! ## Every instruction -/

/-- Every User mode instruction that answers a next state ends in one of the two ways. -/
theorem exec_userEnds {i : Instr} (h : exec i st = .next t) : UserEnds st t := by
  cases i with
  | andImm | andShift | andRegShift | eorImm | eorShift | eorRegShift | orrImm | orrShift | orrRegShift | movImm
  | movShift | movRegShift | bicImm | bicShift | bicRegShift | mvnImm | mvnShift | mvnRegShift =>
    simp only [exec_andImm, exec_andShift, exec_andRegShift, exec_eorImm, exec_eorShift, exec_eorRegShift, exec_orrImm,
      exec_orrShift, exec_orrRegShift, exec_movImm, exec_movShift, exec_movRegShift, exec_bicImm, exec_bicShift,
      exec_bicRegShift, exec_mvnImm, exec_mvnShift, exec_mvnRegShift] at h
    exact userEnds_logical user h
  | subImm | subShift | subRegShift | rsbImm | rsbShift | rsbRegShift | addImm | addShift | addRegShift | adcImm
  | adcShift | adcRegShift | sbcImm | sbcShift | sbcRegShift | rscImm | rscShift | rscRegShift =>
    exact userEnds_arithmetic user h
  | tstImm | tstShift | tstRegShift | teqImm | teqShift | teqRegShift =>
    simp only [exec_tstImm, exec_tstShift, exec_tstRegShift, exec_teqImm, exec_teqShift, exec_teqRegShift] at h
    exact userEnds_testLogical user h
  | cmpImm | cmpShift | cmpRegShift | cmnImm | cmnShift | cmnRegShift => exact userEnds_testArithmetic user h
  | tstImmS0 | tstShiftS0 | tstRegShiftS0 | teqImmS0 | teqShiftS0 | teqRegShiftS0 | cmpImmS0 | cmpShiftS0
  | cmpRegShiftS0 | cmnImmS0 | cmnShiftS0 | cmnRegShiftS0 | unallocB | unallocD | unallocF | unalloc4 | unalloc8
  | unallocC => exact userEnds_whenPassed user h nofun
  | mul | mla => exact userEnds_whenPassed user h (userEnds_writeProduct user)
  | ldrImm | ldrReg | ldrbImm | ldrbReg => exact userEnds_loadTransfer user h
  | strImm | strReg | strbImm | strbReg => exact userEnds_storeTransfer user UserWorks.writeAccess h
  | ldm => exact userEnds_execLdm user h
  | stm => exact userEnds_execStm user h
  | b => exact userEnds_execB user h
  | bl => exact userEnds_execBl user h
  | undefinedA | undefinedB | cdp | mcr => exact userEnds_offerAdvance user h
  | ldc => exact userEnds_execLdc user h
  | stc => exact userEnds_execStc user h
  | mrc => exact userEnds_execMrc user h
  | swi => exact userEnds_execSwi user h

end

/-! ## What User mode cannot do -/

/-- Settles O13: the control bits at either end of a User mode instruction. -/
theorem userModeKeepsMasksAndMode : Obligations.UserModeKeepsMasksAndMode :=
  fun _ _ _ user h => (exec_userEnds user h).control

/-- Settles O14: the other banks at either end of a User mode instruction. -/
theorem userModeCannotReachOtherBanks : Obligations.UserModeCannotReachOtherBanks :=
  fun _ _ _ _ user h outside => (exec_userEnds user h).banks (PReg.outsideUser_of_mem outside)

end Sys2Proof.Machine
end

section
/-! SUPPORT. The pin TRANS on every access (O17; spec/20_memory.md R79, spec/44_single_data_transfer.md R240). -/

namespace Sys2Proof.Machine

open Sys2Proof.Spec

/-- The memory system that aborts every access with TRANS LOW, whatever its address and its other attributes. -/
def MemRule.abortTransLow : MemRule :=
  ⟨0, 2 ^ 26 - 1, none, none, none, some true, none, .abort⟩

@[simp] theorem answer_abortTransLow : MemRule.abortTransLow.answer = .abort := rfl

/-- Every address on the bus is in the rule's range, so TRANS alone decides whether it applies. -/
theorem applies_abortTransLow (a : Access) : MemRule.abortTransLow.applies a = a.trans := by
  have inRange : a.addr.toNat ≤ 67108863 := Nat.le_sub_one_of_lt a.addr.isLt
  simp [MemRule.applies, MemRule.abortTransLow, inRange]

/-- Through that memory system an abort shows TRANS. -/
theorem aborts_abortTransLow {s : State} (rules : s.memSystem = [.abortTransLow]) (a : Access) :
    s.aborts a = true ↔ a.trans = true := by
  cases low : a.trans <;> simp [aborts_iff, State.answer, rules, applies_abortTransLow, low]

/-- TRANS of a data access (R79): User mode, or forced. -/
theorem dataAccess_trans_iff (s : State) (a : Addr) (z : Size) (write force : Bool) :
    (s.dataAccess a z write force).trans = true ↔ s.psr.mode = .usr ∨ force = true := by
  simp [State.dataAccess]

/-- TRANS of an instruction fetch (R79): User mode alone. -/
theorem fetchAccess_trans_iff (s : State) (a : Addr) : (s.fetchAccess a).trans = true ↔ s.psr.mode = .usr := by
  simp [State.fetchAccess]

/-- Settles O17: an abort shows TRANS, which a single transfer forces LOW with P = 0 and W = 1, and no other access forces. -/
theorem transIsLowInUserModeOrForced : Obligations.TransIsLowInUserModeOrForced := by
  intro s rules
  have shows := aborts_abortTransLow rules
  refine ⟨fun byte write p u w rn o => ?_, fun start write k => ?_, fun a => ?_⟩
  · rw [singleAborts, shows, singleAccess, dataAccess_trans_iff]
    simp
  · rw [blockAborts, shows, dataAccess_trans_iff]
    simp
  · rw [shows, fetchAccess_trans_iff]

end Sys2Proof.Machine
end

section
/-! SUPPORT. The pipeline before and after a step: what a fetch puts in it, what an instruction uses up of it, what a write
into a word already fetched does to it (O55; spec/10_state.md R41, R42, R44, spec/20_memory.md R90). -/

namespace Sys2Proof.Machine

/-! ## The addresses of the prefetched words -/

@[simp] theorem pipeAddr_zero (s : State) : s.pipeAddr 0 = s.addr := by
  simp [State.pipeAddr]

/-- A, A + 4, A + 8, modulo 2^26 (R41). -/
theorem pipeAddr_toNat (s : State) (k : Nat) : (s.pipeAddr k).toNat = (4 * s.pc.toNat + 4 * k) % 2 ^ 26 := by
  simp [State.pipeAddr, addr_toNat]

theorem pipeAddr_congr {s t : State} (pc : t.pc = s.pc) (k : Nat) : t.pipeAddr k = s.pipeAddr k := by
  rw [State.pipeAddr, State.addr, pc]
  rfl

/-- On to the next instruction: the second word of the pipeline has become the first. -/
theorem pipeAddr_succ {s t : State} (pc : t.pc = s.pc + 1) (k : Nat) : t.pipeAddr k = s.pipeAddr (k + 1) := by
  apply BitVec.eq_of_toNat_eq
  rw [pipeAddr_toNat, pipeAddr_toNat, pc, BitVec.toNat_add]
  have one : (1 : BitVec 24).toNat = 1 := rfl
  omega

/-! ## What a fetch gives -/

theorem busWord_of_memory {s : State} {a : Access} (h : s.answer a = none) : s.busWord a = readWord s.mem a.addr := by
  simp [State.busWord, h]

theorem busWord_of_device {s : State} {a : Access} {d : Word} (h : s.answer a = some (.device d)) : s.busWord a = d := by
  simp [State.busWord, h]

/-- Where a change of memory changes the word on the bus, no device drives it: it is memory's word. -/
theorem busWord_changed {s : State} {m : List Host.Cell} {a : Access}
    (h : ({ s with mem := m } : State).busWord a ≠ s.busWord a) :
    ({ s with mem := m } : State).busWord a = readWord m a.addr ∧ readWord m a.addr ≠ readWord s.mem a.addr := by
  have answer : ({ s with mem := m } : State).answer a = s.answer a := rfl
  unfold State.busWord at h ⊢
  rw [answer] at h ⊢
  split at h
  · exact absurd rfl h
  · exact ⟨rfl, h⟩

/-! ## Filling the pipeline -/

/-- A word prefetched keeps its place. -/
theorem fillPipe_getElem?_prefetched {s : State} {k : Nat} {f : Fetched} (h : s.pipe[k]? = some f) :
    s.fillPipe.pipe[k]? = some f := by
  obtain ⟨inside, -⟩ := List.getElem?_eq_some_iff.mp h
  rw [State.fillPipe, List.getElem?_append_left inside, h]

/-- A place that is empty takes the word fetched for it. -/
theorem fillPipe_getElem?_fetched {s : State} {k : Nat} (empty : s.pipe.length ≤ k) (three : k < 3) :
    s.fillPipe.pipe[k]? = some (s.fetch (s.pipeAddr k)) := by
  have place : s.pipe.length + (k - s.pipe.length) = k := by omega
  rw [State.fillPipe, List.getElem?_append_right empty, List.getElem?_map, List.getElem?_drop, place,
    List.getElem?_range three]
  rfl

theorem fillPipe_pipe_ne_nil (s : State) : s.fillPipe.pipe ≠ [] := by
  cases h : s.pipe <;> simp [State.fillPipe, h]

/-! ## Writes into words already fetched (R90, D7) -/

/-- Every word of the pipeline stays, or, where it is not for the instruction itself, becomes the word that memory has come to
hold. -/
theorem snoop_getElem? {s old : State} {k : Nat} {f : Fetched} (h : (s.snoop old).pipe[k]? = some f) :
    ∃ g, s.pipe[k]? = some g ∧ f.invalid = g.invalid ∧
      (f.word = g.word ∨
        (s.pipeAddr k ≠ old.addr ∧ f.word = readWord s.mem (s.pipeAddr k) ∧
          readWord s.mem (s.pipeAddr k) ≠ readWord old.mem (s.pipeAddr k))) := by
  rw [State.snoop, List.getElem?_mapIdx] at h
  obtain ⟨g, hg, rfl⟩ := Option.map_eq_some_iff.mp h
  refine ⟨g, hg, ?_⟩
  dsimp only
  split
  · rename_i written
    obtain ⟨elsewhere, changed, -⟩ := written
    obtain ⟨fromMemory, differs⟩ := busWord_changed changed
    exact ⟨rfl, .inr ⟨elsewhere, fromMemory, differs⟩⟩
  · exact ⟨rfl, .inl rfl⟩

/-- The word of the instruction itself stays first where the PC and the pipeline have stayed (R299). -/
theorem snoop_fetched {s old : State} (pc : s.pc = old.pc) (pipe : s.pipe = old.pipe) (fetched : old.pipe ≠ []) :
    (s.snoop old).fetched = old.fetched := by
  have itself : s.pipeAddr 0 = old.addr := (pipeAddr_congr pc 0).trans (pipeAddr_zero old)
  obtain ⟨f, rest, first⟩ := List.exists_cons_of_ne_nil fetched
  simp [State.fetched, State.snoop, pipe, first, itself]

/-! ## An instruction and the pipeline -/

theorem Works.pc {s t : State} (h : Works s t) : t.pc = s.pc :=
  (congrArg State.pc h.frame :)

/-- Going on uses up the first word, going elsewhere discards all, waiting keeps them: each word left was in the pipeline
before, for the same address. -/
theorem Completes.pipe_getElem? {s t : State} (h : Completes s t) {k : Nat} {f : Fetched} (hf : t.pipe[k]? = some f) :
    ∃ j, s.pipe[j]? = some f ∧ t.pipeAddr k = s.pipeAddr j := by
  cases h with
  | goesOn u b work end_eq =>
    subst end_eq
    refine ⟨k + 1, ?_, pipeAddr_succ ?_ k⟩
    · rw [← List.getElem?_tail, ← work.pipe]
      exact hf
    · rw [← work.pc]
      rfl
  | goesTo u a work end_eq =>
    subst end_eq
    simp at hf
  | waits end_eq =>
    subst end_eq
    exact ⟨k, hf, rfl⟩

/-- An instruction after which the processor waits has done nothing else (R44, R299). -/
theorem Completes.of_busyWait {s t : State} (h : Completes s t) (busy : t.busyWait = true) :
    t = { s with busyWait := true } := by
  cases h with
  | goesOn u b work end_eq => simp [end_eq] at busy
  | goesTo u a work end_eq => simp [end_eq] at busy
  | waits end_eq => exact end_eq

theorem runFetched_completes {s t : State} (h : s.runFetched = .next t) : Completes s t := by
  rcases runFetched_next h with ⟨-, rfl⟩ | ⟨-, -, h⟩
  · exact completes_raise (.refl s) _
  · exact exec_completes h

/-! ## The step -/

/-- RESET and the interrupts leave the pipeline empty and nothing waited for; else an instruction has completed. -/
theorem step_emptied_or_completes {s t : State} (h : step s = .next t) :
    (t.pipe = [] ∧ t.busyWait = false) ∨
      ∃ u, Completes s.sample.fillPipe u ∧ t = u.retire.snoop s.sample.fillPipe := by
  rcases boundary_next h with ⟨-, rfl⟩ | ⟨-, -, rfl⟩ | ⟨-, -, ⟨e, -, rfl⟩ | ⟨u, ran, rfl⟩⟩
  · exact .inl ⟨rfl, rfl⟩
  · exact .inl ⟨rfl, rfl⟩
  · exact .inl ⟨rfl, rfl⟩
  · exact .inr ⟨u, runFetched_completes ran, rfl⟩

/-- The words that a step leaves in the pipeline (R90). -/
theorem step_pipe_getElem? {s t : State} {k : Nat} {f : Fetched} (h : step s = .next t) (hf : t.pipe[k]? = some f) :
    ∃ (j : Nat) (g : Fetched), s.sample.fillPipe.pipe[j]? = some g ∧ t.pipeAddr k = s.pipeAddr j ∧
      f.invalid = g.invalid ∧
      (f.word = g.word ∨
        (j ≠ 0 ∧ f.word = readWord t.mem (t.pipeAddr k) ∧
          readWord t.mem (t.pipeAddr k) ≠ readWord s.sample.mem (t.pipeAddr k))) := by
  rcases step_emptied_or_completes h with ⟨emptied, -⟩ | ⟨u, completes, rfl⟩
  · simp [emptied] at hf
  · obtain ⟨g, hg, mark, word⟩ := snoop_getElem? hf
    obtain ⟨j, hj, place⟩ := completes.pipe_getElem? hg
    refine ⟨j, g, hj, place, mark, word.imp_right fun ⟨elsewhere, written⟩ => ⟨?_, written⟩⟩
    rintro rfl
    exact elsewhere (place.trans (pipeAddr_zero _))

/-- A step that waits keeps the PC and the word about to execute (R44, R299). -/
theorem step_of_busyWait {s t : State} (h : step s = .next t) (busy : t.busyWait = true) :
    t.pc = s.pc ∧ t.fetched = s.sample.fillPipe.fetched := by
  rcases step_emptied_or_completes h with ⟨-, idle⟩ | ⟨u, completes, rfl⟩
  · simp [idle] at busy
  · obtain rfl := completes.of_busyWait busy
    exact ⟨rfl, snoop_fetched rfl rfl (fillPipe_pipe_ne_nil s.sample)⟩

/-- Settles O55: filling the pipeline place by place, then the words a step leaves, then a step that waits. -/
theorem prefetchedWordsAreOldOrNew : Obligations.PrefetchedWordsAreOldOrNew := by
  refine ⟨fun s short => ⟨fillPipe_pipe_length (s := s.sample) short,
      fun k f => fillPipe_getElem?_prefetched (s := s.sample), fun k empty three => ?_⟩,
    fun s t k f _ => step_pipe_getElem?, fun s t => step_of_busyWait⟩
  exact ⟨pipeAddr_toNat s k, _, fillPipe_getElem?_fetched (s := s.sample) empty three, rfl, busWord_of_memory,
    fun d => busWord_of_device⟩

end Sys2Proof.Machine
end

section
/-! SUPPORT. Decoding what is encoded, over all instructions (O1; spec/30_encoding.md R100 to R118). -/

namespace Sys2Proof.Laws.RoundTrip

/-- The round trip of each instruction, by its format's lemma, is the round trip of all. -/
theorem statement_all (i : Instr) : Statement i := by
  cases i with
  | andImm => apply andImm | andShift => apply andShift | andRegShift => apply andRegShift
  | eorImm => apply eorImm | eorShift => apply eorShift | eorRegShift => apply eorRegShift
  | subImm => apply subImm | subShift => apply subShift | subRegShift => apply subRegShift
  | rsbImm => apply rsbImm | rsbShift => apply rsbShift | rsbRegShift => apply rsbRegShift
  | addImm => apply addImm | addShift => apply addShift | addRegShift => apply addRegShift
  | adcImm => apply adcImm | adcShift => apply adcShift | adcRegShift => apply adcRegShift
  | sbcImm => apply sbcImm | sbcShift => apply sbcShift | sbcRegShift => apply sbcRegShift
  | rscImm => apply rscImm | rscShift => apply rscShift | rscRegShift => apply rscRegShift
  | tstImm => apply tstImm | tstShift => apply tstShift | tstRegShift => apply tstRegShift
  | tstImmS0 => apply tstImmS0 | tstShiftS0 => apply tstShiftS0 | tstRegShiftS0 => apply tstRegShiftS0
  | teqImm => apply teqImm | teqShift => apply teqShift | teqRegShift => apply teqRegShift
  | teqImmS0 => apply teqImmS0 | teqShiftS0 => apply teqShiftS0 | teqRegShiftS0 => apply teqRegShiftS0
  | cmpImm => apply cmpImm | cmpShift => apply cmpShift | cmpRegShift => apply cmpRegShift
  | cmpImmS0 => apply cmpImmS0 | cmpShiftS0 => apply cmpShiftS0 | cmpRegShiftS0 => apply cmpRegShiftS0
  | cmnImm => apply cmnImm | cmnShift => apply cmnShift | cmnRegShift => apply cmnRegShift
  | cmnImmS0 => apply cmnImmS0 | cmnShiftS0 => apply cmnShiftS0 | cmnRegShiftS0 => apply cmnRegShiftS0
  | orrImm => apply orrImm | orrShift => apply orrShift | orrRegShift => apply orrRegShift
  | movImm => apply movImm | movShift => apply movShift | movRegShift => apply movRegShift
  | bicImm => apply bicImm | bicShift => apply bicShift | bicRegShift => apply bicRegShift
  | mvnImm => apply mvnImm | mvnShift => apply mvnShift | mvnRegShift => apply mvnRegShift
  | mul => apply mul | mla => apply mla
  | unallocB => apply unallocB | unallocD => apply unallocD | unallocF => apply unallocF
  | unalloc4 => apply unalloc4 | unalloc8 => apply unalloc8 | unallocC => apply unallocC
  | ldrImm => apply ldrImm | ldrReg => apply ldrReg
  | strImm => apply strImm | strReg => apply strReg
  | ldrbImm => apply ldrbImm | ldrbReg => apply ldrbReg
  | strbImm => apply strbImm | strbReg => apply strbReg
  | undefinedA => apply undefinedA | undefinedB => apply undefinedB
  | ldm => apply ldm | stm => apply stm
  | b => apply b | bl => apply bl
  | ldc => apply ldc | stc => apply stc
  | cdp => apply cdp
  | mrc => apply mrc | mcr => apply mcr
  | swi => apply swi

end Sys2Proof.Laws.RoundTrip

namespace Sys2Proof

/-- Settles O1, instruction by instruction: the fields of each format come back as they were put in, and a shift amount that
has an encoding is the one its amount field and type stand for. -/
theorem wellFormedInstructionsRoundTrip : Obligations.WellFormedInstructionsRoundTrip :=
  Laws.RoundTrip.statement_all

end Sys2Proof
end

section
/-! SUPPORT. The condition field (spec/40_condition_field.md): what each condition tests (O5), and that every instruction
does its work under its condition alone (O6). -/

namespace Sys2Proof.Machine

open Sys2Proof.Spec

/-! ## The sixteen conditions -/

/-- Settles O5: a code is looked up, and a condition is the test of one flag, of a clear flag, of two flags, or of none. -/
theorem conditionsTestTheirFlags : Obligations.ConditionsTestTheirFlags := by
  refine ⟨by decide, fun p => ⟨.rfl, ?ne, .rfl, ?cc, .rfl, ?pl, .rfl, ?vc, ?hi, ?ls, ?ge, ?lt, ?gt, ?le, rfl, rfl⟩⟩
  case ne | cc | pl | vc => exact iff_of_eq (Bool.not_eq_true' _)
  case hi | ls | ge | lt | gt | le => simp [condPassed]

/-! ## Conditional execution -/

/-- R130: whatever an instruction does, it does under its condition, which is tested before anything else. -/
theorem exec_eq_whenPassed (i : Instr) (s : State) : ∃ k, exec i s = whenPassed i.cond s k := by
  cases i <;> exact ⟨_, rfl⟩

/-- R146: going on to the next instruction leaves the registers, the PSR and memory as they are. -/
theorem advance_eq_wentOn (s : State) : s.advance = wentOn s s.regs s.psr s.mem := rfl

theorem exec_failed {i : Instr} {s : State} (failed : condPassed i.cond s.psr = false) :
    exec i s = .next (wentOn s s.regs s.psr s.mem) := by
  obtain ⟨k, underCondition⟩ := exec_eq_whenPassed i s
  rw [underCondition, whenPassed_failed failed, advance_eq_wentOn]

/-- Settles O6: decoding keeps the condition field, and an instruction does nothing but under its condition. -/
theorem failedConditionIsANoOp : Obligations.FailedConditionIsANoOp := by
  intro w s failed
  exact exec_failed (by rwa [cond_decodeWord])

end Sys2Proof.Machine
end


section
/-! SUPPORT. B and BL: where they go, what they save (O41; spec/41_branch.md R150 to R152). -/

namespace Sys2Proof.Machine

open Sys2Proof.Spec

/-- R10: writing a register by number is the update `setReg` of the current mode's bank, and nothing else. -/
theorem writeX_eq_setReg (s : State) (r : Reg) (v : Word) :
    s.writeX r v = { s with regs := setReg s.psr.mode s.regs r v } := by
  unfold State.writeX State.writeBank setReg
  cases physOf s.psr.mode r <;> rfl

/-- R151: the word address of the target, as the byte address modulo 2^26. -/
theorem branchTarget_toNat (s : State) (off : BitVec 24) :
    4 * (s.branchTarget off).toNat = (4 * s.pc.toNat + 8 + 4 * off.toNat) % 2 ^ 26 := by
  have two : (2 : BitVec 24).toNat = 2 := rfl
  rw [State.branchTarget, BitVec.toNat_add, BitVec.toNat_add, two]
  omega

/-- R150: taking a branch leaves the registers, the PSR and memory as they are. -/
theorem branchTo_eq_wentTo (s : State) (target : BitVec 24) : s.branchTo target = wentTo s s.regs s.psr target := rfl

/-- R150: B, its condition passed. -/
theorem exec_b_passed {c : Cond} {s : State} (passed : condPassed c s.psr = true) (off : BitVec 24) :
    exec (.b c off) s = .next (wentTo s s.regs s.psr (s.branchTarget off)) := by
  rw [exec_b, execB, whenPassed_passed passed, branchTo_eq_wentTo]

/-- R152: BL, its condition passed and R14 free to be written. -/
theorem exec_bl_passed {c : Cond} {s : State} (passed : condPassed c s.psr = true) (free : s.unsettled 14 = false)
    (off : BitVec 24) :
    exec (.bl c off) s =
      .next (wentTo s (setReg s.psr.mode s.regs 14 (s.r15full 4)) s.psr (s.branchTarget off)) := by
  rw [exec_bl, execBl, whenPassed_passed passed, guardWrites_open (by simpa using free), writeX_eq_setReg,
    branchTo_eq_wentTo]
  rfl

/-- Settles O41: the words are the format's, a failed condition goes on, and where it passes both branches reach
`branchTarget`. -/
theorem branchesReachTheirTarget : Obligations.BranchesReachTheirTarget := by
  intro c off s
  refine ⟨rfl, rfl, fun failed => ⟨exec_failed failed, exec_failed failed⟩, fun passed => ?_⟩
  exact ⟨s.branchTarget off, branchTarget_toNat s off, exec_b_passed passed off,
    fun free => exec_bl_passed passed free off⟩

end Sys2Proof.Machine
end

section
/-! SUPPORT. The barrel shifter (O18, O19; spec/42_data_processing.md R165 to R174): each shift as arithmetic on the value, by
its type. -/

namespace Sys2Proof.Machine

/-! ## The four ways to shift a word -/

/-- Bit 31 in every place: all that 32 or more places to the right leave of a signed word. -/
theorem sshiftRight_width (v : Word) : v.sshiftRight 32 = if v.getLsbD 31 then 0xFFFFFFFF else 0 := by
  have sign : v.getLsbD 31 = v.msb := (BitVec.msb_eq_getLsbD_last v).symm
  rw [sign]
  cases negative : v.msb
  · rw [BitVec.sshiftRight_eq_of_msb_false negative, BitVec.ushiftRight_eq_zero (Nat.le_refl 32)]
    rfl
  · rw [BitVec.sshiftRight_eq_of_msb_true negative, BitVec.ushiftRight_eq_zero (Nat.le_refl 32)]
    rfl

/-- A shift to the left by 1 to 31 places is a multiplication modulo 2^32, and the last bit to leave is the carry (R165). -/
theorem shiftImm_lsl {n : Nat} (pos : 1 ≤ n) (v : Word) (cin : Bool) :
    (shiftImm (.lsl n) v cin).1.toNat = v.toNat * 2 ^ n % 2 ^ 32 ∧
      (shiftImm (.lsl n) v cin).2 = v.getLsbD (32 - n) := by
  rw [shiftImm, if_neg (by omega)]
  exact ⟨by rw [BitVec.toNat_shiftLeft, Nat.shiftLeft_eq], rfl⟩

/-- A logical shift to the right is a division of the unsigned number (R166). -/
theorem shiftImm_lsr (n : Nat) (v : Word) (cin : Bool) :
    (shiftImm (.lsr n) v cin).1.toNat = v.toNat / 2 ^ n ∧ (shiftImm (.lsr n) v cin).2 = v.getLsbD (n - 1) :=
  ⟨by rw [shiftImm, BitVec.toNat_ushiftRight, Nat.shiftRight_eq_div_pow], rfl⟩

/-- An arithmetic shift to the right is a division of the signed number, rounded down (R167). -/
theorem shiftImm_asr {n : Nat} (le : n ≤ 32) (v : Word) (cin : Bool) :
    (shiftImm (.asr n) v cin).1.toInt = v.toInt / 2 ^ n ∧ (shiftImm (.asr n) v cin).2 = v.getLsbD (n - 1) := by
  rw [shiftImm, Nat.min_eq_left le]
  exact ⟨by simp [BitVec.toInt_sshiftRight, Int.shiftRight_eq_div_pow], rfl⟩

/-- A rotation brings what leaves on the right in again on the left (R168). -/
theorem shiftImm_ror {n : Nat} (lt : n < 32) (v : Word) (cin : Bool) :
    (shiftImm (.ror n) v cin).1 = (v >>> n) ||| (v <<< (32 - n)) ∧ (shiftImm (.ror n) v cin).2 = v.getLsbD (n - 1) :=
  ⟨by rw [shiftImm, ror32, BitVec.rotateRight_def, Nat.mod_mod, Nat.mod_eq_of_lt lt], rfl⟩

/-- RRX: the C flag comes in as bit 31 (R169). -/
theorem shiftImm_rrx (v : Word) (cin : Bool) :
    (shiftImm .rrx v cin).1.toNat = cin.toNat * 2 ^ 31 + v.toNat / 2 ∧ (shiftImm .rrx v cin).2 = v.getLsbD 0 := by
  have upper : (v.extractLsb' 1 31).toNat = v.toNat / 2 := by
    have := v.isLt
    rw [BitVec.extractLsb'_toNat, Nat.shiftRight_eq_div_pow]
    omega
  refine ⟨?_, rfl⟩
  rw [shiftImm, BitVec.toNat_append, ← Nat.shiftLeft_add_eq_or_of_lt (BitVec.isLt _), Nat.shiftLeft_eq, upper,
    BitVec.toNat_ofBool]

/-- LSR by 32 leaves nothing (R166). -/
theorem shiftImm_lsr_width (v : Word) (cin : Bool) : shiftImm (.lsr 32) v cin = (0, v.getLsbD 31) := by
  rw [shiftImm, BitVec.ushiftRight_eq_zero (Nat.le_refl 32)]
  rfl

/-- ASR by 32 leaves the sign alone (R167). -/
theorem shiftImm_asr_width (v : Word) (cin : Bool) :
    shiftImm (.asr 32) v cin = (if v.getLsbD 31 then 0xFFFFFFFF else 0, v.getLsbD 31) := by
  rw [shiftImm, sshiftRight_width, Nat.min_self]

/-- Settles O18: each type of shift by 1 to 31 places, the two shifts by 32, RRX, and the table of the amount field 0. -/
theorem instructionSpecifiedShifts : Obligations.InstructionSpecifiedShifts := by
  intro v cin
  refine ⟨rfl, fun n pos le => ?_, shiftImm_lsr_width v cin, shiftImm_asr_width v cin, shiftImm_rrx v cin, rfl⟩
  exact ⟨shiftImm_lsl pos v cin, shiftImm_lsr n v cin, shiftImm_asr (by omega) v cin, shiftImm_ror (by omega) v cin⟩

/-! ## The amount in a register -/

/-- By 1 to 31 places the amount's source makes no difference (R171 to R174). -/
theorem shiftReg_eq_shiftImm {n : Nat} (pos : 1 ≤ n) (le : n ≤ 31) (v : Word) (cin : Bool) :
    shiftReg .lsl n v cin = shiftImm (.lsl n) v cin ∧ shiftReg .lsr n v cin = shiftImm (.lsr n) v cin ∧
      shiftReg .asr n v cin = shiftImm (.asr n) v cin ∧ shiftReg .ror n v cin = shiftImm (.ror n) v cin := by
  have nonzero : n ≠ 0 := by omega
  have inWord : n ≤ 32 := by omega
  have inWord' : n < 32 := by omega
  have mod : n % 32 = n := Nat.mod_eq_of_lt inWord'
  simp [shiftReg, shiftImm, nonzero, inWord, inWord', mod]

/-- LSL and LSR by more than 32 leave nothing, and no carry (R171, R172). -/
theorem shiftReg_logical_beyond {n : Nat} (beyond : 33 ≤ n) (v : Word) (cin : Bool) :
    shiftReg .lsl n v cin = (0, false) ∧ shiftReg .lsr n v cin = (0, false) := by
  have nonzero : n ≠ 0 := by omega
  have outside : ¬n ≤ 32 := by omega
  simp [shiftReg, nonzero, outside]

/-- ASR by 32 or more leaves the sign alone (R173). -/
theorem shiftReg_asr_beyond {n : Nat} (beyond : 32 ≤ n) (v : Word) (cin : Bool) :
    shiftReg .asr n v cin = (if v.getLsbD 31 then 0xFFFFFFFF else 0, v.getLsbD 31) := by
  have nonzero : n ≠ 0 := by omega
  have outside : ¬n < 32 := by omega
  simp only [shiftReg, nonzero, outside, if_false, sshiftRight_width, BitVec.msb_eq_getLsbD_last]

/-- ROR by 32 or more turns whole rounds first (R174). -/
theorem shiftReg_ror_beyond {n : Nat} (beyond : 32 ≤ n) (v : Word) (cin : Bool) :
    shiftReg .ror n v cin = if n % 32 = 0 then (v, v.getLsbD 31) else shiftImm (.ror (n % 32)) v cin := by
  rw [shiftReg, if_neg (by omega), BitVec.msb_eq_getLsbD_last]
  rfl

/-- Settles O19: an amount of 0, of 1 to 31, of 32, and beyond. -/
theorem registerSpecifiedShifts : Obligations.RegisterSpecifiedShifts := by
  intro v cin
  refine ⟨fun _ => rfl, fun n pos le => shiftReg_eq_shiftImm pos le v cin, ?lsl, ?lsr,
    fun n beyond _ => shiftReg_logical_beyond beyond v cin, fun n beyond _ => shiftReg_asr_beyond beyond v cin,
    fun n beyond _ => shiftReg_ror_beyond beyond v cin⟩
  case lsl => simp [shiftReg]
  case lsr => exact shiftImm_lsr_width v cin

end Sys2Proof.Machine
end

section
/-! SUPPORT. How the operands of a data processing instruction are read (O21; spec/42_data_processing.md R161 to R163). -/

namespace Sys2Proof.Machine

/-- R10: the PC `k` bytes on, modulo 2^26, the PSR bits zero. -/
theorem r15pc_toNat (s : State) (k : Addr) : (s.r15pc k).toNat = (4 * s.pc.toNat + k.toNat) % 2 ^ 26 := by
  have inAddr : (s.addr + k).toNat = (4 * s.pc.toNat + k.toNat) % 2 ^ 26 := by rw [BitVec.toNat_add, addr_toNat]
  rw [State.r15pc, BitVec.toNat_setWidth, inAddr, Nat.mod_eq_of_lt (by omega)]

/-- Number 15 reads as what the rule at hand says of R15. -/
theorem readX_r15 (s : State) (who : Config.Draw) (r15 : Word) : s.readX who r15 (15 : Reg) = r15 :=
  readX_fifteen s who r15

/-- R163: the shift amount is the low byte of Rs. -/
theorem shiftAmount_eq (s : State) (rs : Reg) : s.shiftAmount rs = (s.readX .rs (s.r15pc 8) rs).toNat % 256 := by
  simp [State.shiftAmount]

theorem shiftAmount_fifteen (s : State) : s.shiftAmount 15 = (4 * s.pc.toNat + 8) % 256 := by
  have eight : (8 : Addr).toNat = 8 := rfl
  rw [shiftAmount_eq, readX_r15, r15pc_toNat, eight]
  omega

/-- R161: R15 as Rn is the PC alone. -/
theorem firstOperand_fifteen (s : State) (o : Op2) :
    (s.firstOperand 15 o).toNat = (4 * s.pc.toNat + o.ahead.toNat) % 2 ^ 26 := by
  rw [State.firstOperand, readX_r15, r15pc_toNat]

/-- Settles O21: a number below 15 reads its register, and 15 what each rule says of R15. -/
theorem operandsReadRegistersAndR15 : Obligations.OperandsReadRegistersAndR15 := by
  intro s o sh t rs settled
  have reads {r : Reg} {p : PReg} (named : physOf s.psr.mode r = some p) (who : Config.Draw) (r15 : Word) :
      s.readX who r15 r = s.regs.get p := readX_some named (unsettled_settled settled r)
  refine ⟨fun _ => rfl, fun rn p named => reads named .., ?rn, fun rm p named => ⟨?_, ?_, ?_⟩, ?shift, ?regShift,
    shiftAmount_fifteen s⟩
  case rn => cases o <;> exact firstOperand_fifteen s _
  case shift => exact congrArg (shiftImm sh · s.psr.c) (readX_r15 s .rm _)
  case regShift => exact congrArg (shiftReg t (s.shiftAmount rs) · s.psr.c) (readX_r15 s .rm _)
  · rw [State.secondOperand, reads named]
  · rw [State.secondOperand, reads named]
  · rw [shiftAmount_eq, reads named]

end Sys2Proof.Machine
end

section
/-! SUPPORT. The flags of the arithmetic operations as facts about integers (spec/42_data_processing.md R178, R182 to R187), and
what the conditions say of them after a compare (O7; spec/40_condition_field.md R132 to R145). -/

namespace Sys2Proof.Spec

open Sys2Proof.Machine

/-! ## The sum of R178 and the integers -/

/-- The two addends and the carry-in of R178 for each operation: a subtraction adds the complement. -/
def ArithOp.addends : ArithOp → Addends
  | .sub => addendsSub
  | .rsb => addendsRsb
  | .add => addendsAdd
  | .adc => addendsAdc
  | .sbc => addendsSbc
  | .rsc => addendsRsc

/-- How much more than the exact value the unsigned sum is: what complementing the subtrahend has added. -/
def ArithOp.excess : ArithOp → Int
  | .add | .adc => 0
  | .sub | .rsb | .sbc | .rsc => 2 ^ 32

theorem ArithOp.excess_cases (k : ArithOp) : k.excess = 0 ∨ k.excess = 2 ^ 32 := by
  cases k <;> simp [ArithOp.excess]

theorem toNat_not_cast (b : Word) : ((~~~b).toNat : Int) = 2 ^ 32 - 1 - b.toNat := by
  have := b.isLt
  rw [BitVec.toNat_not]
  omega

variable (k : ArithOp) (a b : Word) (cin : Bool)

/-- The unsigned sum of the addends (R178). -/
def ArithOp.unsignedSum : Nat :=
  (k.addends a b cin).1.toNat + (k.addends a b cin).2.1.toNat + (k.addends a b cin).2.2.toNat

/-- The unsigned sum is the exact value, but for the complement's excess. -/
theorem ArithOp.unsignedSum_eq : (k.unsignedSum a b cin : Int) = k.exact a.toNat b.toNat cin + k.excess := by
  cases k <;> simp only [ArithOp.unsignedSum, ArithOp.addends, addendsSub, addendsRsb, addendsAdd, addendsAdc, addendsSbc,
    addendsRsc, ArithOp.exact, ArithOp.excess, Bool.toNat_true, Bool.toNat_false, Int.natCast_add, toNat_not_cast] <;> omega

/-- The signed sum of the addends is the exact value of the signed operands. -/
theorem ArithOp.signedSum_eq :
    (k.addends a b cin).1.toInt + (k.addends a b cin).2.1.toInt + (k.addends a b cin).2.2.toNat =
      k.exact a.toInt b.toInt cin := by
  cases k <;> simp only [ArithOp.addends, addendsSub, addendsRsb, addendsAdd, addendsAdc, addendsSbc, addendsRsc,
    ArithOp.exact, Bool.toNat_true, Bool.toNat_false, toInt_not] <;> omega

/-- The result is the exact value cut to 32 bits. -/
theorem ArithOp.sumResult_addends :
    sumResult (k.addends a b cin).1 (k.addends a b cin).2.1 (k.addends a b cin).2.2 = k.result a b cin := by
  have sum := k.unsignedSum_eq a b cin
  have excess := k.excess_cases
  apply BitVec.eq_of_toNat_eq
  rw [sumResult_toNat, ArithOp.result, BitVec.toNat_ofInt]
  change k.unsignedSum a b cin % 2 ^ 32 = _
  omega

/-- C of R178 is a carry of an addition, no borrow of a subtraction. -/
theorem ArithOp.carry_addends :
    (sum33 (k.addends a b cin).1 (k.addends a b cin).2.1 (k.addends a b cin).2.2).msb = k.carry a b cin := by
  have sum := k.unsignedSum_eq a b cin
  rw [sum33_carry]
  change decide (2 ^ 32 ≤ k.unsignedSum a b cin) = _
  cases k <;> simp only [ArithOp.carry, ArithOp.excess, decide_eq_decide] at sum ⊢ <;> omega

/-- V of R178 is a signed value that does not fit. -/
theorem ArithOp.overflow_addends :
    ((k.addends a b cin).1.msb == (k.addends a b cin).2.1.msb &&
      (k.result a b cin).msb != (k.addends a b cin).1.msb) = k.overflow a b cin := by
  rw [← ArithOp.sumResult_addends, sumResult_overflow, ArithOp.signedSum_eq, ArithOp.sumResult_addends, ArithOp.overflow]

/-- The flags of R178 are those the integers give. -/
theorem ArithOp.arithmeticFlags_addends (p : Psr) :
    arithmeticFlags p (k.addends a b p.c).1 (k.addends a b p.c).2.1 (k.addends a b p.c).2.2 = k.psr p a b := by
  have negative : (k.result a b p.c).msb = decide ((k.result a b p.c).toInt < 0) := BitVec.msb_eq_toInt
  have zero : (k.result a b p.c == 0) = decide ((k.result a b p.c).toNat = 0) := by
    rw [Bool.eq_iff_iff]
    simp [BitVec.toNat_eq]
  simp only [arithmeticFlags, ArithOp.sumResult_addends, ArithOp.carry_addends, ArithOp.overflow_addends, zero, ArithOp.psr]
  rw [negative]

end Sys2Proof.Spec

namespace Sys2Proof.Machine

open Sys2Proof.Spec

/-! ## The conditions after a compare -/

section

variable (p : Psr) (a b : Word)

/-- CMP sets the flags of a subtraction (R190). -/
theorem compareFlags_eq : arithmeticFlags p a (~~~b) true = ArithOp.sub.psr p a b :=
  ArithOp.sub.arithmeticFlags_addends a b p

/-- Z after a compare: the difference is 0. -/
theorem compare_z_iff : (ArithOp.sub.psr p a b).z = true ↔ a = b := by
  have := a.isLt
  have := b.isLt
  simp only [ArithOp.psr, ArithOp.result, ArithOp.exact, decide_eq_true_eq, BitVec.toNat_ofInt, BitVec.toNat_eq]
  omega

/-- C after a compare: no borrow. -/
theorem compare_c_iff : (ArithOp.sub.psr p a b).c = true ↔ b.toNat ≤ a.toNat := by
  change decide ((0 : Int) ≤ a.toNat - b.toNat) = true ↔ _
  rw [decide_eq_true_eq]
  omega

/-- The 32-bit difference as a signed number: the exact one where that fits, and 2^32 away from it where it does not. -/
theorem difference_toInt :
    let d := a.toInt - b.toInt
    (ArithOp.sub.result a b p.c).toInt = if d < -2 ^ 31 then d + 2 ^ 32 else if 2 ^ 31 ≤ d then d - 2 ^ 32 else d := by
  have difference : (ArithOp.sub.result a b p.c).toNat = (((a.toNat : Int) - b.toNat) % 2 ^ 32).toNat :=
    BitVec.toNat_ofInt ..
  have := a.isLt
  have := b.isLt
  simp only [BitVec.toInt_eq_toNat_cond, difference]
  omega

/-- N and V after a compare: the sign of the 32-bit difference is that of the exact one, unless it overflows. -/
theorem compare_n_eq_v_iff :
    (ArithOp.sub.psr p a b).n = (ArithOp.sub.psr p a b).v ↔ b.toInt ≤ a.toInt := by
  have difference := difference_toInt p a b
  have exact : ArithOp.sub.exact a.toInt b.toInt p.c = a.toInt - b.toInt := rfl
  simp only [ArithOp.psr, ArithOp.overflow, exact, decide_eq_decide]
  have := BitVec.toInt_lt (x := a)
  have := BitVec.toInt_lt (x := b)
  have := BitVec.le_toInt a
  have := BitVec.le_toInt b
  omega

end

/-- Settles O7: Z is equality, C the order of the unsigned numbers, N = V that of the signed ones; HI, LS, GT, LE join two. -/
theorem conditionsAfterCompareOrderTheOperands : Obligations.ConditionsAfterCompareOrderTheOperands := by
  intro p a b
  have z := compare_z_iff p a b
  have c := compare_c_iff p a b
  have nv := compare_n_eq_v_iff p a b
  have notZ : (ArithOp.sub.psr p a b).z = false ↔ a ≠ b := by rw [← Bool.not_eq_true, z]
  have notC : (ArithOp.sub.psr p a b).c = false ↔ a.toNat < b.toNat := by rw [← Bool.not_eq_true, c, Nat.not_le]
  have notNV : (ArithOp.sub.psr p a b).n ≠ (ArithOp.sub.psr p a b).v ↔ a.toInt < b.toInt := by rw [ne_eq, nv, Int.not_le]
  obtain ⟨-, tests⟩ := conditionsTestTheirFlags
  obtain ⟨eq, ne, cs, cc, -, -, -, -, hi, ls, ge, lt, gt, le, -, -⟩ := tests (ArithOp.sub.psr p a b)
  have unsigned : a = b ↔ a.toNat = b.toNat := BitVec.toNat_eq
  have signed : a = b ↔ a.toInt = b.toInt := BitVec.toInt_inj.symm
  simp only [compareFlags_eq]
  refine ⟨eq.trans z, ne.trans notZ, cs.trans c, cc.trans notC, ?hi, ?ls, ge.trans nv, lt.trans notNV, ?gt, ?le⟩
  case hi => rw [hi, c, notZ, ne_eq, unsigned]; omega
  case ls => rw [ls, notC, z, unsigned]; omega
  case gt => rw [gt, notZ, nv, ne_eq, signed]; omega
  case le => rw [le, z, notNV, signed]; omega

end Sys2Proof.Machine
end

section
/-! SUPPORT. The data processing instructions (O22, O23, O24; spec/42_data_processing.md R175 to R195): each operation in its
three operand forms is one shared execution, and what that execution writes. -/

namespace Sys2Proof.Machine

open Sys2Proof.Spec

/-! ## The words -/

/-- The word of a data processing instruction (R104), by its operand form. -/
def dataWord (c : Cond) (op : BitVec 4) (s : Bool) (rn rd : Reg) : Op2 → Word
  | .imm o => dpImmWord c op s rn rd o
  | .shift o => dpShiftWord c op s rn rd o
  | .regShift o => dpRegShiftWord c op s rn rd o

/-- Bits 24:21 are the opcode, and bit 20 is S (R104). -/
theorem opcode_dataWord (c : Cond) (op : BitVec 4) (s : Bool) (rn rd : Reg) (o : Op2) :
    (dataWord c op s rn rd o).extractLsb' 21 4 = op ∧
      (dataWord c op s rn rd o).extractLsb' 20 5 = op ++ BitVec.ofBool s := by
  cases o
  · exact opcode_dpImmWord ..
  · exact opcode_dpShiftWord ..
  · exact opcode_dpRegShiftWord ..

theorem encode_logicalOp (k : LogicalOp) (c : Cond) (s : Bool) (rn rd : Reg) (o : Op2) :
    encode (k.instr c s rn rd o) = dataWord c k.opcode s rn rd o := by
  cases k <;> cases o <;> rfl

theorem encode_arithOp (k : ArithOp) (c : Cond) (s : Bool) (rn rd : Reg) (o : Op2) :
    encode (k.instr c s rn rd o) = dataWord c k.opcode s rn rd o := by
  cases k <;> cases o <;> rfl

theorem encode_testOp (k : TestOp) (c : Cond) (rn rd : Reg) (o : Op2) :
    encode (k.instr c rn rd o) = dataWord c k.opcode true rn rd o := by
  cases k <;> cases o <;> rfl

theorem encode_testOpS0 (k : TestOp) (c : Cond) (rn rd : Reg) (o : Op2) :
    encode (k.instrS0 c rn rd o) = dataWord c k.opcode false rn rd o := by
  cases k <;> cases o <;> rfl

/-! ## The shared executions -/

theorem exec_logicalOp (k : LogicalOp) (c : Cond) (s : Bool) (rn rd : Reg) (o : Op2) (st : State) :
    exec (k.instr c s rn rd o) st = logical k.result c s rn rd o st := by
  cases k <;> cases o <;> rfl

theorem exec_arithOp (k : ArithOp) (c : Cond) (s : Bool) (rn rd : Reg) (o : Op2) (st : State) :
    exec (k.instr c s rn rd o) st = arithmetic k.addends c s rn rd o st := by
  cases k <;> cases o <;> rfl

theorem exec_testOpS0 (k : TestOp) (c : Cond) (rn rd : Reg) (o : Op2) (st : State) :
    exec (k.instrS0 c rn rd o) st = unallocatedTest c st := by
  cases k <;> cases o <;> rfl

/-! ## The flags and the status -/

/-- The flags of R177, as the bits of the result. -/
theorem logicalFlags_eq (p : Psr) (r : Word) (sc : Bool) : logicalFlags p r sc = logicalPsr p r sc := by
  have zero : (r == 0) = decide (r = 0) := by rw [Bool.eq_iff_iff, beq_iff_eq, decide_eq_true_iff]
  simp only [logicalFlags, logicalPsr, BitVec.msb_eq_getLsbD_last, zero]

/-- R36, R37: the status that a write of the PSR leaves, field by field. -/
theorem written_eq_psrFrom (p : Psr) (w : Word) : p.written w = psrFrom p w := by
  by_cases user : p.mode = .usr
  · simp [Psr.written, psrFrom, user]
  · simp [Psr.written, psrFrom, user, Mode.ofCode_bits]

/-! ## Where a result goes -/

/-- R175: a result goes to its register and the flags, where S is set, to the PSR. -/
theorem writeResult_register {st : State} {rd : Reg} {p : PReg} (named : physOf st.psr.mode rd = some p)
    (free : st.unsettled rd = false) (s : Bool) (r : Word) (flags : Psr) :
    st.writeResult s rd r flags =
      .next (wentOn st (st.regs.set p r) (if s then flags else st.psr) st.mem) := by
  rw [State.writeResult, if_neg (physOf_ne_fifteen named), guardWrites_open (by simpa using free), writeX_some named]
  rfl

/-- R175: a result for R15 goes to the PC and, where S is set, to the PSR. -/
theorem writeResult_fifteen (st : State) (s : Bool) (r : Word) (flags : Psr) :
    st.writeResult s 15 r flags =
      .next (wentTo st st.regs (if s then psrFrom st.psr r else st.psr) (r.extractLsb' 2 24)) := by
  rw [← written_eq_psrFrom]
  cases s <;> rfl

/-- R179: a test writes the flags alone. -/
theorem writeTest_flags (st : State) {rd : Reg} (h : rd ≠ 15) (r : Word) (flags : Psr) :
    st.writeTest rd r flags = .next (wentOn st st.regs flags st.mem) := by
  rw [State.writeTest, if_neg h]
  rfl

/-- R179, R400: with Rd = 15 a test writes the PSR from its result, and a change of mode leaves the bank unsettled. -/
theorem writeTest_fifteen (st : State) (r : Word) (flags : Psr) :
    st.writeTest 15 r flags = .next { wentOn st st.regs (psrFrom st.psr r) st.mem with
      bank := bankAfter st.psr.mode (psrFrom st.psr r).mode } := by
  rw [← written_eq_psrFrom]
  rfl

/-- R400: which registers a change of mode leaves unsettled does not depend on its direction. -/
theorem bankAfter_comm (old new : Mode) : bankAfter old new = bankAfter new old := by
  simp only [bankAfter, eq_comm (a := old) (b := new), or_comm (a := old = .fiq)]

/-! ## The operations -/

/-- R177: a logical operation, its condition passed, writes the result and its flags. -/
theorem logical_passed (f : Word → Word → Word) {c : Cond} {st : State} (passed : condPassed c st.psr = true) (s : Bool)
    (rn rd : Reg) (o : Op2) :
    logical f c s rn rd o st =
      st.writeResult s rd (f (st.firstOperand rn o) (st.secondOperand o).1)
        (logicalPsr st.psr (f (st.firstOperand rn o) (st.secondOperand o).1) (st.secondOperand o).2) := by
  simp only [logical, whenPassed_passed passed, logicalFlags_eq]

/-- Settles O22: the operation is `logical` with its own result, which goes to Rd or to R15. -/
theorem logicalOperationsWriteTheirResult : Obligations.LogicalOperationsWriteTheirResult := by
  intro k c s rn rd o st passed free
  refine ⟨?word, fun p named => ?register, ?r15⟩
  case word => rw [encode_logicalOp, (opcode_dataWord ..).1]
  case register => rw [exec_logicalOp, logical_passed k.result passed, writeResult_register named free]
  case r15 =>
    rintro rfl
    rw [exec_logicalOp, logical_passed k.result passed, writeResult_fifteen]

/-- R178: an arithmetic operation, its condition passed, writes the result and the flags of the integers. -/
theorem arithmetic_passed (k : ArithOp) {c : Cond} {st : State} (passed : condPassed c st.psr = true) (s : Bool) (rn rd : Reg)
    (o : Op2) :
    arithmetic k.addends c s rn rd o st =
      st.writeResult s rd (k.result (st.firstOperand rn o) (st.secondOperand o).1 st.psr.c)
        (k.psr st.psr (st.firstOperand rn o) (st.secondOperand o).1) := by
  simp only [arithmetic, whenPassed_passed passed, State.addends, ArithOp.sumResult_addends,
    ArithOp.arithmeticFlags_addends]

/-- Settles O23: the operation is `arithmetic` with its own addends, whose sum goes to Rd or to R15. -/
theorem arithmeticOperationsWriteTheirResult : Obligations.ArithmeticOperationsWriteTheirResult := by
  intro k c s rn rd o st passed free
  refine ⟨?word, fun p named => ?register, ?r15⟩
  case word => rw [encode_arithOp, (opcode_dataWord ..).1]
  case register => rw [exec_arithOp, arithmetic_passed k passed, writeResult_register named free]
  case r15 =>
    rintro rfl
    rw [exec_arithOp, arithmetic_passed k passed, writeResult_fifteen]

/-- CMP is the test of SUB and CMN that of ADD, neither of which looks at the C flag (R190, R191). -/
theorem testArithmetic_passed {k : ArithOp} (carryless : k = .sub ∨ k = .add) {c : Cond} {st : State}
    (passed : condPassed c st.psr = true) (rn rd : Reg) (o : Op2) :
    testArithmetic k.addends c rn rd o st =
      st.writeTest rd (k.result (st.firstOperand rn o) (st.secondOperand o).1 false)
        (k.psr st.psr (st.firstOperand rn o) (st.secondOperand o).1) := by
  have sameResult (a b : Word) : k.result a b st.psr.c = k.result a b false := by
    obtain rfl | rfl := carryless <;> rfl
  simp only [testArithmetic, whenPassed_passed passed, State.addends, ArithOp.sumResult_addends,
    ArithOp.arithmeticFlags_addends, sameResult]

/-- TST and TEQ, the condition passed (R188, R189). -/
theorem testLogical_passed (f : Word → Word → Word) {c : Cond} {st : State} (passed : condPassed c st.psr = true)
    (rn rd : Reg) (o : Op2) :
    testLogical f c rn rd o st =
      st.writeTest rd (f (st.firstOperand rn o) (st.secondOperand o).1)
        (logicalPsr st.psr (f (st.firstOperand rn o) (st.secondOperand o).1) (st.secondOperand o).2) := by
  simp only [testLogical, whenPassed_passed passed, logicalFlags_eq]

/-- What each of the four tests writes, its condition passed. -/
theorem exec_testOp_passed (k : TestOp) {c : Cond} {st : State} (passed : condPassed c st.psr = true) (rn rd : Reg) (o : Op2) :
    exec (k.instr c rn rd o) st =
      st.writeTest rd (k.result (st.firstOperand rn o) (st.secondOperand o).1)
        (k.psr st.psr (st.firstOperand rn o) (st.secondOperand o).1 (st.secondOperand o).2) := by
  cases k with
  | tst | teq => cases o <;> exact testLogical_passed _ passed rn rd _
  | cmp => cases o <;> exact testArithmetic_passed (.inl rfl) passed rn rd _
  | cmn => cases o <;> exact testArithmetic_passed (.inr rfl) passed rn rd _

/-- Settles O24: a test is `writeTest` of its result and flags, and with S = 0 it is refused. -/
theorem testsWriteThePsrAlone : Obligations.TestsWriteThePsrAlone := by
  intro k c rn rd o st passed
  refine ⟨?word, fun other => ?flags, ?p, ?wordS0, ?refused⟩
  case word => rw [encode_testOp, (opcode_dataWord ..).2]; rfl
  case flags => rw [exec_testOp_passed k passed, writeTest_flags st other]
  case p =>
    rintro rfl
    rw [exec_testOp_passed k passed, writeTest_fifteen, bankAfter_comm]
    rfl
  case wordS0 => rw [encode_testOpS0, (opcode_dataWord ..).2]; rfl
  case refused => rw [exec_testOpS0, unallocatedTest, whenPassed_passed passed]

end Sys2Proof.Machine
end

section
/-! SUPPORT. MUL and MLA (O25, O26; spec/43_multiply.md R220 to R226): both hand a product to `State.writeProduct`, and what that
writes in each of its three cases. -/

namespace Sys2Proof.Machine

open Sys2Proof.Spec

/-! ## Where a product goes -/

/-- R224: a product sets N and Z as a logical result does, and C to a free value. -/
theorem multiplyFlags_eq (p : Psr) (stamp : Nat) (r : Word) :
    multiplyFlags p stamp r = logicalPsr p r (Config.freeBit stamp .mulC) :=
  logicalFlags_eq p r (Config.freeBit stamp .mulC)

/-- R225: with Rd = 15 no register is written, and with S every flag is free. -/
theorem writeProduct_fifteen (st : State) (s : Bool) (rm : Reg) (r : Word) :
    st.writeProduct s 15 rm r =
      .next (wentOn st st.regs (if s then freeFlags st.psr st.stamp else st.psr) st.mem) := by
  rw [State.writeProduct, if_pos rfl]
  rfl

section

variable {st : State} {rd : Reg} {p : PReg} (named : physOf st.psr.mode rd = some p) (free : st.unsettled rd = false)
include named free

/-- R221, R222, R224: with Rd neither R15 nor Rm the product goes to Rd, and its flags with S to the PSR. -/
theorem writeProduct_register {rm : Reg} (other : rd ≠ rm) (s : Bool) (r : Word) :
    st.writeProduct s rd rm r =
      .next (wentOn st (st.regs.set p r)
        (if s then logicalPsr st.psr r (Config.freeBit st.stamp .mulC) else st.psr) st.mem) := by
  rw [State.writeProduct, if_neg (physOf_ne_fifteen named), guardWrites_open (by simpa using free), if_neg other,
    writeX_some named, multiplyFlags_eq]
  rfl

/-- R223: with Rd = Rm a free word goes to Rd, and free N, Z and C with S to the PSR. -/
theorem writeProduct_clash (s : Bool) (r : Word) :
    st.writeProduct s rd rd r =
      .next (wentOn st (st.regs.set p (Config.freeWord st.stamp .product))
        (if s then multiplyFlagsClash st.psr st.stamp else st.psr) st.mem) := by
  rw [State.writeProduct, if_neg (physOf_ne_fifteen named), guardWrites_open (by simpa using free), if_pos rfl,
    writeX_some named]
  rfl

end

/-! ## The instructions -/

section

variable {c : Cond} {st : State} (passed : condPassed c st.psr = true) (s : Bool) (rd rn rs rm : Reg)
include passed

/-- R221: MUL, its condition passed. -/
theorem exec_mul_passed :
    exec (.mul c s rd rn rs rm) st = st.writeProduct s rd rm (st.multiplyRm rm * st.multiplyRs rs) := by
  rw [exec_mul, execMul, whenPassed_passed passed]

/-- R222: MLA, its condition passed. -/
theorem exec_mla_passed :
    exec (.mla c s rd rn rs rm) st =
      st.writeProduct s rd rm (st.multiplyRm rm * st.multiplyRs rs + st.multiplyRn rn) := by
  rw [exec_mla, execMla, whenPassed_passed passed]

/-- Either instruction, its condition passed, is `State.writeProduct` of some product. -/
theorem exec_multiply_passed (a : Bool) :
    ∃ product, exec (if a then .mla c s rd rn rs rm else .mul c s rd rn rs rm) st = st.writeProduct s rd rm product := by
  cases a with
  | true => exact ⟨_, exec_mla_passed passed ..⟩
  | false => exact ⟨_, exec_mul_passed passed ..⟩

end

/-- Settles O25: the 32-bit product and sum are those of the integers modulo 2^32, and C is what the model draws for it. -/
theorem multiplyWritesTheProduct : Obligations.MultiplyWritesTheProduct := by
  intro c s rd rn rs rm st p passed named free other x y z
  refine ⟨Config.freeBit st.stamp .mulC, fun r => ⟨fun product => ?mul, fun sum => ?mla⟩⟩
  case mul =>
    have result : r = st.multiplyRm rm * st.multiplyRs rs :=
      BitVec.eq_of_toNat_eq (product.trans (BitVec.toNat_mul x y).symm)
    rw [exec_mul_passed passed, ← result, writeProduct_register named free other]
    rfl
  case mla =>
    have result : r = st.multiplyRm rm * st.multiplyRs rs + st.multiplyRn rn := by
      apply BitVec.eq_of_toNat_eq
      rw [sum, BitVec.toNat_add, BitVec.toNat_mul, Nat.mod_add_mod]
      rfl
    rw [exec_mla_passed passed, ← result, writeProduct_register named free other]
    rfl

/-- Settles O26: the free values are those that the model draws. -/
theorem restrictedMultipliesTouchOnlyRdAndFlags : Obligations.RestrictedMultipliesTouchOnlyRdAndFlags := by
  intro a c s rd rn rs st passed i
  refine ⟨fun p named free => ?clash, fun rm => ?fifteen⟩
  case clash =>
    obtain ⟨product, runs⟩ := exec_multiply_passed passed s rd rn rs rd a
    exact ⟨_, _, _, _, runs.trans (writeProduct_clash named free s product)⟩
  case fifteen =>
    obtain ⟨product, runs⟩ := exec_multiply_passed passed s 15 rn rs rm a
    exact ⟨_, _, _, _, runs.trans (writeProduct_fifteen st s rm product)⟩

end Sys2Proof.Machine
end

section
/-! SUPPORT. The addresses of LDR, STR, LDRB and STRB (O31; spec/44_single_data_transfer.md R231, R232, R244), and the exception
that an illegal one takes (O32; R245). -/

namespace Sys2Proof.Machine

open Sys2Proof.Spec

/-! ## Base, offset and index -/

/-- R69: an address is illegal where it does not fit in 26 bits. -/
theorem illegalAddress_iff (a : Word) : illegalAddress a = true ↔ 2 ^ 26 ≤ a.toNat := by
  have inWord := a.isLt
  have top : (a.extractLsb' 26 6).toNat = a.toNat / 2 ^ 26 := by
    rw [BitVec.extractLsb'_toNat, Nat.shiftRight_eq_div_pow]
    omega
  rw [illegalAddress, bne_iff_ne, ne_eq, BitVec.toNat_eq, top, BitVec.toNat_ofNat]
  omega

/-- R244 (b): R15 as the base is the PC alone, 8 bytes on. -/
theorem transferBase_fifteen (s : State) : (s.transferBase 15).toNat = (4 * s.pc.toNat + 8) % 2 ^ 26 := by
  rw [State.transferBase, readX_r15, r15pc_toNat]
  rfl

/-- R231: an immediate offset is its own twelve bits. -/
theorem offset_imm_toNat (s : State) (off : BitVec 12) : (s.offset (.imm off)).toNat = off.toNat := by
  have := off.isLt
  rw [State.offset, BitVec.toNat_setWidth, Nat.mod_eq_of_lt (by omega)]

/-- R232: U = 1 adds the offset. -/
theorem transferIndex_up_toNat (s : State) (rn : Reg) (o : Offset) :
    (s.transferIndex true rn o).toNat = ((s.transferBase rn).toNat + (s.offset o).toNat) % 2 ^ 32 :=
  BitVec.toNat_add ..

/-- R232: U = 0 subtracts it. -/
theorem transferIndex_down_toNat (s : State) (rn : Reg) (o : Offset) :
    (s.transferIndex false rn o).toNat = (2 ^ 32 + (s.transferBase rn).toNat - (s.offset o).toNat) % 2 ^ 32 := by
  have := (s.offset o).isLt
  rw [State.transferIndex, indexed, if_neg Bool.false_ne_true, BitVec.toNat_sub]
  congr 1
  omega

/-- Settles O31: the base and the offset read registers of a settled bank, or R15; the rest is arithmetic on the two. -/
theorem singleTransferAddressing : Obligations.SingleTransferAddressing := by
  intro s p u rn rm off sh o settled
  have reads {r : Reg} {q : PReg} (named : physOf s.psr.mode r = some q) (who : Config.Draw) (r15 : Word) :
      s.readX who r15 r = s.regs.get q := readX_some named (unsettled_settled settled r)
  refine ⟨fun q named => reads named .., transferBase_fifteen s, offset_imm_toNat s off, fun q named => ?register, ?r15,
    transferIndex_up_toNat s rn o, transferIndex_down_toNat s rn o, rfl, rfl, illegalAddress_iff _⟩
  case register => rw [State.offset, reads named]
  case r15 => rw [State.offset, readX_r15]

/-! ## The instructions -/

/-- The read of LDR or LDRB. -/
def singleRead : Bool → State → Addr → Bool → Option Word
  | false => State.loadRotated
  | true => State.loadExtended

/-- The write of STR or STRB. -/
def singleWrite : Bool → State → Addr → Word → Bool → Option State
  | false => State.storeRegister
  | true => State.storeLowByte

theorem exec_loadInstr (byte : Bool) (c : Cond) (p u w : Bool) (rn rd : Reg) (o : Offset) (st : State) :
    exec (loadInstr byte c p u w rn rd o) st = loadTransfer (singleRead byte) c p u w rn rd o st := by
  cases byte <;> cases o <;> rfl

theorem exec_storeInstr (byte : Bool) (c : Cond) (p u w : Bool) (rn rd : Reg) (o : Offset) (st : State) :
    exec (storeInstr byte c p u w rn rd o) st = storeTransfer (singleWrite byte) c p u w rn rd o st := by
  cases byte <;> cases o <;> rfl

/-! ## The three ends of a transfer that is not refused -/

/-- R344, R349: the address exception saves R15 8 bytes on in R14_svc. -/
theorem raise_addressException (s : State) : s.raise .addressException = trapped s .r14Svc 8 .svc s.psr.f 0x14 := by
  have fKept : (s.psr.f || Exception.addressException == .fiq) = s.psr.f := Bool.or_false _
  rw [State.raise, fKept]
  rfl

section

variable {c : Cond} {p u w : Bool} {rn rd : Reg} {o : Offset} {st : State} (passed : condPassed c st.psr = true)
  (base : writesBack p w = true → rn ≠ 15)
include passed base

section

variable (illegal : illegalAddress (st.transferAddr p u rn o) = true)
include illegal

/-- R245: an illegal address of a load. -/
theorem loadTransfer_illegal (read : State → Addr → Bool → Option Word) :
    loadTransfer read c p u w rn rd o st = .next (st.raise .addressException) := by
  rw [loadTransfer, whenPassed_passed passed, if_neg fun h => base h.2 h.1, if_pos illegal]

/-- R245: an illegal address of a store. -/
theorem storeTransfer_illegal (write : State → Addr → Word → Bool → Option State) :
    storeTransfer write c p u w rn rd o st = .next (st.raise .addressException) := by
  rw [storeTransfer, whenPassed_passed passed, if_neg fun h => base h.2 h.1, if_pos illegal]

end

section

variable (legal : illegalAddress (st.transferAddr p u rn o) = false)
include legal

/-- R233, R235: a load whose access answers with a value ends with it. -/
theorem loadTransfer_of_read {read : State → Addr → Bool → Option Word} {v : Word}
    (answered : read st.busGap (singleAddr st p u rn o) (forcesTranslation p w) = some v) :
    loadTransfer read c p u w rn rd o st =
      st.busGap.finishLoad (writesBack p w) rn rd (st.transferIndex u rn o) v := by
  rw [singleAddr] at answered
  rw [loadTransfer, whenPassed_passed passed, if_neg fun h => base h.2 h.1, legal, if_neg Bool.false_ne_true, answered]

/-- R234, R236: a store whose access is accepted goes on, its base written back. -/
theorem storeTransfer_of_write {write : State → Addr → Word → Bool → Option State} {t : State}
    (accepted : st.storeAccess write p u w rn rd o = some t) (regs : t.regs = st.regs) (psr : t.psr = st.psr)
    (free : writesBack p w = true → st.unsettled rn = false) :
    storeTransfer write c p u w rn rd o st = .next (wentOn t (backedRegs st p u w rn o) st.psr t.mem) := by
  rw [storeTransfer, whenPassed_passed passed, if_neg fun h => base h.2 h.1, legal, if_neg Bool.false_ne_true, accepted]
  dsimp only
  by_cases back : writesBack p w = true
  · have backed : backedRegs st p u w rn o = setReg st.psr.mode st.regs rn (st.transferIndex u rn o) := if_pos back
    rw [if_pos back, guardWrites_open (by simpa using free back), writeX_eq_setReg, backed, ← regs, ← psr]
    rfl
  · have kept : backedRegs st p u w rn o = st.regs := if_neg back
    rw [if_neg back, kept, ← regs, ← psr]
    rfl

end

end

/-- Settles O32: the address is tested before any access is made. -/
theorem addressExceptionsChangeNothing : Obligations.AddressExceptionsChangeNothing := by
  intro store byte c p u w rn rd o st passed base illegal
  rw [← raise_addressException]
  cases store with
  | true => exact (exec_storeInstr ..).trans (storeTransfer_illegal passed base illegal _)
  | false => exact (exec_loadInstr ..).trans (loadTransfer_illegal passed base illegal _)

end Sys2Proof.Machine
end

section
/-! SUPPORT. LDR and LDRB (O27, O28; spec/44_single_data_transfer.md R233, R235, R243): the value on the bus as the bytes that
were addressed, and where it goes. -/

namespace Sys2Proof.Machine

open Sys2Proof.Spec

/-! ## The bytes of a word -/

/-- A word is its four bytes, the lowest last. -/
theorem bytes_join (w : Word) :
    w.extractLsb' (8 * 3) 8 ++ w.extractLsb' (8 * 2) 8 ++ w.extractLsb' (8 * 1) 8 ++ w.extractLsb' (8 * 0) 8 = w := by
  rw [fields_join w (j := 8 * 3) (k := 8 * 2) rfl, fields_join w (j := 8 * 2) (k := 8 * 1) rfl,
    fields_join w (j := 8 * 1) (k := 8 * 0) rfl]
  exact field_all w

/-- R243: after a rotation by `n` bytes, byte `k` is the one `n` places above it, round the word. -/
theorem byte_ror32 (w : Word) {n k : Nat} (hn : n < 4) (hk : k < 4) :
    (ror32 w (8 * n)).extractLsb' (8 * k) 8 = w.extractLsb' (8 * ((n + k) % 4)) 8 := by
  ext i hi
  rw [BitVec.getElem_extractLsb', BitVec.getElem_extractLsb', ror32, BitVec.getLsbD_rotateRight]
  by_cases within : n + k < 4
  · have inPlace : decide (8 * k + i < 32 - 8 * n % 32 % 32) = true := decide_eq_true (by omega)
    rw [inPlace, cond_true]
    congr 1
    omega
  · have round : decide (8 * k + i < 32 - 8 * n % 32 % 32) = false := decide_eq_false (by omega)
    have inWord : decide (8 * k + i < 32) = true := decide_eq_true (by omega)
    rw [round, cond_false, inWord, Bool.true_and]
    congr 1
    omega

/-- R63: the bytes of a word of memory. -/
theorem byte_readWord (m : List Host.Cell) (a : Addr) {k : Nat} (hk : k < 4) :
    (readWord m a).extractLsb' (8 * k) 8 = readByte m (wordBase a + k) := by
  unfold readWord
  match k, hk with
  | 0, _ => rw [field_low _ _ _ _ (by decide), field_all]; rfl
  | 1, _ => rw [field_high _ _ _ _ (by decide), field_low _ _ _ _ (by decide), field_all]
  | 2, _ =>
    rw [field_high _ _ _ _ (by decide), field_high _ _ _ _ (by decide), field_low _ _ _ _ (by decide), field_all]
  | 3, _ =>
    rw [field_high _ _ _ _ (by decide), field_high _ _ _ _ (by decide), field_high _ _ _ _ (by decide), field_all]

/-! ## The value loaded -/

/-- The byte of a word on the bus `k` places above the one that address `a` selects, round the word. -/
def laneAbove (w : Word) (a : Addr) (k : Nat) : Byte :=
  w.extractLsb' (8 * ((a.toNat + k) % 4)) 8

theorem laneAbove_zero (w : Word) (a : Addr) : laneAbove w a 0 = lane w a := rfl

/-- R63: a lane of a word of memory is a byte of memory. -/
theorem laneAbove_readWord (m : List Host.Cell) (a : Addr) (k : Nat) :
    laneAbove (readWord m a) a k = readByte m (a.toNat / 4 * 4 + (a.toNat + k) % 4) :=
  byte_readWord m a (Nat.mod_lt _ (by decide))

/-- R243: the rotation of LDR brings the addressed byte to the bottom. -/
theorem ror32_eq_lanes (w : Word) (a : Addr) :
    ror32 w (8 * (a.toNat % 4)) = laneAbove w a 3 ++ laneAbove w a 2 ++ laneAbove w a 1 ++ laneAbove w a 0 := by
  have rotated {k : Nat} (hk : k < 4) :
      (ror32 w (8 * (a.toNat % 4))).extractLsb' (8 * k) 8 = laneAbove w a k := by
    rw [byte_ror32 w (Nat.mod_lt _ (by decide)) hk, Nat.mod_add_mod, laneAbove]
  rw [← bytes_join (ror32 _ _), rotated (by decide), rotated (by decide), rotated (by decide), rotated (by decide)]

/-- The bytes loaded are those on the data bus, whether a device drives them or memory does (R77). -/
theorem loadedValue_eq_lanes (s : State) (byte : Bool) (a : Access) :
    loadedValue s byte a =
      if byte then (laneAbove (s.busWord a) a.addr 0).setWidth 32
      else laneAbove (s.busWord a) a.addr 3 ++ laneAbove (s.busWord a) a.addr 2 ++ laneAbove (s.busWord a) a.addr 1 ++
        laneAbove (s.busWord a) a.addr 0 := by
  match answer : s.answer a with
  | some (.device d) => simp only [loadedValue, State.busWord, answer, laneAbove]
  | some .abort | none => simp only [loadedValue, State.busWord, answer, laneAbove_readWord]

/-- R235: what LDRB loads. -/
theorem loadedValue_byte (s : State) (a : Access) :
    loadedValue s true a = (lane (s.busWord a) a.addr).setWidth 32 := by
  rw [loadedValue_eq_lanes, if_pos rfl, laneAbove_zero]

/-- R233: what LDR loads. -/
theorem loadedValue_word (s : State) (a : Access) :
    loadedValue s false a = ror32 (s.busWord a) (8 * (a.addr.toNat % 4)) := by
  rw [loadedValue_eq_lanes, if_neg Bool.false_ne_true, ror32_eq_lanes]

/-- What LDR or LDRB reads where the access is not aborted. -/
theorem singleRead_of_answered {s : State} {byte : Bool} {a : Addr} {force : Bool}
    (answered : s.aborts (s.dataAccess a (if byte then .byte else .word) false force) = false) :
    singleRead byte s a force =
      some (loadedValue s byte (s.dataAccess a (if byte then .byte else .word) false force)) := by
  cases byte with
  | false =>
    rw [loadedValue_word]
    have read : s.loadWord a force = some (s.busWord (s.dataAccess a .word false force)) :=
      if_neg (ne_true_of_eq_false answered)
    exact congrArg (Option.map _) read
  | true =>
    rw [loadedValue_byte]
    have read : s.loadByte a force = some (lane (s.busWord (s.dataAccess a .byte false force)) a) :=
      if_neg (ne_true_of_eq_false answered)
    exact congrArg (Option.map _) read

/-! ## Where it goes -/

/-- R232, R233: a value for a register: the base is written back first. -/
theorem finishLoad_register {st : State} {back : Bool} {rn rd : Reg} {q : PReg}
    (named : physOf st.psr.mode rd = some q) (free : st.unsettled rd = false)
    (base : back = true → rn ≠ rd ∧ st.unsettled rn = false) (idx v : Word) :
    st.finishLoad back rn rd idx v =
      .next (wentOn st ((if back then setReg st.psr.mode st.regs rn idx else st.regs).set q v) st.psr st.mem) := by
  rw [State.finishLoad, if_neg (physOf_ne_fifteen named)]
  cases back with
  | false =>
    rw [guardWrites_open (by simpa using free)]
    simp only [Bool.false_and, Bool.false_eq_true, if_false]
    rw [writeX_some named]
    rfl
  | true =>
    obtain ⟨other, baseFree⟩ := base rfl
    have notSame : (true && rn == rd) = false := by simpa using other
    rw [guardWrites_open (by simp [baseFree, free]), notSame]
    simp only [Bool.false_eq_true, if_false, if_true]
    rw [writeX_some (by rwa [writeX_psr]), writeX_eq_setReg]
    rfl

/-- R233, R244 (e): a value for R15 goes to the PC alone. -/
theorem finishLoad_fifteen {st : State} {back : Bool} {rn : Reg} (free : back = true → st.unsettled rn = false)
    (idx v : Word) :
    st.finishLoad back rn 15 idx v =
      .next (wentTo st (if back then setReg st.psr.mode st.regs rn idx else st.regs) st.psr (v.extractLsb' 2 24)) := by
  rw [State.finishLoad, if_pos rfl]
  cases back with
  | false =>
    rw [guardWrites_open (by simp [unsettled_fifteen])]
    rfl
  | true =>
    rw [guardWrites_open (by simp [free rfl, unsettled_fifteen]), if_pos rfl, writeX_eq_setReg]
    rfl

/-! ## The instructions -/

/-- What other masters write on the bus settles no register and unsettles none. -/
theorem busGap_unsettled (s : State) (r : Reg) : s.busGap.unsettled r = s.unsettled r := by
  simp [State.unsettled]

/-- R233, R235: LDR and LDRB, the address legal and the access not aborted, end with the value loaded. -/
theorem exec_loadInstr_answered {byte : Bool} {c : Cond} {p u w : Bool} {rn rd : Reg} {o : Offset} {st : State}
    (passed : condPassed c st.psr = true) (base : writesBack p w = true → rn ≠ 15)
    (legal : illegalAddress (st.transferAddr p u rn o) = false)
    (answered : singleAborts st byte false p u w rn o = false) :
    exec (loadInstr byte c p u w rn rd o) st =
      st.busGap.finishLoad (writesBack p w) rn rd (st.transferIndex u rn o)
        (loadedValue st.busGap byte (singleAccess st byte false p u w rn o)) := by
  have read : singleRead byte st.busGap (singleAddr st p u rn o) (forcesTranslation p w) =
      some (loadedValue st.busGap byte (singleAccess st byte false p u w rn o)) := by
    rw [singleRead_of_answered (by rw [busGap_aborts, busGap_dataAccess]; exact answered), busGap_dataAccess]
    rfl
  rw [exec_loadInstr, loadTransfer_of_read passed base legal read]

/-- Settles O27: the value loaded goes to Rd after the base is written back. -/
theorem loadsWriteRdAndBase : Obligations.LoadsWriteRdAndBase := by
  intro byte c p u w rn rd o st q passed named free base legal answered
  rw [exec_loadInstr_answered passed (fun back => (base back).1) legal answered,
    finishLoad_register (by rwa [busGap_psr]) (by rwa [busGap_unsettled])
      (fun back => by rw [busGap_unsettled]; exact (base back).2), busGap_regs, busGap_psr]
  rfl

/-- Settles O28: the value loaded goes to the PC after the base is written back. -/
theorem loadsToR15WriteThePcAlone : Obligations.LoadsToR15WriteThePcAlone := by
  intro byte c p u w rn o st passed base legal answered
  rw [exec_loadInstr_answered passed (fun back => (base back).1) legal answered,
    finishLoad_fifteen (fun back => by rw [busGap_unsettled]; exact (base back).2), busGap_regs, busGap_psr]
  rfl

end Sys2Proof.Machine
end

section
/-! SUPPORT. STR and STRB (O30; spec/44_single_data_transfer.md R234, R236): the word driven, what it leaves in memory, and the
write-back. -/

namespace Sys2Proof.Machine

open Sys2Proof.Spec

/-! ## The access -/

/-- The word that a store of the register value `d` drives: for STRB its low byte on all four lanes (R236). -/
def drivenWord (byte : Bool) (d : Word) : Word :=
  if byte then d.extractLsb' 0 8 ++ d.extractLsb' 0 8 ++ d.extractLsb' 0 8 ++ d.extractLsb' 0 8 else d

/-- The memory that a store of `d` leaves where memory answers. -/
def landedMemory (s : State) (byte : Bool) (a : Addr) (d : Word) : List Host.Cell :=
  if byte then writeByte s.mem a.toNat (d.extractLsb' 0 8) else writeWord s.mem a (s.landedWord a d)

/-- R234, R236: either store is one write access. -/
theorem singleWrite_eq (byte : Bool) (s : State) (a : Addr) (d : Word) (force : Bool) :
    singleWrite byte s a d force =
      s.writeAccess (s.dataAccess a (if byte then .byte else .word) true force) (drivenWord byte d)
        (landedMemory s byte a d) := by
  cases byte with
  | false => rfl
  | true =>
    have low : d.setWidth 8 = d.extractLsb' 0 8 := BitVec.setWidth_eq_extractLsb' (by decide)
    rw [singleWrite, State.storeLowByte, low]
    rfl

theorem writeAccess_of_device {s : State} {a : Access} {x : Word} (answer : s.answer a = some (.device x)) (v : Word)
    (landed : List Host.Cell) :
    s.writeAccess a v landed = some { s with busLog := s.busLog ++ [(a, v)] } := by
  rw [State.writeAccess, answer]

theorem writeAccess_of_memory {s : State} {a : Access} (answer : s.answer a = none) (v : Word) (landed : List Host.Cell) :
    s.writeAccess a v landed = some { s with mem := landed } := by
  rw [State.writeAccess, answer]

/-- The access of STR or STRB, after what other masters write before it. -/
theorem storeAccess_single (byte p u w : Bool) (rn rd : Reg) (o : Offset) (st : State) :
    st.storeAccess (singleWrite byte) p u w rn rd o =
      st.busGap.writeAccess (singleAccess st byte true p u w rn o) (drivenWord byte (st.storedValue p u w rn rd o))
        (landedMemory st.busGap byte (singleAddr st p u rn o) (st.storedValue p u w rn rd o)) := by
  rw [State.storeAccess, singleWrite_eq, busGap_dataAccess]
  rfl

/-! ## What is stored -/

/-- R234, R244 (d): but where the base is stored and written back, a store reads Rd, or R15 with the PSR 12 bytes on. -/
theorem storedValue_eq_readX {st : State} {p u w : Bool} {rn rd : Reg} {o : Offset}
    (notBase : rd = rn → p = true ∧ w = false) :
    st.storedValue p u w rn rd o = st.readX .rd (st.r15full 12) rd := by
  refine if_neg fun h => ?_
  obtain ⟨back, same⟩ := Bool.and_eq_true_iff.1 h
  obtain ⟨rfl, rfl⟩ := notBase (beq_iff_eq.1 same).symm
  exact Bool.false_ne_true back

/-- R65, R236: STRB leaves its byte, and every other byte as it was. -/
theorem landedMemory_byte {s : State} (wf : memoryWf s.mem = true) (a : Addr) (d : Word) :
    readByte (landedMemory s true a d) a.toNat = d.extractLsb' 0 8 ∧
      ∀ x, x ≠ a.toNat → readByte (landedMemory s true a d) x = readByte s.mem x := by
  have read (x : Nat) : readByte (landedMemory s true a d) x = _ := readByte_writeByte wf a.toNat x _
  exact ⟨(read _).trans (if_pos rfl), fun x other => (read x).trans (if_neg other)⟩

/-- R65: STR leaves its own word where A[1:0] are ignored or zero. -/
theorem landedWord_eq {s : State} {a : Addr} (h : s.params.misalignedWordStore = .ignoreLowBits ∨ a.toNat % 4 = 0)
    (d : Word) : s.landedWord a d = d := by
  refine if_neg fun ⟨free, misaligned⟩ => ?_
  obtain ignored | aligned := h
  · rw [ignored] at free
    exact nomatch free
  · exact misaligned aligned

/-- R65: the word at the address, and every other byte as it was. -/
theorem landedMemory_word {s : State} (wf : memoryWf s.mem = true) (a : Addr) (d : Word) :
    (s.params.misalignedWordStore = .ignoreLowBits ∨ a.toNat % 4 = 0 → readWord (landedMemory s false a d) a = d) ∧
      ∀ x, x / 4 ≠ a.toNat / 4 → readByte (landedMemory s false a d) x = readByte s.mem x := by
  refine ⟨fun h => (readWord_writeWord wf a _).trans (landedWord_eq h d), fun x other => ?_⟩
  exact readByte_writeWord_other _ _ _ (by unfold wordBase; omega)

/-- Settles O30: what the memory system answers decides where the word goes; the base is written back either way. -/
theorem storesWriteMemoryAndBase : Obligations.StoresWriteMemoryAndBase := by
  intro byte c p u w rn rd o st passed wf base legal _ a d b access
  have gapWf : memoryWf b.mem = true := memoryWf_busGap wf
  have runs {t : State} (accepted : st.storeAccess (singleWrite byte) p u w rn rd o = some t) (regs : t.regs = b.regs)
      (psr : t.psr = b.psr) :
      exec (storeInstr byte c p u w rn rd o) st = .next (wentOn t (backedRegs st p u w rn o) st.psr t.mem) := by
    rw [exec_storeInstr]
    exact storeTransfer_of_write passed (fun back => (base back).1) legal accepted (regs.trans (busGap_regs st))
      (psr.trans (busGap_psr st)) fun back => (base back).2
  refine ⟨fun notBase free => ?value, fun x answer => ?device, fun answer => ?memory⟩
  case value =>
    have value : d = st.readX .rd (st.r15full 12) rd := storedValue_eq_readX notBase
    refine ⟨fun q named => value.trans (readX_some named free), ?_⟩
    rintro rfl
    exact value.trans (readX_r15 ..)
  case device =>
    have taken := writeAccess_of_device ((busGap_answer st access).trans answer) (drivenWord byte d)
      (landedMemory b byte a d)
    rw [busGap_busLog] at taken
    exact runs ((storeAccess_single ..).trans taken) rfl rfl
  case memory =>
    have written := writeAccess_of_memory ((busGap_answer st access).trans answer) (drivenWord byte d)
      (landedMemory b byte a d)
    refine ⟨landedMemory b byte a d, runs ((storeAccess_single ..).trans written) rfl rfl, ?_, ?_⟩
    · rintro rfl
      exact landedMemory_byte gapWf a d
    · rintro rfl
      rw [← busGap_params st]
      exact landedMemory_word gapWf a d

end Sys2Proof.Machine
end

section
/-! SUPPORT. LDM and STM: the list, the addresses and the base (O34; spec/45_block_data_transfer.md R261 to R265, R269), and
the exception that an illegal start takes (O40; R275). -/

namespace Sys2Proof.Machine

open Sys2Proof.Spec

/-! ## The list and the addresses -/

/-- R261: as many registers are listed as bits are set. -/
theorem listed_length (list : BitVec 16) : (listed list).length = (List.range 16).countP list.getLsbD := by
  rw [listed, List.length_map, List.countP_eq_length_filter]

/-- R269: R15 as the base reads with the PSR, 8 bytes on. -/
theorem blockBase_fifteen (s : State) : s.blockBase 15 = s.r15full 8 :=
  readX_r15 ..

theorem blockBase_named {s : State} {rn : Reg} {q : PReg} (settled : s.bank = .settled)
    (named : physOf s.psr.mode rn = some q) : s.blockBase rn = s.regs.get q :=
  readX_some named (unsettled_settled settled rn)

/-- Settles O34: the table of R262, the bytes of `n` words counted in words. -/
theorem blockAddressing : Obligations.BlockAddressing := by
  intro s rn list b n
  have words : BitVec.ofNat 32 (4 * n) = 4 * BitVec.ofNat 32 n := BitVec.ofNat_mul ..
  refine ⟨fun q settled named => blockBase_named settled named, blockBase_fifteen s, listed_length list,
    listed_rising list, fun r => mem_listed, rfl, rfl, ?_, ?_, ?_, ?_, fun p u k => blockAddr_toNat _ k⟩
  · exact congrArg (b - · + 4) words
  · exact congrArg (b - ·) words
  · exact congrArg (b + ·) words
  · exact congrArg (b - ·) words

/-! ## The write-back -/

/-- R264: the write-back is that of the base register, or nothing. -/
theorem blockBack_eq_withRegs (st : State) (u w : Bool) (rn : Reg) (list : BitVec 16) :
    st.blockBack u w rn list = { st with regs := blockBackedRegs st u w rn list } := by
  cases w with
  | true => exact writeX_eq_setReg ..
  | false => rfl

/-! ## The illegal start -/

section

variable {c : Cond} {p u s w : Bool} {rn : Reg} {list : BitVec 16} {st : State} (passed : condPassed c st.psr = true)
  (some : list ≠ 0) (free : w = true → st.unsettled rn = false)
  (illegal : illegalAddress (st.blockFirst p u rn list) = true)
include passed some free illegal

/-- R275: LDM with an illegal start writes back and traps. -/
theorem execLdm_illegal (meant : (st.loadsUserBank s list && w) = false) :
    execLdm c p u s w rn list st = .next ((st.blockBack u w rn list).raise .addressException) := by
  rw [execLdm, whenPassed_passed passed, if_neg some, meant, if_neg Bool.false_ne_true]
  dsimp only
  rw [guardWrites_open (by simpa using free), if_pos illegal]

/-- R275: so does STM. -/
theorem execStm_illegal (meant : (st.storesUserBank s && w) = false) :
    execStm c p u s w rn list st = .next ((st.blockBack u w rn list).raise .addressException) := by
  rw [execStm, whenPassed_passed passed, if_neg some, meant, if_neg Bool.false_ne_true,
    guardWrites_open (by simpa using free), if_pos illegal]

end

/-- Settles O40: the start is tested after the write-back and before any access. -/
theorem blockAddressExceptionKeepsWriteBack : Obligations.BlockAddressExceptionKeepsWriteBack := by
  intro load c p u s w rn list st passed some free form illegal
  have trap : (st.blockBack u w rn list).raise .addressException =
      trapped { st with regs := blockBackedRegs st u w rn list } .r14Svc 8 .svc st.psr.f 0x14 := by
    rw [blockBack_eq_withRegs, raise_addressException]
  rw [← trap]
  cases load with
  | true =>
    refine (exec_ldm ..).trans (execLdm_illegal passed some free illegal (Bool.eq_false_iff.2 fun refused => ?_))
    obtain ⟨user, back⟩ := Bool.and_eq_true_iff.1 refused
    obtain ⟨forced, absent, mode⟩ := loadsUserBank_iff.1 user
    obtain inUser | ⟨-, listed15⟩ := form forced back
    · exact mode inUser
    · exact ne_true_of_eq_false absent listed15
  | false =>
    refine (exec_stm ..).trans (execStm_illegal passed some free illegal (Bool.eq_false_iff.2 fun refused => ?_))
    obtain ⟨user, back⟩ := Bool.and_eq_true_iff.1 refused
    obtain ⟨forced, mode⟩ := storesUserBank_iff.1 user
    obtain inUser | ⟨isLoad, -⟩ := form forced back
    · exact mode inUser
    · exact Bool.false_ne_true isLoad

end Sys2Proof.Machine
end

section
/-! SUPPORT. LDM without an abort (O35, O36; spec/45_block_data_transfer.md R263 to R266, R270, R273, R274): what it reads,
the registers it loads, and how it ends. -/

namespace Sys2Proof.Machine

open Sys2Proof.Spec

/-! ## What is read -/

/-- R263: the registers of a list, each with the word read for it. -/
def blockLoads (st : State) (start : Word) (regs : List Reg) : List (Reg × Word) :=
  regs.mapIdx fun k r => (r, blockRead st start k)

theorem blockLoads_getElem? (st : State) (start : Word) (regs : List Reg) (k : Nat) :
    (blockLoads st start regs)[k]? = regs[k]?.map fun r => (r, blockRead st start k) := by
  rw [blockLoads, List.getElem?_mapIdx]

theorem blockLoads_map_fst (st : State) (start : Word) (regs : List Reg) :
    (blockLoads st start regs).map Prod.fst = regs := by
  refine List.ext_getElem? fun k => ?_
  rw [List.getElem?_map, blockLoads_getElem?, Option.map_map]
  exact congrFun Option.map_id regs[k]?

theorem fst_mem_of_mem_blockLoads {st : State} {start : Word} {regs : List Reg} {e : Reg × Word}
    (h : e ∈ blockLoads st start regs) : e.1 ∈ regs := by
  rw [← blockLoads_map_fst st start regs]
  exact List.mem_map_of_mem h

/-- R77: a read that is not aborted gives the word on the bus. -/
theorem busWord_eq_blockRead (st : State) (start : Word) (k : Nat) :
    (st.busGaps (k + 1)).busWord (blockAccess st start false k) = blockRead st start k := by
  rw [State.busWord, busGaps_answer]
  rfl

/-- R263: the reads of a block transfer that no access aborts; the write-back before them takes no part. -/
theorem blockReads_answered {st : State} {start : Word} {n : Nat}
    (answered : ∀ k, k < n → blockAborts st start false k = false) (g : Regs) :
    ({ st with regs := g } : State).blockReads start n = (List.range n).map fun k => some (blockRead st start k) := by
  refine List.map_congr_left fun k inRange => ?_
  rw [busGaps_withRegs]
  have accepted : (st.busGaps (k + 1)).aborts (blockAccess st start false k) = false := by
    rw [busGaps_aborts]
    exact answered k (List.mem_range.1 inRange)
  have read : (st.busGaps (k + 1)).loadWord (blockAddr start k) false = some (blockRead st start k) := by
    rw [State.loadWord, busGaps_dataAccess, ← busWord_eq_blockRead]
    exact if_neg (ne_true_of_eq_false accepted)
  exact read

/-- R263: the reads that no access aborts, beside their registers. -/
theorem zip_reads_eq_blockLoads (st : State) (start : Word) (regs : List Reg) :
    regs.zip (((List.range regs.length).map fun k => some (blockRead st start k)).map (·.getD 0)) =
      blockLoads st start regs := by
  refine List.ext_getElem? fun k => ?_
  rw [blockLoads_getElem?, List.zip, List.getElem?_zipWith, List.getElem?_map, List.getElem?_map]
  by_cases inList : k < regs.length
  · rw [List.getElem?_range inList, List.getElem?_eq_getElem inList]
    rfl
  · rw [List.getElem?_eq_none (Nat.le_of_not_lt inList)]
    rfl

/-! ## What is loaded -/

/-- R265, R270: the state in which an LDM without an abort has written back and loaded its list. -/
def ldmLoaded (st : State) (p u w : Bool) (m : Mode) (rn : Reg) (list : BitVec 16) : State :=
  ({ st.busGaps (listed list).length with regs := blockBackedRegs st u w rn list } : State).loadRegs m
    (blockLoads st (st.blockFirst p u rn list) (listed list))

section

variable (st : State) (p u w : Bool) (m : Mode) (rn : Reg) (list : BitVec 16)

theorem ldmLoaded_eq :
    ldmLoaded st p u w m rn list =
      { st.busGaps (listed list).length with regs := (ldmLoaded st p u w m rn list).regs } :=
  loadRegs_eq ..

/-- R270: R15 aside, loading changes no status. -/
theorem ldmLoaded_psr : (ldmLoaded st p u w m rn list).psr = st.psr := by
  rw [ldmLoaded_eq, busGaps_psr]

/-- R264: to go on from there is to go on from the accesses with those registers. -/
theorem wentOn_ldmLoaded (g : Regs) (psr : Psr) :
    wentOn (ldmLoaded st p u w m rn list) g psr (ldmLoaded st p u w m rn list).mem =
      wentOn (st.busGaps (listed list).length) g psr (st.busGaps (listed list).length).mem := by
  rw [ldmLoaded_eq]
  rfl

theorem wentTo_ldmLoaded (g : Regs) (psr : Psr) (target : BitVec 24) :
    wentTo (ldmLoaded st p u w m rn list) g psr target = wentTo (st.busGaps (listed list).length) g psr target := by
  rw [ldmLoaded_eq]
  rfl

variable {st p u w m rn list}

/-- R263: a listed register takes its word. -/
theorem ldmLoaded_get {k : Nat} {r : Reg} {q : PReg} (place : (listed list)[k]? = some r) (named : physOf m r = some q) :
    (ldmLoaded st p u w m rn list).regs.get q = blockRead st (st.blockFirst p u rn list) k := by
  refine loadRegs_get (r := r) (List.mem_of_getElem? (i := k) ?_) ?_ named
  · rw [blockLoads_getElem?, place, Option.map_some]
  · rw [← List.pairwise_map (R := (· ≠ ·)), blockLoads_map_fst]
    exact (listed_rising list).imp fun rises same => (Nat.ne_of_lt rises) (congrArg _ same)

/-- R264: every other register is as the write-back leaves it. -/
theorem ldmLoaded_get_other {q : PReg} (other : ∀ r, r ∈ listed list → physOf m r ≠ some q) :
    (ldmLoaded st p u w m rn list).regs.get q = (blockBackedRegs st u w rn list).get q :=
  loadRegs_get_other fun _ h => other _ (fst_mem_of_mem_blockLoads h)

end

/-! ## How it ends -/

/-- R273, R401: without R15 an LDM goes on, the bank unsettled after a User bank load. -/
theorem finishLdm_absent {v : State} {loads : List (Reg × Word)} (absent : ∀ e ∈ loads, e.1 ≠ 15) (s user : Bool) :
    v.finishLdm s user loads = { wentOn v v.regs v.psr v.mem with
      bank := if user then (if v.psr.mode = .fiq then .unsettled8 else .unsettled13) else .settled } := by
  have none15 : loads.find? (fun e => e.1 == 15) = none :=
    List.find?_eq_none.2 fun e h same => absent e h (beq_iff_eq.1 same)
  rw [State.finishLdm, none15]
  rfl

/-- R274: with R15 it goes where the word says, with S with the PSR of the word. -/
theorem finishLdm_listed {v : State} {loads : List (Reg × Word)} {e : Reg × Word}
    (found : loads.find? (fun e => e.1 == 15) = some e) (s user : Bool) :
    v.finishLdm s user loads =
      wentTo v v.regs (if s then psrFrom v.psr e.2 else v.psr) (e.2.extractLsb' 2 24) := by
  rw [State.finishLdm, found, ← written_eq_psrFrom]
  cases s <;> rfl

/-- R266: R15, listed, is the last of the list. -/
theorem listed_fifteen_last {list : BitVec 16} {i : Nat} (inList : i < (listed list).length)
    (at15 : (listed list)[i] = 15) : i + 1 = (listed list).length := by
  refine Nat.le_antisymm inList (Nat.le_of_not_lt fun next => ?_)
  have rises : (listed list)[i].toNat < (listed list)[i + 1].toNat :=
    List.pairwise_iff_getElem.1 (listed_rising list) i (i + 1) inList next (Nat.lt_succ_self i)
  rw [at15] at rises
  exact absurd rises (Nat.not_lt_of_le (Nat.le_of_lt_succ (listed list)[i + 1].isLt))

/-- R266, R274: the word for R15 is the last one read. -/
theorem find_fifteen_blockLoads {list : BitVec 16} (h : list.getLsbD 15 = true) (st : State) (start : Word) :
    (blockLoads st start (listed list)).find? (fun e => e.1 == 15) =
      some (15, blockRead st start ((listed list).length - 1)) := by
  obtain ⟨i, inList, at15⟩ := List.getElem_of_mem (mem_listed (r := 15).2 h)
  have last := listed_fifteen_last inList at15
  rw [List.find?_eq_some_iff_getElem]
  refine ⟨rfl, i, by simpa [blockLoads] using inList, ?_, fun j before => ?_⟩
  · simp only [blockLoads, List.getElem_mapIdx, at15, ← last, Nat.add_sub_cancel]
  · simp only [blockLoads, List.getElem_mapIdx, Bool.not_eq_true', beq_eq_false_iff_ne]
    intro also15
    have := listed_fifteen_last (by omega) also15
    omega

/-! ## The instruction -/

theorem loadsUserBank_of_absent {list : BitVec 16} (absent : list.getLsbD 15 = false) (st : State) (s : Bool) :
    st.loadsUserBank s list = (s && st.psr.mode != .usr) := by
  rw [State.loadsUserBank, absent, Bool.not_false, Bool.and_true]

theorem loadsUserBank_of_listed {list : BitVec 16} (h : list.getLsbD 15 = true) (st : State) (s : Bool) :
    st.loadsUserBank s list = false := by
  rw [State.loadsUserBank, h, Bool.not_true, Bool.and_false, Bool.false_and]

/-- R270: an LDM that no access aborts loads its list and ends. -/
theorem execLdm_answered {c : Cond} {p u s w : Bool} {rn : Reg} {list : BitVec 16} {st : State}
    (passed : condPassed c st.psr = true) (settled : st.bank = .settled) (some : list ≠ 0)
    (meant : (st.loadsUserBank s list && w) = false) (legal : illegalAddress (st.blockFirst p u rn list) = false)
    (answered : ∀ k, k < (listed list).length → blockAborts st (st.blockFirst p u rn list) false k = false) :
    execLdm c p u s w rn list st =
      .next ((ldmLoaded st p u w (if st.loadsUserBank s list then .usr else st.psr.mode) rn list).finishLdm s
        (st.loadsUserBank s list) (blockLoads st (st.blockFirst p u rn list) (listed list))) := by
  have noneAborted : ((List.range (listed list).length).map fun k =>
      Option.some (blockRead st (st.blockFirst p u rn list) k)).findIdx? (·.isNone) = none := by
    rw [List.findIdx?_map, List.findIdx?_eq_none_iff]
    exact fun _ _ => rfl
  rw [execLdm, whenPassed_passed passed, if_neg some, meant, if_neg Bool.false_ne_true]
  dsimp only
  rw [guardWrites_settled settled, legal, if_neg Bool.false_ne_true, blockBack_eq_withRegs, blockReads_answered answered,
    noneAborted, zip_reads_eq_blockLoads, busGaps_withRegs]
  exact guardWrites_settled settled ..

/-- Settles O35: with no access aborted and R15 not listed, the instruction goes on from the loaded registers. -/
theorem loadMultipleLoadsTheList : Obligations.LoadMultipleLoadsTheList := by
  intro c p u s w rn list st passed settled some absent user m start v meant legal answered
  have isUser : st.loadsUserBank s list = user := loadsUserBank_of_absent absent st s
  have notRefused : (st.loadsUserBank s list && w) = false := by
    rw [isUser]
    exact Bool.and_eq_false_imp.2 meant
  refine ⟨(ldmLoaded st p u w m rn list).regs, ?_, fun k r q place named => ldmLoaded_get place named,
    fun q other => ldmLoaded_get_other other⟩
  have none15 : ∀ e ∈ blockLoads st start (listed list), e.1 ≠ 15 := by
    intro e h same
    have set : list.getLsbD (15 : Reg).toNat = true := mem_listed.1 (same ▸ fst_mem_of_mem_blockLoads h)
    exact ne_true_of_eq_false absent set
  rw [exec_ldm, execLdm_answered passed settled some notRefused legal answered, isUser, finishLdm_absent none15,
    ldmLoaded_psr, wentOn_ldmLoaded]

/-- Settles O36: with R15 listed no User bank is loaded, and the instruction goes where the last word says. -/
theorem loadMultipleWithR15Branches : Obligations.LoadMultipleWithR15Branches := by
  intro c p u s w rn list st passed settled set start legal answered v
  have some : list ≠ 0 := by
    rintro rfl
    exact Bool.false_ne_true set
  have notUser : st.loadsUserBank s list = false := loadsUserBank_of_listed set st s
  refine ⟨(ldmLoaded st p u w st.psr.mode rn list).regs, ?_,
    fun k r q place named => ldmLoaded_get place named, fun q other => ldmLoaded_get_other other⟩
  rw [exec_ldm, execLdm_answered passed settled some (by rw [notUser]; rfl) legal answered, notUser,
    finishLdm_listed (find_fifteen_blockLoads set st _), if_neg Bool.false_ne_true, ldmLoaded_psr, wentTo_ldmLoaded]

end Sys2Proof.Machine
end

section
/-! SUPPORT. STM (O37, O39; spec/45_block_data_transfer.md R263 to R266, R271, R272, R276): the words it stores, the state that
the stores leave, and how it ends. -/

namespace Sys2Proof.Machine

open Sys2Proof.Spec

/-! ## The words -/

section

variable {st : State} (settled : st.bank = .settled) (m : Mode) (u w : Bool) (rn : Reg) (list : BitVec 16)
include settled

/-- R271: on a settled machine the first register is read before the write-back, the others after it. -/
theorem readBank_eq_blockStored (who : Config.Draw) (k : Nat) (r : Reg) :
    ({ st with regs := if k = 0 then st.regs else blockBackedRegs st u w rn list } : State).readBank m who
      (st.r15full 12) r = blockStored st m u w rn list k r := by
  rw [State.readBank, blockStored]
  cases physOf m r with
  | none => rfl
  | some q =>
    exact (if_neg (ne_true_of_eq_false (unsettled_settled settled r))).trans
      (apply_ite (fun g : Regs => g.get q) (k = 0) st.regs (blockBackedRegs st u w rn list))

/-- R271: the words an STM stores on a settled machine. -/
theorem storedBlock_eq_blockStored (regs : List Reg) :
    storedBlock st { st with regs := blockBackedRegs st u w rn list } m regs =
      regs.mapIdx (blockStored st m u w rn list) := by
  cases regs with
  | nil => rfl
  | cons r rest =>
    have reads := readBank_eq_blockStored settled m u w rn list
    rw [storedBlock, List.mapIdx_cons]
    have later : (fun k q => _) = fun k => blockStored st m u w rn list (k + 1) :=
      funext fun k => funext fun q => reads (.stored (k + 1)) (k + 1) q
    exact congr (congrArg List.cons (reads _ 0 r)) (congrArg (List.mapIdx · rest) later)

/-- R265, R271: a listed base is stored as it was where it is the first, and as it becomes where it is not. -/
theorem blockStored_base (hrn : rn ≠ 15) (k : Nat) :
    blockStored st st.psr.mode u true rn list k rn = if k = 0 then st.blockBase rn else st.blockLast u rn list := by
  obtain ⟨q, named⟩ := Option.isSome_iff_exists.1 (physOf_isSome (m := st.psr.mode) hrn)
  have backed : (blockBackedRegs st u true rn list).get q = st.blockLast u rn list := by
    rw [blockBackedRegs, if_pos rfl, setReg, named]
    exact Regs.get_set_same ..
  rw [blockStored, named, blockBase_named settled named, ← backed]

end

/-! ## What the stores leave -/

/-- R345: the data abort saves R15 8 bytes on in R14_svc. -/
theorem raise_dataAbort (s : State) : s.raise .dataAbort = trapped s .r14Svc 8 .svc s.psr.f 0x10 := by
  have fKept : (s.psr.f || Exception.dataAbort == .fiq) = s.psr.f := Bool.or_false _
  rw [State.raise, fKept]
  rfl

/-- The stores of an STM once its base is written back, with registers `g` from then on: the state they leave, and whether
one was aborted. -/
def blockStores (st : State) (g : Regs) (start : Word) (words : List Word) : State × Bool :=
  ({ st with regs := g } : State).storeWords start 0 words

section

variable (st : State) (g : Regs) (start : Word) (words : List Word)

/-- R263, R77: the stores use up the gaps on the bus and change memory and the record of device writes. -/
theorem blockStores_state :
    (blockStores st g start words).1 =
      { st.busGaps words.length with
        regs := g
        busLog := st.busLog ++ deviceWrites st start words
        mem := (blockStores st g start words).1.mem } := by
  have taken : (blockStores st g start words).1.busLog = st.busLog ++ deviceWrites st start words :=
    storeWords_busLog ..
  have used : (({ st with regs := g } : State).busGaps words.length).inputs = (st.busGaps words.length).inputs := by
    rw [busGaps_withRegs]
  rw [← taken, busGaps_eq, ← used]
  exact storeWords_eq ..

/-- R276, R345: the data abort taken there. -/
theorem raise_blockStores :
    (blockStores st g start words).1.raise .dataAbort =
      trapped { st.busGaps words.length with
        regs := g
        busLog := st.busLog ++ deviceWrites st start words
        mem := (blockStores st g start words).1.mem } .r14Svc 8 .svc st.psr.f 0x10 := by
  rw [raise_dataAbort, blockStores_state, busGaps_psr]

/-- R271: going on from there. -/
theorem advance_blockStores :
    (blockStores st g start words).1.advance =
      wentOn { st.busGaps words.length with busLog := st.busLog ++ deviceWrites st start words } g st.psr
        (blockStores st g start words).1.mem := by
  rw [advance_eq_wentOn, blockStores_state, busGaps_psr]
  rfl

/-- R276: memory after the stores, access by access. -/
theorem blockStores_storedInOrder : StoredInOrder st start words (blockStores st g start words).1.mem := by
  obtain ⟨m, first, last, each⟩ := storeWords_mem { st with regs := g } start 0 words
  refine ⟨m, first, last, fun k v stored => ?_⟩
  have here := each k v stored
  rw [Nat.zero_add] at here
  exact here

/-- R276: an abort is reported where some access was answered with one. -/
theorem blockStores_reports :
    (blockStores st g start words).2 = true ↔ ∃ k, k < words.length ∧ blockAborts st start true k = true := by
  rw [blockStores, storeWords_aborted, List.any_eq_true]
  simp only [List.mem_range, Nat.zero_add]
  rfl

variable {st words}

/-- R263, R276: memory after the stores, byte by byte, where no other master writes and the words lie in different places. -/
theorem blockStores_storedWords (wf : memoryWf st.mem = true) (short : words.length < 2 ^ 24)
    (quiet : st.now.between = []) : StoredWords st start words (blockStores st g start words).1.mem := by
  refine ⟨fun k v stored => ?_, fun x outside => storeWords_other quiet fun k inRange => ?_⟩
  · have here := storeWords_get (st := { st with regs := g }) (start := start) (k := 0) quiet wf short stored
    rw [Nat.zero_add] at here
    exact here
  · rw [Nat.zero_add]
    exact outside k inRange

end

/-! ## The instruction -/

/-- R261: an STM stores no more than sixteen words. -/
theorem storedWords_short (list : BitVec 16) (f : Nat → Reg → Word) : ((listed list).mapIdx f).length < 2 ^ 24 := by
  have := listed_length_le list
  rw [List.length_mapIdx]
  omega

/-- R271, R276: an STM with a legal start writes back, stores its words and ends with the data abort or goes on. -/
theorem execStm_legal {c : Cond} {p u s w : Bool} {rn : Reg} {list : BitVec 16} {st : State}
    (passed : condPassed c st.psr = true) (settled : st.bank = .settled) (some : list ≠ 0)
    (meant : (st.storesUserBank s && w) = false) (legal : illegalAddress (st.blockFirst p u rn list) = false) :
    let m := if st.storesUserBank s then Mode.usr else st.psr.mode
    let stored := blockStores st (blockBackedRegs st u w rn list) (st.blockFirst p u rn list)
      ((listed list).mapIdx (blockStored st m u w rn list))
    execStm c p u s w rn list st = .next (if stored.2 then stored.1.raise .dataAbort else stored.1.advance) := by
  rw [execStm, whenPassed_passed passed, if_neg some, meant, if_neg Bool.false_ne_true, guardWrites_settled settled, legal,
    if_neg Bool.false_ne_true, State.stmStores, blockBack_eq_withRegs, storedBlock_eq_blockStored settled]
  rfl

/-- Settles O37: no access reports an abort, so that the instruction goes on from what the stores leave. -/
theorem storeMultipleStoresTheList : Obligations.StoreMultipleStoresTheList := by
  intro c p u s w rn list st passed settled some wf user m start words noBack legal answered
  have ends := execStm_legal (c := c) passed settled some (Bool.and_eq_false_imp.2 noBack) legal
  have noAbort : (blockStores st (blockBackedRegs st u w rn list) start words).2 = false := by
    refine Bool.eq_false_iff.2 fun reported => ?_
    obtain ⟨k, inRange, aborts⟩ := (blockStores_reports ..).1 reported
    rw [List.length_mapIdx] at inRange
    exact ne_true_of_eq_false (answered k inRange) aborts
  refine ⟨fun k back base place => ?_, _, ?_, blockStores_storedInOrder st (blockBackedRegs st u w rn list) start words,
    blockStores_storedWords (blockBackedRegs st u w rn list) start wf (storedWords_short list _)⟩
  · subst back
    have bankOfMode : m = st.psr.mode := if_neg fun isUser => Bool.noConfusion (noBack isUser)
    rw [List.getElem?_mapIdx, place, bankOfMode, Option.map_some, blockStored_base settled u rn list base]
  · rw [exec_stm, ends, ← advance_blockStores]
    exact congrArg Host.Outcome.next (if_neg (ne_true_of_eq_false noAbort))

/-- Settles O39: an access reports the abort, which is taken in what the stores leave. -/
theorem abortedStoreMultipleStoresTheAccepted : Obligations.AbortedStoreMultipleStoresTheAccepted := by
  intro c p u s w rn list st passed settled some wf user m start words noBack legal ⟨j, inList, aborts⟩
  have ends := execStm_legal (c := c) passed settled some (Bool.and_eq_false_imp.2 noBack) legal
  have reported : (blockStores st (blockBackedRegs st u w rn list) start words).2 = true :=
    (blockStores_reports ..).2 ⟨j, by rwa [List.length_mapIdx], aborts⟩
  refine ⟨_, ?_, blockStores_storedInOrder st (blockBackedRegs st u w rn list) start words,
    blockStores_storedWords (blockBackedRegs st u w rn list) start wf (storedWords_short list _)⟩
  rw [exec_stm, ends, ← raise_blockStores]
  exact congrArg Host.Outcome.next (if_pos reported)

end Sys2Proof.Machine
end

section
/-! SUPPORT. SWI (O42; spec/46_software_interrupt.md R290, R291): the entry to the software interrupt, out of the one
sequence all exceptions share (R340). -/

namespace Sys2Proof.Machine

open Sys2Proof.Spec

/-- R340: every exception is a trap to its vector's byte address, and FIQ alone forces F. -/
theorem raise_eq_trapped (s : State) (e : Exception) :
    s.raise e =
      trapped s e.link e.savedOffset.toNat e.mode (s.psr.f || e == .fiq) (4 * e.vector.toNat) := by
  cases e <;> rfl

/-- R290: the software interrupt saves R15 4 bytes on in R14_svc and leaves F as it was. -/
theorem raise_softwareInterrupt (s : State) :
    s.raise .softwareInterrupt = trapped s .r14Svc 4 .svc s.psr.f 0x08 := by
  have fKept : (s.psr.f || Exception.softwareInterrupt == .fiq) = s.psr.f := Bool.or_false _
  rw [raise_eq_trapped, fKept]
  rfl

/-- R290, R291: SWI, its condition passed; no comment field is read. -/
theorem exec_swi_passed {c : Cond} {s : State} (passed : condPassed c s.psr = true) (comment : BitVec 24) :
    exec (.swi c comment) s = .next (trapped s .r14Svc 4 .svc s.psr.f 0x08) := by
  rw [exec_swi, execSwi, whenPassed_passed passed, raise_softwareInterrupt]

/-- Settles O42: the word is the format's, SWI traps under its condition, and goes on where that fails. -/
theorem softwareInterruptEntersSupervisor : Obligations.SoftwareInterruptEntersSupervisor := by
  intro c comment s
  exact ⟨rfl, fun passed => exec_swi_passed passed comment, fun failed => exec_failed failed⟩

end Sys2Proof.Machine
end

section
/-! SUPPORT. What the decoder gives is well-formed, and reads the bytes of a word (O2, O3, O4; spec/30_encoding.md R100,
R116, R122). -/

namespace Sys2Proof

open Sys2Proof.Spec

/-- The amount field of an instruction-specified shift has only amounts with an encoding (R165 to R169). -/
theorem ImmShift.wf_ofFields (a : BitVec 5) (t : ShiftType) : (ImmShift.ofFields a t).wf = true := by
  have ha : a.toNat ≤ 31 := by have := a.isLt; omega
  have hpos : a ≠ 0#5 → 1 ≤ a.toNat := fun h => Nat.pos_of_ne_zero fun h0 => h (BitVec.eq_of_toNat_eq h0)
  cases t with
  | lsl => simp [ofFields, wf, ha]
  | lsr | asr => by_cases h : a = 0#5 <;> simp [ofFields, wf, h, hpos]; omega
  | ror => by_cases h : a = 0#5 <;> simp [ofFields, wf, h, hpos, ha]

theorem wellFormed_dpImmOf (op : BitVec 4) (c : Cond) (s : Bool) (rn rd : Reg) (o : RotImm) :
    (dpImmOf op c s rn rd o).wellFormed = true := by
  cases op using opcode_cases <;> cases s <;> rfl

/-- A shifted register is the one operand with ill-formed values. -/
theorem wellFormed_dpShiftOf (op : BitVec 4) (c : Cond) (s : Bool) (rn rd : Reg) (o : ShiftedReg) :
    (dpShiftOf op c s rn rd o).wellFormed = o.shift.wf := by
  cases op using opcode_cases <;> cases s <;> rfl

theorem wellFormed_dpRegShiftOf (op : BitVec 4) (c : Cond) (s : Bool) (rn rd : Reg) (o : RegShifted) :
    (dpRegShiftOf op c s rn rd o).wellFormed = true := by
  cases op using opcode_cases <;> cases s <;> rfl

theorem wellFormed_decodeMultiply (c : Cond) (w : Word) : (decodeMultiply c w).wellFormed = true := by
  unfold decodeMultiply
  split
  · split <;> rfl
  all_goals rfl

theorem wellFormed_decodeData (c : Cond) (w : Word) : (decodeData c w).wellFormed = true := by
  unfold decodeData
  split
  · exact wellFormed_dpImmOf ..
  split
  · exact (wellFormed_dpShiftOf ..).trans (ImmShift.wf_ofFields ..)
  split
  · exact wellFormed_dpRegShiftOf ..
  split
  · rfl
  · exact wellFormed_decodeMultiply c w

theorem wellFormed_decodeTransfer (c : Cond) (w : Word) : (decodeTransfer c w).wellFormed = true := by
  unfold decodeTransfer
  split
  · cases w.getLsbD 22 <;> cases w.getLsbD 20 <;> rfl
  split
  · rfl
  · cases w.getLsbD 22 <;> cases w.getLsbD 20 <;> exact ImmShift.wf_ofFields ..

theorem wellFormed_decodeBlockOrBranch (c : Cond) (w : Word) : (decodeBlockOrBranch c w).wellFormed = true := by
  unfold decodeBlockOrBranch
  split <;> split <;> rfl

theorem wellFormed_decodeCoprocessorOrSwi (c : Cond) (w : Word) : (decodeCoprocessorOrSwi c w).wellFormed = true := by
  unfold decodeCoprocessorOrSwi
  split
  · split <;> rfl
  split
  · rfl
  split
  · rfl
  split <;> rfl

/-- R116, R122: every word decodes to a well-formed instruction. -/
theorem wellFormed_decodeWord (w : Word) : (decodeWord w).wellFormed = true := by
  unfold decodeWord
  cases w.getLsbD 27 <;> cases w.getLsbD 26
  · exact wellFormed_decodeData ..
  · exact wellFormed_decodeTransfer ..
  · exact wellFormed_decodeBlockOrBranch ..
  · exact wellFormed_decodeCoprocessorOrSwi ..

/-- Settles O2: `encode_decodeWord` and the decision list of R116, class by class. -/
theorem everyWordDecodesAndEncodesBack : Obligations.EveryWordDecodesAndEncodesBack :=
  fun w => ⟨encode_decodeWord w, wellFormed_decodeWord w⟩

/-- Settles O3: each word is decoded by evaluation. -/
theorem exampleWordsDecode : Obligations.ExampleWordsDecode := by
  unfold Obligations.ExampleWordsDecode
  refine ⟨?_, ?_, ?_, ?_, ?_, ?_, ?_, ?_, ?_, ?_, ?_, ?_, ?_, ?_, ?_, ?_, ?_, ?_, ?_⟩ <;> decide

/-- R63, R100: the bytes of a word, the lowest address first, decode to its instruction. -/
theorem decode_wordBytes_append (w : Word) (rest : List Byte) :
    decode (wordBytes w ++ rest) = .ok (decodeWord w, rest) :=
  congrArg (fun v => Except.ok (decodeWord v, rest)) (Machine.bytes_join w)

/-- Settles O4: the four bytes join to the word, and a shorter list has no fourth byte. -/
theorem bytesDecodeLittleEndian : Obligations.BytesDecodeLittleEndian := by
  refine ⟨decode_wordBytes_append, fun b hb => ?_⟩
  match b, hb with
  | [], _ | [_], _ | [_, _], _ | [_, _, _], _ => rfl

end Sys2Proof
end

section
/-! SUPPORT. Registers, R15 and what reset leaves (O9 to O12, O60; spec/10_state.md R10, R22, R28, R37, R46). -/

namespace Sys2Proof.Machine

open Sys2Proof.Spec

/-! ## The register bank -/

/-- R10: a read of a settled bank gives the register the number names, R15 by the rule at hand. -/
theorem readBank_settled {s : State} (settled : s.bank = .settled) (m : Mode) (who : Config.Draw) (r15 : Word)
    (r : Reg) : s.readBank m who r15 r = ((physOf m r).map s.regs.get).getD r15 := by
  unfold State.readBank
  split
  next none => rw [none]; rfl
  next p some => rw [unsettled_settled settled, some]; rfl

theorem readBank_writeBank_same {s : State} (settled : s.bank = .settled) {m : Mode} {r : Reg} (h : r ≠ 15)
    (who : Config.Draw) (r15 v : Word) : (s.writeBank m r v).readBank m who r15 r = v := by
  obtain ⟨p, named⟩ := Option.isSome_iff_exists.mp (physOf_isSome (m := m) h)
  rw [readBank_settled ((writeBank_bank ..).trans settled), named]
  simp [writeBank_get, named]

theorem readBank_writeBank_other {s : State} (settled : s.bank = .settled) {m m' : Mode} {r q : Reg}
    (other : physOf m r ≠ physOf m' q) (who : Config.Draw) (r15 v : Word) :
    (s.writeBank m r v).readBank m' who r15 q = s.readBank m' who r15 q := by
  rw [readBank_settled ((writeBank_bank ..).trans settled), readBank_settled settled]
  cases named : physOf m' q with
  | none => rfl
  | some p => simp [writeBank_get, named ▸ other]

@[simp] theorem writeBank_fifteen (s : State) (m : Mode) (v : Word) : s.writeBank m 15#4 v = s := by
  simp [State.writeBank]

/-- Settles O9: a number other than 15 names a register (R22), and a write changes that one alone. -/
theorem registerWritesStayInTheirBank : Obligations.RegisterWritesStayInTheirBank :=
  fun s m _ _ _ v r15 who settled =>
    ⟨fun h => readBank_writeBank_same settled h who r15 v, fun other => readBank_writeBank_other settled other who r15 v,
      writeBank_fifteen s m v⟩

/-! ## R15 -/

/-- Settles O10: the three writes differ in whether the PSR is taken from the word, the PC, or both. -/
theorem threeWaysToWriteR15 : Obligations.ThreeWaysToWriteR15 := by
  intro s w
  refine ⟨rfl, ?_, ?_⟩
  · rw [State.writePSR, written_eq_psrFrom]
  · rw [State.writePCPSR, State.writePSR, written_eq_psrFrom]
    rfl

/-- R28, R29: the status bits are at 31:26, the mode at 1:0, and the PC field between them is zero. -/
theorem psrWord_toNat (p : Psr) : ∃ status code, p.word.toNat = 2 ^ 26 * status + code ∧ code < 2 ^ 2 ∧
    ∀ a, r15Number p a = 2 ^ 26 * status + (a + code) := by
  refine ⟨p.n.toNat * 32 + p.z.toNat * 16 + p.c.toNat * 8 + p.v.toNat * 4 + p.i.toNat * 2 + p.f.toNat,
    p.mode.code.toNat, ?_, p.mode.code.isLt, fun a => ?_⟩
  · obtain ⟨n, z, c, v, i, f, m⟩ := p
    revert n z c v i f
    cases m <;> decide
  · have code : r15Number p a = p.n.toNat * 2 ^ 31 + p.z.toNat * 2 ^ 30 + p.c.toNat * 2 ^ 29 + p.v.toNat * 2 ^ 28 +
        p.i.toNat * 2 ^ 27 + p.f.toNat * 2 ^ 26 + a + p.mode.code.toNat := by
      unfold r15Number
      cases p.mode <;> rfl
    omega

/-- R10: the status bits and a word-aligned address do not overlap, so joining them is adding them. -/
theorem r15full_toNat (s : State) {k : Addr} (aligned : k.toNat % 4 = 0) :
    (s.r15full k).toNat = r15Number s.psr ((4 * s.pc.toNat + k.toNat) % 2 ^ 26) := by
  obtain ⟨status, code, word, small, number⟩ := psrWord_toNat s.psr
  obtain ⟨q, hq⟩ : ∃ q, (4 * s.pc.toNat + k.toNat) % 2 ^ 26 = 2 ^ 2 * q :=
    ⟨(4 * s.pc.toNat + k.toNat) % 2 ^ 26 / 4, by omega⟩
  calc (s.r15full k).toNat
      = (2 ^ 26 * status + code) ||| 2 ^ 2 * q := by rw [State.r15full, BitVec.toNat_or, word, r15pc_toNat, hq]
    _ = 2 ^ 26 * status ||| (2 ^ 2 * q ||| code) := by
        rw [Nat.two_pow_add_eq_or_of_lt (by omega), Nat.or_assoc, Nat.or_comm code]
    _ = 2 ^ 26 * status + (2 ^ 2 * q + code) := by
        rw [← Nat.two_pow_add_eq_or_of_lt small, ← Nat.two_pow_add_eq_or_of_lt (by omega)]
    _ = r15Number s.psr ((4 * s.pc.toNat + k.toNat) % 2 ^ 26) := by rw [number, hq]

/-- Settles O11: what lies outside the 26 bits of `k` is a multiple of 2^26. -/
theorem r15ReadsAsStatusAndPc : Obligations.R15ReadsAsStatusAndPc := by
  intro s k aligned
  have cut : (4 * s.pc.toNat + k) % 2 ^ 26 = (4 * s.pc.toNat + (BitVec.ofNat 26 k).toNat) % 2 ^ 26 := by
    rw [BitVec.toNat_ofNat]; omega
  rw [cut, r15full_toNat s (by rw [BitVec.toNat_ofNat]; omega), r15pc_toNat]
  exact ⟨rfl, rfl⟩

/-! ## After reset -/

/-- Settles O12: the reset state as it is written. -/
theorem resetEntersSupervisorAtZero : Obligations.ResetEntersSupervisorAtZero :=
  ⟨rfl, rfl, rfl, rfl, rfl, rfl⟩

/-- Settles O60: with nothing prefetched or waited for, the invariant asks for canonical memory alone. -/
theorem resetMeetsTheInvariant : Obligations.ResetMeetsTheInvariant :=
  inv_of_emptied rfl rfl rfl rfl

end Sys2Proof.Machine
end

section
/-! SUPPORT. Taking the exceptions, their order in a step and the printed returns (O52, O53, O56, O57;
spec/60_exceptions.md R331, R340, R352, R360, R365). -/

namespace Sys2Proof.Machine

open Sys2Proof.Spec

/-! ## Exception entry -/

/-- R340: F is left alone by every exception but FIQ. -/
theorem raise_eq_trapped_fKept (s : State) {e : Exception} (h : e ≠ .fiq) :
    s.raise e = trapped s e.link e.savedOffset.toNat e.mode s.psr.f (4 * e.vector.toNat) := by
  rw [raise_eq_trapped, beq_false_of_ne h, Bool.or_false]

theorem raise_undefined (s : State) : s.raise .undefined = trapped s .r14Svc 4 .svc s.psr.f 0x04 :=
  raise_eq_trapped_fKept s nofun

theorem raise_prefetchAbort (s : State) : s.raise .prefetchAbort = trapped s .r14Svc 4 .svc s.psr.f 0x0C :=
  raise_eq_trapped_fKept s nofun

theorem raise_irq (s : State) : s.raise .irq = trapped s .r14Irq 4 .irq s.psr.f 0x18 :=
  raise_eq_trapped_fKept s nofun

/-- R331: FIQ forces F too. -/
theorem raise_fiq (s : State) : s.raise .fiq = trapped s .r14Fiq 4 .fiq true 0x1C := by
  have forced : (s.psr.f || Exception.fiq == .fiq) = true := Bool.or_true _
  rw [raise_eq_trapped, forced]
  rfl

/-- Settles O52: the table of R331, row by row. -/
theorem exceptionEntryFollowsTheTable : Obligations.ExceptionEntryFollowsTheTable :=
  fun s => ⟨raise_undefined s, raise_softwareInterrupt s, raise_prefetchAbort s, raise_dataAbort s,
    raise_addressException s, raise_irq s, raise_fiq s⟩

/-! ## The order of interrupts in a step -/

/-- R90: an empty pipeline holds no word that a write could change. -/
theorem snoop_of_pipe_nil {s : State} (h : s.pipe = []) (old : State) : s.snoop old = s := by
  obtain ⟨⟩ := s
  subst h
  rfl

/-- R346: the word about to execute is marked. -/
theorem runFetched_of_invalid {s : State} (h : s.fetched.invalid = true) :
    s.runFetched = .next (s.raise .prefetchAbort) := by
  rw [State.runFetched, if_pos h]

/-- Settles O56: the order of the tests in the step, each interrupt with its mask. -/
theorem stepTakesInterruptsInPriority : Obligations.StepTakesInterruptsInPriority := by
  intro s low running
  have masked {seen mask : Bool} (h : seen = false ∨ mask = true) : (seen && !mask) = false := by
    rcases h with rfl | rfl <;> simp
  refine ⟨fun seen unmasked => ?fiq, fun noFiq seen unmasked => ?irq, fun noFiq noIrq marked => ?abort⟩
  case fiq =>
    rw [← raise_fiq]
    simp [step, State.boundary, low, running, seen, unmasked]
  case irq =>
    rw [show s.psr.f = s.sample.psr.f from rfl, ← raise_irq]
    simp [step, State.boundary, low, running, masked noFiq, seen, unmasked]
  case abort =>
    rw [step_of_undisturbed low running (masked noFiq) (masked noIrq), runFetched_of_invalid marked, State.finish,
      snoop_of_pipe_nil rfl, raise_prefetchAbort]
    rfl

/-! ## The synchronisers -/

theorem Sync.seen_low (draw : Bool) : (Sync.mk true true).seen true draw = true := rfl

theorem Sync.seen_high (draw : Bool) : (Sync.mk false false).seen false draw = false := rfl

/-- An instruction does not touch the synchronisers. -/
theorem Completes.syncs {s t : State} (h : Completes s t) : t.fiqSync = s.fiqSync ∧ t.irqSync = s.irqSync := by
  cases h with
  | goesOn u b work end_eq =>
    subst end_eq
    exact ⟨(congrArg State.fiqSync work.frame :), (congrArg State.irqSync work.frame :)⟩
  | goesTo u a work end_eq =>
    subst end_eq
    exact ⟨(congrArg State.fiqSync work.frame :), (congrArg State.irqSync work.frame :)⟩
  | waits end_eq =>
    subst end_eq
    exact ⟨rfl, rfl⟩

theorem holdInReset_syncs (s : State) :
    s.holdInReset.fiqSync = s.fiqSync ∧ s.holdInReset.irqSync = s.irqSync := by
  unfold State.holdInReset
  split <;> exact ⟨rfl, rfl⟩

/-- R352: a step shifts the lines of its boundary into the synchronisers, whatever it then does. -/
theorem step_syncs {s t : State} (h : step s = .next t) :
    t.fiqSync = s.sample.fiqSync ∧ t.irqSync = s.sample.irqSync := by
  rcases boundary_next h with ⟨-, rfl⟩ | ⟨-, -, rfl⟩ | ⟨-, -, ⟨e, -, rfl⟩ | ⟨u, run, rfl⟩⟩
  · exact holdInReset_syncs s.sample
  · exact ⟨rfl, rfl⟩
  · exact ⟨rfl, rfl⟩
  · exact (runFetched_completes run).syncs

/-- Settles O57: three equal levels decide what is seen, and every step shifts its level in. -/
theorem heldInterruptsAreSeen : Obligations.HeldInterruptsAreSeen := by
  intro s
  refine ⟨fun held low => ?_, fun held high => ?_, fun held low => ?_, fun held high => ?_, fun t => step_syncs⟩
  · rw [State.fiqSeen, held, low, Sync.seen_low]
  · rw [State.fiqSeen, held, high, Sync.seen_high]
  · rw [State.irqSeen, held, low, Sync.seen_low]
  · rw [State.irqSeen, held, high, Sync.seen_high]

/-! ## The returns -/

/-- R28: outside the PC field the bits of R15 are those of the status. -/
theorem r15_bit (s : State) {k : Nat} (outside : k < 2 ∨ 26 ≤ k) : s.r15.getLsbD k = s.psr.word.getLsbD k := by
  have zero : (s.r15pc 0).getLsbD k = false := by
    rw [State.r15pc, BitVec.getLsbD_setWidth, show s.addr + 0 = s.addr from BitVec.add_zero _]
    obtain low | high := outside
    · rw [State.addr, BitVec.getLsbD_append, if_pos low, BitVec.getLsbD_zero, Bool.and_false]
    · rw [BitVec.getLsbD_of_ge _ k high, Bool.and_false]
  rw [State.r15, State.r15full, BitVec.getLsbD_or, zero, Bool.or_false]

/-- R28: outside User mode, writing R15 to the PSR restores it. -/
theorem psrFrom_r15 {q : Psr} (privileged : q.mode ≠ .usr) (s : State) : psrFrom q s.r15 = s.psr := by
  have bit (k : Nat) (outside : k < 2 ∨ 26 ≤ k) := r15_bit s outside
  simp only [psrFrom, privileged, if_false, bit 31 (by decide), bit 30 (by decide), bit 29 (by decide), bit 28 (by decide),
    bit 27 (by decide), bit 26 (by decide), bit 1 (by decide), bit 0 (by decide)]
  obtain ⟨n, z, c, v, i, f, m⟩ := s.psr
  revert n z c v i f
  cases m <;> decide

/-- R10: R15 as a number. -/
theorem r15_toNat (s : State) : s.r15.toNat = r15Number s.psr (4 * s.pc.toNat) := by
  rw [State.r15, r15full_toNat s rfl, show (0 : Addr).toNat = 0 from rfl, Nat.add_zero, Nat.mod_eq_of_lt (by omega)]

/-- R28: bits 25:2 of R15 are the PC. -/
theorem r15_pcField (s : State) : s.r15.extractLsb' 2 24 = s.pc := by
  obtain ⟨status, code, -, small, number⟩ := psrWord_toNat s.psr
  apply BitVec.eq_of_toNat_eq
  rw [BitVec.extractLsb'_toNat, r15_toNat, number, Nat.shiftRight_eq_div_pow]
  omega

/-- R15 `k` words on is R15 of the machine `k` words on. -/
theorem r15full_words (s : State) (k : BitVec 24) : s.r15full (k ++ 0#2) = ({ s with pc := s.pc + k } : State).r15 := by
  apply BitVec.eq_of_toNat_eq
  have bytes : (k ++ 0#2 : Addr).toNat = 4 * k.toNat := by
    simp only [BitVec.toNat_append, BitVec.toNat_ofNat, Nat.zero_mod, Nat.or_zero, Nat.shiftLeft_eq]
    omega
  rw [r15full_toNat s (by omega), r15_toNat, bytes]
  refine congrArg (r15Number s.psr) ?_
  rw [BitVec.toNat_add]
  omega

/-- R349: subtracting what the saved PC is ahead gives R15 of the instruction returned to. -/
theorem sub_r15 (s : State) {a k : BitVec 24} (ahead : a.toNat + k.toNat < 2 ^ 24) (cin : Bool) :
    ArithOp.sub.result ({ s with pc := a + k } : State).r15 (BitVec.ofNat 32 (4 * k.toNat)) cin =
      ({ s with pc := a } : State).r15 := by
  obtain ⟨status, code, -, small, number⟩ := psrWord_toNat s.psr
  have sum : (a + k).toNat = a.toNat + k.toNat := by rw [BitVec.toNat_add, Nat.mod_eq_of_lt ahead]
  have fits := ({ s with pc := a } : State).r15.isLt
  apply BitVec.eq_of_toNat_eq
  simp only [r15_toNat, number] at fits
  simp only [ArithOp.result, ArithOp.exact, BitVec.toNat_ofInt, r15_toNat, number, BitVec.toNat_ofNat, sum]
  omega

theorem physOf_link (e : Exception) : physOf e.mode 14 = some e.link := by
  cases e <;> rfl

theorem raise_mode_ne_usr (s : State) (e : Exception) : (s.raise e).psr.mode ≠ .usr := by
  cases e <;> exact nofun

/-- R340: the handler reads the saved R15 in its R14. -/
theorem readX_link (s : State) (e : Exception) (who : Config.Draw) (r15 : Word) :
    (s.raise e).readX who r15 14 = s.r15full e.savedOffset := by
  rw [readX_some (p := e.link) (by simpa using physOf_link e) (unsettled_settled rfl _)]
  simp

/-- R36, R365: writing R15 with the PSR outside User mode goes to its PC and restores its PSR. -/
theorem wentTo_r15 {t : State} (privileged : t.psr.mode ≠ .usr) (s : State) :
    wentTo t t.regs (psrFrom t.psr s.r15) (s.r15.extractLsb' 2 24) = wentTo t t.regs s.psr s.pc := by
  rw [psrFrom_r15 privileged, r15_pcField]

/-- R365: `SUBS PC, R14, #4k` in the handler of an exception that saved the PC `k` words past `a`. -/
theorem subsReturn (s : State) (e : Exception) {a k : BitVec 24} {imm : BitVec 8}
    (saved : s.r15full e.savedOffset = ({ s with pc := a + k } : State).r15) (ahead : a.toNat + k.toNat < 2 ^ 24)
    (operand : (rotatedImm ⟨0, imm⟩ (s.raise e).psr.c).1 = BitVec.ofNat 32 (4 * k.toNat)) :
    exec (.subImm .al true 14 15 ⟨0, imm⟩) (s.raise e) = .next (wentTo (s.raise e) (s.raise e).regs s.psr a) := by
  have result : ArithOp.sub.result ((s.raise e).firstOperand 14 (.imm ⟨0, imm⟩))
      ((s.raise e).secondOperand (.imm ⟨0, imm⟩)).1 (s.raise e).psr.c = ({ s with pc := a } : State).r15 := by
    rw [State.firstOperand, readX_link, saved, State.secondOperand, operand, sub_r15 s ahead]
  obtain ⟨-, -, writesR15⟩ := arithmeticOperationsWriteTheirResult .sub .al true 14 15 (.imm ⟨0, imm⟩) (s.raise e) rfl
    (unsettled_fifteen _)
  refine (writesR15 rfl).trans ?_
  rw [result, if_pos rfl, wentTo_r15 (raise_mode_ne_usr s e)]

/-- R365: `MOVS PC, R14` in the handler of an exception that saved the PC of the next instruction. -/
theorem movsReturn (s : State) (e : Exception) {a : BitVec 24}
    (saved : s.r15full e.savedOffset = ({ s with pc := a } : State).r15) :
    exec (.movShift .al true 0 15 ⟨14, .lsl 0⟩) (s.raise e) = .next (wentTo (s.raise e) (s.raise e).regs s.psr a) := by
  have result : ((s.raise e).secondOperand (.shift ⟨14, .lsl 0⟩)).1 = ({ s with pc := a } : State).r15 := by
    rw [State.secondOperand, readX_link, saved]
    rfl
  obtain ⟨-, -, writesR15⟩ := logicalOperationsWriteTheirResult .mov .al true 0 15 (.shift ⟨14, .lsl 0⟩) (s.raise e) rfl
    (unsettled_fifteen _)
  refine (writesR15 rfl).trans ?_
  rw [LogicalOp.result, result, if_pos rfl, wentTo_r15 (raise_mode_ne_usr s e)]

/-- Settles O53: each saved PC (R349) against the constant that the printed return subtracts. -/
theorem returnsRestoreTheInterruptedState : Obligations.ReturnsRestoreTheInterruptedState := by
  intro s low back subs movs
  have one : (1 : BitVec 24).toNat = 1 := rfl
  have here : s.pc.toNat + (1 : BitVec 24).toNat < 2 ^ 24 := by omega
  have next : (s.pc + 1).toNat + (1 : BitVec 24).toNat < 2 ^ 24 := by bv_omega
  have afterNext : s.pc + 2 = s.pc + 1 + 1 := by bv_omega
  exact ⟨subsReturn s .fiq (r15full_words s 1) here rfl, subsReturn s .irq (r15full_words s 1) here rfl,
    subsReturn s .prefetchAbort (r15full_words s 1) here rfl, subsReturn s .dataAbort (r15full_words s 2) low rfl,
    subsReturn s .addressException (afterNext ▸ r15full_words s 2) next rfl,
    movsReturn s .softwareInterrupt (r15full_words s 1), movsReturn s .undefined (r15full_words s 1)⟩

end Sys2Proof.Machine
end

section
/-! SUPPORT. The rotated immediate operand (O20; spec/42_data_processing.md R176). -/

namespace Sys2Proof.Machine

open Sys2Proof.Spec

/-- Settles O20: bit `i` of the operand is bit `i + 2 * rot` of the byte, round 32. -/
theorem rotatedImmediates : Obligations.RotatedImmediates := by
  intro o cin
  refine ⟨fun i hi => ?_, fun h => ?_, fun h => ?_⟩
  · have rot : 2 * o.rot.toNat % 32 % 32 = 2 * o.rot.toNat := by omega
    rw [rotatedImm, ror32, BitVec.getLsbD_rotateRight, rot]
    have byte (j : Nat) (hj : j < 32) : (o.imm8.setWidth 32).getLsbD j = (decide (j < 8) && o.imm8.getLsbD j) := by
      by_cases h : j < 8
      · simp [h, hj]
      · simp [h, BitVec.getLsbD_of_ge o.imm8 j (by omega)]
    by_cases within : i < 32 - 2 * o.rot.toNat
    · rw [decide_eq_true within, cond_true, byte _ (by omega),
        show (i + 2 * o.rot.toNat) % 32 = 2 * o.rot.toNat + i by omega]
    · rw [decide_eq_false within, cond_false, byte _ (by omega), decide_eq_true hi, Bool.true_and,
        show (i + 2 * o.rot.toNat) % 32 = i - (32 - 2 * o.rot.toNat) by omega]
  · rw [rotatedImm, if_pos h]
  · rw [rotatedImm, if_neg h]
    rfl

end Sys2Proof.Machine
end

section
/-! SUPPORT. Memory as bytes, words and bits, and its canonical form (O15, O16; spec/20_memory.md R63, R65, R84). -/

namespace Sys2Proof.Machine

open Sys2Proof.Spec

/-! ## The word as its bytes -/

/-- Joining bits above `y` adds them, in their place. -/
theorem toNat_append_add {v w : Nat} (x : BitVec v) (y : BitVec w) : (x ++ y).toNat = 2 ^ w * x.toNat + y.toNat := by
  rw [BitVec.toNat_append, Nat.shiftLeft_eq, Nat.mul_comm, Nat.two_pow_add_eq_or_of_lt y.isLt]

/-- R63: the lowest address is the least significant byte. -/
theorem readWord_toNat (m : List Host.Cell) (a : Addr) :
    (readWord m a).toNat = (readByte m (wordBase a)).toNat + 2 ^ 8 * (readByte m (wordBase a + 1)).toNat +
      2 ^ 16 * (readByte m (wordBase a + 2)).toNat + 2 ^ 24 * (readByte m (wordBase a + 3)).toNat := by
  simp only [readWord, toNat_append_add]
  omega

/-- Bit `i` of a word is bit `i % 8` of its byte `i / 8`. -/
theorem readWord_bit (m : List Host.Cell) (a : Addr) {i : Nat} (hi : i < 32) :
    (readWord m a).getLsbD i = (readByte m (wordBase a + i / 8)).getLsbD (i % 8) := by
  have within : decide (i % 8 < 8) = true := decide_eq_true (Nat.mod_lt _ (by decide))
  rw [← byte_readWord m a (k := i / 8) (by omega), BitVec.getLsbD_extractLsb', within, Bool.true_and, Nat.div_add_mod]

/-- R92: a byte write changes the bits of its lane alone. -/
theorem readWord_writeByte_bit {m : List Host.Cell} (wf : memoryWf m = true) (a : Addr) (b : Byte) {i : Nat}
    (hi : i < 32) : (readWord (writeByte m a.toNat b) a).getLsbD i =
      if i / 8 = a.toNat % 4 then b.getLsbD (i % 8) else (readWord m a).getLsbD i := by
  have lane : wordBase a + i / 8 = a.toNat ↔ i / 8 = a.toNat % 4 := by unfold wordBase; omega
  rw [readWord_bit _ _ hi, readWord_bit _ _ hi, readByte_writeByte wf]
  by_cases h : i / 8 = a.toNat % 4
  · rw [if_pos (lane.2 h), if_pos h]
  · rw [if_neg (mt lane.1 h), if_neg h]

theorem writeWord_keeps (m : List Host.Cell) (a : Addr) (v : Word) {x : Nat} (h : x / 4 ≠ a.toNat / 4) :
    readByte (writeWord m a v) x = readByte m x :=
  readByte_writeWord_other m a v (by unfold wordBase; omega)

/-- Settles O15: reads after a write, those of other masters and those before each access. -/
theorem memoryReadsSeeWrites : Obligations.MemoryReadsSeeWrites := by
  refine ⟨fun m a b v wf => ?own, fun m l a x b wf => ?masters, fun s => ?gap⟩
  case own =>
    exact ⟨readWord_toNat m a, by rw [readByte_writeByte wf, if_pos rfl], readWord_writeWord wf a v,
      fun x => readByte_writeByte_other m b, fun x => writeWord_keeps m a v, fun i => readWord_writeByte_bit wf a b,
      memoryWf_writeByte b wf a.isLt, memoryWf_writeWord a v wf⟩
  case masters => exact ⟨rfl, memoryWf_masterWrites l wf, readByte_masterWrites_append l a x b wf⟩
  case gap =>
    refine ⟨busGap_none, fun l rest h => ?_⟩
    refine ⟨?_, ?_, busGap_eq s⟩ <;> rw [busGap_cons h]
    rfl

/-! ## The canonical form -/

theorem readByte_cons_other {k a : Nat} (b : Byte) (t : List Host.Cell) (h : a ≠ k) :
    readByte ((k, b) :: t) a = readByte t a := by
  rw [readByte, if_neg h.symm]

theorem readByte_cons_same (k : Nat) (b : Byte) (t : List Host.Cell) : readByte ((k, b) :: t) k = b := by
  rw [readByte, if_pos rfl]

/-- A byte that is listed does not read as an unlisted one, so no memory that lists only bytes above it reads the same. -/
theorem not_below_of_reads_same {k : Nat} {b : Byte} {t m : List Host.Cell} (wf : memoryWf ((k, b) :: t) = true)
    (same : readByte ((k, b) :: t) k = readByte m k) : ¬ ∀ e ∈ m, k < e.1 := by
  intro below
  obtain ⟨-, listed, -⟩ := memoryWf_cons.1 wf
  rw [readByte_cons_same, readByte_below below] at same
  exact listed same

/-- What a canonical memory lists after an entry of a lower address lies above that address. -/
theorem below_of_lt_head {k k' : Nat} {b' : Byte} {t' : List Host.Cell} (wf : memoryWf ((k', b') :: t') = true)
    (h : k < k') : ∀ e ∈ (k', b') :: t', k < e.1 := by
  obtain ⟨-, -, above, -⟩ := memoryWf_cons.1 wf
  rintro e (_ | ⟨_, he⟩)
  · exact h
  · exact Nat.lt_trans h (above e he)

/-- Settles O16: the lowest listed addresses agree, then their bytes, then the rest. -/
theorem canonicalMemoryIsDeterminedByItsBytes : Obligations.CanonicalMemoryIsDeterminedByItsBytes := by
  intro m
  induction m with
  | nil =>
    intro m' _ wf' same
    match m' with
    | [] => rfl
    | (k', b') :: t' => exact absurd nofun (not_below_of_reads_same wf' (same k').symm)
  | cons e t ih =>
    intro m' wf wf' same
    obtain ⟨k, b⟩ := e
    match m' with
    | [] => exact absurd nofun (not_below_of_reads_same wf (same k))
    | (k', b') :: t' =>
      have notBelow : ¬ k < k' := mt (below_of_lt_head wf') (not_below_of_reads_same wf (same k))
      have notAbove : ¬ k' < k := mt (below_of_lt_head wf) (not_below_of_reads_same wf' (same k').symm)
      obtain rfl : k = k' := by omega
      obtain rfl : b = b' := by simpa only [readByte_cons_same] using same k
      obtain ⟨-, -, above, wfTail⟩ := memoryWf_cons.1 wf
      obtain ⟨-, -, above', wfTail'⟩ := memoryWf_cons.1 wf'
      rw [ih t' wfTail wfTail' fun a => ?_]
      by_cases h : a = k
      · subst h
        rw [readByte_below above, readByte_below above']
      · rw [← readByte_cons_other b t h, ← readByte_cons_other b t' h, same]

end Sys2Proof.Machine
end

section
/-! SUPPORT. The remaining ends of LDR, STR, LDRB and STRB: the base as data (O29; spec/44_single_data_transfer.md R247) and
the data abort (O33; R246). -/

namespace Sys2Proof.Machine

open Sys2Proof.Spec

/-! ## The base as data -/

/-- A draw between two values gives one of them. -/
theorem drawn_eq_or_eq {α : Type} (draw : Bool) (a b : α) : (if draw then a else b) = a ∨ (if draw then a else b) = b := by
  cases draw with
  | true => exact .inl rfl
  | false => exact .inr rfl

/-- U3: with Rd = Rn and write-back, one register is written, with one of the two values. -/
theorem finishLoad_base {st : State} {rd : Reg} {q : PReg} (named : physOf st.psr.mode rd = some q)
    (free : st.unsettled rd = false) (idx v : Word) :
    st.finishLoad true rd rd idx v =
      .next (wentOn st (st.regs.set q (if Config.freeBit st.stamp .loadedOrIndex then v else idx)) st.psr st.mem) := by
  have same : (true && rd == rd) = true := by simp
  rw [State.finishLoad, if_neg (physOf_ne_fifteen named), guardWrites_open (by simp [free]), if_pos same, writeX_some named]
  rfl

/-- Settles O29: the model draws which of the two values it is. -/
theorem baseAsDataIsOneOfTwoValues : Obligations.BaseAsDataIsOneOfTwoValues := by
  refine ⟨fun byte c p u w rd o st q passed named free back legal answered => ?load, fun p u w rd o st back => ?store⟩
  case load =>
    refine ⟨_, drawn_eq_or_eq (Config.freeBit st.stamp .loadedOrIndex) _ _, ?_⟩
    rw [exec_loadInstr_answered passed (fun _ => physOf_ne_fifteen named) legal answered,
      show writesBack p w = true from back, finishLoad_base (by rwa [busGap_psr]) (by rwa [busGap_unsettled]), busGap_regs,
      busGap_psr, busGap_stamp]
  case store =>
    have based : (writesBack p w && rd == rd) = true := by simpa [writesBack] using back
    rw [State.storedValue, if_pos based]
    exact drawn_eq_or_eq ..

/-! ## The data abort -/

/-- R78: a read answered with ABORT gives nothing. -/
theorem singleRead_of_aborted {s : State} {byte : Bool} {a : Addr} {force : Bool}
    (aborted : s.aborts (s.dataAccess a (if byte then .byte else .word) false force) = true) :
    singleRead byte s a force = none := by
  cases byte with
  | false => exact congrArg (Option.map _) (if_pos aborted : s.loadWord a force = none)
  | true => exact congrArg (Option.map _) (if_pos aborted : s.loadByte a force = none)

/-- R78: a write answered with ABORT leaves nothing. -/
theorem writeAccess_of_abort {s : State} {a : Access} (aborted : s.aborts a = true) (v : Word) (landed : List Host.Cell) :
    s.writeAccess a v landed = none := by
  rw [State.writeAccess, aborts_iff.1 aborted]

section

variable {byte : Bool} {c : Cond} {p u w : Bool} {rn rd : Reg} {o : Offset} {st : State}
  (passed : condPassed c st.psr = true) (base : writesBack p w = true → rn ≠ 15)
  (legal : illegalAddress (st.transferAddr p u rn o) = false)
include passed base legal

/-- R246: a load whose access is aborted takes the data abort, and writes nothing back. -/
theorem exec_loadInstr_aborted (aborted : singleAborts st byte false p u w rn o = true) :
    exec (loadInstr byte c p u w rn rd o) st = .next (st.busGap.raise .dataAbort) := by
  have read : singleRead byte st.busGap (busAddr (st.transferAddr p u rn o)) (forcesTranslation p w) = none :=
    singleRead_of_aborted (by rw [busGap_aborts, busGap_dataAccess]; exact aborted)
  rw [exec_loadInstr, loadTransfer, whenPassed_passed passed, if_neg fun h => base h.2 h.1, legal,
    if_neg Bool.false_ne_true, read]

/-- R246: and so does a store. -/
theorem exec_storeInstr_aborted (aborted : singleAborts st byte true p u w rn o = true) :
    exec (storeInstr byte c p u w rn rd o) st = .next (st.busGap.raise .dataAbort) := by
  have write : st.storeAccess (singleWrite byte) p u w rn rd o = none := by
    rw [storeAccess_single, writeAccess_of_abort (by rw [busGap_aborts]; exact aborted)]
  rw [exec_storeInstr, storeTransfer, whenPassed_passed passed, if_neg fun h => base h.2 h.1, legal,
    if_neg Bool.false_ne_true, write]

end

/-- Settles O33: the abort is taken before anything is written. -/
theorem abortedSingleTransfersChangeNothing : Obligations.AbortedSingleTransfersChangeNothing := by
  intro store byte c p u w rn rd o st passed base legal aborted
  have taken : st.busGap.raise .dataAbort = trapped st.busGap .r14Svc 8 .svc st.psr.f 0x10 := by
    rw [raise_dataAbort, busGap_psr]
  rw [← taken]
  cases store with
  | true => exact exec_storeInstr_aborted passed base legal aborted
  | false => exact exec_loadInstr_aborted passed base legal aborted

end Sys2Proof.Machine
end

section
/-! SUPPORT. The co-processors' answers and the instructions offered to them (O43 to O45, O48; spec/47_coprocessor.md R295 to
R299, R303, R307, R310, R312 to R314, R316; spec/48_undefined.md R321). -/

namespace Sys2Proof.Machine

open Sys2Proof.Spec

/-! ## Who answers -/

/-- R295, R316: a rule applies to the offers of its number that it answers. -/
theorem cpRule_applies_iff {r : CpRule} {cp : BitVec 4} {w : Word} {m : Mode} :
    r.applies cp w m = true ↔ r.cp = cp ∧ Answers r w m := by
  have pins {α : Type} [DecidableEq α] (o : Option α) (x : α) : o.all (· == x) = true ↔ o = none ∨ o = some x := by
    cases o <;> simp
  have user : (m == Mode.usr) = decide (m = .usr) := rfl
  simp only [CpRule.applies, Bool.and_eq_true, pins, beq_iff_eq, Answers, and_assoc, user]

theorem reply_of_unanswered {st : State} {w : Word} {cp : BitVec 4}
    (h : ∀ r ∈ st.coprocessors, r.cp = cp → ¬ Answers r w st.psr.mode) : st.reply (some cp) w = .absent := by
  have notFound : st.coprocessors.find? (·.applies cp w st.psr.mode) = none :=
    List.find?_eq_none.2 fun r hr applies => by
      obtain ⟨number, answers⟩ := cpRule_applies_iff.1 applies
      exact h r hr number answers
  rw [State.reply, State.cpReply, notFound]
  rfl

/-- R295: the first rule of a number that answers decides. -/
theorem reply_of_first {st : State} {w : Word} {a b : List CpRule} {r : CpRule} (rules : st.coprocessors = a ++ r :: b)
    (answers : Answers r w st.psr.mode) (before : ∀ q ∈ a, q.cp = r.cp → ¬ Answers q w st.psr.mode) :
    st.reply (some r.cp) w = r.reply := by
  have notFound : a.find? (·.applies r.cp w st.psr.mode) = none :=
    List.find?_eq_none.2 fun q hq applies => by
      obtain ⟨number, answers⟩ := cpRule_applies_iff.1 applies
      exact before q hq number answers
  have first : st.coprocessors.find? (·.applies r.cp w st.psr.mode) = some r := by
    rw [rules, List.find?_append, notFound, Option.none_or]
    exact List.find?_cons_of_pos (cpRule_applies_iff.2 ⟨rfl, answers⟩)
  rw [State.reply, State.cpReply, first]
  rfl

/-- What the sixteen co-processors answer. -/
def State.replies (s : State) (w : Word) : List CpReply :=
  (List.range 16).map fun n => s.cpReply (BitVec.ofNat 4 n) w

theorem reply_none (s : State) (w : Word) :
    s.reply none w =
      ((s.replies w).find? (·.isReady)).getD (if (s.replies w).contains .busy then .busy else .absent) := rfl

theorem mem_replies {s : State} {w : Word} {x : CpReply} : x ∈ s.replies w ↔ ∃ n, s.reply (some n) w = x := by
  simp only [State.replies, List.mem_map, List.mem_range]
  constructor
  · rintro ⟨n, -, h⟩
    exact ⟨_, h⟩
  · rintro ⟨n, h⟩
    exact ⟨n.toNat, n.isLt, by rwa [BitVec.ofNat_toNat, BitVec.setWidth_eq]⟩

/-- R321: where none takes it, an undefined instruction waits if one is busy. -/
theorem reply_none_of_untaken {s : State} {w : Word} (untaken : ∀ n, (s.reply (some n) w).isReady = false) :
    s.reply none w = if (s.replies w).contains .busy then .busy else .absent := by
  have notFound : (s.replies w).find? (·.isReady) = none :=
    List.find?_eq_none.2 fun x hx ready => by
      obtain ⟨n, rfl⟩ := mem_replies.1 hx
      exact ne_true_of_eq_false (untaken n) ready
  rw [reply_none, notFound]
  rfl

theorem reply_none_absent {s : State} {w : Word} (absent : ∀ n, s.reply (some n) w = .absent) :
    s.reply none w = .absent := by
  rw [reply_none_of_untaken fun n => by rw [absent]; rfl, if_neg fun busy => ?_]
  obtain ⟨n, h⟩ := mem_replies.1 (List.contains_iff_mem.1 busy)
  rw [absent] at h
  exact nomatch h

theorem reply_none_busy {s : State} {w : Word} (untaken : ∀ n, (s.reply (some n) w).isReady = false)
    (busy : ∃ n, s.reply (some n) w = .busy) : s.reply none w = .busy := by
  rw [reply_none_of_untaken untaken, if_pos (List.contains_iff_mem.2 (mem_replies.2 busy))]

/-- R321: one that takes it wins. -/
theorem reply_none_ready {s : State} {w : Word} (taken : ∃ n, (s.reply (some n) w).isReady = true) :
    ∃ n, (s.reply (some n) w).isReady = true ∧ s.reply none w = s.reply (some n) w := by
  obtain ⟨n, ready⟩ := taken
  obtain ⟨x, found⟩ := Option.isSome_iff_exists.1 (List.find?_isSome.2 ⟨_, mem_replies.2 ⟨n, rfl⟩, ready⟩)
  obtain ⟨k, rfl⟩ := mem_replies.1 (List.mem_of_find?_eq_some found)
  exact ⟨k, List.find?_some found, by rw [reply_none, found]; rfl⟩

/-! ## The offer -/

/-- R296 to R299, R321: every instruction offered to the co-processors is one offer under its condition. -/
theorem exec_offered (k : Offered) (c : Cond) (st : State) :
    ∃ taken, exec (k.instr c) st = whenPassed c st (st.offer k.number (encode (k.instr c)) taken) := by
  cases k <;> exact ⟨_, rfl⟩

theorem offer_absent {s : State} {cp : Option (BitVec 4)} {w : Word} {k : Word → List Word → Result}
    (h : s.reply cp w = .absent) : s.offer cp w k = .next (s.raise .undefined) := by
  rw [State.offer, h]

theorem offer_busy {s : State} {cp : Option (BitVec 4)} {w : Word} {k : Word → List Word → Result}
    (h : s.reply cp w = .busy) : s.offer cp w k = .next { s with busyWait := true } := by
  rw [State.offer, h]

/-- R296: an instruction that a co-processor takes is what the processor then does for it. -/
theorem whenPassed_offer_ready {c : Cond} {s : State} {cp : Option (BitVec 4)} {w first : Word} {rest : List Word}
    {k : Word → List Word → Result} (passed : condPassed c s.psr = true) (ready : s.reply cp w = .ready first rest) :
    whenPassed c s (s.offer cp w k) = k first rest :=
  (whenPassed_passed passed).trans (offer_ready ready)

/-- Settles O43: the offer, and the rules that decide its answer. -/
theorem offeredInstructionsTrapOrWait : Obligations.OfferedInstructionsTrapOrWait := by
  refine ⟨fun k c st passed => ?_, fun st w => ⟨fun cp => reply_of_unanswered, fun a r b => reply_of_first,
    reply_none_absent, reply_none_busy, reply_none_ready⟩⟩
  obtain ⟨taken, runs⟩ := exec_offered k c st
  rw [runs, whenPassed_passed passed]
  refine ⟨fun absent => ?_, fun busy => offer_busy busy⟩
  rw [offer_absent absent, raise_undefined]

/-- Settles O44: the three instructions do nothing but record that they were taken. -/
theorem acceptedOperationsGoOn : Obligations.AcceptedOperationsGoOn := by
  intro k c st passed taken only
  obtain ⟨first, rest, ready⟩ := CpReply.isReady_iff.1 taken
  cases k with
  | cdp opc crn crd cp info crm =>
    exact whenPassed_offer_ready passed ready
  | undefinedA x y | undefinedB x y z =>
    exact whenPassed_offer_ready passed ready
  | ldc | stc | mrc | mcr => exact only.elim

/-! ## MRC and MCR -/

section

variable {c : Cond} {opc : BitVec 3} {crn rd cp : Reg} {info : BitVec 3} {crm : Reg} {st : State} {v : Word}
  {rest : List Word} (passed : condPassed c st.psr = true)
include passed

/-- R312: the co-processor's word goes to Rd. -/
theorem exec_mrc_register {q : PReg} (named : physOf st.psr.mode rd = some q) (free : st.unsettled rd = false)
    (ready : st.reply (some cp) (encode (.mrc c opc crn rd cp info crm)) = .ready v rest) :
    exec (.mrc c opc crn rd cp info crm) st =
      .next (wentOn (took st (.mrc c opc crn rd cp info crm) []) (st.regs.set q v) st.psr st.mem) := by
  refine (whenPassed_offer_ready passed ready).trans ?_
  dsimp only
  rw [if_neg (physOf_ne_fifteen named), guardWrites_open (by simpa using free), writeX_some (by simpa using named)]
  rfl

/-- R313: with Rd = 15 its top four bits go to the flags. -/
theorem exec_mrc_fifteen (ready : st.reply (some cp) (encode (.mrc c opc crn 15 cp info crm)) = .ready v rest) :
    exec (.mrc c opc crn 15 cp info crm) st =
      .next (wentOn (took st (.mrc c opc crn 15 cp info crm) []) st.regs
        { st.psr with n := v.getLsbD 31, z := v.getLsbD 30, c := v.getLsbD 29, v := v.getLsbD 28 } st.mem) := by
  exact (whenPassed_offer_ready passed ready).trans (if_pos rfl)

/-- R314: the word sent is Rd as it is read, R15 12 bytes on. -/
theorem exec_mcr_ready (ready : st.reply (some cp) (encode (.mcr c opc crn rd cp info crm)) = .ready v rest) :
    exec (.mcr c opc crn rd cp info crm) st =
      .next (wentOn (took st (.mcr c opc crn rd cp info crm) [st.readX .rd (st.r15full 12) rd]) st.regs st.psr st.mem) :=
  whenPassed_offer_ready passed ready

end

/-- Settles O45: the offer is taken, and Rd or R15 is what the word goes to or comes from. -/
theorem registerTransfersMoveOneWord : Obligations.RegisterTransfersMoveOneWord := by
  intro c opc crn rd cp info crm st v rest passed
  refine ⟨fun q named free => ⟨exec_mrc_register passed named free, fun ready => ?_⟩, exec_mrc_fifteen passed,
    fun ready => ?_⟩
  · rw [exec_mcr_ready passed ready, readX_some named free]
  · rw [exec_mcr_ready passed ready, readX_r15]

/-! ## The addresses of LDC and STC -/

/-- R307: the write-back of LDC and STC is that of the base register, or nothing. -/
theorem coBack_eq_withRegs (st : State) (u w : Bool) (rn : Reg) (off : BitVec 8) :
    st.coBack u w rn off =
      { st with regs := if w then setReg st.psr.mode st.regs rn (st.coIndex u rn off) else st.regs } := by
  cases w with
  | true => exact writeX_eq_setReg ..
  | false => rfl

section

variable {c : Cond} {p u n w : Bool} {rn crd cp : Reg} {off : BitVec 8} {st : State} {first : Word} {rest : List Word}
  (passed : condPassed c st.psr = true) (base : w = true → rn ≠ 15 ∧ st.unsettled rn = false)
include passed base

/-- R305, R307: LDC once a co-processor takes it. -/
theorem exec_ldc_ready (ready : st.reply (some cp) (encode (.ldc c p u n w rn crd cp off)) = .ready first rest) :
    exec (.ldc c p u n w rn crd cp off) st = .next (
      if illegalAddress (st.coAddr p u rn off) then
        (took (st.coBack u w rn off) (.ldc c p u n w rn crd cp off) []).raise .addressException
      else
        let reads := (st.coBack u w rn off).blockReads (st.coAddr p u rn off) (rest.length + 1)
        let v := took ((st.coBack u w rn off).busGaps (rest.length + 1)) (.ldc c p u n w rn crd cp off) (reads.filterMap id)
        if reads.any (·.isNone) then v.raise .dataAbort else v.advance) := by
  refine (whenPassed_offer_ready passed ready).trans ((if_neg fun h => (base h.2).1 h.1).trans ?_)
  exact guardWrites_open (by simpa using fun h => (base h).2)

/-- R306, R307: STC once a co-processor takes it. -/
theorem exec_stc_ready (ready : st.reply (some cp) (encode (.stc c p u n w rn crd cp off)) = .ready first rest) :
    exec (.stc c p u n w rn crd cp off) st = .next (
      if illegalAddress (st.coAddr p u rn off) then
        (took (st.coBack u w rn off) (.stc c p u n w rn crd cp off) []).raise .addressException
      else
        let r := (took (st.coBack u w rn off) (.stc c p u n w rn crd cp off) []).storeWords (st.coAddr p u rn off) 0
          (first :: rest)
        if r.2 then r.1.raise .dataAbort else r.1.advance) := by
  refine (whenPassed_offer_ready passed ready).trans ((if_neg fun h => (base h.2).1 h.1).trans ?_)
  exact guardWrites_open (by simpa using fun h => (base h).2)

end

/-- Settles O48: both instructions test the address after the write-back. -/
theorem coprocessorTransferAddressing : Obligations.CoprocessorTransferAddressing := by
  intro load c p u n w rn crd cp off st first rest i
  refine ⟨fun q settled named => readX_some named (unsettled_settled settled rn), readX_r15 .., ?index, rfl,
    fun passed ready base illegal => ?illegal⟩
  case index =>
    rw [State.coIndex, BitVec.mul_comm]
    rfl
  case illegal =>
    have trap : (took (st.coBack u w rn off) i []).raise .addressException =
        trapped { took st i [] with
          regs := if w then setReg st.psr.mode st.regs rn (st.coIndex u rn off) else st.regs } .r14Svc 8 .svc st.psr.f
          0x14 := by
      rw [coBack_eq_withRegs, raise_addressException]
      rfl
    rw [← trap]
    cases load with
    | true => exact (exec_ldc_ready passed base ready).trans (congrArg Host.Outcome.next (if_pos illegal))
    | false => exact (exec_stc_ready passed base ready).trans (congrArg Host.Outcome.next (if_pos illegal))

end Sys2Proof.Machine
end

section
/-! SUPPORT. The words of LDC and STC (O46, O47; spec/47_coprocessor.md R305 to R307, R311). -/

namespace Sys2Proof.Machine

open Sys2Proof.Spec

/-! ## The reads, aborted ones among them -/

/-- R263, R77: a run of reads, none for one that is aborted; the write-back before them takes no part. -/
theorem blockReads_withRegs (st : State) (g : Regs) (start : Word) (n : Nat) :
    ({ st with regs := g } : State).blockReads start n =
      (List.range n).map fun k => if blockAborts st start false k then none else some (blockRead st start k) := by
  refine List.map_congr_left fun k _ => ?_
  rw [busGaps_withRegs]
  have read : (st.busGaps (k + 1)).loadWord (blockAddr start k) false =
      if (st.busGaps (k + 1)).aborts (blockAccess st start false k) then none else some (blockRead st start k) := by
    rw [State.loadWord, busGaps_dataAccess, ← busWord_eq_blockRead]
    rfl
  rw [busGaps_aborts] at read
  exact read

/-- Keeping the values of those answered is answering for those kept. -/
theorem filterMap_id_map_ite {α β : Type} (b : α → Bool) (f : α → β) (l : List α) :
    (l.map fun k => if b k then none else some (f k)).filterMap id = (l.filter fun k => !b k).map f := by
  induction l with
  | nil => rfl
  | cons a l ih =>
    rw [List.map_cons, List.filter_cons]
    cases b a with
    | true => exact ih
    | false => exact congrArg (f a :: ·) ih

/-- R311: an access is aborted unless all are kept. -/
theorem any_isNone_iff_filter {α β : Type} (b : α → Bool) (f : α → β) (l : List α) :
    (l.map fun k => if b k then none else some (f k)).any (·.isNone) = true ↔
      (l.filter fun k => !b k).length ≠ l.length := by
  rw [Ne, List.length_filter_eq_length_iff, List.any_eq_true]
  constructor
  · rintro ⟨x, hx, none_⟩ all
    obtain ⟨k, hk, rfl⟩ := List.mem_map.1 hx
    have kept : b k = false := by simpa using all k hk
    rw [kept] at none_
    exact Bool.false_ne_true none_
  · intro notAll
    obtain ⟨k, hk, aborted⟩ : ∃ k ∈ l, b k = true := by simpa using notAll
    exact ⟨none, List.mem_map.2 ⟨k, hk, if_pos aborted⟩, rfl⟩

/-- Settles O46: the words answered are sent, and the abort is taken where some word was not. -/
theorem coprocessorLoadSendsTheWords : Obligations.CoprocessorLoadSendsTheWords := by
  intro c p u n w rn crd cp off st first rest i passed ready base start g ok v legal
  rw [exec_ldc_ready passed base ready, if_neg (ne_true_of_eq_false legal), coBack_eq_withRegs]
  dsimp only
  rw [blockReads_withRegs, filterMap_id_map_ite, busGaps_withRegs]
  have aborted := any_isNone_iff_filter (blockAborts st start false) (blockRead st start) (List.range (rest.length + 1))
  rw [List.length_range] at aborted
  have psr : v.psr = st.psr := busGaps_psr ..
  have goesOn : ({ v with regs := g } : State).advance = wentOn v g st.psr v.mem := by
    rw [← psr]
    rfl
  have traps : ({ v with regs := g } : State).raise .dataAbort =
      trapped { v with regs := g } .r14Svc 8 .svc st.psr.f 0x10 := by
    rw [raise_dataAbort, ← psr]
  by_cases all : ok.length = rest.length + 1
  · rw [if_neg (mt aborted.1 (not_not_intro all)), if_pos all, ← goesOn]
    rfl
  · rw [if_pos (aborted.2 all), if_neg all, ← traps]
    rfl

/-! ## The stores -/

/-- Settles O47: the stores are those of a block transfer, after the record of the instruction. -/
theorem coprocessorStoreWritesTheWords : Obligations.CoprocessorStoreWritesTheWords := by
  intro c p u n w rn crd cp off st first rest i passed ready base wf short start words g v legal
  have runs := exec_stc_ready passed base ready
  rw [if_neg (ne_true_of_eq_false legal), coBack_eq_withRegs] at runs
  have reported := blockStores_reports (took st i []) g start words
  have gaps : (took st i []).busGaps words.length = took (st.busGaps words.length) i [] := busGaps_accepted ..
  refine ⟨_, blockStores_storedInOrder (took st i []) g start words,
    blockStores_storedWords (st := took st i []) g start wf short, fun answered => ?_, fun aborted => ?_⟩
  · refine runs.trans (congrArg Host.Outcome.next ((if_neg fun report => ?_).trans ?_))
    · obtain ⟨k, inRange, aborts⟩ := reported.1 report
      exact ne_true_of_eq_false (answered k inRange) aborts
    · refine (advance_blockStores (took st i []) g start words).trans ?_
      rw [gaps]
      rfl
  · refine runs.trans (congrArg Host.Outcome.next ((if_pos (reported.2 aborted)).trans ?_))
    refine (raise_blockStores (took st i []) g start words).trans ?_
    rw [gaps]
    rfl

end Sys2Proof.Machine
end

section
/-! SUPPORT. The name of each refusal (O50; spec/93_implementation_defined.md U1, U5, U6, U10, U13, U14). -/

namespace Sys2Proof.Machine

open Sys2Proof.Spec

theorem unallocatedMul_refused (k : UnallocatedMul) {c : Cond} {st : State} (passed : condPassed c st.psr = true)
    (y : BitVec 4) : exec (k.instr c y) st = .refused .unallocatedMultiply := by
  cases k <;> exact unallocatedMultiply_refused passed

/-- U1: a single transfer may not write back to R15. -/
theorem exec_singleTransfer_fifteen {c : Cond} {st : State} (passed : condPassed c st.psr = true) {p w : Bool}
    (back : (!p || w) = true) (byte u : Bool) (rd : Reg) (o : Offset) :
    exec (loadInstr byte c p u w 15 rd o) st = .refused .transferWritesBackR15 ∧
      exec (storeInstr byte c p u w 15 rd o) st = .refused .transferWritesBackR15 := by
  have form : (15 : Reg) = 15 ∧ (p = false ∨ w = true) := ⟨rfl, writesBack_iff.1 back⟩
  exact ⟨(exec_loadInstr ..).trans (loadTransfer_refused passed form),
    (exec_storeInstr ..).trans (storeTransfer_refused passed form)⟩

/-- Settles O50: each form against the test that refuses it. -/
theorem refusedFormsAreNamed : Obligations.RefusedFormsAreNamed := by
  refine ⟨fun k c rn rd o st passed => ?tests, fun k c y st passed => unallocatedMul_refused k passed y, ?_⟩
  case tests => rw [exec_testOpS0, unallocatedTest_refused passed]
  intro c byte p u s w rn rd o list st off crd cp n first rest passed
  refine ⟨fun back => exec_singleTransfer_fifteen passed back byte u rd o, execLdm_emptyList passed,
    execStm_emptyList passed, fun some mode => ⟨fun absent => ?_, ?_⟩, fun ready => ?_, fun ready => ?_⟩
  · exact execLdm_userBankWriteBack passed some (loadsUserBank_iff.2 ⟨rfl, absent, mode⟩) rfl
  · exact execStm_userBankWriteBack passed some (storesUserBank_iff.2 ⟨rfl, mode⟩) rfl
  · exact execLdc_refused passed ⟨rfl, rfl⟩ (CpReply.isReady_iff.2 ⟨first, rest, ready⟩)
  · exact execStc_refused passed ⟨rfl, rfl⟩ (CpReply.isReady_iff.2 ⟨first, rest, ready⟩)

end Sys2Proof.Machine
end

section
/-! SUPPORT. LDM with a data abort (O38; spec/45_block_data_transfer.md R277, D18): the accesses before the abort, the
registers they load, and the trap. -/

namespace Sys2Proof.Machine

open Sys2Proof.Spec

/-- The index of the first read that is aborted. -/
theorem findIdx_blockReads {b : Nat → Bool} {f : Nat → Word} {n j : Nat} (inRange : j < n) (aborted : b j = true)
    (before : ∀ k, k < j → b k = false) :
    ((List.range n).map fun k => if b k then none else some (f k)).findIdx? (·.isNone) = some j := by
  rw [List.findIdx?_eq_some_iff_getElem]
  refine ⟨by simpa using inRange, ?_, fun k hk => ?_⟩
  · simp [aborted]
  · simp [before k hk]

/-- The words before the first abort, beside their registers, are those of the block. -/
theorem take_zip_reads (st : State) (start : Word) (regs : List Reg) {n j : Nat} (hn : n ≤ j)
    (before : ∀ k, k < j → blockAborts st start false k = false) :
    (regs.zip (((List.range regs.length).map fun k =>
      if blockAborts st start false k then none else some (blockRead st start k)).map (·.getD 0))).take n =
      (blockLoads st start regs).take n := by
  refine List.ext_getElem? fun k => ?_
  rw [List.getElem?_take, List.getElem?_take]
  by_cases early : k < n
  · rw [if_pos early, if_pos early, blockLoads_getElem?, List.zip, List.getElem?_zipWith, List.getElem?_map,
      List.getElem?_map]
    by_cases inList : k < regs.length
    · rw [List.getElem?_range inList, List.getElem?_eq_getElem inList]
      simp [before k (by omega)]
    · rw [List.getElem?_eq_none (Nat.le_of_not_lt inList)]
      rfl
  · rw [if_neg early, if_neg early]

/-! ## What is loaded -/

/-- R277: the first `n` words of the list, the base's left out. -/
def loadsBefore (st : State) (m : Mode) (start : Word) (rn : Reg) (regs : List Reg) (n : Nat) : List (Reg × Word) :=
  ((blockLoads st start regs).take n).filter fun e => physOf m e.1 != physOf st.psr.mode rn

section

variable {st : State} {m : Mode} {start : Word} {rn : Reg} {list : BitVec 16} {n : Nat}

theorem mem_loadsBefore {e : Reg × Word} :
    e ∈ loadsBefore st m start rn (listed list) n ↔
      (∃ k, k < n ∧ (listed list)[k]? = some e.1 ∧ e.2 = blockRead st start k) ∧
        physOf m e.1 ≠ physOf st.psr.mode rn := by
  rw [loadsBefore, List.mem_filter, bne_iff_ne, List.mem_iff_getElem?]
  refine and_congr_left fun _ => exists_congr fun k => ?_
  rw [List.getElem?_take, blockLoads_getElem?]
  obtain ⟨r, v⟩ := e
  by_cases early : k < n
  · rw [if_pos early, Option.map_eq_some_iff]
    constructor
    · rintro ⟨q, place, same⟩
      cases same
      exact ⟨early, place, rfl⟩
    · rintro ⟨-, place, rfl⟩
      exact ⟨r, place, rfl⟩
  · simp [early]

/-- R266: a register listed earlier is a lower one. -/
theorem listed_place_lt {i k : Nat} {r q : Reg} (before : i < k) (hi : (listed list)[i]? = some r)
    (hk : (listed list)[k]? = some q) : r.toNat < q.toNat := by
  obtain ⟨inI, rfl⟩ := List.getElem?_eq_some_iff.1 hi
  obtain ⟨inK, rfl⟩ := List.getElem?_eq_some_iff.1 hk
  exact List.pairwise_iff_getElem.1 (listed_rising list) i k inI inK before

/-- R266: no register is listed twice. -/
theorem listed_place_inj {i k : Nat} {r : Reg} (hi : (listed list)[i]? = some r) (hk : (listed list)[k]? = some r) :
    i = k := by
  obtain before | same | after := Nat.lt_trichotomy i k
  · exact absurd (listed_place_lt before hi hk) (Nat.lt_irrefl _)
  · exact same
  · exact absurd (listed_place_lt after hk hi) (Nat.lt_irrefl _)

theorem loadsBefore_distinct :
    (loadsBefore st m start rn (listed list) n).Pairwise fun a b => a.1 ≠ b.1 := by
  refine List.Pairwise.sublist (List.filter_sublist.trans (List.take_sublist ..)) ?_
  rw [← List.pairwise_map (R := (· ≠ ·)), blockLoads_map_fst]
  exact (listed_rising list).imp fun rises same => Nat.ne_of_lt rises (congrArg _ same)

variable {v : State} {q : PReg}

/-- R277: the base keeps what the write-back left in it. -/
theorem loadsBefore_base (base : physOf st.psr.mode rn = some q) :
    (v.loadRegs m (loadsBefore st m start rn (listed list) n)).regs.get q = v.regs.get q :=
  loadRegs_get_other fun _ he named => (mem_loadsBefore.1 he).2 (named.trans base.symm)

/-- R277: a register before the `n`-th place is loaded. -/
theorem loadsBefore_loaded {k : Nat} {r : Reg} (notBase : physOf st.psr.mode rn ≠ some q)
    (place : (listed list)[k]? = some r) (named : physOf m r = some q) (early : k < n) :
    (v.loadRegs m (loadsBefore st m start rn (listed list) n)).regs.get q = blockRead st start k :=
  loadRegs_get (mem_loadsBefore.2 ⟨⟨k, early, place, rfl⟩, fun same => notBase (same ▸ named)⟩) loadsBefore_distinct named

/-- R277: one from there on keeps its value. -/
theorem loadsBefore_kept {k : Nat} {r : Reg} (place : (listed list)[k]? = some r) (named : physOf m r = some q)
    (late : n ≤ k) : (v.loadRegs m (loadsBefore st m start rn (listed list) n)).regs.get q = v.regs.get q := by
  refine loadRegs_get_other fun e he namedToo => ?_
  obtain ⟨⟨i, early, placeToo, -⟩, -⟩ := mem_loadsBefore.1 he
  rw [physOf_inj namedToo named] at placeToo
  have := listed_place_inj placeToo place
  omega

/-- R277: and so does one that is not listed. -/
theorem loadsBefore_unlisted (unlisted : ∀ r, r ∈ listed list → physOf m r ≠ some q) :
    (v.loadRegs m (loadsBefore st m start rn (listed list) n)).regs.get q = v.regs.get q := by
  refine loadRegs_get_other fun e he => ?_
  obtain ⟨⟨i, -, place, -⟩, -⟩ := mem_loadsBefore.1 he
  exact unlisted e.1 (List.mem_of_getElem? place)

end

/-- R264: the write-back changes the base alone. -/
theorem blockBackedRegs_get_other {st : State} {u w : Bool} {rn : Reg} {list : BitVec 16} {q : PReg}
    (notBase : physOf st.psr.mode rn ≠ some q) : (blockBackedRegs st u w rn list).get q = st.regs.get q := by
  have written := writeX_get st rn (st.blockLast u rn list) q
  rw [writeX_eq_setReg, if_neg notBase] at written
  cases w with
  | true => exact written
  | false => rfl

/-! ## The instruction -/

/-- D18: the model draws whether the register just before the abort is loaded. -/
def abortPlace (st : State) (j : Nat) : Nat :=
  if Config.freeBit st.stamp .beforeAbort then j else j - 1

theorem abortPlace_cases (st : State) (j : Nat) : abortPlace st j = j ∨ abortPlace st j = j - 1 :=
  drawn_eq_or_eq ..

/-- R277: an LDM that is first aborted at its `j`-th access. -/
theorem execLdm_aborted {c : Cond} {p u s w : Bool} {rn : Reg} {list : BitVec 16} {st : State} {j : Nat}
    (passed : condPassed c st.psr = true) (some : list ≠ 0)
    (meant : (st.loadsUserBank s list && w) = false) (free : w = true → st.unsettled rn = false)
    (legal : illegalAddress (st.blockFirst p u rn list) = false) (inList : j < (listed list).length)
    (aborted : blockAborts st (st.blockFirst p u rn list) false j = true)
    (before : ∀ k, k < j → blockAborts st (st.blockFirst p u rn list) false k = false) :
    let m := if st.loadsUserBank s list then Mode.usr else st.psr.mode
    let done := loadsBefore st m (st.blockFirst p u rn list) rn (listed list) (abortPlace st j)
    execLdm c p u s w rn list st = st.guardWrites (done.map (·.1))
      (.next (({ st.busGaps (listed list).length with regs := blockBackedRegs st u w rn list } : State).loadRegs m
        done |>.raise .dataAbort)) := by
  have early : abortPlace st j ≤ j := by have := abortPlace_cases st j; omega
  rw [execLdm, whenPassed_passed passed, if_neg some, meant, if_neg Bool.false_ne_true]
  dsimp only
  rw [guardWrites_open (by simpa using free), legal, if_neg Bool.false_ne_true, blockBack_eq_withRegs, blockReads_withRegs,
    findIdx_blockReads inList aborted before, busGaps_withRegs]
  dsimp only
  rw [State.loadedBeforeAbort, ← abortPlace, take_zip_reads st _ _ early before, ← loadsBefore]

/-- Settles O38: the registers loaded before the abort, place by place. -/
theorem abortedLoadMultipleKeepsTheRest : Obligations.AbortedLoadMultipleKeepsTheRest := by
  intro c p u s w rn list st j passed settled some user m meant legal inList aborted before base
  have notRefused : (st.loadsUserBank s list && w) = false := Bool.and_eq_false_imp.2 meant
  have ends := execLdm_aborted passed some notRefused (fun _ => unsettled_settled settled rn) legal inList aborted before
  let v : State := { st.busGaps (listed list).length with regs := base }
  let done := loadsBefore st m (st.blockFirst p u rn list) rn (listed list) (abortPlace st j)
  refine ⟨(v.loadRegs m done).regs, ?runs, fun q => ?_⟩
  case runs =>
    refine ends.trans ((guardWrites_settled settled ..).trans (congrArg Host.Outcome.next ?_))
    refine (congrArg (State.raise · .dataAbort) (loadRegs_eq v m done)).trans ?_
    rw [raise_dataAbort, ← busGaps_psr st (listed list).length]
  have place := abortPlace_cases st j
  split
  next isBase => exact loadsBefore_base isBase
  next notBase =>
    have kept : base.get q = st.regs.get q := blockBackedRegs_get_other notBase
    refine ⟨fun k r listed named => ⟨fun late => ?_, fun early => ?_, fun last => ?_⟩, fun unlisted => ?_⟩
    · exact (loadsBefore_kept listed named (by omega)).trans kept
    · exact loadsBefore_loaded notBase listed named (by omega)
    · obtain h | h := place
      · exact .inr (loadsBefore_loaded notBase listed named (by omega))
      · exact .inl ((loadsBefore_kept listed named (by omega)).trans kept)
    · exact (loadsBefore_unlisted unlisted).trans kept

end Sys2Proof.Machine
end

section
/-! SUPPORT. The unsettled register bank (O51; spec/70_reset_and_hazards.md R400, R401): a write of one of its registers is
refused, a read of one is free. -/

namespace Sys2Proof.Machine

open Sys2Proof.Spec

/-! ## Which registers -/

theorem unsettled13_iff {s : State} (bank : s.bank = .unsettled13) (r : Reg) :
    s.unsettled r = true ↔ r = 13 ∨ r = 14 := by
  rw [State.unsettled, bank]
  simp

theorem unsettled8_iff {s : State} (bank : s.bank = .unsettled8) (r : Reg) :
    s.unsettled r = true ↔ 8 ≤ r.toNat ∧ r.toNat ≤ 14 := by
  rw [State.unsettled, bank]
  simp

/-- R400: R15 is never among them. -/
theorem ne_fifteen_of_unsettled {s : State} {r : Reg} (h : s.unsettled r = true) : r ≠ 15 := by
  rintro rfl
  exact ne_true_of_eq_false (unsettled_fifteen s) h

/-- U11: a read of an unsettled register is a draw. -/
theorem readX_unsettled {s : State} {r : Reg} (h : s.unsettled r = true) (who : Config.Draw) (r15 : Word) :
    s.readX who r15 r = Config.freeWord s.stamp who := by
  obtain ⟨p, named⟩ := Option.isSome_iff_exists.1 (physOf_isSome (m := s.psr.mode) (ne_fifteen_of_unsettled h))
  simp [State.readX, State.readBank, named, h]

/-- U11, U12: a write of an unsettled register is refused. -/
theorem guardWrites_refused {s : State} {r : Reg} (h : s.unsettled r = true) {rs : List Reg} (mem : r ∈ rs) (k : Result) :
    s.guardWrites rs k = .refused .bankUnsettled :=
  if_pos (List.any_eq_true.2 ⟨r, mem, h⟩)

section

variable {s : State} {r : Reg} (h : s.unsettled r = true)
include h

/-! ## Results and products -/

theorem writeResult_unsettled (f : Bool) (v : Word) (flags : Psr) :
    s.writeResult f r v flags = .refused .bankUnsettled := by
  rw [State.writeResult, if_neg (ne_fifteen_of_unsettled h), guardWrites_refused h (List.mem_singleton.2 rfl)]

theorem writeProduct_unsettled (f : Bool) (rm : Reg) (v : Word) :
    s.writeProduct f r rm v = .refused .bankUnsettled := by
  rw [State.writeProduct, if_neg (ne_fifteen_of_unsettled h), guardWrites_refused h (List.mem_singleton.2 rfl)]

variable {c : Cond} (passed : condPassed c s.psr = true)
include passed

/-! ## Single transfers -/

/-- What an LDR or STR writes is refused after its access (R400, U12). -/
theorem exec_loadInstr_unsettled {byte p u w : Bool} {rn rd : Reg} {o : Offset}
    (base : writesBack p w = true → rn ≠ 15) (writes : r ∈ (if writesBack p w then [rn, rd] else [rd]))
    (legal : illegalAddress (s.transferAddr p u rn o) = false) (answered : singleAborts s byte false p u w rn o = false) :
    exec (loadInstr byte c p u w rn rd o) s = .refused .bankUnsettled := by
  rw [exec_loadInstr_answered passed base legal answered, State.finishLoad,
    guardWrites_refused (by rwa [busGap_unsettled]) writes]

theorem exec_storeInstr_unsettled {byte p u w : Bool} {rd : Reg} {o : Offset} (back : writesBack p w = true)
    (legal : illegalAddress (s.transferAddr p u r o) = false) (answered : singleAborts s byte true p u w r o = false) :
    exec (storeInstr byte c p u w r rd o) s = .refused .bankUnsettled := by
  obtain ⟨t, accepted⟩ : ∃ t, s.storeAccess (singleWrite byte) p u w r rd o = some t := by
    rw [← Option.ne_none_iff_exists', storeAccess_single, Ne, writeAccess_none, busGap_aborts]
    exact ne_true_of_eq_false answered
  rw [exec_storeInstr, storeTransfer, whenPassed_passed passed, if_neg fun e => ne_fifteen_of_unsettled h e.1, legal,
    if_neg Bool.false_ne_true, accepted]
  exact (if_pos back).trans (guardWrites_refused h (List.mem_singleton.2 rfl) _)

/-- R244, R400: an address exception or a data abort comes first. -/
theorem exec_singleTransfer_unsettled {store byte p u w : Bool} {rn rd : Reg} {o : Offset}
    (writes : (store = false ∧ rd = r ∧ ((!p || w) = true → rn ≠ 15)) ∨ (rn = r ∧ (!p || w) = true)) :
    exec (if store then storeInstr byte c p u w rn rd o else loadInstr byte c p u w rn rd o) s =
      if illegalAddress (s.transferAddr p u rn o) then .next (trapped s .r14Svc 8 .svc s.psr.f 0x14)
      else if singleAborts s byte store p u w rn o then .next (trapped s.busGap .r14Svc 8 .svc s.psr.f 0x10)
      else .refused .bankUnsettled := by
  have base : (!p || w) = true → rn ≠ 15 := by
    obtain ⟨-, -, base⟩ | ⟨rfl, -⟩ := writes
    · exact base
    · exact fun _ => ne_fifteen_of_unsettled h
  by_cases illegal : illegalAddress (s.transferAddr p u rn o) = true
  · rw [if_pos illegal]
    exact addressExceptionsChangeNothing store byte c p u w rn rd o s passed base illegal
  have legal := Bool.eq_false_iff.2 illegal
  rw [if_neg illegal]
  by_cases aborted : singleAborts s byte store p u w rn o = true
  · rw [if_pos aborted]
    exact abortedSingleTransfersChangeNothing store byte c p u w rn rd o s passed base legal aborted
  have answered := Bool.eq_false_iff.2 aborted
  rw [if_neg aborted]
  cases store with
  | false =>
    refine exec_loadInstr_unsettled h passed base ?_ legal answered
    obtain ⟨-, rfl, -⟩ | ⟨rfl, back⟩ := writes
    · split <;> simp
    · rw [show writesBack p w = true from back, if_pos rfl]
      exact List.mem_cons_self
  | true =>
    obtain ⟨isLoad, -⟩ | ⟨rfl, back⟩ := writes
    · exact Bool.noConfusion isLoad
    · exact exec_storeInstr_unsettled h passed back legal answered

/-! ## Block transfers -/

/-- R400: the base of a block transfer with W = 1, the form being one with a meaning. -/
theorem exec_blockTransfer_unsettledBase {p u f : Bool} {list : BitVec 16} (some : list ≠ 0)
    (form : f = true → s.psr.mode = .usr) :
    exec (.ldm c p u f true r list) s = .refused .bankUnsettled ∧
      exec (.stm c p u f true r list) s = .refused .bankUnsettled := by
  have loads : (s.loadsUserBank f list && true) = false := by
    rw [Bool.and_true, Bool.eq_false_iff]
    intro user
    obtain ⟨forced, -, mode⟩ := loadsUserBank_iff.1 user
    exact mode (form forced)
  have stores : (s.storesUserBank f && true) = false := by
    rw [Bool.and_true, Bool.eq_false_iff]
    intro user
    obtain ⟨forced, mode⟩ := storesUserBank_iff.1 user
    exact mode (form forced)
  constructor
  · rw [exec_ldm, execLdm, whenPassed_passed passed, if_neg some, loads, if_neg Bool.false_ne_true]
    exact guardWrites_refused h (List.mem_singleton.2 rfl) _
  · rw [exec_stm, execStm, whenPassed_passed passed, if_neg some, stores, if_neg Bool.false_ne_true]
    exact guardWrites_refused h (List.mem_singleton.2 rfl) _

/-- R400: a listed register of an LDM that no access aborts. -/
theorem exec_ldm_unsettled {p u f w : Bool} {rn : Reg} {list : BitVec 16} (member : list.getLsbD r.toNat = true)
    (form : w = true → s.unsettled rn = false ∧ (f = true → s.psr.mode = .usr ∨ list.getLsbD 15 = true))
    (legal : illegalAddress (s.blockFirst p u rn list) = false)
    (answered : ∀ k, k < (listed list).length → blockAborts s (s.blockFirst p u rn list) false k = false) :
    exec (.ldm c p u f w rn list) s = .refused .bankUnsettled := by
  have some : list ≠ 0 := by
    rintro rfl
    simp at member
  have meant : (s.loadsUserBank f list && w) = false := by
    rw [Bool.eq_false_iff, Ne, Bool.and_eq_true]
    rintro ⟨user, back⟩
    obtain ⟨forced, absent, mode⟩ := loadsUserBank_iff.1 user
    obtain inUser | set := (form back).2 forced
    · exact mode inUser
    · exact ne_true_of_eq_false absent set
  have noneAborted : ((List.range (listed list).length).map fun k =>
      Option.some (blockRead s (s.blockFirst p u rn list) k)).findIdx? (·.isNone) = none := by
    rw [List.findIdx?_map, List.findIdx?_eq_none_iff]
    exact fun _ _ => rfl
  rw [exec_ldm, execLdm, whenPassed_passed passed, if_neg some, meant, if_neg Bool.false_ne_true]
  dsimp only
  rw [guardWrites_open (by simpa using fun back => (form back).1), legal, if_neg Bool.false_ne_true, blockBack_eq_withRegs,
    blockReads_answered answered, noneAborted]
  exact guardWrites_refused h (mem_listed.2 member) _

/-! ## The link and the co-processors -/

omit h in
/-- R400: R14 as the link of BL. -/
theorem exec_bl_unsettled (h : s.unsettled 14 = true) (off : BitVec 24) :
    exec (.bl c off) s = .refused .bankUnsettled := by
  rw [exec_bl, execBl, whenPassed_passed passed, guardWrites_refused h (List.mem_singleton.2 rfl)]

/-- R400: Rd of an MRC that a co-processor takes. -/
theorem exec_mrc_unsettled {opc : BitVec 3} {crn cp : Reg} {info : BitVec 3} {crm : Reg}
    (taken : (s.reply (some cp) (encode (.mrc c opc crn r cp info crm))).isReady = true) :
    exec (.mrc c opc crn r cp info crm) s = .refused .bankUnsettled := by
  obtain ⟨first, rest, ready⟩ := CpReply.isReady_iff.1 taken
  exact (whenPassed_offer_ready passed ready).trans ((if_neg (ne_fifteen_of_unsettled h)).trans
    (guardWrites_refused h (List.mem_singleton.2 rfl) _))

/-- R400: the base of an LDC or STC with W = 1 that a co-processor takes. -/
theorem exec_coprocessorTransfer_unsettled (p u n : Bool) (crd cp : Reg) (off : BitVec 8) :
    ((s.reply (some cp) (encode (.ldc c p u n true r crd cp off))).isReady = true →
      exec (.ldc c p u n true r crd cp off) s = .refused .bankUnsettled) ∧
    ((s.reply (some cp) (encode (.stc c p u n true r crd cp off))).isReady = true →
      exec (.stc c p u n true r crd cp off) s = .refused .bankUnsettled) := by
  constructor
  all_goals
    intro taken
    obtain ⟨first, rest, ready⟩ := CpReply.isReady_iff.1 taken
    exact (whenPassed_offer_ready passed ready).trans ((if_neg fun form => ne_fifteen_of_unsettled h form.1).trans
      (guardWrites_refused h (List.mem_singleton.2 rfl) _))

end

/-- Settles O51: the reads and, family by family, the guarded writes. -/
theorem unsettledRegistersAreNotAccessed : Obligations.UnsettledRegistersAreNotAccessed := by
  intro s r
  refine ⟨fun bank => unsettled13_iff bank r, fun bank => unsettled8_iff bank r, fun bank => unsettled_settled bank r,
    fun h => ⟨fun who r15 g => ?reads, fun c passed => ?writes⟩⟩
  case reads => exact (readX_unsettled (s := { s with regs := g }) h who r15).trans (readX_unsettled h who r15).symm
  case writes =>
    refine ⟨fun k f rn o => ?_, fun k f rn o => ?_, fun f rn rs rm => ⟨?_, ?_⟩,
      fun store byte p u w rn rd o => exec_singleTransfer_unsettled h passed,
      fun p u f list => exec_blockTransfer_unsettledBase h passed,
      fun p u f w rn list => exec_ldm_unsettled h passed, ?_,
      fun opc crn cp info crm => exec_mrc_unsettled h passed,
      exec_coprocessorTransfer_unsettled h passed⟩
    · exact (exec_logicalOp ..).trans ((logical_passed k.result passed ..).trans (writeResult_unsettled h ..))
    · exact (exec_arithOp ..).trans ((arithmetic_passed k passed ..).trans (writeResult_unsettled h ..))
    · exact (exec_mul_passed passed ..).trans (writeProduct_unsettled h ..)
    · exact (exec_mla_passed passed ..).trans (writeProduct_unsettled h ..)
    · rintro rfl off
      exact exec_bl_unsettled passed h off

end Sys2Proof.Machine
end

section
/-! SUPPORT. What an instruction writes lies within what the model says it could write (entry 18): family by family, what
RESET may disturb bounds what `exec` does (O58; spec/70_reset_and_hazards.md R391). -/

namespace Sys2Proof.Machine

open Sys2Proof.Spec

/-! ## Writes within a list of registers -/

/-- The registers `h` differ from `g` in those of `l` alone. -/
def RegsWithin (g h : Regs) (l : List PReg) : Prop :=
  ∀ q, h.get q = g.get q ∨ q ∈ l

theorem RegsWithin.refl {g : Regs} {l : List PReg} : RegsWithin g g l := fun _ => .inl rfl

theorem RegsWithin.trans {f g h : Regs} {l : List PReg} (a : RegsWithin f g l) (b : RegsWithin g h l) :
    RegsWithin f h l := by
  intro q
  obtain e | e := b q
  · rw [e]
    exact a q
  · exact .inr e

theorem regsWithin_set {g : Regs} {p : PReg} {l : List PReg} (v : Word) (h : p ∈ l) : RegsWithin g (g.set p v) l := by
  intro q
  by_cases e : q = p
  · exact .inr (e ▸ h)
  · exact .inl (Regs.get_set_other g v e)

theorem regsWithin_writeX {s : State} {r : Reg} {l : List PReg} (v : Word)
    (h : ∀ q, physOf s.psr.mode r = some q → q ∈ l) : RegsWithin s.regs (s.writeX r v).regs l := by
  intro q
  rw [writeX_get]
  by_cases named : physOf s.psr.mode r = some q
  · exact .inr (h q named)
  · exact .inl (if_neg named)

theorem regsWithin_loadRegs {s : State} {m : Mode} {loads : List (Reg × Word)} {l : List PReg}
    (h : ∀ e ∈ loads, ∀ q, physOf m e.1 = some q → q ∈ l) : RegsWithin s.regs (s.loadRegs m loads).regs l := by
  intro q
  by_cases named : ∃ e ∈ loads, physOf m e.1 = some q
  · obtain ⟨e, he, named⟩ := named
    exact .inr (h e he q named)
  · exact .inl (loadRegs_get_other fun e he same => named ⟨e, he, same⟩)

/-- What number `r` reaches: the register it names, in any mode while the bank is unsettled (R400). -/
theorem mem_reached {s : State} {m : Mode} {r : Reg} {q : PReg} :
    q ∈ s.reached m r ↔ ∃ m', physOf m' r = some q ∧ (s.unsettled r = false → m' = m) := by
  have modes (m' : Mode) : m' ∈ [Mode.usr, .fiq, .irq, .svc] := by cases m' <;> decide
  unfold State.reached
  cases h : s.unsettled r with
  | true => simp [modes]
  | false => simp [Option.mem_toList]

theorem mem_reached_of_named {s : State} {m : Mode} {r : Reg} {q : PReg} (named : physOf m r = some q) :
    q ∈ s.reached m r :=
  mem_reached.2 ⟨m, named, fun _ => rfl⟩

/-! ## Effects within what is written -/

/-- From `s` to `t` nothing is written but the registers and flags of `w`, and memory becomes `mem`. -/
structure WritesWithin (s t : State) (w : Written) (mem : List Host.Cell) : Prop where
  regs : RegsWithin s.regs t.regs w.regs
  nzc : w.nzc = false → t.psr.n = s.psr.n ∧ t.psr.z = s.psr.z ∧ t.psr.c = s.psr.c
  v : w.v = false → t.psr.v = s.psr.v
  mem : t.mem = mem

section

variable {s t : State} {w : Written} {mem : List Host.Cell}

theorem writesWithin_of_psr_eq (regs : RegsWithin s.regs t.regs w.regs) (psr : t.psr = s.psr) (stored : t.mem = mem) :
    WritesWithin s t w mem where
  regs := regs
  nzc _ := by rw [psr]; exact ⟨rfl, rfl, rfl⟩
  v _ := by rw [psr]
  mem := stored

theorem writesWithin_advance (s : State) (w : Written) : WritesWithin s s.advance w s.mem :=
  writesWithin_of_psr_eq .refl rfl rfl

/-- R340: an exception keeps the flags and writes its link. -/
theorem writesWithin_raise {u : State} {e : Exception} (regs : RegsWithin s.regs u.regs w.regs) (psr : u.psr = s.psr)
    (link : e.link ∈ w.regs) (stored : u.mem = mem) : WritesWithin s (u.raise e) w mem where
  regs := regs.trans (regsWithin_set _ link)
  nzc _ := by rw [raise_psr, psr]; exact ⟨rfl, rfl, rfl⟩
  v _ := by rw [raise_psr, psr]
  mem := stored

end

/-! ## Data processing and multiply -/

section

variable {st t : State} {s : Bool} {rd : Reg}

theorem named_mem_resultWritten (logical : Bool) (q : PReg) (named : physOf st.psr.mode rd = some q) :
    q ∈ (st.resultWritten logical s rd).regs :=
  mem_reached_of_named named

/-- R175, R177, R178: a result goes to Rd, the flags where S is set; a logical operation keeps V. -/
theorem writesWithin_writeResult {result : Word} {flags : Psr} {logical : Bool}
    (h : st.writeResult s rd result flags = .next t) (keepsV : logical = true → flags.v = st.psr.v) :
    WritesWithin st t (st.resultWritten logical s rd) st.mem := by
  rcases writeResult_next h with ⟨rfl, rfl⟩ | ⟨-, -, rfl⟩
  · cases s with
    | false => exact writesWithin_of_psr_eq .refl rfl rfl
    | true =>
      refine ⟨.refl, nofun, fun whole => ?_, rfl⟩
      simp [State.resultWritten] at whole
  · have regs := regsWithin_writeX result (named_mem_resultWritten (st := st) (s := s) (rd := rd) logical)
    cases s with
    | false => exact writesWithin_of_psr_eq regs rfl (writeX_mem ..)
    | true =>
      refine ⟨regs, nofun, fun v => ?_, writeX_mem ..⟩
      obtain ⟨isLogical, -⟩ : logical = true ∧ rd ≠ 15 := by simpa [State.resultWritten] using v
      exact keepsV isLogical

theorem writesWithin_logical {f : Word → Word → Word} {c : Cond} {rn : Reg} {o : Op2}
    (h : logical f c s rn rd o st = .next t) : WritesWithin st t (st.resultWritten true s rd) st.mem := by
  rcases logical_next h with rfl | ⟨result, flags, rfl, h⟩
  · exact writesWithin_advance ..
  · exact writesWithin_writeResult h fun _ => rfl

theorem writesWithin_arithmetic {f : Addends} {c : Cond} {rn : Reg} {o : Op2}
    (h : arithmetic f c s rn rd o st = .next t) : WritesWithin st t (st.resultWritten false s rd) st.mem := by
  rcases arithmetic_next h with rfl | ⟨result, a, b, cin, h⟩
  · exact writesWithin_advance ..
  · exact writesWithin_writeResult h nofun

/-- R179: a test writes the flags; with Rd = 15 the PSR. -/
theorem writesWithin_writeTest {result : Word} {flags : Psr} {logical : Bool} (h : st.writeTest rd result flags = .next t)
    (keepsV : logical = true → flags.v = st.psr.v) : WritesWithin st t (testWritten logical rd) st.mem := by
  rcases writeTest_next h with ⟨rfl, rfl⟩ | ⟨-, rfl⟩
  · refine ⟨.refl, nofun, fun whole => ?_, rfl⟩
    simp [testWritten] at whole
  · refine ⟨.refl, nofun, fun v => ?_, rfl⟩
    obtain ⟨isLogical, -⟩ : logical = true ∧ rd ≠ 15 := by simpa [testWritten] using v
    exact keepsV isLogical

theorem writesWithin_testLogical {f : Word → Word → Word} {c : Cond} {rn : Reg} {o : Op2}
    (h : testLogical f c rn rd o st = .next t) : WritesWithin st t (testWritten true rd) st.mem := by
  rcases testLogical_next h with rfl | ⟨result, sc, h⟩
  · exact writesWithin_advance ..
  · exact writesWithin_writeTest h fun _ => rfl

theorem writesWithin_testArithmetic {f : Addends} {c : Cond} {rn : Reg} {o : Op2}
    (h : testArithmetic f c rn rd o st = .next t) : WritesWithin st t (testWritten false rd) st.mem := by
  rcases testArithmetic_next h with rfl | ⟨result, a, b, cin, h⟩
  · exact writesWithin_advance ..
  · exact writesWithin_writeTest h nofun

/-- R223 to R225: a product goes to Rd, N, Z and C where S is set, V too where Rd is 15. -/
theorem writesWithin_writeProduct {rm : Reg} {product : Word} (h : st.writeProduct s rd rm product = .next t) :
    WritesWithin st t (st.productWritten s rd) st.mem := by
  rcases writeProduct_next h with ⟨rfl, rfl⟩ | ⟨-, -, v, flags, which, rfl⟩
  · cases s with
    | false => exact writesWithin_of_psr_eq .refl rfl rfl
    | true => exact ⟨.refl, nofun, nofun, rfl⟩
  · have regs := regsWithin_writeX (s := st) (r := rd) (l := (st.productWritten s rd).regs) v fun _ => mem_reached_of_named
    cases s with
    | false => exact writesWithin_of_psr_eq regs rfl (writeX_mem ..)
    | true =>
      have keepsV : flags.v = st.psr.v := by
        obtain ⟨-, rfl⟩ | ⟨-, -, rfl⟩ := which <;> rfl
      exact ⟨regs, nofun, fun _ => keepsV, writeX_mem ..⟩

end

/-! ## Single data transfer -/

section

variable {st t : State}

theorem named_mem_transferWritten {rs : List Reg} {r : Reg} (h : r ∈ rs) (q : PReg)
    (named : physOf st.psr.mode r = some q) : q ∈ (st.transferWritten rs).regs :=
  List.mem_append_left _ (List.mem_flatMap.2 ⟨r, h, mem_reached_of_named named⟩)

theorem link_mem_transferWritten (rs : List Reg) {e : Exception} (h : e.link = .r14Svc) :
    e.link ∈ (st.transferWritten rs).regs :=
  List.mem_append_right _ (List.mem_singleton.2 h)

variable (quiet : st.now.between = [])
include quiet

/-- R232, R233: a load writes Rd, its base where that is written back, and R14_svc by an exception. -/
theorem writesWithin_loadTransfer {read : State → Addr → Bool → Option Word} {c : Cond} {p u w : Bool} {rn rd : Reg}
    {o : Offset} (h : loadTransfer read c p u w rn rd o st = .next t) :
    WritesWithin st t (st.transferWritten (if writesBack p w then [rd, rn] else [rd])) st.mem := by
  rcases loadTransfer_next h with rfl | rfl | rfl | ⟨v, -, -, -, h⟩
  · exact writesWithin_advance ..
  · exact writesWithin_raise .refl rfl (link_mem_transferWritten _ rfl) rfl
  · rw [busGap_none quiet]
    exact writesWithin_raise .refl rfl (link_mem_transferWritten _ rfl) rfl
  rw [busGap_none quiet] at h
  generalize writesBack p w = back at h ⊢
  generalize st.transferIndex u rn o = idx at h
  let within := (st.transferWritten (if back then [rd, rn] else [rd])).regs
  have loaded (x : Word) : RegsWithin st.regs (st.writeX rd x).regs within :=
    regsWithin_writeX x (named_mem_transferWritten (by split <;> simp))
  have based : RegsWithin st.regs (if back then st.writeX rn idx else st).regs within := by
    cases back with
    | false => exact .refl
    | true => exact regsWithin_writeX idx (named_mem_transferWritten (by simp))
  have basedPsr : (if back then st.writeX rn idx else st).psr = st.psr := by split <;> simp
  have basedMem : (if back then st.writeX rn idx else st).mem = st.mem := by split <;> simp
  obtain ⟨-, -, ⟨-, rfl⟩ | ⟨-, -, -, x, -, rfl⟩ | ⟨-, -, rfl⟩⟩ := finishLoad_next h
  · exact writesWithin_of_psr_eq based basedPsr basedMem
  · exact writesWithin_of_psr_eq (loaded x) (writeX_psr ..) (writeX_mem ..)
  · refine writesWithin_of_psr_eq (based.trans (regsWithin_writeX v ?_)) ((writeX_psr ..).trans basedPsr)
      ((writeX_mem ..).trans basedMem)
    rw [basedPsr]
    exact named_mem_transferWritten (by split <;> simp)

/-- R232, R234: a store writes its base where that is written back, and R14_svc by an exception. -/
theorem writesWithin_storeTransfer {byte : Bool} {c : Cond} {p u w : Bool} {rn rd : Reg} {o : Offset}
    (passed : condPassed c st.psr = true) (h : storeTransfer (singleWrite byte) c p u w rn rd o st = .next t) :
    WritesWithin st t (st.transferWritten (if writesBack p w then [rn] else []))
      (st.storedSingle (singleWrite byte) p u w rn rd o) := by
  rw [storeTransfer, whenPassed_passed passed] at h
  unfold State.storedSingle
  split at h
  · exact nomatch h
  split at h
  next illegal =>
    injection h with h
    subst h
    exact writesWithin_raise .refl rfl (link_mem_transferWritten _ rfl) (if_pos illegal).symm
  next legal =>
    rw [if_neg legal]
    split at h
    next aborted =>
      injection h with h
      subst h
      rw [aborted, busGap_none quiet]
      exact writesWithin_raise .refl rfl (link_mem_transferWritten _ rfl) rfl
    next m accepted =>
      obtain ⟨regs, psr⟩ : m.regs = st.regs ∧ m.psr = st.psr := by
        rw [storeAccess_single, busGap_none quiet] at accepted
        rw [writeAccess_eq accepted]
        exact ⟨rfl, rfl⟩
      have kept {l : List PReg} : RegsWithin st.regs m.regs l := regs ▸ .refl
      rw [accepted]
      split at h
      next back =>
        obtain ⟨-, h⟩ := guardWrites_next h
        injection h with h
        subst h
        refine writesWithin_of_psr_eq (kept.trans (regsWithin_writeX _ ?_)) ((writeX_psr ..).trans psr) (writeX_mem ..)
        rw [psr]
        exact named_mem_transferWritten (by simp [back])
      next =>
        injection h with h
        subst h
        exact writesWithin_of_psr_eq kept psr rfl

end

/-! ## Block data transfer -/

section

variable {st t : State}

/-- R264: the write-back of a block transfer writes its base. -/
theorem regsWithin_blockBack (user u w : Bool) (rn : Reg) (list : BitVec 16) :
    RegsWithin st.regs (st.blockBack u w rn list).regs (st.blockBaseWritten user w rn) := by
  cases w with
  | false => exact .refl
  | true =>
    exact regsWithin_writeX _ fun q named => List.mem_append_left _ (List.mem_append_left _ (mem_reached_of_named named))

theorem blockBack_psr (u w : Bool) (rn : Reg) (list : BitVec 16) : (st.blockBack u w rn list).psr = st.psr := by
  rw [blockBack_eq_withRegs]

theorem blockBack_mem (u w : Bool) (rn : Reg) (list : BitVec 16) : (st.blockBack u w rn list).mem = st.mem := by
  rw [blockBack_eq_withRegs]

theorem busGaps_withRegs_none {s : State} (quiet : s.now.between = []) (g : Regs) (n : Nat) :
    ({ s with regs := g } : State).busGaps n = { s with regs := g } :=
  busGaps_none (s := { s with regs := g }) quiet n

theorem busGaps_blockBack (quiet : st.now.between = []) (u w : Bool) (rn : Reg) (list : BitVec 16) (n : Nat) :
    (st.blockBack u w rn list).busGaps n = st.blockBack u w rn list := by
  rw [blockBack_eq_withRegs]
  exact busGaps_withRegs_none quiet _ n

theorem link_mem_blockBaseWritten (user w : Bool) (rn : Reg) {e : Exception} (h : e.link = .r14Svc) :
    e.link ∈ st.blockBaseWritten user w rn :=
  List.mem_append_right _ (List.mem_singleton.2 h)

/-- What an LDM could write: its list, its base and R14_svc. -/
theorem writtenBy_ldm_regs (c : Cond) (p u f w : Bool) (rn : Reg) (list : BitVec 16) :
    (st.writtenBy (.ldm c p u f w rn list)).regs =
      (listed list).flatMap (st.reached (if st.loadsUserBank f list then .usr else st.psr.mode)) ++
        st.blockBaseWritten (st.loadsUserBank f list) w rn := rfl

/-- R270, R273, R274: without an abort the flags change where R15 is loaded with S set. -/
theorem writesWithin_finishLdm {v : State} {f user : Bool} {list : BitVec 16} {loads : List (Reg × Word)} {w : Written}
    (regs : RegsWithin st.regs v.regs w.regs) (psr : v.psr = st.psr) (stored : v.mem = st.mem)
    (members : ∀ e ∈ loads, e.1 ∈ listed list) (nzc : w.nzc = (f && list.getLsbD 15))
    (overflow : w.v = (f && list.getLsbD 15)) : WritesWithin st (v.finishLdm f user loads) w st.mem := by
  unfold State.finishLdm
  split
  next e found =>
    cases f with
    | false => exact writesWithin_of_psr_eq regs psr stored
    | true =>
      have set : list.getLsbD 15 = true := by
        have is15 : e.1 = 15 := by simpa using List.find?_some found
        exact mem_listed.1 (is15 ▸ members e (List.mem_of_find?_eq_some found))
      rw [set] at nzc overflow
      exact ⟨regs, fun kept => Bool.noConfusion (nzc.symm.trans kept),
        fun kept => Bool.noConfusion (overflow.symm.trans kept), stored⟩
  next => exact writesWithin_of_psr_eq regs psr stored

variable (quiet : st.now.between = [])
include quiet

/-- R264, R270: an LDM writes its base, registers of its list, and R14_svc by an exception. -/
theorem writesWithin_execLdm {c : Cond} {p u f w : Bool} {rn : Reg} {list : BitVec 16}
    (h : execLdm c p u f w rn list st = .next t) :
    WritesWithin st t (st.writtenBy (.ldm c p u f w rn list)) st.mem := by
  have back : RegsWithin st.regs (st.blockBack u w rn list).regs (st.writtenBy (.ldm c p u f w rn list)).regs := by
    intro q
    obtain kept | written := regsWithin_blockBack (st := st) (st.loadsUserBank f list) u w rn list q
    · exact .inl kept
    · exact .inr (List.mem_append_right _ written)
  have link {e : Exception} (h : e.link = .r14Svc) : e.link ∈ (st.writtenBy (.ldm c p u f w rn list)).regs :=
    List.mem_append_right _ (link_mem_blockBaseWritten _ w rn h)
  rcases execLdm_next h with rfl | ⟨-, -, m, bank, rfl | ⟨loads, members, ends⟩⟩
  · exact writesWithin_advance ..
  · exact writesWithin_raise back (blockBack_psr ..) (link rfl) (blockBack_mem ..)
  · rw [busGaps_blockBack quiet] at ends
    have loaded : RegsWithin st.regs ((st.blockBack u w rn list).loadRegs m loads).regs
        (st.writtenBy (.ldm c p u f w rn list)).regs := by
      refine back.trans (regsWithin_loadRegs fun e he q named => ?_)
      rw [writtenBy_ldm_regs, ← bank]
      exact List.mem_append_left _ (List.mem_flatMap.2 ⟨e.1, (members e he).1, mem_reached_of_named named⟩)
    have psr : ((st.blockBack u w rn list).loadRegs m loads).psr = st.psr := by
      rw [loadRegs_eq, blockBack_psr]
    have stored : ((st.blockBack u w rn list).loadRegs m loads).mem = st.mem := by
      rw [loadRegs_eq, blockBack_mem]
    obtain rfl | rfl := ends
    · exact writesWithin_raise loaded psr (link rfl) stored
    · exact writesWithin_finishLdm loaded psr stored (fun e he => (members e he).1) rfl rfl

omit quiet in
/-- The stores of a run change neither the registers nor the PSR. -/
theorem storeWords_regs_psr (s : State) (start : Word) (k : Nat) (l : List Word) :
    (s.storeWords start k l).1.regs = s.regs ∧ (s.storeWords start k l).1.psr = s.psr := by
  rw [storeWords_eq]
  exact ⟨rfl, rfl⟩

omit quiet in
/-- R264, R271: an STM writes its base, and R14_svc by an exception. -/
theorem writesWithin_execStm {c : Cond} {p u f w : Bool} {rn : Reg} {list : BitVec 16}
    (passed : condPassed c st.psr = true) (h : execStm c p u f w rn list st = .next t) :
    WritesWithin st t (st.writtenBy (.stm c p u f w rn list)) (st.storedBy (.stm c p u f w rn list)) := by
  have back := regsWithin_blockBack (st := st) (st.storesUserBank f) u w rn list
  have link {e : Exception} (h : e.link = .r14Svc) : e.link ∈ (st.writtenBy (.stm c p u f w rn list)).regs :=
    link_mem_blockBaseWritten _ w rn h
  rw [execStm, whenPassed_passed passed] at h
  split at h
  · exact nomatch h
  split at h
  · exact nomatch h
  obtain ⟨-, h⟩ := guardWrites_next h
  split at h
  next illegal =>
    injection h with h
    subst h
    exact writesWithin_raise back (blockBack_psr ..) (link rfl) ((blockBack_mem ..).trans (if_pos illegal).symm)
  next legal =>
    injection h with h
    subst h
    have stored : (st.stmStores p u f w rn list).1.mem = st.storedBy (.stm c p u f w rn list) := (if_neg legal).symm
    obtain ⟨regs, psr⟩ := storeWords_regs_psr (st.blockBack u w rn list) (st.blockFirst p u rn list) 0
      (storedBlock st (st.blockBack u w rn list) (if st.storesUserBank f then .usr else st.psr.mode) (listed list))
    have within : RegsWithin st.regs (st.stmStores p u f w rn list).1.regs
        (st.writtenBy (.stm c p u f w rn list)).regs := regs ▸ back
    split
    · exact writesWithin_raise within (psr.trans (blockBack_psr ..)) (link rfl) stored
    · exact writesWithin_of_psr_eq within (psr.trans (blockBack_psr ..)) stored

end

/-! ## The co-processor instructions -/

section

variable {st t : State}

/-- R296 to R299, R321: what an offer writes: the link of the trap, nothing, or what `taken` says. -/
theorem writesWithin_offer {cp : Option (BitVec 4)} {word : Word} {k : Word → List Word → Result} {taken : Written}
    {mem : List Host.Cell} (h : st.offer cp word k = .next t) (idle : (st.reply cp word).isReady = false → mem = st.mem)
    (ready : ∀ first rest, st.reply cp word = .ready first rest → k first rest = .next t → WritesWithin st t taken mem) :
    WritesWithin st t (st.offeredWritten cp word taken) mem := by
  unfold State.offeredWritten
  rcases offer_next h with ⟨reply, rfl⟩ | ⟨reply, rfl⟩ | ⟨first, rest, reply, h⟩
  · rw [idle (by rw [reply]; rfl), reply]
    exact writesWithin_raise .refl rfl (List.mem_singleton.2 rfl) rfl
  · rw [idle (by rw [reply]; rfl), reply]
    exact writesWithin_of_psr_eq .refl rfl rfl
  · have within := ready first rest reply h
    rw [reply]
    exact within

/-- R303, R314, R322: an instruction that, taken, only goes on. -/
theorem writesWithin_offer_goesOn {cp : Option (BitVec 4)} {word : Word} {sent : List Word}
    (h : st.offer cp word (fun _ _ => .next (st.accepted word sent).advance) = .next t) :
    WritesWithin st t (st.offeredWritten cp word ⟨[], false, false⟩) st.mem := by
  refine writesWithin_offer h (fun _ => rfl) fun first rest _ h => ?_
  injection h with h
  subst h
  exact writesWithin_of_psr_eq .refl rfl rfl

/-- R312, R313: an MRC writes Rd, or the flags. -/
theorem writesWithin_execMrc {c : Cond} {opc : BitVec 3} {crn rd cp : Reg} {info : BitVec 3} {crm : Reg}
    (passed : condPassed c st.psr = true) (h : execMrc c opc crn rd cp info crm st = .next t) :
    WritesWithin st t (st.writtenBy (.mrc c opc crn rd cp info crm)) st.mem := by
  rw [execMrc, whenPassed_passed passed] at h
  refine writesWithin_offer h (fun _ => rfl) fun v _ _ h => ?_
  dsimp only at h
  split at h
  next is15 =>
    injection h with h
    subst h is15
    exact ⟨.refl, nofun, nofun, rfl⟩
  next =>
    obtain ⟨-, h⟩ := guardWrites_next h
    injection h with h
    subst h
    exact writesWithin_of_psr_eq (regsWithin_writeX (s := st.accepted _ []) v fun q => mem_reached_of_named)
      (writeX_psr ..) (writeX_mem ..)

/-- R307: the write-back of LDC and STC writes the base. -/
theorem regsWithin_coBack (u w : Bool) (rn : Reg) (off : BitVec 8) :
    RegsWithin st.regs (st.coBack u w rn off).regs (st.transferWritten (if w then [rn] else [])).regs := by
  cases w with
  | false => exact .refl
  | true => exact regsWithin_writeX _ (named_mem_transferWritten (by simp))

theorem coBack_psr (u w : Bool) (rn : Reg) (off : BitVec 8) : (st.coBack u w rn off).psr = st.psr := by
  rw [coBack_eq_withRegs]

theorem coBack_mem (u w : Bool) (rn : Reg) (off : BitVec 8) : (st.coBack u w rn off).mem = st.mem := by
  rw [coBack_eq_withRegs]

/-- R305, R307: an LDC writes its base, and R14_svc by an exception. -/
theorem writesWithin_execLdc (quiet : st.now.between = []) {c : Cond} {p u n w : Bool} {rn crd cp : Reg} {off : BitVec 8}
    (passed : condPassed c st.psr = true) (h : execLdc c p u n w rn crd cp off st = .next t) :
    WritesWithin st t (st.writtenBy (.ldc c p u n w rn crd cp off)) st.mem := by
  have back := regsWithin_coBack (st := st) u w rn off
  have link {e : Exception} := link_mem_transferWritten (st := st) (if w then [rn] else []) (e := e)
  have gaps (k : Nat) : (st.coBack u w rn off).busGaps k = st.coBack u w rn off := by
    rw [coBack_eq_withRegs]
    exact busGaps_withRegs_none quiet _ k
  rw [execLdc, whenPassed_passed passed] at h
  refine writesWithin_offer h (fun _ => rfl) fun first rest _ h => ?_
  split at h
  · exact nomatch h
  obtain ⟨-, h⟩ := guardWrites_next h
  injection h with h
  subst h
  split
  · exact writesWithin_raise back (coBack_psr ..) (link rfl) (coBack_mem ..)
  dsimp only
  rw [gaps]
  split
  · exact writesWithin_raise back (coBack_psr ..) (link rfl) (coBack_mem ..)
  · exact writesWithin_of_psr_eq back (coBack_psr ..) (coBack_mem ..)

theorem storedBy_stc_of_idle {c : Cond} {p u n w : Bool} {rn crd cp : Reg} {off : BitVec 8}
    (idle : (st.reply (some cp) (cdtWord c p u n w false rn crd cp off)).isReady = false) :
    st.storedBy (.stc c p u n w rn crd cp off) = st.mem := by
  obtain reply | reply := CpReply.isReady_eq_false_iff.1 idle
  · simp only [State.storedBy, reply]
  · simp only [State.storedBy, reply]

theorem storedBy_stc_of_ready {c : Cond} {p u n w : Bool} {rn crd cp : Reg} {off : BitVec 8} {first : Word}
    {rest : List Word}
    (ready : st.reply (some cp) (cdtWord c p u n w false rn crd cp off) = .ready first rest) :
    st.storedBy (.stc c p u n w rn crd cp off) =
      if illegalAddress (st.coAddr p u rn off) then st.mem
      else ((st.coBack u w rn off).storeWords (st.coAddr p u rn off) 0 (first :: rest)).1.mem := by
  simp only [State.storedBy, ready]

/-- The record of what co-processors have taken plays no part in a store. -/
theorem storeWord_accepted (s : State) (word : Word) (sent : List Word) (a : Addr) (v : Word) (force : Bool) :
    (s.accepted word sent).storeWord a v force = (s.storeWord a v force).map (·.accepted word sent) := by
  have answer : (s.accepted word sent).answer = s.answer := rfl
  have access : (s.accepted word sent).dataAccess = s.dataAccess := rfl
  unfold State.storeWord State.writeAccess
  rw [answer, access]
  match s.answer (s.dataAccess a .word true force) with
  | none | some .abort | some (.device _) => rfl

theorem storeWords_accepted (s : State) (word : Word) (sent : List Word) (start : Word) (k : Nat) (l : List Word) :
    (s.accepted word sent).storeWords start k l =
      ((s.storeWords start k l).1.accepted word sent, (s.storeWords start k l).2) := by
  induction l generalizing s k with
  | nil => rfl
  | cons v l ih =>
    rw [State.storeWords, State.storeWords, busGap_accepted, storeWord_accepted]
    cases s.busGap.storeWord (blockAddr start k) v false with
    | none => simp only [Option.map_none, ih]
    | some t => simp only [Option.map_some, ih]

/-- R306, R307: an STC writes its base, and R14_svc by an exception. -/
theorem writesWithin_execStc {c : Cond} {p u n w : Bool} {rn crd cp : Reg} {off : BitVec 8}
    (passed : condPassed c st.psr = true) (h : execStc c p u n w rn crd cp off st = .next t) :
    WritesWithin st t (st.writtenBy (.stc c p u n w rn crd cp off)) (st.storedBy (.stc c p u n w rn crd cp off)) := by
  have back := regsWithin_coBack (st := st) u w rn off
  have link {e : Exception} := link_mem_transferWritten (st := st) (if w then [rn] else []) (e := e)
  rw [execStc, whenPassed_passed passed] at h
  refine writesWithin_offer h storedBy_stc_of_idle fun first rest ready h => ?_
  rw [storedBy_stc_of_ready ready]
  split at h
  · exact nomatch h
  obtain ⟨-, h⟩ := guardWrites_next h
  injection h with h
  subst h
  split
  · exact writesWithin_raise back (coBack_psr ..) (link rfl) (coBack_mem ..)
  obtain ⟨regs, psr⟩ := storeWords_regs_psr (st.coBack u w rn off) (st.coAddr p u rn off) 0 (first :: rest)
  dsimp only
  rw [storeWords_accepted]
  split
  · exact writesWithin_raise (regs ▸ back) (psr.trans (coBack_psr ..)) (link rfl) rfl
  · exact writesWithin_of_psr_eq (regs ▸ back) (psr.trans (coBack_psr ..)) rfl

end

/-! ## Every instruction -/

/-- R391, S3: whatever an instruction does lies within what the model says it could write, and its stores are those that
the model says it makes; no other master writing meanwhile. -/
theorem exec_writesWithin {i : Instr} {s t : State} (quiet : s.now.between = []) (passed : condPassed i.cond s.psr = true)
    (h : exec i s = .next t) : WritesWithin s t (s.writtenBy i) (s.storedBy i) := by
  cases i with
  | andImm | andShift | andRegShift | eorImm | eorShift | eorRegShift | orrImm | orrShift | orrRegShift | movImm
  | movShift | movRegShift | bicImm | bicShift | bicRegShift | mvnImm | mvnShift | mvnRegShift =>
    simp only [exec_andImm, exec_andShift, exec_andRegShift, exec_eorImm, exec_eorShift, exec_eorRegShift, exec_orrImm,
      exec_orrShift, exec_orrRegShift, exec_movImm, exec_movShift, exec_movRegShift, exec_bicImm, exec_bicShift,
      exec_bicRegShift, exec_mvnImm, exec_mvnShift, exec_mvnRegShift] at h
    exact writesWithin_logical h
  | subImm | subShift | subRegShift | rsbImm | rsbShift | rsbRegShift | addImm | addShift | addRegShift | adcImm
  | adcShift | adcRegShift | sbcImm | sbcShift | sbcRegShift | rscImm | rscShift | rscRegShift =>
    exact writesWithin_arithmetic h
  | tstImm | tstShift | tstRegShift | teqImm | teqShift | teqRegShift => exact writesWithin_testLogical h
  | cmpImm | cmpShift | cmpRegShift | cmnImm | cmnShift | cmnRegShift => exact writesWithin_testArithmetic h
  | tstImmS0 | tstShiftS0 | tstRegShiftS0 | teqImmS0 | teqShiftS0 | teqRegShiftS0 | cmpImmS0 | cmpShiftS0
  | cmpRegShiftS0 | cmnImmS0 | cmnShiftS0 | cmnRegShiftS0 =>
    exact nomatch h.symm.trans (unallocatedTest_refused passed)
  | unallocB | unallocD | unallocF | unalloc4 | unalloc8 | unallocC =>
    exact nomatch h.symm.trans (unallocatedMultiply_refused passed)
  | mul c f rd rn rs rm =>
    exact writesWithin_writeProduct ((exec_mul_passed passed ..).symm.trans h)
  | mla c f rd rn rs rm =>
    exact writesWithin_writeProduct ((exec_mla_passed passed ..).symm.trans h)
  | ldrImm | ldrReg | ldrbImm | ldrbReg => exact writesWithin_loadTransfer quiet h
  | strImm | strReg => exact writesWithin_storeTransfer (byte := false) quiet passed h
  | strbImm | strbReg => exact writesWithin_storeTransfer (byte := true) quiet passed h
  | ldm => exact writesWithin_execLdm quiet h
  | stm => exact writesWithin_execStm passed h
  | ldc => exact writesWithin_execLdc quiet passed h
  | stc => exact writesWithin_execStc passed h
  | mrc => exact writesWithin_execMrc passed h
  | cdp | mcr | undefinedA | undefinedB =>
    exact writesWithin_offer_goesOn ((whenPassed_passed passed).symm.trans h)
  | b c off =>
    obtain rfl := Host.Outcome.next.inj ((whenPassed_passed passed).symm.trans h)
    exact writesWithin_of_psr_eq .refl rfl rfl
  | bl c off =>
    obtain ⟨-, h⟩ := guardWrites_next ((whenPassed_passed passed).symm.trans h)
    obtain rfl := Host.Outcome.next.inj h
    exact writesWithin_of_psr_eq (regsWithin_writeX _ fun q => mem_reached_of_named) (writeX_psr ..) (writeX_mem ..)
  | swi c comment =>
    obtain rfl := Host.Outcome.next.inj ((whenPassed_passed passed).symm.trans h)
    exact writesWithin_raise .refl rfl (List.mem_singleton.2 rfl) rfl

end Sys2Proof.Machine
end

section
/-! SUPPORT. RESET (O58; spec/70_reset_and_hazards.md R391 to R393): what it leaves of the instruction it interrupts, and the
steps while it is held and when it is released. -/

namespace Sys2Proof.Machine

open Sys2Proof.Spec

/-! ## What is lost -/

/-- S3: a register that the instruction could not write keeps its value. -/
theorem lose_get_other {l : List PReg} {q : PReg} (h : q ∉ l) (g : Regs) (stamp k : Nat) :
    (g.lose stamp k l).get q = g.get q := by
  induction l generalizing g k with
  | nil => rfl
  | cons p l ih =>
    obtain ⟨other, rest⟩ := List.ne_and_not_mem_of_not_mem_cons h
    rw [Regs.lose, ih rest, Regs.get_set_other _ _ other]

theorem lose_nzc {w : Written} (h : w.nzc = false) (p : Psr) (stamp : Nat) :
    (p.lose stamp w).n = p.n ∧ (p.lose stamp w).z = p.z ∧ (p.lose stamp w).c = p.c := by
  simp [Psr.lose, h]

theorem lose_v {w : Written} (h : w.v = false) (p : Psr) (stamp : Nat) : (p.lose stamp w).v = p.v := by
  simp [Psr.lose, h]

/-- The byte that `m` holds at `x` is that of `old` or that of `new`. -/
def OldOrNew (old new m : List Host.Cell) (x : Nat) : Prop :=
  readByte m x = readByte old x ∨ readByte m x = readByte new x

/-- S3: a store interrupted has changed each of its bytes or not. -/
theorem readByte_loseBytes (stamp : Nat) {old : List Host.Cell} (new : List Host.Cell) (wf : memoryWf old = true)
    (x : Nat) : OldOrNew old new (loseBytes stamp old new) x := by
  refine (List.foldlRecOn (motive := fun m => memoryWf m = true ∧ OldOrNew old new m x) (old ++ new) _ ⟨wf, .inl rfl⟩
    fun m ⟨wfM, kept⟩ e _ => ?_).2
  split
  next stored =>
    refine ⟨memoryWf_writeByte _ wfM stored.1, ?_⟩
    by_cases same : x = e.1
    · exact .inr (by rw [readByte_writeByte wfM, if_pos same, same])
    · exact kept.imp (readByte_writeByte_other m _ same).trans (readByte_writeByte_other m _ same).trans
  next => exact ⟨wfM, kept⟩

/-! ## The step at which RESET goes HIGH -/

section

variable {s : State} (running : s.resetHigh = false) (high : s.now.reset = true)
include running high

/-- R391: that step abandons the instruction about to execute, and uses up its inputs. -/
theorem step_abandons :
    let t := s.sample.fillPipe.busRest
    step s = .next { s.sample with
      regs := t.regs.lose t.stamp 0 t.inProgress.regs
      psr := t.psr.lose t.stamp t.inProgress
      mem := loseBytes t.stamp t.mem t.storesInProgress
      pc := s.pc + 1, pipe := [], bank := .settled, busyWait := false, resetHigh := true
      inputs := s.inputs.tail, stamp := s.stamp + 1 } := by
  have sampled : s.sample.resetHigh = false := running
  have held : s.sample.holdInReset = { s.sample.fillPipe.abandon with
      pc := s.pc + 1, pipe := [], bank := .settled, busyWait := false, resetHigh := true } := by
    rw [State.holdInReset, if_neg (ne_true_of_eq_false sampled)]
    rfl
  rw [step, State.boundary, if_pos high, held]
  rfl

end

/-- R391, S3: what an instruction in progress writes, where its condition passes or fails. -/
theorem inProgress_writesWithin {t u : State} (quiet : t.now.between = []) (valid : t.fetched.invalid = false)
    (h : exec (decodeWord t.fetched.word) t = .next u) : WritesWithin t u t.inProgress t.storesInProgress := by
  rw [State.inProgress, State.storesInProgress, valid, if_neg Bool.false_ne_true, if_neg Bool.false_ne_true]
  cases passed : condPassed (Cond.ofCode (t.fetched.word.extractLsb' 28 4)) t.psr with
  | true =>
    rw [← cond_decodeWord] at passed
    exact exec_writesWithin quiet passed h
  | false =>
    rw [← cond_decodeWord] at passed
    obtain rfl := Host.Outcome.next.inj ((exec_failed passed).symm.trans h)
    exact writesWithin_advance t _

/-! ## What could be written -/

/-- The memory of a store that memory answers. -/
theorem storedBy_storeInstr {s : State} {byte : Bool} {c : Cond} {p u w : Bool} {rn rd : Reg} {o : Offset}
    (quiet : s.now.between = []) (legal : illegalAddress (s.transferAddr p u rn o) = false)
    (answered : s.answer (singleAccess s byte true p u w rn o) = none) :
    s.storedBy (storeInstr byte c p u w rn rd o) =
      landedMemory s byte (singleAddr s p u rn o) (s.storedValue p u w rn rd o) := by
  have stores : s.storedBy (storeInstr byte c p u w rn rd o) = s.storedSingle (singleWrite byte) p u w rn rd o := by
    cases byte <;> cases o <;> rfl
  rw [stores, State.storedSingle, if_neg (ne_true_of_eq_false legal), storeAccess_single, busGap_none quiet,
    writeAccess_of_memory answered]
  rfl

/-- U6: an LDM of the User bank: its list there, its base in both banks, and the link of its exceptions. -/
theorem mem_writtenBy_ldm_user {s : State} {c : Cond} {p u w : Bool} {rn : Reg} {list : BitVec 16} {q : PReg}
    (privileged : s.psr.mode ≠ .usr) (absent : list.getLsbD 15 = false) :
    q ∈ (s.writtenBy (.ldm c p u true w rn list)).regs ↔ q = .r14Svc ∨ ∃ r m, physOf m r = some q ∧
      ((r ∈ listed list ∧ (s.unsettled r = false → m = .usr)) ∨
        (w = true ∧ r = rn ∧ (s.unsettled r = false → m = .usr ∨ m = s.psr.mode))) := by
  have user : s.loadsUserBank true list = true := loadsUserBank_iff.2 ⟨rfl, absent, privileged⟩
  rw [writtenBy_ldm_regs, user, State.blockBaseWritten]
  simp only [if_true, Bool.true_and, List.mem_append, List.mem_flatMap, List.mem_singleton, List.mem_ite_nil_right, mem_reached]
  constructor
  · rintro (⟨r, member, m, named, bank⟩ | (⟨back, m, named, bank⟩ | ⟨back, m, named, bank⟩) | link)
    · exact .inr ⟨r, m, named, .inl ⟨member, bank⟩⟩
    · exact .inr ⟨rn, m, named, .inr ⟨back, rfl, fun settled => .inr (bank settled)⟩⟩
    · exact .inr ⟨rn, m, named, .inr ⟨back, rfl, fun settled => .inl (bank settled)⟩⟩
    · exact .inl link
  · rintro (link | ⟨r, m, named, ⟨member, bank⟩ | ⟨back, rfl, bank⟩⟩)
    · exact .inr (.inr link)
    · exact .inl ⟨r, member, m, named, bank⟩
    · by_cases isUser : m = .usr
      · exact .inr (.inl (.inr ⟨back, m, named, fun _ => isUser⟩))
      · exact .inr (.inl (.inl ⟨back, m, named, fun settled => (bank settled).resolve_left isUser⟩))

/-- R175, R177: a logical operation could write its destination, and does not write V. -/
theorem writtenBy_logicalOp (s : State) (k : LogicalOp) (c : Cond) (f : Bool) (rn rd : Reg) (o : Op2) :
    s.writtenBy (k.instr c f rn rd o) = s.resultWritten true f rd := by
  cases k <;> cases o <;> rfl

/-! ## The steps after -/

/-- R391: while RESET stays HIGH. -/
theorem step_held {s : State} (was : s.resetHigh = true) (high : s.now.reset = true) :
    step s = .next ({ s.sample with
      pc := s.pc + 1, pipe := [], bank := .settled, busyWait := false } : State).retire := by
  have sampled : s.sample.resetHigh = true := was
  have held : s.sample.holdInReset = { s.sample with
      pc := s.pc + 1, pipe := [], bank := .settled, busyWait := false } := by
    rw [State.holdInReset, if_pos sampled, ← sampled]
    rfl
  rw [step, State.boundary, if_pos high, held]

/-- R392: when RESET goes LOW. -/
theorem step_released {s : State} (was : s.resetHigh = true) (low : s.now.reset = false) :
    step s = .next s.sample.resetEntry.retire := by
  rw [step, State.boundary, if_neg (ne_true_of_eq_false low), if_pos was]

/-- Settles O58: what is lost is what the instruction could write, and `exec_writesWithin` says that it could write no
more. -/
theorem resetSequence : Obligations.ResetSequence := by
  refine ⟨fun s running high wf => ?raised, fun s byte c p u w rn rd o quiet legal answered => ?store,
    fun s c p u w rn list q privileged absent => mem_writtenBy_ldm_user privileged absent,
    fun s k c f rn rd o not15 => ?logical, fun s was => ⟨step_held was, fun low => ⟨_, step_released was low⟩⟩⟩
  case raised =>
    intro t i
    have wfT : memoryWf t.mem = true := memoryWf_busRest (memoryWf_masterWrites _ wf)
    refine ⟨_, _, _, step_abandons running high, rfl, rfl, rfl, fun q other => lose_get_other other ..,
      fun nzc => lose_nzc nzc .., fun v => lose_v v .., readByte_loseBytes _ _ wfT, fun invalid => if_pos invalid,
      fun valid u runs => ?_⟩
    obtain ⟨regs, nzc, v, mem⟩ := inProgress_writesWithin rfl valid runs
    exact ⟨regs, nzc, v, mem⟩
  case store => exact storedBy_storeInstr quiet legal answered
  case logical =>
    rw [writtenBy_logicalOp]
    refine ⟨fun q => mem_reached, ?_⟩
    rw [State.resultWritten, beq_false_of_ne not15]
    exact Bool.and_false f

end Sys2Proof.Machine
end
